-- ==== Sys2Proof/Word.lean ====
section
/-! DEFINITION. The word types of UDCB (00_scope.md R8): FIFO, buffer and table elements are bytes, the
cursor, the lengths and the results are 16 bits wide, an endpoint index has 3 bits. -/

namespace Sys2Proof

/-- One element of a FIFO, a buffer or a table (R8). -/
abbrev Byte := BitVec 8

/-- A 16-bit quantity: cursor, length, result, pointer (R8). -/
abbrev Word16 := BitVec 16

/-- An endpoint index (R8): 3 bits. -/
abbrev EpIdx := BitVec 3

/-- One packet on an endpoint (R59). -/
abbrev Packet := List Byte

end Sys2Proof
end

