-- ==== Sys2Proof/Config.lean ====
section
/-! DEFINITION. What an implementation fixes: the parameters whose value the source gives (00_scope.md
R6), the parameters it leaves open (R7), held in a record that State carries, and the free values. -/

namespace Sys2Proof

/-- Endpoint types (R30). -/
inductive EpType
  | disabled
  | control
  | bulkIn
  | bulkOut
  | interruptIn
  deriving DecidableEq, Repr, Inhabited

/-- Bytes by address in one canonical form: addresses strictly rising, no entry equal to what an
unlisted address reads as (see `Memory.wf`). -/
abbrev Memory := List Host.Cell

/-- The two collaborator kinds (R126), each with the fields only that kind has. -/
inductive CollabKind
  | serialLike (txEp rxEp : EpIdx)
  | hidLike
  deriving DecidableEq, Repr, Inhabited

/-- A collaborator (R126). `get_interface` is represented by its two constants `IFDESC[k]` and `NIF[k]`,
as R126 allows; `setup` and `get_descriptor` are oracles (log 9). -/
structure Collab where
  kind   : CollabKind
  ifDesc : List Byte
  nif    : Byte
  deriving DecidableEq, Repr, Inhabited

/-- What a collaborator does inside a call (R192). `select` and `write8` are what R353 and U13 forbid
when not undone: they are here so that the model can refuse them. `hostOut` is no act of the collaborator but
the environment's `ENV_OUT` falling at that point of the call (R93, log 7). -/
inductive CollabOp
  | emit (bs : List Byte)
  | waitOut
  | readN (n : Byte)
  | clearOut
  | select (i : EpIdx)
  | write8 (b : Byte)
  | hostOut (e : EpIdx) (p : Packet)
  deriving DecidableEq, Repr, Inhabited

/-- The oracle's answer to one `call C.f(SP)` (R11, R126): what it does, then `ok` or `fail`. -/
structure CollabAnswer where
  ops : List CollabOp
  ok  : Bool
  deriving DecidableEq, Repr, Inhabited

/-- `IRQ_ORDER` (R7, R315). -/
inductive IrqOrder
  | frameFirst
  | commFirst
  | any
  deriving DecidableEq, Repr, Inhabited

/-- The parameters of R7. A model takes each as an argument: State carries this record and no step
changes it, so a claim for every state is a claim for every value of them. -/
structure Conf where
  /-- `N_EP` (D3). -/
  nEp : Nat
  /-- `EP_TABLE[e]` for e = 1, 2, ... in order; an endpoint without an entry is `disabled` (R30). -/
  epTable : List EpType
  /-- `COLLABS` (D42), in registration order. -/
  collabs : List Collab
  vid : Word16
  pid : Word16
  iManufacturer : Byte
  iProduct : Byte
  iSerial : Byte
  langId : Word16
  strManufacturer : List Word16
  strProduct : List Word16
  compositeClass : Byte
  cfgValue : Byte
  cfgIString : Byte
  cfgAttr : Byte
  cfgMaxPower : Byte
  /-- `UNLISTED_STD_RESULT` (D15): true is `success`. -/
  unlistedOk : Bool
  irqOrder : IrqOrder
  /-- The constant contents of `ROM` (R73, R346). -/
  rom : Memory
  /-- First address past the end of `BUF`; `none`: unbounded (R70). -/
  bufEnd : Option Nat
  /-- First address past the end of `ROM`; `none`: unbounded (R70). -/
  romEnd : Option Nat
  deriving DecidableEq, Repr, Inhabited

namespace Config

/-! Parameters whose value the source fixes (R6). -/

def epSize : Nat := 64
def ep0Banks : Nat := 1
def epNBanks : Nat := 2
def setupLen : Nat := 8
def pulseWidth : Byte := 100
def sendTimeout : Byte := 250
/-- `SEND_WAIT_MS`: what `wait_1ms` waits between two observations of the space, in milliseconds. No step
depends on time (R370, log 28). -/
def sendWaitMs : Nat := 1
def devDescLen : Byte := 18
def dtDevice : Byte := 1
def dtConfiguration : Byte := 2
def dtString : Byte := 3
def bcdUsb : Word16 := 0x0100
def bcdDevice : Word16 := 0x0100
def maxPacket0 : Byte := 64
def numConfigs : Byte := 1
def getcfgAnswer : Byte := 1
def compositeTriggerLen : Word16 := 8
/-- `CFG_HDR_LEN` (R7, R118). -/
def cfgHdrLen : Nat := 9
/-- The failure sentinel (R125). -/
def failResult : Word16 := 0xFFFF

/-- CONF-E of 95_test_vectors.md section 0: the instance State.reset carries (DESIGN CHOICE, log 4). -/
def confE : Conf where
  nEp := 7
  epTable := [.interruptIn, .bulkOut, .bulkIn, .disabled, .disabled, .disabled]
  collabs := []
  vid := 0x2341
  pid := 0x8036
  iManufacturer := 1
  iProduct := 2
  iSerial := 0
  langId := 0x0409
  strManufacturer := [0x0041, 0x0062]
  strProduct := [0x0055, 0x006E, 0x006F]
  compositeClass := 0
  cfgValue := 1
  cfgIString := 0
  cfgAttr := 0x80
  cfgMaxPower := 250
  unlistedOk := true
  irqOrder := .any
  rom := []
  bufEnd := none
  romEnd := none

/-- Free value (log 10): the byte `READ8` gives from an empty bank ("any value", R145, U5). Applied to
the counter `io.draws`. -/
opaque freeReadByte : Nat → Byte

/-- Free value (log 9): a collaborator's answer that the schedule does not give (R11: "its answer is an
oracle value"). Applied to `io.draws`. -/
opaque freeAnswer : Nat → CollabAnswer

/-- Free value (log 11): true when the communication handler goes first, both interrupts being
requested, `IRQ_ORDER` being `any` and the schedule being silent (R315, U24). Applied to `io.draws`. -/
opaque freeCommFirst : Nat → Bool

/-- Free value (log 18): `rw_allowed` of a control endpoint, which "has no defined value" (R45, D8). Applied to
the byte count, `in_rdy` and `out_rdy`, what the other types make it of. -/
opaque freeRwAllowed : Nat → Bool → Bool → Bool

end Config

/-- The bounds R7 sets on the parameters. -/
def Conf.wf (c : Conf) : Bool :=
  1 ≤ c.nEp && c.nEp ≤ 8 && c.strManufacturer.length ≤ 126 && c.strProduct.length ≤ 126 &&
    (c.collabs ≠ [] || c.compositeClass == 0)

end Sys2Proof
end

