-- ==== Sys2Proof/Syntax.lean ====
section
/-! DEFINITION. The operations of UDCB: one constructor of `Instr` for each of the 48 rows of
spec/opcode_table.json, and the two shapes an encoded operation has (30_encoding.md R100). -/

namespace Sys2Proof

/-- The eight bytes of a setup packet, `SP[0]` first (R101). -/
structure SetupPacket where
  bmRequestType : Byte
  bRequest : Byte
  wValueL : Byte
  wValueH : Byte
  wIndexL : Byte
  wIndexH : Byte
  wLengthL : Byte
  wLengthH : Byte
  deriving DecidableEq, Repr, Inhabited

/-- The operand fields of a request (R102, R103): everything of the packet but `kind` and `bRequest`. -/
structure Req where
  dir : Bool
  recipient : BitVec 5
  wValueL : Byte
  wValueH : Byte
  wIndex : Word16
  wLength : Word16
  deriving DecidableEq, Repr, Inhabited

/-- One constructor per row of spec/opcode_table.json. -/
inductive Instr
  -- SETUP8
  | getStatus (r : Req)
  | setAddress (r : Req)
  | getDescriptor (r : Req)
  | getDescriptorDevice (r : Req)
  | getDescriptorConfiguration (r : Req)
  | getDescriptorString (r : Req)
  | getDescriptorOther (r : Req)
  | setDescriptor (r : Req)
  | getConfiguration (r : Req)
  | setConfiguration (r : Req)
  | standardUnlisted (bRequest : Byte) (r : Req)
  | classRequest (bRequest : Byte) (r : Req)
  | kindVendor (bRequest : Byte) (r : Req)
  | kindReserved (bRequest : Byte) (r : Req)
  -- CMD; `flags` is CMD_EPF[7:5], which RECV, AVAILABLE and FLUSH ignore (R123)
  | attach
  | send (ep : EpIdx) (rom release zero : Bool) (ptr len : Word16)
  | recv (ep : EpIdx) (flags : BitVec 3) (ptr len : Word16)
  | available (ep : EpIdx) (flags : BitVec 3)
  | flush (ep : EpIdx) (flags : BitVec 3)
  -- UOP
  | select (i : EpIdx)
  | testSetup
  | waitIn
  | waitOut
  | read8
  | readN (n : Byte)
  | write8 (b : Byte)
  | byteCount
  | rwAllowed
  | sendSpace (e : EpIdx)
  | stall
  | clearSetup
  | ackIn
  | clearOut
  | releaseRx
  | releaseTx
  | initEp (e : EpIdx) (t : EpType)
  | critEnter
  | critExit
  | curInit (n : Word16)
  | emit8 (b : Byte)
  | emitN (s : List Byte)
  | armTx
  | armRx
  | armOutStage
  -- EVT
  | evtSetupReceived
  | evtFrameTick
  | evtBusReset
  | evtSpuriousComm
  deriving DecidableEq, Repr, Inhabited

/-- The four formats (R100). -/
inductive Format
  | setup8
  | cmd
  | uop
  | evt
  deriving DecidableEq, Repr, Inhabited

/-- An encoded operation: a setup packet, or a word of bytes whose first byte is the code (`CMD_OP`, or
the code of R127). -/
inductive Encoded
  | setup (p : SetupPacket)
  | word (bs : List Byte)
  deriving DecidableEq, Repr, Inhabited

end Sys2Proof
end

