-- ==== Sys2Proof/WellFormed.lean ====
section
/-! DEFINITION. Which terms of `Instr` are operations the encodings of 30_encoding.md can carry. What
depends on the parameter `N_EP` is checked when the operation runs. -/

namespace Sys2Proof

/-- The request codes the source names (R107). -/
def namedStandard (b : Byte) : Bool :=
  b == 0 || b == 5 || b == 6 || b == 7 || b == 8 || b == 9

/-- The descriptor types with a branch of their own (R108). -/
def namedDescType (t : Byte) : Bool :=
  t == Config.dtDevice || t == Config.dtConfiguration || t == Config.dtString

/-- The checks, one per constructor. -/
def Instr.wf : Instr → Bool
  | .getStatus _ => true
  | .setAddress _ => true
  | .getDescriptor _ => true
  | .getDescriptorDevice r => r.wValueH == Config.dtDevice
  | .getDescriptorConfiguration r => r.wValueH == Config.dtConfiguration
  | .getDescriptorString r => r.wValueH == Config.dtString
  | .getDescriptorOther r => !namedDescType r.wValueH
  | .setDescriptor _ => true
  | .getConfiguration _ => true
  | .setConfiguration _ => true
  | .standardUnlisted b _ => !namedStandard b
  | .classRequest _ _ => true
  | .kindVendor _ _ => true
  | .kindReserved _ _ => true
  | .attach => true
  | .send _ _ _ _ _ len => !len.msb
  | .recv _ _ _ _ => true
  | .available _ _ => true
  | .flush _ _ => true
  | .select _ => true
  | .testSetup => true
  | .waitIn => true
  | .waitOut => true
  | .read8 => true
  | .readN n => n.toNat ≤ Config.epSize
  | .write8 _ => true
  | .byteCount => true
  | .rwAllowed => true
  | .sendSpace _ => true
  | .stall => true
  | .clearSetup => true
  | .ackIn => true
  | .clearOut => true
  | .releaseRx => true
  | .releaseTx => true
  | .initEp _ _ => true
  | .critEnter => true
  | .critExit => true
  | .curInit _ => true
  | .emit8 _ => true
  | .emitN s => s.length < 65536
  | .armTx => true
  | .armRx => true
  | .armOutStage => true
  | .evtSetupReceived => true
  | .evtFrameTick => true
  | .evtBusReset => true
  | .evtSpuriousComm => true

/-- The row performed (R134): the parent row `GET_DESCRIPTOR` stands for the sub-row its `wValueH`
selects; every other row is its own. -/
def Instr.performed : Instr → Instr
  | .getDescriptor r =>
    if r.wValueH = Config.dtConfiguration then .getDescriptorConfiguration r
    else if r.wValueH = Config.dtDevice then .getDescriptorDevice r
    else if r.wValueH = Config.dtString then .getDescriptorString r
    else .getDescriptorOther r
  | i => i

end Sys2Proof
end

