-- ==== Sys2Proof/Decode.lean ====
section
/-! DEFINITION. Decoding (30_encoding.md), total on any bytes and rejecting by name, and after it the
encoder written from the same tables. Setup packets decode by R109 and R134; command words by R122 and
R123; micro-operations and events by the codes of R127, whose operand bytes are the model's own
(DESIGN CHOICE, log 13: "no hardware decodes them"). -/

namespace Sys2Proof

/-! ## Bit fields and byte order (R10, R76, R102) -/

def lo8 (v : Word16) : Byte := v.extractLsb' 0 8
def hi8 (v : Word16) : Byte := v.extractLsb' 8 8
/-- `le16(l, h)` (R10). -/
def le16 (l h : Byte) : Word16 := h ++ l

def dirOf (b : Byte) : Bool := b.getLsbD 7
def kindOf (b : Byte) : BitVec 2 := b.extractLsb' 5 2
def recipientOf (b : Byte) : BitVec 5 := b.extractLsb' 0 5
/-- `bmRequestType` from its fields (R102). -/
def requestTypeOf (dir : Bool) (kind : BitVec 2) (recipient : BitVec 5) : Byte :=
  BitVec.ofBool dir ++ kind ++ recipient

namespace SetupPacket

def dir (p : SetupPacket) : Bool := dirOf p.bmRequestType
def kind (p : SetupPacket) : BitVec 2 := kindOf p.bmRequestType
/-- The three 16-bit operands of a request (R103). -/
def wValue (p : SetupPacket) : Word16 := le16 p.wValueL p.wValueH
def wIndex (p : SetupPacket) : Word16 := le16 p.wIndexL p.wIndexH
def wLength (p : SetupPacket) : Word16 := le16 p.wLengthL p.wLengthH

/-- `SP[0]` to `SP[7]` (R101). -/
def bytes (p : SetupPacket) : List Byte :=
  [p.bmRequestType, p.bRequest, p.wValueL, p.wValueH, p.wIndexL, p.wIndexH, p.wLengthL, p.wLengthH]

/-- The packet whose bytes are the first eight of the list; a missing byte is 0 (never used: S2 reads
exactly eight). -/
def ofBytes (bs : List Byte) : SetupPacket where
  bmRequestType := bs.getD 0 0
  bRequest := bs.getD 1 0
  wValueL := bs.getD 2 0
  wValueH := bs.getD 3 0
  wIndexL := bs.getD 4 0
  wIndexH := bs.getD 5 0
  wLengthL := bs.getD 6 0
  wLengthH := bs.getD 7 0

/-- The packet of the 64-bit number of R134: `SP[0]` is its most significant byte. -/
def ofNat (w : Nat) : SetupPacket where
  bmRequestType := BitVec.ofNat 8 (w >>> 56)
  bRequest := BitVec.ofNat 8 (w >>> 48)
  wValueL := BitVec.ofNat 8 (w >>> 40)
  wValueH := BitVec.ofNat 8 (w >>> 32)
  wIndexL := BitVec.ofNat 8 (w >>> 24)
  wIndexH := BitVec.ofNat 8 (w >>> 16)
  wLengthL := BitVec.ofNat 8 (w >>> 8)
  wLengthH := BitVec.ofNat 8 w

/-- The 64-bit number of R134. -/
def toWord (p : SetupPacket) : BitVec 64 :=
  p.bmRequestType ++ p.bRequest ++ p.wValueL ++ p.wValueH ++ p.wIndexL ++ p.wIndexH ++ p.wLengthL ++ p.wLengthH

/-- The operand fields of the packet (R102 to R104). -/
def req (p : SetupPacket) : Req where
  dir := p.dir
  recipient := recipientOf p.bmRequestType
  wValueL := p.wValueL
  wValueH := p.wValueH
  wIndex := p.wIndex
  wLength := p.wLength

end SetupPacket

/-- `wValue` of a request (R103); R104 reads its two bytes apart. -/
def Req.wValue (r : Req) : Word16 := le16 r.wValueL r.wValueH

/-- `SP` of a request (R101, R102). -/
def Req.packet (r : Req) (kind : BitVec 2) (bRequest : Byte) : SetupPacket where
  bmRequestType := requestTypeOf r.dir kind r.recipient
  bRequest := bRequest
  wValueL := r.wValueL
  wValueH := r.wValueH
  wIndexL := lo8 r.wIndex
  wIndexH := hi8 r.wIndex
  wLengthL := lo8 r.wLength
  wLengthH := hi8 r.wLength

/-! ## Setup packets -/

/-- GET_DESCRIPTOR by `wValueH` (R108, R134). -/
def decodeDescriptor (r : Req) : Instr :=
  if r.wValueH = Config.dtDevice then .getDescriptorDevice r
  else if r.wValueH = Config.dtConfiguration then .getDescriptorConfiguration r
  else if r.wValueH = Config.dtString then .getDescriptorString r
  else .getDescriptorOther r

/-- The standard branch by `bRequest` (R107, R181). -/
def decodeStandard (b : Byte) (r : Req) : Instr :=
  if b = 0 then .getStatus r
  else if b = 5 then .setAddress r
  else if b = 6 then decodeDescriptor r
  else if b = 7 then .setDescriptor r
  else if b = 8 then .getConfiguration r
  else if b = 9 then .setConfiguration r
  else .standardUnlisted b r

/-- The decode order of R109. Every packet decodes. -/
def decodeSetup (p : SetupPacket) : Instr :=
  if p.kind = 0 then decodeStandard p.bRequest p.req
  else if p.kind = 1 then .classRequest p.bRequest p.req
  else if p.kind = 2 then .kindVendor p.bRequest p.req
  else .kindReserved p.bRequest p.req

/-! ## Words: commands, micro-operations, events -/

/-- Why a word is rejected. -/
inductive DecodeError
  /-- fewer bytes than the operation has -/
  | truncated
  /-- a code no row of the table has (R131, U14) -/
  | reservedOpcode
  /-- `CMD_EPF[4:3]` not 0 (R123, R131, U14) -/
  | reservedEpfBits
  /-- SEND with a negative `CMD_LEN` (R131, U15) -/
  | negativeSendLength
  /-- an endpoint operand of 8 or more (R141, U3) -/
  | reservedIndex
  /-- READ_N of more than 64 bytes (R146) -/
  | countOver64
  /-- an endpoint type code of 5 or more (R58, U4) -/
  | reservedTypeCode
  deriving DecidableEq, Repr, Inhabited

/-- An operation and the bytes behind it, or the reason of the rejection. -/
abbrev Decoded := Except DecodeError (Instr × List Byte)

/-- One operand byte. -/
def operand (bs : List Byte) (k : Byte → List Byte → Decoded) : Decoded :=
  match bs with
  | [] => .error .truncated
  | b :: rest => k b rest

/-- One 16-bit operand, low byte first (R76). -/
def operand16 (bs : List Byte) (k : Word16 → List Byte → Decoded) : Decoded :=
  operand bs fun l r => operand r fun h r => k (le16 l h) r

/-- An endpoint index operand (R141). -/
def operandEp (bs : List Byte) (k : EpIdx → List Byte → Decoded) : Decoded :=
  operand bs fun b r => if b.toNat < 8 then k (b.extractLsb' 0 3) r else .error .reservedIndex

/-- `CMD_EPF` (R123): endpoint and bits 7:5. -/
def operandEpf (bs : List Byte) (k : EpIdx → BitVec 3 → List Byte → Decoded) : Decoded :=
  operand bs fun b r =>
    if b.extractLsb' 3 2 = (0 : BitVec 2) then k (b.extractLsb' 0 3) (b.extractLsb' 5 3) r
    else .error .reservedEpfBits

/-- `CMD_EPF` from its fields (R123). -/
def epfOf (ep : EpIdx) (flags : BitVec 3) : Byte := flags ++ (0 : BitVec 2) ++ ep

/-- Bits 7, 6, 5 of `CMD_EPF`: ROM, RELEASE, ZERO (R123). -/
def flagsOf (rom release zero : Bool) : BitVec 3 :=
  BitVec.ofBool rom ++ BitVec.ofBool release ++ BitVec.ofBool zero

/-- The type codes of `EPCFG` (R48). -/
def typeCode : EpType → Byte
  | .disabled => 0
  | .control => 1
  | .bulkIn => 2
  | .bulkOut => 3
  | .interruptIn => 4

/-- Codes 5 and more are reserved (R58). -/
def typeOfCode (c : Byte) : Option EpType :=
  if c = 0 then some .disabled
  else if c = 1 then some .control
  else if c = 2 then some .bulkIn
  else if c = 3 then some .bulkOut
  else if c = 4 then some .interruptIn
  else none

/-- One word (R122, R127). -/
def decodeCode (code : Byte) (bs : List Byte) : Decoded :=
  match code.toNat with
  | 0x00 => .ok (.attach, bs)
  | 0x01 => operandEpf bs fun ep f r => operand16 r fun ptr r => operand16 r fun len r =>
      if len.msb then .error .negativeSendLength
      else .ok (.send ep (f.getLsbD 2) (f.getLsbD 1) (f.getLsbD 0) ptr len, r)
  | 0x02 => operandEpf bs fun ep f r => operand16 r fun ptr r => operand16 r fun len r =>
      .ok (.recv ep f ptr len, r)
  | 0x03 => operandEpf bs fun ep f r => .ok (.available ep f, r)
  | 0x04 => operandEpf bs fun ep f r => .ok (.flush ep f, r)
  | 0x10 => operandEp bs fun i r => .ok (.select i, r)
  | 0x11 => .ok (.testSetup, bs)
  | 0x12 => .ok (.waitIn, bs)
  | 0x13 => .ok (.waitOut, bs)
  | 0x14 => .ok (.read8, bs)
  | 0x15 => operand bs fun n r => if n.toNat ≤ Config.epSize then .ok (.readN n, r) else .error .countOver64
  | 0x16 => operand bs fun b r => .ok (.write8 b, r)
  | 0x17 => .ok (.byteCount, bs)
  | 0x18 => .ok (.rwAllowed, bs)
  | 0x19 => operandEp bs fun e r => .ok (.sendSpace e, r)
  | 0x1A => .ok (.stall, bs)
  | 0x1B => .ok (.clearSetup, bs)
  | 0x1C => .ok (.ackIn, bs)
  | 0x1D => .ok (.clearOut, bs)
  | 0x1E => .ok (.releaseRx, bs)
  | 0x1F => .ok (.releaseTx, bs)
  | 0x20 => operandEp bs fun e r => operand r fun c r =>
      match typeOfCode c with
      | some t => .ok (.initEp e t, r)
      | none => .error .reservedTypeCode
  | 0x21 => .ok (.critEnter, bs)
  | 0x22 => .ok (.critExit, bs)
  | 0x23 => operand16 bs fun n r => .ok (.curInit n, r)
  | 0x24 => operand bs fun b r => .ok (.emit8 b, r)
  | 0x25 => operand16 bs fun n r =>
      if n.toNat ≤ r.length then .ok (.emitN (r.take n.toNat), r.drop n.toNat) else .error .truncated
  | 0x26 => .ok (.armTx, bs)
  | 0x27 => .ok (.armRx, bs)
  | 0x28 => .ok (.armOutStage, bs)
  | 0x30 => .ok (.evtSetupReceived, bs)
  | 0x31 => .ok (.evtFrameTick, bs)
  | 0x32 => .ok (.evtBusReset, bs)
  | 0x33 => .ok (.evtSpuriousComm, bs)
  | _ => .error .reservedOpcode

/-- A word of bytes: the operation at its front and the bytes behind it. -/
def decodeWord (bs : List Byte) : Decoded :=
  match bs with
  | [] => .error .truncated
  | code :: rest => decodeCode code rest

/-- The decoder. -/
def decode : Encoded → Except DecodeError Instr
  | .setup p => .ok (decodeSetup p)
  | .word bs =>
    match decodeWord bs with
    | .ok (i, _) => .ok i
    | .error e => .error e

/-! ## The encoder -/

def le16Bytes (v : Word16) : List Byte := [lo8 v, hi8 v]

def epByte (e : EpIdx) : Byte := e.setWidth 8

/-- The words of an operation, from the tables of R101, R102, R107, R122, R123, R127. -/
def encode : Instr → Encoded
  | .getStatus r => .setup (r.packet 0 0)
  | .setAddress r => .setup (r.packet 0 5)
  | .getDescriptor r => .setup (r.packet 0 6)
  | .getDescriptorDevice r => .setup (r.packet 0 6)
  | .getDescriptorConfiguration r => .setup (r.packet 0 6)
  | .getDescriptorString r => .setup (r.packet 0 6)
  | .getDescriptorOther r => .setup (r.packet 0 6)
  | .setDescriptor r => .setup (r.packet 0 7)
  | .getConfiguration r => .setup (r.packet 0 8)
  | .setConfiguration r => .setup (r.packet 0 9)
  | .standardUnlisted b r => .setup (r.packet 0 b)
  | .classRequest b r => .setup (r.packet 1 b)
  | .kindVendor b r => .setup (r.packet 2 b)
  | .kindReserved b r => .setup (r.packet 3 b)
  | .attach => .word [0x00]
  | .send ep rom release zero ptr len =>
    .word (0x01 :: epfOf ep (flagsOf rom release zero) :: (le16Bytes ptr ++ le16Bytes len))
  | .recv ep f ptr len => .word (0x02 :: epfOf ep f :: (le16Bytes ptr ++ le16Bytes len))
  | .available ep f => .word [0x03, epfOf ep f]
  | .flush ep f => .word [0x04, epfOf ep f]
  | .select i => .word [0x10, epByte i]
  | .testSetup => .word [0x11]
  | .waitIn => .word [0x12]
  | .waitOut => .word [0x13]
  | .read8 => .word [0x14]
  | .readN n => .word [0x15, n]
  | .write8 b => .word [0x16, b]
  | .byteCount => .word [0x17]
  | .rwAllowed => .word [0x18]
  | .sendSpace e => .word [0x19, epByte e]
  | .stall => .word [0x1A]
  | .clearSetup => .word [0x1B]
  | .ackIn => .word [0x1C]
  | .clearOut => .word [0x1D]
  | .releaseRx => .word [0x1E]
  | .releaseTx => .word [0x1F]
  | .initEp e t => .word [0x20, epByte e, typeCode t]
  | .critEnter => .word [0x21]
  | .critExit => .word [0x22]
  | .curInit n => .word (0x23 :: le16Bytes n)
  | .emit8 b => .word [0x24, b]
  | .emitN s => .word (0x25 :: (le16Bytes (BitVec.ofNat 16 s.length) ++ s))
  | .armTx => .word [0x26]
  | .armRx => .word [0x27]
  | .armOutStage => .word [0x28]
  | .evtSetupReceived => .word [0x30]
  | .evtFrameTick => .word [0x31]
  | .evtBusReset => .word [0x32]
  | .evtSpuriousComm => .word [0x33]

/-! ## The opcode table's own words -/

/-- The bytes of a table word that is no setup packet: bit 0 is the least significant bit of the first
byte; every operand byte above `nbits` is 0. -/
def tableBytes (nbits w : Nat) : List Byte :=
  (List.range (nbits / 8)).map (fun k => BitVec.ofNat 8 (w >>> (8 * k))) ++ List.replicate 7 0

/-- The instruction the decoder reads from a word of spec/opcode_table.json: 64 bits are a setup packet
(R134), anything else is a code and its operand bytes. -/
def decodeTableWord (nbits w : Nat) : Option Instr :=
  if nbits = 64 then some (decodeSetup (SetupPacket.ofNat w))
  else
    match decode (.word (tableBytes nbits w)) with
    | .ok i => some i
    | .error _ => none

/-- The format of each row of the table (R100). -/
def Instr.format : Instr → Format
  | .getStatus _ => .setup8
  | .setAddress _ => .setup8
  | .getDescriptor _ => .setup8
  | .getDescriptorDevice _ => .setup8
  | .getDescriptorConfiguration _ => .setup8
  | .getDescriptorString _ => .setup8
  | .getDescriptorOther _ => .setup8
  | .setDescriptor _ => .setup8
  | .getConfiguration _ => .setup8
  | .setConfiguration _ => .setup8
  | .standardUnlisted _ _ => .setup8
  | .classRequest _ _ => .setup8
  | .kindVendor _ _ => .setup8
  | .kindReserved _ _ => .setup8
  | .attach => .cmd
  | .send _ _ _ _ _ _ => .cmd
  | .recv _ _ _ _ => .cmd
  | .available _ _ => .cmd
  | .flush _ _ => .cmd
  | .select _ => .uop
  | .testSetup => .uop
  | .waitIn => .uop
  | .waitOut => .uop
  | .read8 => .uop
  | .readN _ => .uop
  | .write8 _ => .uop
  | .byteCount => .uop
  | .rwAllowed => .uop
  | .sendSpace _ => .uop
  | .stall => .uop
  | .clearSetup => .uop
  | .ackIn => .uop
  | .clearOut => .uop
  | .releaseRx => .uop
  | .releaseTx => .uop
  | .initEp _ _ => .uop
  | .critEnter => .uop
  | .critExit => .uop
  | .curInit _ => .uop
  | .emit8 _ => .uop
  | .emitN _ => .uop
  | .armTx => .uop
  | .armRx => .uop
  | .armOutStage => .uop
  | .evtSetupReceived => .evt
  | .evtFrameTick => .evt
  | .evtBusReset => .evt
  | .evtSpuriousComm => .evt

/-! ## The opcode table -/

/-- One row of spec/opcode_table.json (R134): a word w matches it when `w and mask = pattern`. -/
structure Row where
  mnemonic : String
  format : Format
  pattern : BitVec 64
  mask : BitVec 64
  deriving DecidableEq, Repr

/-- The row of each instruction, as the table has it. -/
def Instr.row : Instr → Row
  | .getStatus _ => ⟨"GET_STATUS", .setup8, 0x0000000000000000, 0x60FF000000000000⟩
  | .setAddress _ => ⟨"SET_ADDRESS", .setup8, 0x0005000000000000, 0x60FF000000000000⟩
  | .getDescriptor _ => ⟨"GET_DESCRIPTOR", .setup8, 0x0006000000000000, 0x60FF000000000000⟩
  | .getDescriptorDevice _ => ⟨"GET_DESCRIPTOR.DEVICE", .setup8, 0x0006000100000000, 0x60FF00FF00000000⟩
  | .getDescriptorConfiguration _ => ⟨"GET_DESCRIPTOR.CONFIGURATION", .setup8, 0x0006000200000000, 0x60FF00FF00000000⟩
  | .getDescriptorString _ => ⟨"GET_DESCRIPTOR.STRING", .setup8, 0x0006000300000000, 0x60FF00FF00000000⟩
  | .getDescriptorOther _ => ⟨"GET_DESCRIPTOR.OTHER", .setup8, 0x0006000000000000, 0x60FF000000000000⟩
  | .setDescriptor _ => ⟨"SET_DESCRIPTOR", .setup8, 0x0007000000000000, 0x60FF000000000000⟩
  | .getConfiguration _ => ⟨"GET_CONFIGURATION", .setup8, 0x0008000000000000, 0x60FF000000000000⟩
  | .setConfiguration _ => ⟨"SET_CONFIGURATION", .setup8, 0x0009000000000000, 0x60FF000000000000⟩
  | .standardUnlisted _ _ => ⟨"STANDARD_UNLISTED", .setup8, 0x0000000000000000, 0x6000000000000000⟩
  | .classRequest _ _ => ⟨"CLASS", .setup8, 0x2000000000000000, 0x6000000000000000⟩
  | .kindVendor _ _ => ⟨"KIND_VENDOR_ILLEGAL", .setup8, 0x4000000000000000, 0x6000000000000000⟩
  | .kindReserved _ _ => ⟨"KIND_RESERVED_ILLEGAL", .setup8, 0x6000000000000000, 0x6000000000000000⟩
  | .attach => ⟨"ATTACH", .cmd, 0x00, 0xFF⟩
  | .send _ _ _ _ _ _ => ⟨"SEND", .cmd, 0x01, 0xFF⟩
  | .recv _ _ _ _ => ⟨"RECV", .cmd, 0x02, 0xFF⟩
  | .available _ _ => ⟨"AVAILABLE", .cmd, 0x03, 0xFF⟩
  | .flush _ _ => ⟨"FLUSH", .cmd, 0x04, 0xFF⟩
  | .select _ => ⟨"SELECT", .uop, 0x10, 0xFF⟩
  | .testSetup => ⟨"TEST_SETUP", .uop, 0x11, 0xFF⟩
  | .waitIn => ⟨"WAIT_IN", .uop, 0x12, 0xFF⟩
  | .waitOut => ⟨"WAIT_OUT", .uop, 0x13, 0xFF⟩
  | .read8 => ⟨"READ8", .uop, 0x14, 0xFF⟩
  | .readN _ => ⟨"READ_N", .uop, 0x15, 0xFF⟩
  | .write8 _ => ⟨"WRITE8", .uop, 0x16, 0xFF⟩
  | .byteCount => ⟨"BYTE_COUNT", .uop, 0x17, 0xFF⟩
  | .rwAllowed => ⟨"RW_ALLOWED", .uop, 0x18, 0xFF⟩
  | .sendSpace _ => ⟨"SEND_SPACE", .uop, 0x19, 0xFF⟩
  | .stall => ⟨"STALL", .uop, 0x1A, 0xFF⟩
  | .clearSetup => ⟨"CLEAR_SETUP", .uop, 0x1B, 0xFF⟩
  | .ackIn => ⟨"ACK_IN", .uop, 0x1C, 0xFF⟩
  | .clearOut => ⟨"CLEAR_OUT", .uop, 0x1D, 0xFF⟩
  | .releaseRx => ⟨"RELEASE_RX", .uop, 0x1E, 0xFF⟩
  | .releaseTx => ⟨"RELEASE_TX", .uop, 0x1F, 0xFF⟩
  | .initEp _ _ => ⟨"INIT_EP", .uop, 0x20, 0xFF⟩
  | .critEnter => ⟨"CRIT_ENTER", .uop, 0x21, 0xFF⟩
  | .critExit => ⟨"CRIT_EXIT", .uop, 0x22, 0xFF⟩
  | .curInit _ => ⟨"CUR_INIT", .uop, 0x23, 0xFF⟩
  | .emit8 _ => ⟨"EMIT8", .uop, 0x24, 0xFF⟩
  | .emitN _ => ⟨"EMIT_N", .uop, 0x25, 0xFF⟩
  | .armTx => ⟨"ARM_TX", .uop, 0x26, 0xFF⟩
  | .armRx => ⟨"ARM_RX", .uop, 0x27, 0xFF⟩
  | .armOutStage => ⟨"ARM_OUT_STAGE", .uop, 0x28, 0xFF⟩
  | .evtSetupReceived => ⟨"EVT_SETUP_RECEIVED", .evt, 0x30, 0xFF⟩
  | .evtFrameTick => ⟨"EVT_FRAME_TICK", .evt, 0x31, 0xFF⟩
  | .evtBusReset => ⟨"EVT_BUS_RESET", .evt, 0x32, 0xFF⟩
  | .evtSpuriousComm => ⟨"EVT_SPURIOUS_COMM", .evt, 0x33, 0xFF⟩

/-- The word a row is matched against (R134): the setup packet's 64 bits, or the first byte. -/
def Encoded.tableWord : Encoded → BitVec 64
  | .setup p => p.toWord
  | .word bs => (bs.headD 0).setWidth 64

end Sys2Proof
end

