-- ==== Sys2Proof/Machine/State.lean ====
section
/-! DEFINITION. The state of UDCB as plain data (10_state.md), grouped by the sections of that file, the
reasons a step can stop, and the state after power-on reset (70_reset_and_hazards.md R341). -/

namespace Sys2Proof.Machine

/-! ## Reasons to stop -/

/-- Faults. -/
inductive Fault
  /-- The control sequencer reads `SP` before the first S2 (R21: "a model must treat a read of `SP` before
  the first S2 as a fault"). Raised by `ctStep` at S3 and S4. Safe: no rule of the spec does it (log 22). -/
  | setupLatchUnwritten
  deriving DecidableEq, Repr, Inhabited

/-- Refusals: what the spec calls reserved, or says a model refuses (93_implementation_defined.md part 1:
"runs containing it are outside the model"). Each is safe: the run stops. -/
inductive Refusal
  /-- An operation that has no meaning yet. -/
  | notModelled (mnemonic : String)
  /-- The schedule issues a word the decoder rejects (R131, U4, U14, U15). Raised by `issueWord`. -/
  | reservedEncoding
  /-- An endpoint index of `N_EP` or more (R141, U3, U14). Raised by SELECT, SEND_SPACE, INIT_EP and the
  commands, and by a CRIT_EXIT that would put such a value into `SEL` (R58, log 21). -/
  | reservedEndpoint
  /-- READ_N of more than 64 bytes (R146). Raised by READ_N on a term the decoder never gives. -/
  | reservedCount
  /-- SEND with a negative length (R249, U15). Raised by SEND on a term the decoder never gives. -/
  | negativeSendLength
  /-- An operation on an endpoint of the wrong type, or a bulk command that names endpoint 0 (R157, R257, R368,
  U7, U16). -/
  | wrongEndpointType
  /-- READ8, WRITE8 or a wait on a disabled endpoint (R159, U7). -/
  | disabledEndpoint
  /-- WRITE8 on a full bank or with `in_rdy = 0` (R147, U6). -/
  | writeWithoutRoom
  /-- More than 65535 bytes emitted in one pass, or a configuration total over 65535 (R175, R222, U12). -/
  | cursorOverflow
  /-- EMIT8 with `SEL` not 0 (R177: "Precondition: `SEL = 0`", log 23). -/
  | emitOffControl
  /-- A collaborator returns with `SEL` not 0 (R192, R353, U13). -/
  | collabLeftSelector
  /-- A collaborator emits outside the cursor (R360, U13). -/
  | collabWroteRaw
  /-- A command while another is being served (R56, U17); a write of the command registers then (log 34). -/
  | commandWhileBusy
  /-- ATTACH a second time (R280, U17). -/
  | attachTwice
  /-- `CMD_PTR .. CMD_PTR + len - 1` outside `BUF` or `ROM` (R368, U18). -/
  | rangeOutsideMemory
  /-- The mainline writes a block register other than the command port and `IE`, or reads one it has no
  access to (R48, R57, R368, U19). -/
  | mainlineRegisterAccess
  /-- A raw micro-operation issued while no sequencer that may use it runs (R34: "A model must make every other
  write a type error or a refusal"; R57, R321, U19). Raised by `issueDecoded` (log 8). -/
  | notTheOwner
  /-- `ENV_SETUP` while `CT.pc` is not IDLE (R85, D44, U20). Raised by `envSetup`. -/
  | setupDuringTransfer
  /-- `ENV_EOR` while `CT.pc` or `BE.pc` is not IDLE (R89, R365, U20). -/
  | busResetDuringOperation
  deriving DecidableEq, Repr, Inhabited

/-- Failure causes (R301); labels, visible in a model's trace only (D40). -/
inductive Cause
  | fKind
  | fSetDescriptor
  | fRecipient
  | fUnlisted
  | fDescNotFound
  | fClass
  | eNotConfigured
  | eNegLength
  | eSendTimeout
  deriving DecidableEq, Repr, Inhabited

/-- The result of `DISPATCH` (R12, R180). -/
inductive CtResult
  | ok
  | fail (c : Cause)
  deriving DecidableEq, Repr, Inhabited

/-! ## Program points (section 3) -/

/-- `CT.pc` (R36, R170). `s4CallWait` is the hold of a collaborator's wait inside its call and `exit` is
R170's label DONE (log 26). -/
inductive CtPoint
  | idle
  | s1
  | s2
  | s3
  | s3Wait
  | s4
  | s4EmitWait
  | s4SetaddrWait
  | s4CallWait
  | s5
  | exit
  deriving DecidableEq, Repr, Inhabited

/-- `FT.pc` (R37, R270). -/
inductive FtPoint
  | idle
  | f1
  | f2
  | f3
  | f4
  | f5
  | exit
  deriving DecidableEq, Repr, Inhabited

/-- `BE.pc` (R37); SND.check, RCV.check, AVL and FLS are done by the issuing step (log 26). -/
inductive BePoint
  | idle
  | sndLoop
  | sndSpace
  | sndWait
  | sndChunk
  | sndArm
  | sndDone
  | rcvCrit
  | rcvArm
  deriving DecidableEq, Repr, Inhabited

/-- `AT.pc` (R37, R281); A1 is done by the issuing step (log 26). -/
inductive AtPoint
  | idle
  | a2
  | a2Wait
  | a3
  | a4
  | a5
  deriving DecidableEq, Repr, Inhabited

/-- The micro-operations a request consists of once it is dispatched: R184 to R192's pseudocode as data, so
that a hold can keep what is left (log 7). -/
inductive Micro
  | emit8 (b : Byte)
  | waitIn
  | waitOut
  | readN (n : Byte)
  | clearOut
  | select (i : EpIdx)
  /-- WRITE8 by a collaborator: emission outside the cursor. -/
  | rawWrite (b : Byte)
  /-- `ADDR <- a; ADDR_EN <- 1` (R185). -/
  | setAddress (a : BitVec 7)
  /-- the return of a collaborator's call (R192, R353) -/
  | callReturn
  /-- `ENV_OUT` inside a collaborator's call (R93, log 7) -/
  | hostOut (e : EpIdx) (p : Packet)
  deriving DecidableEq, Repr, Inhabited

/-! ## The schedule -/

/-- The environment's moves (R85 to R88). -/
inductive EnvMove
  | setup (p : SetupPacket)
  | inTaken (e : EpIdx)
  | out (e : EpIdx) (p : Packet)
  | eor
  | sof
  | pllLock
  | spur
  deriving DecidableEq, Repr, Inhabited

/-- One entry of the schedule: which agent moves next, and how (log 5). -/
inductive Input
  /-- the environment moves -/
  | env (m : EnvMove)
  /-- the block takes one atomic step and no interrupt is delivered at this point (R314) -/
  | run
  /-- an operation is issued: a command by the mainline, a raw micro-operation, or the delivery of an event -/
  | word (bs : List Byte)
  /-- the mainline writes `IE` (R50) -/
  | ie (v : Bool)
  /-- the mainline writes a byte of its buffer (R72, R243) -/
  | bufWrite (a : Nat) (b : Byte)
  /-- the mainline reads a register by its number of R48 -/
  | peek (n : Nat)
  /-- the mainline writes a block register by its number (R57, R368) -/
  | regWrite (n v : Nat)
  deriving DecidableEq, Repr, Inhabited

/-- The result of a raw micro-operation, or of the mainline's register read (log 8). -/
inductive Ret
  | none
  | bit (b : Bool)
  | byte (b : Byte)
  | bytes (bs : List Byte)
  | count (n : BitVec 7)
  | word (v : Word16)
  deriving DecidableEq, Repr, Inhabited

/-- A call made to a collaborator: which one, which function, with which `SP` (log 27). -/
inductive CollabCall
  | setup (k : Nat) (p : SetupPacket)
  | getDescriptor (k : Nat) (p : SetupPacket)
  deriving DecidableEq, Repr, Inhabited

/-! ## The groups of State -/

/-- `SP[0..7]` (R21) and whether S2 has written it. -/
structure Latch where
  packet : SetupPacket
  valid  : Bool
  deriving DecidableEq, Repr, Inhabited

/-- The control transfer cursor (R23, R24). -/
structure Cursor where
  pos : Word16
  lim : Word16
  deriving DecidableEq, Repr, Inhabited

/-- `CFG`, `COMPOSITE`, `ADDR`, `ADDR_EN` (R25 to R27). -/
structure Dev where
  cfg       : Byte
  composite : Bool
  addr      : BitVec 7
  addrEn    : Bool
  deriving DecidableEq, Repr, Inhabited

/-- `TXP`, `RXP`, `LED_TX`, `LED_RX` (R28, R29). -/
structure Pulse where
  txp   : Byte
  rxp   : Byte
  ledTx : Bool
  ledRx : Bool
  deriving DecidableEq, Repr, Inhabited

/-- One endpoint (R30, R40 to R44, R55, R59, R61). -/
structure Endpoint where
  en     : Bool
  kind   : EpType
  setup  : Bool
  inRdy  : Bool
  outRdy : Bool
  stall  : Bool
  data   : Packet
  inQ    : List Packet
  outQ   : List Packet
  deriving DecidableEq, Repr, Inhabited

/-- `IE`, `IN_ISR`, the enables and the pending bits (R50 to R53). -/
structure Irq where
  ie        : Bool
  inIsr     : Bool
  ienEor    : Bool
  ienSof    : Bool
  ienSetup0 : Bool
  pendEor   : Bool
  pendSof   : Bool
  spurComm  : Bool
  deriving DecidableEq, Repr, Inhabited

/-- `s_ie`, `s_sel` of one level (R62). -/
structure CritSnap where
  ie  : Bool
  sel : EpIdx
  deriving DecidableEq, Repr, Inhabited

/-- The snapshot registers of one context, and those of the outer levels, innermost first (R62, log 21). -/
structure CritCtx where
  snap  : CritSnap
  outer : List CritSnap
  deriving DecidableEq, Repr, Inhabited

/-- One snapshot context for the mainline, one for the interrupt context (R62, R320). -/
structure Crit where
  main : CritCtx
  isr  : CritCtx
  deriving DecidableEq, Repr, Inhabited

/-- `PWR`, `CLK_EN`, `PLL_EN`, `ATTACH_EN`, `PLL_LOCK` (R54) and `AT.pc`. -/
structure Power where
  pwr      : Bool
  clkEn    : Bool
  pllEn    : Bool
  attachEn : Bool
  pllLock  : Bool
  pc       : AtPoint
  deriving DecidableEq, Repr, Inhabited

/-- `CT.pc`, what a hold of S4 has left to do, the dispatch result, and DP's working registers (R33). -/
structure Ct where
  pc       : CtPoint
  todo     : List Micro
  result   : CtResult
  measured : Word16
  nifTotal : Byte
  deriving DecidableEq, Repr, Inhabited

/-- `FT.pc`, the snapshot of F1 and the private byte of the pull (R270, R274). -/
structure Ft where
  pc  : FtPoint
  eor : Bool
  sof : Bool
  tmp : Byte
  deriving DecidableEq, Repr, Inhabited

/-- `BE.pc` and the working registers of R32; `sndI` is the payload index of R243. -/
structure Be where
  pc       : BePoint
  sndEp    : EpIdx
  sndFlags : BitVec 3
  sndPtr   : Word16
  sndRem   : Word16
  sndTotal : Word16
  sndTmo   : Byte
  sndN     : BitVec 7
  sndI     : Word16
  rcvN     : BitVec 7
  deriving DecidableEq, Repr, Inhabited

/-- The mainline command port (R56). -/
structure Port where
  op  : Byte
  epf : Byte
  ptr : Word16
  len : Word16
  res : Word16
  deriving DecidableEq, Repr, Inhabited

/-- The ghost histories (R63, R97, log 27). -/
structure Ghost where
  txlog    : Vector (List Packet) 8
  rxSink   : List Byte
  calls    : List CollabCall
  bulkFail : Option Cause
  deriving DecidableEq, Repr, Inhabited

/-- Which flag of the selected endpoint a wait is for: `in_rdy` (R143) or `out_rdy` (R144). -/
inductive Wait
  | inReady
  | outReady
  deriving DecidableEq, Repr, Inhabited

/-- The model's own fields: the schedule, the oracle answers, the counter of the free values, what a handler's
micro-operation word that holds has left to do, the wait a word left the mainline's sequencer in (R312, log 8), and
the last result. -/
structure Io where
  inputs   : List Input
  answers  : List CollabAnswer
  draws    : Nat
  held     : List Micro
  mainWait : Option Wait
  ret      : Ret
  deriving DecidableEq, Repr, Inhabited

/-- The whole state. -/
structure State where
  conf   : Conf
  latch  : Latch
  cursor : Cursor
  dev    : Dev
  pulse  : Pulse
  eps    : Vector Endpoint 8
  sel    : EpIdx
  irq    : Irq
  crit   : Crit
  power  : Power
  ct     : Ct
  ft     : Ft
  be     : Be
  port   : Port
  buf    : Memory
  ghost  : Ghost
  io     : Io
  deriving DecidableEq, Repr, Inhabited

/-! ## Reset -/

/-- A setup packet of zeros. -/
def SetupPacket.zero : SetupPacket := ⟨0, 0, 0, 0, 0, 0, 0, 0⟩

/-- An endpoint after power-on reset (R341), and what `INIT_EP e, disabled` and `ENV_EOR` leave. -/
def Endpoint.off : Endpoint where
  en := false
  kind := .disabled
  setup := false
  inRdy := false
  outRdy := false
  stall := false
  data := []
  inQ := []
  outQ := []

/-- The snapshot registers after reset: unspecified (R341), 0 here (log 1). -/
def CritCtx.zero : CritCtx := ⟨⟨false, 0⟩, []⟩

/-- Power-on reset (R341) with parameters `c`. What R341 calls unspecified is 0 (DESIGN CHOICE, log 1). -/
def State.resetWith (c : Conf) : State where
  conf := c
  latch := ⟨SetupPacket.zero, false⟩
  cursor := ⟨0, 0⟩
  dev := ⟨0, false, 0, false⟩
  pulse := ⟨0, 0, false, false⟩
  eps := Vector.replicate 8 Endpoint.off
  sel := 0
  irq := ⟨false, false, false, false, false, false, false, false⟩
  crit := ⟨CritCtx.zero, CritCtx.zero⟩
  power := ⟨false, false, false, false, false, .idle⟩
  ct := ⟨.idle, [], .ok, 0, 0⟩
  ft := ⟨.idle, false, false, 0⟩
  be := ⟨.idle, 0, 0, 0, 0, 0, 0, 0, 0, 0⟩
  port := ⟨0, 0, 0, 0, 0⟩
  buf := []
  ghost := ⟨Vector.replicate 8 [], [], [], none⟩
  io := ⟨[], [], 0, [], none, .none⟩

/-- The machine right after power-on reset, with the parameters of CONF-E (DESIGN CHOICE, log 4). -/
def State.reset : State := State.resetWith Config.confE

end Sys2Proof.Machine
end

