-- ==== Sys2Proof/Machine/Flags.lean ====
section
/-! DEFINITION. The flags of an endpoint and what is derived from them (10_state.md section 4), the free
space of a bank (R242), and the interrupt requests (60_exceptions.md R309, R310, R314, R315). A disabled
endpoint reads as count 0 and all flags 0 (R159). -/

namespace Sys2Proof.Machine

/-- IN-capable types (R30). -/
def inCapable : EpType → Bool
  | .control => true
  | .bulkIn => true
  | .interruptIn => true
  | .bulkOut => false
  | .disabled => false

/-- OUT-capable types (R30). -/
def outCapable : EpType → Bool
  | .control => true
  | .bulkOut => true
  | .bulkIn => false
  | .interruptIn => false
  | .disabled => false

/-- `EP[e].banks` (R6, R55): a constant. -/
def banks (e : EpIdx) : Nat := if e = 0 then Config.ep0Banks else Config.epNBanks

namespace Endpoint

/-- The type an operation sees: `disabled` while `en = 0` (R159). -/
def ty (p : Endpoint) : EpType := if p.en then p.kind else .disabled

/-- `setup` as read (R41, R142: 0 on a non-control endpoint; R159). -/
def setupFlag (p : Endpoint) : Bool := p.ty == .control && p.setup

/-- `in_rdy` as read (R42, R159). -/
def inFlag (p : Endpoint) : Bool := p.en && p.inRdy

/-- `out_rdy` as read (R43, R159). -/
def outFlag (p : Endpoint) : Bool := p.en && p.outRdy

/-- `EP[e].cnt` (R46, R159). -/
def cnt (p : Endpoint) : Nat := if p.en then p.data.length else 0

/-- `rw_allowed(e)` (R45, R159); for `control` it has no defined value (R45, D8): a free value (log 18), which the
register view and a chunk of SEND read (`chunkSelected`). RW_ALLOWED and SEND_SPACE are refused there (R157). -/
def rwAllowed (p : Endpoint) : Bool :=
  match p.ty with
  | .bulkIn => p.inRdy && p.data.length < Config.epSize
  | .interruptIn => p.inRdy && p.data.length < Config.epSize
  | .bulkOut => p.outRdy && 0 < p.data.length
  | .control => Config.freeRwAllowed p.data.length p.inRdy p.outRdy
  | .disabled => false

/-- The free space of R242. -/
def freeSpace (p : Endpoint) : Nat := if p.rwAllowed then Config.epSize - p.cnt else 0

end Endpoint

/-- The two interrupt sources (R308). -/
inductive IrqSource
  | comm
  | frame
  deriving DecidableEq, Repr, Inhabited

/-- The other source. -/
def IrqSource.other : IrqSource → IrqSource
  | .comm => .frame
  | .frame => .comm

/-- `comm_req` (R309). -/
def commReq (s : State) : Bool := (s.irq.ienSetup0 && s.eps[0].setup) || s.irq.spurComm

/-- `frame_req` (R310). -/
def frameReq (s : State) : Bool := (s.irq.ienEor && s.irq.pendEor) || (s.irq.ienSof && s.irq.pendSof)

/-- The request of a source. -/
def irqReq (src : IrqSource) (s : State) : Bool :=
  match src with
  | .comm => commReq s
  | .frame => frameReq s

/-- A point where a handler may start (R314). -/
def canDeliver (s : State) : Bool := s.irq.ie && !s.irq.inIsr

/-- Whether `IRQ_ORDER` lets `src` go before the other source (R315). -/
def orderAllows (src : IrqSource) (o : IrqOrder) : Bool :=
  match src, o with
  | .comm, .frameFirst => false
  | .frame, .commFirst => false
  | .comm, .commFirst => true
  | .frame, .frameFirst => true
  | .comm, .any => true
  | .frame, .any => true

/-- A handler of `src` can start here (R314, R315). -/
def grants (src : IrqSource) (s : State) : Bool :=
  canDeliver s && irqReq src s && (!irqReq src.other s || orderAllows src s.conf.irqOrder)

end Sys2Proof.Machine
end

