-- ==== Sys2Proof/Machine/Memory.lean ====
section
/-! DEFINITION. Byte memory (`BUF`, `ROM`; 20_memory.md R70, R72, R73): a list of (address, byte) pairs,
addresses strictly rising, no entry equal to what an unlisted address reads as. Byte accesses only
(R77), so no alignment and no byte order (R78). -/

namespace Sys2Proof

/-- What an unlisted address reads as: the contents of `BUF` after power-on are unspecified (R341, U26);
0 is a DESIGN CHOICE (log 2). -/
def Memory.unlisted : Byte := 0

/-- The byte at an address. -/
def Memory.read : Memory → Nat → Byte
  | [], _ => Memory.unlisted
  | (k, v) :: m, a => if k = a then v else Memory.read m a

/-- `MemWrite(BUF, a, 1, b)`, keeping the canonical form. -/
def Memory.write : Memory → Nat → Byte → Memory
  | [], a, b => if b = Memory.unlisted then [] else [(a, b)]
  | (k, v) :: m, a, b =>
    if a < k then (if b = Memory.unlisted then (k, v) :: m else (a, b) :: (k, v) :: m)
    else if a = k then (if b = Memory.unlisted then m else (a, b) :: m)
    else (k, v) :: Memory.write m a b

/-- `MemWrite(BUF, a, n, v)`: successive bytes upward (R11). -/
def Memory.writeList : Memory → Nat → List Byte → Memory
  | m, _, [] => m
  | m, a, b :: bs => Memory.writeList (m.write a b) (a + 1) bs

/-- The canonical form. -/
abbrev Memory.wf (m : Memory) : Prop :=
  m.Pairwise (fun c d => c.1 < d.1) ∧ ∀ c ∈ m, c.2 ≠ Memory.unlisted

/-- Whether `n` bytes from `a` lie in a space that ends at `lim` (R70: unbounded unless the configuration
bounds it; R368). -/
def inSpace (lim : Option Nat) (a n : Nat) : Bool :=
  match lim with
  | none => true
  | some k => n = 0 || a + n ≤ k

end Sys2Proof
end

