-- ==== Sys2Proof/Machine/Ops.lean ====
section
/-! DEFINITION. The named operations over endpoints, the cursor, the critical section and the handlers,
written once: the meanings of the operations and the sequencers call them. -/

namespace Sys2Proof.Machine

/-- What a meaning answers. -/
abbrev Out := Host.Outcome State Fault Refusal

/-! ## Endpoints and the selector -/

/-- `EP[e]`. -/
def State.ep (s : State) (e : EpIdx) : Endpoint := s.eps[e.toNat]'e.isLt

/-- `EP[e] <- p`. -/
def State.setEp (s : State) (e : EpIdx) (p : Endpoint) : State :=
  { s with eps := s.eps.set e.toNat p e.isLt }

/-- `EP[SEL]`. -/
def State.cur (s : State) : Endpoint := s.ep s.sel

/-- `SEL <- i` (R141). -/
def State.setSel (s : State) (i : EpIdx) : State := { s with sel := i }

/-- The result of a raw micro-operation (log 8). -/
def State.setRet (s : State) (r : Ret) : State := { s with io.ret := r }

/-- `TXLOG[e]` (R63). -/
def State.txlogOf (s : State) (e : EpIdx) : List Packet := s.ghost.txlog[e.toNat]'e.isLt

/-- `TXLOG[e] <- TXLOG[e] ++ [p]` (R150). -/
def State.logTx (s : State) (e : EpIdx) (p : Packet) : State :=
  { s with ghost.txlog := s.ghost.txlog.set e.toNat (s.txlogOf e ++ [p]) e.isLt }

/-- An endpoint after its bank is committed (R150). -/
def Endpoint.committed (p : Endpoint) (n : Nat) : Endpoint :=
  { p with inQ := p.inQ ++ [p.data], data := [], inRdy := decide ((p.inQ ++ [p.data]).length < n) }

/-- `commit_in(e)` (R150): no effect when the block owns no bank. -/
def commitIn (e : EpIdx) (s : State) : State :=
  let p := s.ep e
  if p.inFlag then (s.setEp e (p.committed (banks e))).logTx e p.data else s

/-- The body of CLEAR_OUT and RELEASE_RX (R154, R155). -/
def Endpoint.released (p : Endpoint) : Endpoint :=
  if p.outFlag then
    match p.outQ with
    | [] => { p with outRdy := false, data := [] }
    | q :: qs => { p with data := q, outQ := qs }
  else p

/-- Release of the current OUT packet of `EP[e]` (R154, R155). -/
def releaseOut (e : EpIdx) (s : State) : State := s.setEp e (s.ep e).released

/-- The type `EP[e]` takes: `EP[0].type` is `control` once initialised (R58, log 16). -/
def hardwiredType (e : EpIdx) (t : EpType) : EpType :=
  if e = 0 && t != .disabled then .control else t

/-- An endpoint just initialised with type `t` (R158). -/
def Endpoint.fresh (t : EpType) : Endpoint where
  en := t != .disabled
  kind := t
  setup := false
  inRdy := inCapable t
  outRdy := false
  stall := false
  data := []
  inQ := []
  outQ := []

/-- `INIT_EP e, t` (R158): every field by `t`, the type alone hard-wired on endpoint 0 (R58); `SEL` and `TXLOG` are
not changed. -/
def initEndpoint (e : EpIdx) (t : EpType) (s : State) : State :=
  s.setEp e { Endpoint.fresh t with kind := hardwiredType e t }

/-- `EP_TABLE[e]` (R7, R31): the entry of `e ≥ 1`, `disabled` where there is none. -/
def tableType (c : Conf) (e : Nat) : EpType := c.epTable.getD (e - 1) .disabled

/-- `INIT_ALL_ENDPOINTS` (R191): e = 1 to `N_EP - 1`, ascending. -/
def initAllEndpoints (s : State) : State :=
  [1, 2, 3, 4, 5, 6, 7].foldl
    (fun s e => if e < s.conf.nEp then initEndpoint (BitVec.ofNat 3 e) (tableType s.conf e) s else s) s

/-! ## The cursor -/

/-- `CUR_INIT n` (R176). -/
def curInit (n : Word16) (s : State) : State := { s with cursor := ⟨0, n⟩ }

/-- `CUR_POS <- CUR_POS + 1` (R177). -/
def bumpCursor (s : State) : State := { s with cursor.pos := s.cursor.pos + 1 }

/-! ## Activity pulses -/

/-- `ARM_TX` (R255). -/
def armTx (s : State) : State := { s with pulse.txp := Config.pulseWidth, pulse.ledTx := true }

/-- `ARM_RX` (R256). -/
def armRx (s : State) : State := { s with pulse.rxp := Config.pulseWidth, pulse.ledRx := true }

/-! ## The critical section (R161) -/

/-- The snapshot registers of the running context (R62, R320). -/
def State.critCtx (s : State) : CritCtx := if s.irq.inIsr then s.crit.isr else s.crit.main

/-- Write the snapshot registers of the running context. -/
def State.setCritCtx (s : State) (c : CritCtx) : State :=
  if s.irq.inIsr then { s with crit.isr := c } else { s with crit.main := c }

/-- `CRIT_ENTER` (R161): `s_ie <- IE; IE <- 0; s_sel <- SEL`, the outer level's pair set aside. -/
def critEnter (s : State) : State :=
  { s.setCritCtx ⟨⟨s.irq.ie, s.sel⟩, s.critCtx.snap :: s.critCtx.outer⟩ with irq.ie := false }

/-- The snapshot registers when the innermost level is left. -/
def CritCtx.pop (c : CritCtx) : CritCtx :=
  match c.outer with
  | [] => c
  | o :: os => ⟨o, os⟩

/-- `CRIT_EXIT` (R161): `SEL <- s_sel; IE <- s_ie`. -/
def critExit (s : State) : State :=
  { s.setCritCtx s.critCtx.pop with sel := s.critCtx.snap.sel, irq.ie := s.critCtx.snap.ie }

/-! ## Taking an interrupt and returning from it -/

/-- Entry of a handler, one atomic step (R316, R317): nothing is saved. -/
def enterHandler (src : IrqSource) (s : State) : State :=
  match src with
  | .comm => { s with irq.inIsr := true, irq.spurComm := false, ct.pc := .s1 }
  | .frame => { s with irq.inIsr := true, ft.pc := .f1 }

/-- Return from a handler, one atomic step (R318): nothing is restored. -/
def leaveHandler (src : IrqSource) (s : State) : State :=
  match src with
  | .comm => { s with irq.inIsr := false, ct.pc := .idle }
  | .frame => { s with irq.inIsr := false, ft.pc := .idle }

/-! ## Micro-operations that can hold or be refused -/

/-- How one micro-operation ends: done, held (R11: no step while the condition is false), or refused. -/
inductive MicroOut
  | ok (s : State)
  | hold
  | refused (r : Refusal)
  deriving Repr

/-- Sequence. -/
def MicroOut.bind (m : MicroOut) (f : State → MicroOut) : MicroOut :=
  match m with
  | .ok s => f s
  | .hold => .hold
  | .refused r => .refused r

/-- `SELECT i` (R141). -/
def selectOp (i : EpIdx) (s : State) : MicroOut :=
  if i.toNat < s.conf.nEp then .ok (s.setSel i) else .refused .reservedEndpoint

/-- `WAIT_IN` (R143). -/
def waitInOp (s : State) : MicroOut :=
  if !s.cur.en then .refused .disabledEndpoint
  else if !inCapable s.cur.ty then .refused .wrongEndpointType
  else if s.cur.inFlag then .ok s
  else .hold

/-- `WAIT_OUT` (R144). -/
def waitOutOp (s : State) : MicroOut :=
  if !s.cur.en then .refused .disabledEndpoint
  else if !outCapable s.cur.ty then .refused .wrongEndpointType
  else if s.cur.outFlag then .ok s
  else .hold

/-- One byte off the current bank (R145); from an empty bank, the free value and an unchanged bank
(log 10). -/
def popByte (s : State) : Byte × State :=
  match s.cur.data with
  | [] => (Config.freeReadByte s.io.draws, { s with io.draws := s.io.draws + 1 })
  | b :: rest => (b, s.setEp s.sel { s.cur with data := rest })

/-- `n` bytes, in the order they arrived (R146). -/
def popBytes : Nat → State → List Byte × State
  | 0, s => ([], s)
  | n + 1, s =>
    let (b, s1) := popByte s
    let (bs, s2) := popBytes n s1
    (b :: bs, s2)

/-- Why a read of the selected endpoint is refused, if it is (R157, R159). -/
def readRefusal (s : State) : Option Refusal :=
  if !s.cur.en then some .disabledEndpoint
  else if !outCapable s.cur.ty then some .wrongEndpointType
  else none

/-- `READ_N n` (R146): `n` times READ8, so with `n = 0` nothing is read and nothing refused. -/
def readNOp (n : Nat) (s : State) : MicroOut :=
  if n = 0 then .ok (s.setRet (.bytes []))
  else
    match readRefusal s with
    | some r => .refused r
    | none => .ok ((popBytes n s).2.setRet (.bytes (popBytes n s).1))

/-- `WRITE8 b` (R147). -/
def write8Op (b : Byte) (s : State) : MicroOut :=
  if !s.cur.en then .refused .disabledEndpoint
  else if !inCapable s.cur.ty then .refused .wrongEndpointType
  else if s.cur.inRdy && s.cur.data.length < Config.epSize then
    .ok (s.setEp s.sel { s.cur with data := s.cur.data ++ [b] })
  else .refused .writeWithoutRoom

/-- Successive `WRITE8`s. -/
def writeBytes : List Byte → State → MicroOut
  | [], s => .ok s
  | b :: bs, s => (write8Op b s).bind (writeBytes bs)

/-- The operations of control endpoints (R157); a disabled endpoint reads as all flags 0 (R159). -/
def controlRefusal (s : State) : Option Refusal :=
  match s.cur.ty with
  | .control => none
  | .disabled => none
  | .bulkIn => some .wrongEndpointType
  | .bulkOut => some .wrongEndpointType
  | .interruptIn => some .wrongEndpointType

/-- `ACK_IN` (R153). -/
def ackInOp (s : State) : MicroOut :=
  match controlRefusal s with
  | some r => .refused r
  | none => .ok (commitIn s.sel s)

/-- `CLEAR_SETUP` (R152). -/
def clearSetupOp (s : State) : MicroOut :=
  match controlRefusal s with
  | some r => .refused r
  | none => .ok (s.setEp s.sel { s.cur with setup := false, outRdy := false })

/-- `CLEAR_OUT` (R154). -/
def clearOutOp (s : State) : MicroOut :=
  match controlRefusal s with
  | some r => .refused r
  | none => .ok (releaseOut s.sel s)

/-- `STALL` (R151). -/
def stallOp (s : State) : State := s.setEp s.sel { s.cur with stall := true }

/-- `ARM_OUT_STAGE` (R174): `ACK_IN`. -/
def armOutStageOp (s : State) : MicroOut := ackInOp s

/-- The transmitting half of `EMIT8` (R177): wait for a bank, write, commit a full packet. -/
def transmitOp (b : Byte) (s : State) : MicroOut :=
  (waitInOp s).bind fun s1 => (write8Op b s1).bind fun s2 =>
    if s2.cur.cnt = Config.epSize then ackInOp s2 else .ok s2

/-- `EMIT8 b` (R177). -/
def emit8Op (b : Byte) (s : State) : MicroOut :=
  if s.sel ≠ 0 then .refused .emitOffControl
  else if s.cursor.pos = 0xFFFF then .refused .cursorOverflow
  else if s.cursor.pos.toNat < s.cursor.lim.toNat then (transmitOp b s).bind fun s1 => .ok (bumpCursor s1)
  else .ok (bumpCursor s)

/-! ## The host's OUT packet -/

/-- The precondition of `ENV_OUT(e, p)` (R86), on endpoint 0 too, where the one bank is then free in both directions: R89 (a)
reads otherwise, and R86 is followed (log 38). -/
def outEnabled (e : EpIdx) (p : Packet) (s : State) : Bool :=
  let q := s.ep e
  decide (p.length ≤ Config.epSize) && q.en && outCapable q.ty && !q.stall &&
    (!q.outRdy || decide (q.outQ.length < banks e - 1)) && (e != 0 || (!q.setup && q.data.isEmpty))

/-- `ENV_OUT(e, p)` (R86). -/
def envOut (e : EpIdx) (p : Packet) (s : State) : State :=
  if !outEnabled e p s then s
  else if !(s.ep e).outRdy then s.setEp e { s.ep e with data := p, outRdy := true }
  else s.setEp e { s.ep e with outQ := (s.ep e).outQ ++ [p] }

/-! ## Sequences of micro-operations -/

/-- One micro-operation of a request. -/
def microStep (m : Micro) (s : State) : MicroOut :=
  match m with
  | .emit8 b => emit8Op b s
  | .waitIn => waitInOp s
  | .waitOut => waitOutOp s
  | .readN n => if n.toNat ≤ Config.epSize then readNOp n.toNat s else .refused .reservedCount
  | .clearOut => clearOutOp s
  | .select i => selectOp i s
  | .rawWrite _ => .refused .collabWroteRaw
  | .setAddress a => .ok { s with dev.addr := a, dev.addrEn := true }
  | .callReturn => if s.sel = 0 then .ok s else .refused .collabLeftSelector
  | .hostOut e p => .ok (envOut e p s)

/-- How a sequence ends: finished, held with what is left to do, or refused. -/
inductive RunOut
  | finished (s : State)
  | held (rest : List Micro) (s : State)
  | refused (r : Refusal)
  deriving Repr

/-- A sequence runs until it ends or holds (R35: "one big-step function between two hold points", log 7). -/
def runMicros : List Micro → State → RunOut
  | [], s => .finished s
  | m :: ms, s =>
    match microStep m s with
    | .ok s' => runMicros ms s'
    | .hold => .held (m :: ms) s
    | .refused r => .refused r

/-- A raw micro-operation that cannot hold (log 8). -/
def direct (m : MicroOut) (s : State) : Out :=
  match m with
  | .ok s' => .next s'
  | .hold => .next s
  | .refused r => .refused r

/-- Raw micro-operations that can hold: what is left waits in `io.held` and any other agent may step
(R11, log 8). -/
def issue (ms : List Micro) (s : State) : Out :=
  match runMicros ms s with
  | .finished s' => .next s'
  | .held rest s' => .next { s' with io.held := rest }
  | .refused r => .refused r

/-- WAIT_IN or WAIT_OUT (R143, R144). -/
def waitOp : Wait → State → MicroOut
  | .inReady => waitInOp
  | .outReady => waitOutOp

/-- What is left of a handler's wait. -/
def Wait.micro : Wait → Micro
  | .inReady => .waitIn
  | .outReady => .waitOut

/-- The sequencer of the running context holds at a wait: the handler in `io.held`, the mainline's sequencer in
`io.mainWait`, where "no interrupts masked" holds of it (R312): the handlers run while it waits (log 8). -/
def holdAt (w : Wait) (s : State) : State :=
  if s.irq.inIsr then { s with io.held := [w.micro] } else { s with io.mainWait := some w }

/-- A wait issued as a word, in either context (R143, R144, R312; log 8). -/
def issueWait (w : Wait) (s : State) : Out :=
  match waitOp w s with
  | .ok s' => .next s'
  | .hold => .next (holdAt w s)
  | .refused r => .refused r

/-- The mainline's sequencer at a wait: it goes on where the flag is up, and stands still while it is down (R11). -/
def resumeWait (w : Wait) (s : State) : Out :=
  match waitOp w s with
  | .ok s' => .next { s' with io.mainWait := none }
  | .hold => .next s
  | .refused r => .refused r

end Sys2Proof.Machine
end

