-- ==== Sys2Proof/Machine/Operands.lean ====
section
/-! DEFINITION. The operand forms: endpoint operands and the types the commands take (R141, R257), the byte
source of SEND (R243), ranges (R368), the owner of a class interface (R192), the serial-like collaborator
of the frame tick (R273), and the oracle's answers (R126). -/

namespace Sys2Proof.Machine

/-- Endpoint operand in range (R131, R141). -/
def validEp (e : EpIdx) (s : State) : Bool := e.toNat < s.conf.nEp

/-- SEND and FLUSH are for `bulk_in` and `interrupt_in` (R257); a disabled endpoint is not refused. -/
def txRefusal (e : EpIdx) (s : State) : Option Refusal :=
  match (s.ep e).ty with
  | .bulkIn => none
  | .interruptIn => none
  | .disabled => none
  | .bulkOut => some .wrongEndpointType
  | .control => some .wrongEndpointType

/-- RECV is for `bulk_out` (R257). -/
def rxRefusal (e : EpIdx) (s : State) : Option Refusal :=
  match (s.ep e).ty with
  | .bulkOut => none
  | .disabled => none
  | .bulkIn => some .wrongEndpointType
  | .interruptIn => some .wrongEndpointType
  | .control => some .wrongEndpointType

/-- AVAILABLE is for any non-control type (R257), and so is RW_ALLOWED (R157). -/
def nonControlRefusal (p : Endpoint) : Option Refusal :=
  match p.ty with
  | .control => some .wrongEndpointType
  | .bulkIn => none
  | .bulkOut => none
  | .interruptIn => none
  | .disabled => none

/-- A bulk command that names endpoint 0 is refused, whatever the endpoint's state (R368, U16); else by the type
(R257), a disabled endpoint not being refused. -/
def cmdTxRefusal (e : EpIdx) (s : State) : Option Refusal :=
  if e = 0 then some .wrongEndpointType else txRefusal e s

/-- The same for RECV. -/
def cmdRxRefusal (e : EpIdx) (s : State) : Option Refusal :=
  if e = 0 then some .wrongEndpointType else rxRefusal e s

/-- The same for AVAILABLE. -/
def cmdAnyRefusal (e : EpIdx) (s : State) : Option Refusal :=
  if e = 0 then some .wrongEndpointType else nonControlRefusal (s.ep e)

/-- `SND_FLAGS` (R123, R124): bits 2, 1, 0 are ROM, RELEASE, ZERO. -/
def romFlag (f : BitVec 3) : Bool := f.getLsbD 2
def releaseFlag (f : BitVec 3) : Bool := f.getLsbD 1
def zeroFlag (f : BitVec 3) : Bool := f.getLsbD 0

/-- `src(i)` (R243): ZERO over ROM over BUF. `CMD_PTR + i` does not wrap (log 3). -/
def srcByte (flags : BitVec 3) (ptr : Word16) (s : State) (i : Nat) : Byte :=
  if zeroFlag flags then 0
  else if romFlag flags then s.conf.rom.read (ptr.toNat + i)
  else s.buf.read (ptr.toNat + i)

/-- `src(i), ..., src(i + n - 1)`. -/
def srcBytes (flags : BitVec 3) (ptr : Word16) (s : State) (i n : Nat) : List Byte :=
  (List.range n).map fun j => srcByte flags ptr s (i + j)

/-- Whether the payload of a SEND lies in its space (R368); with ZERO `CMD_PTR` is ignored (R75). -/
def sendInRange (flags : BitVec 3) (ptr len : Word16) (s : State) : Bool :=
  if zeroFlag flags then true
  else if romFlag flags then inSpace s.conf.romEnd ptr.toNat len.toNat
  else inSpace s.conf.bufEnd ptr.toNat len.toNat

/-- The collaborator that owns interface `i`, its indices starting at `base`, with its place in `COLLABS`
(R192). -/
def ownerFrom (i : Nat) : List Collab → Nat → Nat → Option (Nat × Collab)
  | [], _, _ => none
  | c :: cs, k, base =>
    if base ≤ i ∧ i < base + c.nif.toNat then some (k, c) else ownerFrom i cs (k + 1) (base + c.nif.toNat)

/-- The owner of interface `i` (R192). -/
def owner (i : Nat) (cs : List Collab) : Option (Nat × Collab) := ownerFrom i cs 0 0

/-- The endpoints of the first serial-like collaborator (R273, D41): `(tx_ep, rx_ep)`. -/
def serialEps : List Collab → Option (EpIdx × EpIdx)
  | [] => none
  | c :: cs =>
    match c.kind with
    | .serialLike tx rx => some (tx, rx)
    | .hidLike => serialEps cs

/-- The next oracle answer: the schedule's, else a free value (log 9). -/
def nextAnswer (s : State) : CollabAnswer × State :=
  match s.io.answers with
  | a :: as => (a, { s with io.answers := as })
  | [] => (Config.freeAnswer s.io.draws, { s with io.draws := s.io.draws + 1 })

/-- What a collaborator does, as micro-operations (R192). -/
def collabMicros : CollabOp → List Micro
  | .emit bs => bs.map Micro.emit8
  | .waitOut => [.waitOut]
  | .readN n => [.readN n]
  | .clearOut => [.clearOut]
  | .select i => [.select i]
  | .write8 b => [.rawWrite b]
  | .hostOut e p => [.hostOut e p]

/-- A call: what the answer says, then the return. -/
def answerMicros (a : CollabAnswer) : List Micro :=
  a.ops.flatMap collabMicros ++ [.callReturn]

/-- The ghost log of calls (log 27). -/
def State.logCall (s : State) (c : CollabCall) : State := { s with ghost.calls := s.ghost.calls ++ [c] }

end Sys2Proof.Machine
end

