-- ==== Sys2Proof/Machine/Endpoint.lean ====
section
/-! DEFINITION. The micro-operations of the Endpoint Register Interface (40_endpoint_interface.md), and
SEND_SPACE (43_bulk_engine.md R242). -/

namespace Sys2Proof.Machine

/-- SELECT i (R141). -/
def execSelect (i : EpIdx) (s : State) : Out := issue [.select i] s

/-- TEST_SETUP (R142): on a non-control endpoint it returns 0 (log 19). -/
def execTestSetup (s : State) : Out := .next (s.setRet (.bit s.cur.setupFlag))

/-- WAIT_IN (R143, R312). -/
def execWaitIn (s : State) : Out := issueWait .inReady s

/-- WAIT_OUT (R144). -/
def execWaitOut (s : State) : Out := issueWait .outReady s

/-- READ8 (R145); from an empty bank a free value and the bank unchanged (log 10). -/
def execRead8 (s : State) : Out :=
  match readRefusal s with
  | some r => .refused r
  | none => .next ((popByte s).2.setRet (.byte (popByte s).1))

/-- READ_N n (R146). -/
def execReadN (n : Byte) (s : State) : Out := issue [.readN n] s

/-- WRITE8 b (R147). -/
def execWrite8 (b : Byte) (s : State) : Out := direct (write8Op b s) s

/-- BYTE_COUNT (R148). -/
def execByteCount (s : State) : Out := .next (s.setRet (.count (BitVec.ofNat 7 s.cur.cnt)))

/-- RW_ALLOWED (R149): refused on a control endpoint (R157, log 18), 0 on a disabled one (R159). -/
def execRwAllowed (s : State) : Out :=
  match nonControlRefusal s.cur with
  | some r => .refused r
  | none => .next (s.setRet (.bit s.cur.rwAllowed))

/-- The critical section of SEND_SPACE (R242): the free space, and the state after CRIT_EXIT. -/
def spaceCrit (e : EpIdx) (s : State) : Nat × State :=
  let s1 := (critEnter s).setSel e
  (s1.cur.freeSpace, critExit s1)

/-- SEND_SPACE e (R242). -/
def execSendSpace (e : EpIdx) (s : State) : Out :=
  if !validEp e s then .refused .reservedEndpoint
  else
    match nonControlRefusal (s.ep e) with
    | some r => .refused r
    | none => .next ((spaceCrit e s).2.setRet (.count (BitVec.ofNat 7 (spaceCrit e s).1)))

/-- STALL (R151). -/
def execStall (s : State) : Out := .next (stallOp s)

/-- CLEAR_SETUP (R152). -/
def execClearSetup (s : State) : Out := direct (clearSetupOp s) s

/-- ACK_IN (R153). -/
def execAckIn (s : State) : Out := direct (ackInOp s) s

/-- CLEAR_OUT (R154). -/
def execClearOut (s : State) : Out := direct (clearOutOp s) s

/-- RELEASE_RX (R155): the same as CLEAR_OUT, for type `bulk_out`. -/
def execReleaseRx (s : State) : Out :=
  match rxRefusal s.sel s with
  | some r => .refused r
  | none => .next (releaseOut s.sel s)

/-- RELEASE_TX (R156): `commit_in(SEL)`, for types `bulk_in` and `interrupt_in`. -/
def execReleaseTx (s : State) : Out :=
  match txRefusal s.sel s with
  | some r => .refused r
  | none => .next (commitIn s.sel s)

/-- INIT_EP e, t (R158). -/
def execInitEp (e : EpIdx) (t : EpType) (s : State) : Out :=
  if !validEp e s then .refused .reservedEndpoint else .next (initEndpoint e t s)

/-- CRIT_ENTER (R161). -/
def execCritEnter (s : State) : Out := .next (critEnter s)

/-- CRIT_EXIT (R161). `SEL` is given no value of `N_EP` or more (R58), which only a snapshot that no CRIT_ENTER has
written can hold (log 21). -/
def execCritExit (s : State) : Out :=
  if validEp s.critCtx.snap.sel s then .next (critExit s) else .refused .reservedEndpoint

end Sys2Proof.Machine
end

