-- ==== Sys2Proof/Machine/Bulk.lean ====
section
/-! DEFINITION. The Bulk Transfer Engine (43_bulk_engine.md): the commands SEND, RECV, AVAILABLE, FLUSH as
the mainline issues them, and the steps of SEND and RECV at their program points (R37, R244, R250). -/

namespace Sys2Proof.Machine

/-- A mainline command is being served (R56). -/
def busy (s : State) : Bool := s.be.pc != .idle || s.power.pc != .idle

/-! ## The critical sections -/

/-- The `crit` of AVAILABLE (R253): the byte count, and the state after CRIT_EXIT. -/
def countCrit (e : EpIdx) (s : State) : Nat × State :=
  let s1 := (critEnter s).setSel e
  (s1.cur.cnt, critExit s1)

/-- The `crit` of FLUSH (R254). -/
def flushCrit (e : EpIdx) (s : State) : State :=
  let s1 := (critEnter s).setSel e
  critExit (if s1.cur.cnt ≠ 0 then commitIn s1.sel s1 else s1)

/-- Inside the `crit` of RECV (R250): the bytes read from the selected endpoint, at most `len`, and the
release when at least one was read and the bank is drained (R251). -/
def drainSelected (len : Nat) (s : State) : List Byte × State :=
  let n := min s.cur.cnt len
  let (bs, s1) := popBytes n s
  (bs, if 0 < n ∧ s1.cur.cnt = 0 then releaseOut s1.sel s1 else s1)

/-- The `crit` of RECV (R250), the bytes not yet stored anywhere. -/
def recvCrit (e : EpIdx) (len : Nat) (s : State) : List Byte × State :=
  let (bs, s1) := drainSelected len ((critEnter s).setSel e)
  (bs, critExit s1)

/-- Inside the `crit` of a chunk (R244): the writes, then the release (R247). On an endpoint that a handler made `control`
since SND.space, `rw_allowed` has no defined value (R45): whether the bank is committed there is a free value (log 18). -/
def chunkSelected (bs : List Byte) (last : Bool) (s : State) : MicroOut :=
  (writeBytes bs s).bind fun s1 =>
    .ok (if !s1.cur.rwAllowed || last then commitIn s1.sel s1 else s1)

/-- The `crit` of a chunk (R244). -/
def chunkCrit (e : EpIdx) (bs : List Byte) (last : Bool) (s : State) : MicroOut :=
  (chunkSelected bs last ((critEnter s).setSel e)).bind fun s1 => .ok (critExit s1)

/-! ## Results -/

/-- `OK(n)` on the result port (R125). -/
def okResult (n : Word16) (s : State) : State :=
  { s with port.res := n, be.pc := .idle, ghost.bulkFail := none }

/-- `FAIL(cause)` on the result port (R125, R300). -/
def failResult (c : Cause) (s : State) : State :=
  { s with port.res := Config.failResult, be.pc := .idle, ghost.bulkFail := some c }

/-! ## The commands -/

/-- SEND (R244): the command words, then SND.check. What R368 says is refused comes first (R56, R131, R249, R257 and
the range); then the test of `CFG`, before any hardware is touched (log 20). -/
def execSend (ep : EpIdx) (rom release zero : Bool) (ptr len : Word16) (s : State) : Out :=
  let flags := flagsOf rom release zero
  if busy s then .refused .commandWhileBusy
  else if !validEp ep s then .refused .reservedEndpoint
  else if len.msb then .refused .negativeSendLength
  else
    match cmdTxRefusal ep s with
    | some r => .refused r
    | none =>
      let s1 := { s with port.op := 0x01, port.epf := epfOf ep flags, port.ptr := ptr, port.len := len }
      if !sendInRange flags ptr len s1 then .refused .rangeOutsideMemory
      else if s1.dev.cfg = 0 then .next (failResult .eNotConfigured s1)
      else
        .next { s1 with be.pc := .sndLoop, be.sndEp := ep, be.sndFlags := flags, be.sndPtr := ptr,
                        be.sndTotal := len, be.sndRem := len, be.sndTmo := Config.sendTimeout, be.sndI := 0 }

/-- RECV (R250): the command words, then RCV.check, after what R368 says is refused; a negative length names no
range (log 20). -/
def execRecv (ep : EpIdx) (flags : BitVec 3) (ptr len : Word16) (s : State) : Out :=
  if busy s then .refused .commandWhileBusy
  else if !validEp ep s then .refused .reservedEndpoint
  else
    match cmdRxRefusal ep s with
    | some r => .refused r
    | none =>
      let s1 := { s with port.op := 0x02, port.epf := epfOf ep flags, port.ptr := ptr, port.len := len }
      if !len.msb && !inSpace s1.conf.bufEnd ptr.toNat len.toNat then .refused .rangeOutsideMemory
      else if s1.dev.cfg = 0 then .next (failResult .eNotConfigured s1)
      else if len.msb then .next (failResult .eNegLength s1)
      else .next { s1 with be.pc := .rcvCrit }

/-- AVAILABLE (R253). -/
def execAvailable (ep : EpIdx) (flags : BitVec 3) (s : State) : Out :=
  if busy s then .refused .commandWhileBusy
  else if !validEp ep s then .refused .reservedEndpoint
  else
    match cmdAnyRefusal ep s with
    | some r => .refused r
    | none =>
      let s1 := { s with port.op := 0x03, port.epf := epfOf ep flags }
      .next (okResult (BitVec.ofNat 16 (countCrit ep s1).1) (countCrit ep s1).2)

/-- FLUSH (R254): no result. -/
def execFlush (ep : EpIdx) (flags : BitVec 3) (s : State) : Out :=
  if busy s then .refused .commandWhileBusy
  else if !validEp ep s then .refused .reservedEndpoint
  else
    match cmdTxRefusal ep s with
    | some r => .refused r
    | none => .next (flushCrit ep { s with port.op := 0x04, port.epf := epfOf ep flags })

/-! ## The steps of SEND -/

/-- SND.loop (R244). -/
def sndLoop (s : State) : State :=
  if s.be.sndRem = 0 then { s with be.pc := .sndDone } else { s with be.pc := .sndSpace }

/-- SND.space (R244): `SEND_SPACE`, then either the wait or the size of the chunk. -/
def sndSpace (s : State) : Out :=
  match nonControlRefusal (s.ep s.be.sndEp) with
  | some r => .refused r
  | none =>
    let (n, s1) := spaceCrit s.be.sndEp s
    if n = 0 then .next { s1 with be.sndN := 0, be.pc := .sndWait }
    else
      let k := min n s1.be.sndRem.toNat
      .next { s1 with be.sndN := BitVec.ofNat 7 k, be.sndRem := s1.be.sndRem - BitVec.ofNat 16 k, be.pc := .sndChunk }

/-- SND.wait (R244, R245): `wait_1ms` (`Config.sendWaitMs`), always enabled (R370, log 28), then the timeout
counter. -/
def sndWait (s : State) : State :=
  let s1 := { s with be.sndTmo := s.be.sndTmo - 1 }
  if s1.be.sndTmo = 0 then failResult .eSendTimeout s1 else { s1 with be.pc := .sndLoop }

/-- SND.chunk (R244, R247): each payload byte is read here (R243). R246 says the bytes always fit unless a handler
re-initialises the endpoint; a FLUSH of the frame tick since SND.space (R273) can also have committed the bank and left
none free, and then WRITE8 is refused (R147, U6; log 39). -/
def sndChunk (s : State) : Out :=
  let n := s.be.sndN.toNat
  let bs := srcBytes s.be.sndFlags s.be.sndPtr s s.be.sndI.toNat n
  let last := decide (s.be.sndRem = 0) && releaseFlag s.be.sndFlags
  match chunkCrit s.be.sndEp bs last s with
  | .ok s1 => .next { s1 with be.sndI := s1.be.sndI + BitVec.ofNat 16 n, be.pc := .sndArm }
  | .hold => .next s
  | .refused r => .refused r

/-- SND.arm (R244). -/
def sndArm (s : State) : State := { armTx s with be.pc := .sndLoop }

/-- SND.done (R244): `OK(SND_TOTAL)`. -/
def sndDone (s : State) : State := okResult s.be.sndTotal s

/-! ## The steps of RECV -/

/-- The endpoint operand of the command being served: `CMD_EPF[2:0]` (R123). -/
def portEp (s : State) : EpIdx := s.port.epf.extractLsb' 0 3

/-- RCV.crit (R250): the bytes go to `BUF` from `CMD_PTR` upward. -/
def rcvCritStep (s : State) : Out :=
  match rxRefusal (portEp s) s with
  | some r => .refused r
  | none =>
    let (bs, s1) := recvCrit (portEp s) s.port.len.toNat s
    .next { s1 with buf := s1.buf.writeList s.port.ptr.toNat bs, be.rcvN := BitVec.ofNat 7 bs.length, be.pc := .rcvArm }

/-- RCV.arm (R250). -/
def rcvArm (s : State) : State :=
  okResult (s.be.rcvN.setWidth 16) (if s.be.rcvN ≠ 0 then armRx s else s)

/-- One atomic step of `A_BE`. -/
def beStep (s : State) : Out :=
  match s.be.pc with
  | .idle => .next s
  | .sndLoop => .next (sndLoop s)
  | .sndSpace => sndSpace s
  | .sndWait => .next (sndWait s)
  | .sndChunk => sndChunk s
  | .sndArm => .next (sndArm s)
  | .sndDone => .next (sndDone s)
  | .rcvCrit => rcvCritStep s
  | .rcvArm => .next (rcvArm s)

end Sys2Proof.Machine
end

