-- ==== Sys2Proof/Machine/Attach.lean ====
section
/-! DEFINITION. The attach sequence (44_frame_tick_attach.md R280 to R285). -/

namespace Sys2Proof.Machine

/-- ATTACH (R281): the command word, then A1. A second ATTACH is refused (R280): `PWR` is written by
nothing else (R54). -/
def execAttach (s : State) : Out :=
  if busy s then .refused .commandWhileBusy
  else if s.power.pwr then .refused .attachTwice
  else .next { s with port.op := 0x00, power.pwr := true, power.pc := .a2 }

/-- One atomic step of `A_AT` (R281); `A2.wait` holds until `PLL_LOCK = 1` (R282). -/
def atStep (s : State) : State :=
  match s.power.pc with
  | .idle => s
  | .a2 => { s with power.clkEn := true, power.pllEn := true, power.pc := .a2Wait }
  | .a2Wait => if s.power.pllLock then { s with power.pc := .a3 } else s
  | .a3 => { s with irq.ienEor := true, irq.ienSof := true, power.pc := .a4 }
  | .a4 => { s with power.attachEn := true, power.pc := .a5 }
  | .a5 => { s with pulse.ledTx := false, pulse.ledRx := false, power.pc := .idle }

end Sys2Proof.Machine
end

