-- ==== Sys2Proof/Machine/Cursor.lean ====
section
/-! DEFINITION. The cursor operations (41_control_transfer.md section 2), ARM_OUT_STAGE (R174) and the
activity pulses (43_bulk_engine.md section 5) as micro-operations. -/

namespace Sys2Proof.Machine

/-- CUR_INIT n (R176). -/
def execCurInit (n : Word16) (s : State) : Out := .next (curInit n s)

/-- EMIT8 b (R177). -/
def execEmit8 (b : Byte) (s : State) : Out := issue [.emit8 b] s

/-- EMIT_N bs (R178). -/
def execEmitN (bs : List Byte) (s : State) : Out := issue (bs.map Micro.emit8) s

/-- ARM_TX (R255). -/
def execArmTx (s : State) : Out := .next (armTx s)

/-- ARM_RX (R256). -/
def execArmRx (s : State) : Out := .next (armRx s)

/-- ARM_OUT_STAGE (R174). -/
def execArmOutStage (s : State) : Out := direct (armOutStageOp s) s

end Sys2Proof.Machine
end

