-- ==== Sys2Proof/Machine/Control.lean ====
section
/-! DEFINITION. What DISPATCH performs at step S4 of the communication handler (41_control_transfer.md): one
meaning for each request the Control Transfer State Machine answers itself. A request runs its
micro-operations until it ends, and `CT.pc` is S5 with the result, or until it holds, and `CT.pc` is the
hold point with what is left (log 7). -/

namespace Sys2Proof.Machine

/-- The hold point a micro-operation waits at (R36, log 26). -/
def holdPoint : List Micro → CtPoint
  | .waitIn :: _ => .s4SetaddrWait
  | .waitOut :: _ => .s4CallWait
  | _ => .s4EmitWait

/-- The micro-operations of a request, and the result it ends with (R180). -/
def runRequest (ms : List Micro) (res : CtResult) (s : State) : Out :=
  match runMicros ms s with
  | .finished s' => .next { s' with ct.pc := .s5, ct.todo := [], ct.result := res }
  | .held rest s' => .next { s' with ct.pc := holdPoint rest, ct.todo := rest, ct.result := res }
  | .refused r => .refused r

/-- GET_STATUS (R184): two zero bytes through the cursor. -/
def execGetStatus (_r : Req) (s : State) : Out := runRequest [.emit8 0, .emit8 0] .ok s

/-- SET_ADDRESS (R185): wait for IN-ready, then `ADDR <- wValueL[6:0]; ADDR_EN <- 1`. -/
def execSetAddress (r : Req) (s : State) : Out :=
  runRequest [.waitIn, .setAddress (r.wValueL.extractLsb' 0 7)] .ok s

/-- SET_DESCRIPTOR (R187): always a failure. -/
def execSetDescriptor (_r : Req) (s : State) : Out := runRequest [] (.fail .fSetDescriptor) s

/-- GET_CONFIGURATION (R188): the constant 1, whatever `CFG` holds. -/
def execGetConfiguration (_r : Req) (s : State) : Out := runRequest [.emit8 Config.getcfgAnswer] .ok s

/-- SET_CONFIGURATION (R189): only with recipient `device`. -/
def execSetConfiguration (r : Req) (s : State) : Out :=
  if r.recipient = 0 then
    runRequest [] .ok { initAllEndpoints s with dev.cfg := r.wValueL }
  else runRequest [] (.fail .fRecipient) s

/-- A standard request code the source does not name (R190): `UNLISTED_STD_RESULT`. -/
def execStandardUnlisted (_b : Byte) (_r : Req) (s : State) : Out :=
  runRequest [] (if s.conf.unlistedOk then .ok else .fail .fUnlisted) s

/-- CLASS (R192): to the collaborator that owns interface `wIndex[7:0]`; success where nobody does. -/
def execClassRequest (b : Byte) (r : Req) (s : State) : Out :=
  let s1 := curInit r.wLength s
  match owner (lo8 r.wIndex).toNat s.conf.collabs with
  | none => runRequest [] .ok s1
  | some (k, _) =>
    let (a, s2) := nextAnswer (s1.logCall (.setup k (r.packet 1 b)))
    runRequest (answerMicros a) (if a.ok then .ok else .fail .fClass) s2

/-- Request kind 2, vendor (R128, R193): a failure. -/
def execKindVendor (_b : Byte) (_r : Req) (s : State) : Out := runRequest [] (.fail .fKind) s

/-- Request kind 3, reserved (R128, R193): a failure. -/
def execKindReserved (_b : Byte) (_r : Req) (s : State) : Out := runRequest [] (.fail .fKind) s

end Sys2Proof.Machine
end

