-- ==== Sys2Proof/Machine/Tables.lean ====
section
/-! DEFINITION. The stored descriptor tables and the configuration header, byte by byte (30_encoding.md R111
to R118), and the emission of a stored table (42_descriptor_provider.md R220). -/

namespace Sys2Proof.Machine

/-- The device descriptor with device class `cls` (R112). -/
def deviceTable (c : Conf) (cls : Byte) : List Byte :=
  [Config.devDescLen, Config.dtDevice, lo8 Config.bcdUsb, hi8 Config.bcdUsb, cls, 0, 0, Config.maxPacket0,
    lo8 c.vid, hi8 c.vid, lo8 c.pid, hi8 c.pid, lo8 Config.bcdDevice, hi8 Config.bcdDevice,
    c.iManufacturer, c.iProduct, c.iSerial, Config.numConfigs]

/-- `DEV_PLAIN` (R112). -/
def devPlain (c : Conf) : List Byte := deviceTable c 0

/-- `DEV_COMPOSITE` (R113). -/
def devComposite (c : Conf) : List Byte := deviceTable c c.compositeClass

/-- The layout of a string descriptor (R114): low byte of each code unit first (R76). -/
def stringTable (units : List Word16) : List Byte :=
  BitVec.ofNat 8 (2 + 2 * units.length) :: Config.dtString :: units.flatMap fun u => [lo8 u, hi8 u]

/-- `STR_LANG` (R115). -/
def strLang (c : Conf) : List Byte := [4, Config.dtString, lo8 c.langId, hi8 c.langId]

/-- `STR_MANUF` (R116). -/
def strManuf (c : Conf) : List Byte := stringTable c.strManufacturer

/-- `STR_PROD` (R117). -/
def strProd (c : Conf) : List Byte := stringTable c.strProduct

/-- `CFG_HDR(total, nif)` (R118). -/
def cfgHeader (c : Conf) (total : Word16) (nif : Byte) : List Byte :=
  [BitVec.ofNat 8 Config.cfgHdrLen, Config.dtConfiguration, lo8 total, hi8 total, nif,
    c.cfgValue, c.cfgIString, c.cfgAttr, c.cfgMaxPower]

/-- `table[0 : table[0]]` (R220). -/
def tableBytesToEmit (t : List Byte) : List Byte := t.take (t.headD 0).toNat

/-- The configuration descriptor body: each collaborator's bytes in registration order (R119). -/
def cfgBody (cs : List Collab) : List Byte := cs.flatMap fun c => c.ifDesc

/-- `NIF_TOTAL`: the sum of the counts, 8 bits, modulo 256 (R217). -/
def nifSum : List Collab → Byte
  | [] => 0
  | c :: cs => c.nif + nifSum cs

end Sys2Proof.Machine
end

