-- ==== Sys2Proof/Machine/Descriptor.lean ====
section
/-! DEFINITION. The Descriptor Provider (42_descriptor_provider.md), called at step S4. -/

namespace Sys2Proof.Machine

/-- `DESC_DEVICE` (R212): latch first, then select. -/
def descDevice (r : Req) (s : State) : Out :=
  let s1 : State :=
    if r.wLength = Config.compositeTriggerLen then { s with dev.composite := true } else s
  let table := if s1.dev.composite then devComposite s.conf else devPlain s.conf
  runRequest ((tableBytesToEmit table).map Micro.emit8) .ok s1

/-- The table of a string index: the tests in the order 0, product, manufacturer (R213, R214). -/
def stringFor (c : Conf) (x : Byte) : Option (List Byte) :=
  if x = 0 then some (strLang c)
  else if x = c.iProduct then some (strProd c)
  else if x = c.iManufacturer then some (strManuf c)
  else none

/-- `DESC_STRING` (R213). -/
def descString (r : Req) (s : State) : Out :=
  match stringFor s.conf r.wValueL with
  | some table => runRequest ((tableBytesToEmit table).map Micro.emit8) .ok s
  | none => runRequest [] (.fail .fDescNotFound) s

/-- Pass 2 of `DESC_CONFIG` (R216), `MEASURED` and `NIF_TOTAL` being in place. -/
def configPass2 (r : Req) (s : State) : Out :=
  if 65535 < s.ct.measured.toNat + Config.cfgHdrLen then .refused .cursorOverflow
  else
    let header := cfgHeader s.conf (s.ct.measured + BitVec.ofNat 16 Config.cfgHdrLen) s.ct.nifTotal
    runRequest ((header ++ cfgBody s.conf.collabs).map Micro.emit8) .ok (curInit r.wLength s)

/-- `DESC_CONFIG` (R216): pass 1 with limit 0, in which no emission can hold, then pass 2. -/
def descConfig (r : Req) (s : State) : Out :=
  match runMicros ((cfgBody s.conf.collabs).map Micro.emit8) (curInit 0 s) with
  | .finished s1 =>
    configPass2 r { s1 with ct.measured := s1.cursor.pos, ct.nifTotal := nifSum s.conf.collabs }
  | .held rest s1 => .next { s1 with ct.pc := holdPoint rest, ct.todo := rest }
  | .refused x => .refused x

/-- The calls of `DESC_OTHER` (R219) from collaborator number `k` on: the micro-operations of the answers
up to the first success, and whether there is one. -/
def offerDescriptor (p : SetupPacket) : List Collab → Nat → State → List Micro × Bool × State
  | [], _, s => ([], false, s)
  | c :: cs, k, s =>
    match c.kind with
    | .serialLike _ _ => offerDescriptor p cs (k + 1) s
    | .hidLike =>
      let (a, s1) := nextAnswer (s.logCall (.getDescriptor k p))
      if a.ok then (answerMicros a, true, s1)
      else
        let (ms, found, s2) := offerDescriptor p cs (k + 1) s1
        (answerMicros a ++ ms, found, s2)

/-- `DESC_OTHER` (R219): every type but 1, 2, 3 is offered to the HID-like collaborators in order. -/
def descOther (r : Req) (s : State) : Out :=
  let (ms, found, s1) := offerDescriptor (r.packet 0 6) s.conf.collabs 0 s
  runRequest ms (if found then .ok else .fail .fDescNotFound) s1

/-- GET_DESCRIPTOR, the parent row (R186, R211): `DESC_PROVIDE`. -/
def execGetDescriptor (r : Req) (s : State) : Out :=
  if r.wValueH = Config.dtConfiguration then descConfig r s
  else if r.wValueH = Config.dtDevice then descDevice r s
  else if r.wValueH = Config.dtString then descString r s
  else descOther r s

/-- GET_DESCRIPTOR(DEVICE) (R212). -/
def execGetDescriptorDevice (r : Req) (s : State) : Out := descDevice r s

/-- GET_DESCRIPTOR(CONFIGURATION) (R216). -/
def execGetDescriptorConfiguration (r : Req) (s : State) : Out := descConfig r s

/-- GET_DESCRIPTOR(STRING) (R213). -/
def execGetDescriptorString (r : Req) (s : State) : Out := descString r s

/-- GET_DESCRIPTOR of any other type (R219). -/
def execGetDescriptorOther (r : Req) (s : State) : Out := descOther r s

end Sys2Proof.Machine
end

