-- ==== Sys2Proof/Machine/Frame.lean ====
section
/-! DEFINITION. The events (30_encoding.md R127), each the delivery of an interrupt to its handler (log 12),
and the steps of the frame handler (44_frame_tick_attach.md R270 to R278). -/

namespace Sys2Proof.Machine

/-! ## Events -/

/-- Deliver `src` where a handler can start and `when` holds; elsewhere nothing is delivered and the
request stays pending (R314). -/
def deliver (src : IrqSource) (cause : Bool) (s : State) : Out :=
  if grants src s && cause then .next (enterHandler src s) else .next s

/-- `SetupReceived` (R127, R170, R309): the communication interrupt with `EP[0].setup = 1`. -/
def execEvtSetupReceived (s : State) : Out := deliver .comm (s.ep 0).setup s

/-- `FrameTick` (R127, R275, R310): the frame interrupt for `PEND_SOF`. -/
def execEvtFrameTick (s : State) : Out := deliver .frame (s.irq.ienSof && s.irq.pendSof) s

/-- `BusReset` (R127, R272, R310): the frame interrupt for `PEND_EOR`. -/
def execEvtBusReset (s : State) : Out := deliver .frame (s.irq.ienEor && s.irq.pendEor) s

/-- `SpuriousComm` (R127, R171, R309): the communication interrupt with `EP[0].setup = 0`. -/
def execEvtSpuriousComm (s : State) : Out := deliver .comm (!(s.ep 0).setup) s

/-! ## The frame handler -/

/-- F1 (R271): read and clear both pending bits. -/
def frameSnapshot (s : State) : State :=
  { s with ft.eor := s.irq.pendEor, ft.sof := s.irq.pendSof, irq.pendEor := false, irq.pendSof := false,
           ft.pc := .f2 }

/-- `BUS_RESET` (R272). -/
def busReset (s : State) : State :=
  { initEndpoint 0 .control s with dev.cfg := 0, irq.ienSetup0 := true }

/-- F2 (R270): the bus-reset branch, then the tick branch or the end. -/
def frameReset (s : State) : State :=
  let s1 := if s.ft.eor then busReset s else s
  { s1 with ft.pc := if s.ft.sof then .f3 else .exit }

/-- F3, `TICK_FLUSH` (R273, R277). -/
def tickFlush (s : State) : Out :=
  match serialEps s.conf.collabs with
  | none => .next { s with ft.pc := .f4 }
  | some (tx, _) =>
    if !validEp tx s then .refused .reservedEndpoint
    else
      match cmdTxRefusal tx s with
      | some r => .refused r
      | none => .next { flushCrit tx s with ft.pc := .f4 }

/-- One turn of the loop of F4, `TICK_PULL` (R274): a byte to the sink, or the end of the loop. While
`CFG = 0` RECV fails and the turn changes nothing (R362), whatever the endpoint's direction: that the failure comes before
the refusal of a wrong direction (R257) is a DESIGN CHOICE (log 20). -/
def tickPull (s : State) : Out :=
  match serialEps s.conf.collabs with
  | none => .next { s with ft.pc := .f5 }
  | some (_, rx) =>
    if !validEp rx s then .refused .reservedEndpoint
    else
      match cmdAnyRefusal rx s with
      | some r => .refused r
      | none =>
        let (n, s1) := countCrit rx s
        if n = 0 then .next { s1 with ft.pc := .f5 }
        else if s1.dev.cfg = 0 then .next s1
        else
          match rxRefusal rx s1 with
          | some r => .refused r
          | none =>
            let (bs, s2) := recvCrit rx 1 s1
            let s3 := armRx s2
            .next { s3 with ft.tmp := bs.headD s3.ft.tmp, ghost.rxSink := s3.ghost.rxSink ++ bs }

/-- F5, `TICK_TIMERS` (R275). -/
def tickTimers (s : State) : State :=
  let p := s.pulse
  { s with pulse := {
      txp := if p.txp = 0 then 0 else p.txp - 1
      rxp := if p.rxp = 0 then 0 else p.rxp - 1
      ledTx := if p.txp = 1 then false else p.ledTx
      ledRx := if p.rxp = 1 then false else p.ledRx } }

/-- One atomic step of `A_FT` (R270). -/
def ftStep (s : State) : Out :=
  match s.ft.pc with
  | .idle => .next s
  | .f1 => .next (frameSnapshot s)
  | .f2 => .next (frameReset s)
  | .f3 => tickFlush s
  | .f4 => tickPull s
  | .f5 => .next { tickTimers s with ft.pc := .exit }
  | .exit => .next (leaveHandler .frame s)

end Sys2Proof.Machine
end

