-- ==== Sys2Proof/Machine/Dispatch.lean ====
section
/-! DEFINITION. One arm per constructor of `Instr`: the meaning it calls. -/

namespace Sys2Proof.Machine

def exec (i : Instr) (s : State) : Host.Outcome State Fault Refusal :=
  match i with
  | .getStatus r => Sys2Proof.Machine.execGetStatus r s
  | .setAddress r => Sys2Proof.Machine.execSetAddress r s
  | .getDescriptor r => Sys2Proof.Machine.execGetDescriptor r s
  | .getDescriptorDevice r => Sys2Proof.Machine.execGetDescriptorDevice r s
  | .getDescriptorConfiguration r => Sys2Proof.Machine.execGetDescriptorConfiguration r s
  | .getDescriptorString r => Sys2Proof.Machine.execGetDescriptorString r s
  | .getDescriptorOther r => Sys2Proof.Machine.execGetDescriptorOther r s
  | .setDescriptor r => Sys2Proof.Machine.execSetDescriptor r s
  | .getConfiguration r => Sys2Proof.Machine.execGetConfiguration r s
  | .setConfiguration r => Sys2Proof.Machine.execSetConfiguration r s
  | .standardUnlisted b r => Sys2Proof.Machine.execStandardUnlisted b r s
  | .classRequest b r => Sys2Proof.Machine.execClassRequest b r s
  | .kindVendor b r => Sys2Proof.Machine.execKindVendor b r s
  | .kindReserved b r => Sys2Proof.Machine.execKindReserved b r s
  | .attach => Sys2Proof.Machine.execAttach s
  | .send ep rom release zero ptr len => Sys2Proof.Machine.execSend ep rom release zero ptr len s
  | .recv ep flags ptr len => Sys2Proof.Machine.execRecv ep flags ptr len s
  | .available ep flags => Sys2Proof.Machine.execAvailable ep flags s
  | .flush ep flags => Sys2Proof.Machine.execFlush ep flags s
  | .select e => Sys2Proof.Machine.execSelect e s
  | .testSetup => Sys2Proof.Machine.execTestSetup s
  | .waitIn => Sys2Proof.Machine.execWaitIn s
  | .waitOut => Sys2Proof.Machine.execWaitOut s
  | .read8 => Sys2Proof.Machine.execRead8 s
  | .readN n => Sys2Proof.Machine.execReadN n s
  | .write8 b => Sys2Proof.Machine.execWrite8 b s
  | .byteCount => Sys2Proof.Machine.execByteCount s
  | .rwAllowed => Sys2Proof.Machine.execRwAllowed s
  | .sendSpace e => Sys2Proof.Machine.execSendSpace e s
  | .stall => Sys2Proof.Machine.execStall s
  | .clearSetup => Sys2Proof.Machine.execClearSetup s
  | .ackIn => Sys2Proof.Machine.execAckIn s
  | .clearOut => Sys2Proof.Machine.execClearOut s
  | .releaseRx => Sys2Proof.Machine.execReleaseRx s
  | .releaseTx => Sys2Proof.Machine.execReleaseTx s
  | .initEp e t => Sys2Proof.Machine.execInitEp e t s
  | .critEnter => Sys2Proof.Machine.execCritEnter s
  | .critExit => Sys2Proof.Machine.execCritExit s
  | .curInit n => Sys2Proof.Machine.execCurInit n s
  | .emit8 b => Sys2Proof.Machine.execEmit8 b s
  | .emitN bs => Sys2Proof.Machine.execEmitN bs s
  | .armTx => Sys2Proof.Machine.execArmTx s
  | .armRx => Sys2Proof.Machine.execArmRx s
  | .armOutStage => Sys2Proof.Machine.execArmOutStage s
  | .evtSetupReceived => Sys2Proof.Machine.execEvtSetupReceived s
  | .evtFrameTick => Sys2Proof.Machine.execEvtFrameTick s
  | .evtBusReset => Sys2Proof.Machine.execEvtBusReset s
  | .evtSpuriousComm => Sys2Proof.Machine.execEvtSpuriousComm s

end Sys2Proof.Machine
end

