-- ==== Sys2Proof/Machine/Env.lean ====
section
/-! DEFINITION. The environment's moves (20_memory.md R84 to R89). A move whose precondition does not hold
cannot happen: the schedule's entry changes nothing (log 5). What U20 says a model refuses is refused. -/

namespace Sys2Proof.Machine

/-- `ENV_SETUP(p)` (R85). While the control handler runs it is refused (D44, U20). One that comes before the packet before
it is served has the effect R85 gives: it replaces that packet (log 35, R311). -/
def envSetup (p : SetupPacket) (s : State) : Out :=
  if !(s.ep 0).en then .next s
  else if s.ct.pc ≠ .idle then .refused .setupDuringTransfer
  else
    .next (s.setEp 0 { s.ep 0 with data := p.bytes, setup := true, inQ := [], inRdy := true, outQ := [], stall := false })

/-- `ENV_IN_TAKEN(e)` (R86). -/
def envInTaken (e : EpIdx) (s : State) : State :=
  match (s.ep e).inQ with
  | [] => s
  | _ :: q => s.setEp e { s.ep e with inQ := q, inRdy := true }

/-- Every endpoint e ≥ 1 disabled and emptied (R87). -/
def clearEndpoints (s : State) : State :=
  [1, 2, 3, 4, 5, 6, 7].foldl (fun s e => s.setEp (BitVec.ofNat 3 e) Endpoint.off) s

/-- `ENV_EOR` (R87). -/
def envEor (s : State) : Out :=
  if !s.power.attachEn then .next s
  else if s.ct.pc ≠ .idle ∨ s.be.pc ≠ .idle then .refused .busResetDuringOperation
  else .next { clearEndpoints s with irq.pendEor := true, dev.addr := 0, dev.addrEn := false }

/-- `ENV_SOF` (R88): a second one before the first is served is lost. -/
def envSof (s : State) : State := if s.power.attachEn then { s with irq.pendSof := true } else s

/-- `ENV_PLL_LOCK` (R88). -/
def envPllLock (s : State) : State := if s.power.pllEn then { s with power.pllLock := true } else s

/-- `ENV_SPUR` (R88): at any time, also before ATTACH has set an enable (log 40). -/
def envSpur (s : State) : State := { s with irq.spurComm := true }

/-- One move of `A_ENV`. -/
def envMove (m : EnvMove) (s : State) : Out :=
  match m with
  | .setup p => envSetup p s
  | .inTaken e => .next (envInTaken e s)
  | .out e p => .next (envOut e p s)
  | .eor => envEor s
  | .sof => .next (envSof s)
  | .pllLock => .next (envPllLock s)
  | .spur => .next (envSpur s)

end Sys2Proof.Machine
end

