-- ==== Sys2Proof/Machine/Regs.lean ====
section
/-! DEFINITION. The registers by number (10_state.md R48): the value each holds, and the mainline's access to
them (R48, R57). -/

namespace Sys2Proof.Machine

/-- A bit at a place. -/
def bitAt (b : Bool) (k : Nat) : Word16 := if b then BitVec.ofNat 16 (2 ^ k) else 0

/-- `EPFLG` of an endpoint (R48; every flag of a disabled endpoint reads 0, R159). -/
def epFlagsReg (p : Endpoint) : Word16 :=
  bitAt p.setupFlag 0 ||| bitAt p.inFlag 1 ||| bitAt p.outFlag 2 ||| bitAt p.rwAllowed 3 ||| bitAt (p.en && p.stall) 4

/-- `EPCFG[e]` (R48). -/
def epConfigReg (e : EpIdx) (p : Endpoint) : Word16 :=
  (typeCode p.kind).setWidth 16 ||| bitAt p.en 3 ||| bitAt (banks e == 2) 4

/-- `SP[i]` (R101). -/
def latchByte (s : State) (i : Nat) : Word16 := (s.latch.packet.bytes.getD i 0).setWidth 16

/-- The value of register `n` (R48). None for 0x04 (unused), for the data port 0x03 (READ8, WRITE8) and for
numbers the table does not have. -/
def regView (n : Nat) (s : State) : Option Word16 :=
  match n with
  | 0x00 => some (s.sel.setWidth 16)
  | 0x01 => some (epFlagsReg s.cur)
  | 0x02 => some (BitVec.ofNat 16 s.cur.cnt)
  | 0x05 => some (s.dev.addr.setWidth 16 ||| bitAt s.dev.addrEn 7)
  | 0x06 => some (s.dev.cfg.setWidth 16)
  | 0x07 => some (bitAt s.dev.composite 0)
  | 0x08 => some (bitAt s.irq.ienEor 0 ||| bitAt s.irq.ienSof 1 ||| bitAt s.irq.ienSetup0 2)
  | 0x09 => some (bitAt s.irq.pendEor 0 ||| bitAt s.irq.pendSof 1 ||| bitAt s.irq.spurComm 2)
  | 0x0A => some (bitAt s.power.pwr 0 ||| bitAt s.power.clkEn 1 ||| bitAt s.power.pllEn 2 |||
      bitAt s.power.attachEn 3 ||| bitAt s.power.pllLock 7)
  | 0x0B => some (bitAt s.pulse.ledTx 0 ||| bitAt s.pulse.ledRx 1)
  | 0x0C => some (s.pulse.txp.setWidth 16)
  | 0x0D => some (s.pulse.rxp.setWidth 16)
  | 0x0E => some s.cursor.pos
  | 0x0F => some s.cursor.lim
  | 0x10 => some (epConfigReg 0 (s.ep 0))
  | 0x11 => some (epConfigReg 1 (s.ep 1))
  | 0x12 => some (epConfigReg 2 (s.ep 2))
  | 0x13 => some (epConfigReg 3 (s.ep 3))
  | 0x14 => some (epConfigReg 4 (s.ep 4))
  | 0x15 => some (epConfigReg 5 (s.ep 5))
  | 0x16 => some (epConfigReg 6 (s.ep 6))
  | 0x17 => some (epConfigReg 7 (s.ep 7))
  | 0x18 => some (latchByte s 0)
  | 0x19 => some (latchByte s 1)
  | 0x1A => some (latchByte s 2)
  | 0x1B => some (latchByte s 3)
  | 0x1C => some (latchByte s 4)
  | 0x1D => some (latchByte s 5)
  | 0x1E => some (latchByte s 6)
  | 0x1F => some (latchByte s 7)
  | 0x20 => some (s.port.op.setWidth 16)
  | 0x21 => some (s.port.epf.setWidth 16)
  | 0x22 => some s.port.ptr
  | 0x23 => some s.port.len
  | 0x24 => some s.port.res
  | _ => none

/-- The registers the mainline may read: `CFG`, `COMPOSITE`, `LED`, `TXP`, `RXP`, `RES` (R48, R321). -/
def mainlineReadable (n : Nat) : Bool :=
  n == 0x06 || n == 0x07 || n == 0x0B || n == 0x0C || n == 0x0D || n == 0x24

/-- A register read by the mainline (R48, R57). -/
def peek (n : Nat) (s : State) : Out :=
  if mainlineReadable n then
    match regView n s with
    | some v => .next (s.setRet (.word v))
    | none => .refused .mainlineRegisterAccess
  else .refused .mainlineRegisterAccess

/-- The bytes of a command as the port holds it: code, `CMD_EPF`, `CMD_PTR`, `CMD_LEN` (R48, log 13). -/
def portBytes (op : Byte) (s : State) : List Byte :=
  op :: s.port.epf :: (le16Bytes s.port.ptr ++ le16Bytes s.port.len)

end Sys2Proof.Machine
end

