-- ==== Sys2Proof/Machine/Engine.lean ====
section
/-! DEFINITION. The control sequencer (41_control_transfer.md R170), the choice of the agent that moves
(20_memory.md R90, R91; 60_exceptions.md R314, R315), and one entry of the schedule (log 5). -/

namespace Sys2Proof.Machine

/-! ## The control sequencer -/

/-- S1 (R171). -/
def ctSelect (s : State) : State :=
  let s1 := s.setSel 0
  { s1 with ct.pc := if (s1.ep 0).setupFlag then .s2 else .exit }

/-- S2 (R172). -/
def ctParse (s : State) : Out :=
  match readRefusal s with
  | some r => .refused r
  | none =>
    let (bs, s1) := popBytes Config.setupLen s
    let p := SetupPacket.ofBytes bs
    match clearSetupOp { s1 with latch := ⟨p, true⟩ } with
    | .ok s2 => .next { curInit p.wLength s2 with ct.pc := .s3 }
    | .hold => .next s
    | .refused r => .refused r

/-- The wait of S3 (R173). -/
def ctWaitIn (s : State) : Out :=
  match waitInOp s with
  | .ok s1 => .next { s1 with ct.pc := .s4 }
  | .hold => .next { s with ct.pc := .s3Wait }
  | .refused r => .refused r

/-- S3 (R173): arm for the data stage. -/
def ctArm (s : State) : Out :=
  if s.latch.packet.dir then ctWaitIn s
  else
    match armOutStageOp s with
    | .ok s1 => .next { s1 with ct.pc := .s4 }
    | .hold => .next s
    | .refused r => .refused r

/-- S4 (R180): the request in `SP` is decoded and performed. -/
def ctDispatch (s : State) : Out := exec (decodeSetup s.latch.packet) s

/-- S5 (R194). -/
def ctComplete (s : State) : Out :=
  match s.ct.result with
  | .ok =>
    match ackInOp s with
    | .ok s1 => .next { s1 with ct.pc := .exit }
    | .hold => .next s
    | .refused r => .refused r
  | .fail _ => .next { stallOp s with ct.pc := .exit }

/-- A step that reads `SP`: a fault before the first S2 (R21, log 22). -/
def withLatch (f : State → Out) (s : State) : Out :=
  if s.latch.valid then f s else .fault .setupLatchUnwritten

/-- One atomic step of `A_CT` (R170). -/
def ctStep (s : State) : Out :=
  match s.ct.pc with
  | .idle => .next s
  | .s1 => .next (ctSelect s)
  | .s2 => ctParse s
  | .s3 => withLatch ctArm s
  | .s3Wait => ctWaitIn s
  | .s4 => withLatch ctDispatch s
  | .s4EmitWait => runRequest s.ct.todo s.ct.result s
  | .s4SetaddrWait => runRequest s.ct.todo s.ct.result s
  | .s4CallWait => runRequest s.ct.todo s.ct.result s
  | .s5 => ctComplete s
  | .exit => .next (leaveHandler .comm s)

/-! ## The agents of the block -/

/-- The running handler (R91, R319): one of the two, never both. -/
def isrStep (s : State) : Out := if s.ct.pc ≠ .idle then ctStep s else ftStep s

/-- The mainline sequencers: one command at a time (R56), and none while a wait holds its sequencer (R312, log 8). -/
def mainStep (s : State) : Out :=
  match s.io.mainWait with
  | some w => resumeWait w s
  | none => if s.be.pc ≠ .idle then beStep s else .next (atStep s)

/-- Which interrupt is delivered where the schedule leaves it to the block (R314, R315): with both requested
and `IRQ_ORDER` `any`, a free value decides (log 11). A spurious request counts before A3 too (log 40). -/
def pickIrq (s : State) : Option (IrqSource × State) :=
  if canDeliver s then
    match commReq s, frameReq s with
    | false, false => none
    | true, false => some (.comm, s)
    | false, true => some (.frame, s)
    | true, true =>
      match s.conf.irqOrder with
      | .commFirst => some (.comm, s)
      | .frameFirst => some (.frame, s)
      | .any =>
        some (if Config.freeCommFirst s.io.draws then .comm else .frame, { s with io.draws := s.io.draws + 1 })
  else none

/-- A handler's held micro-operations, when one of them can go on (log 8). -/
def heldStep (s : State) : Option Out :=
  match s.io.held with
  | [] => none
  | m :: ms =>
    match runMicros (m :: ms) s with
    | .finished s' => some (.next { s' with io.held := [] })
    | .held rest s' => if rest.length < ms.length + 1 then some (.next { s' with io.held := rest }) else none
    | .refused r => some (.refused r)

/-- One atomic step of the block: a held micro-operation that can go on; else the running handler, unless it is
one that waits with its held word (R356); else the delivery of an interrupt, where `deliver` allows it;
else the mainline's sequencer. A spurious communication interrupt is delivered while ATTACH holds at A2.wait too: R88,
R309, R314 and D34 against R282 and R348 (DEDUCED, log 40). -/
def blockStep (deliver : Bool) (s : State) : Out :=
  match heldStep s with
  | some out => out
  | none =>
    if s.irq.inIsr then (if s.io.held = [] then isrStep s else .next s)
    else
      match if deliver then pickIrq s else none with
      | some (src, s1) => .next (enterHandler src s1)
      | none => mainStep s

/-! ## The schedule -/

/-- The part of the block a raw micro-operation is issued for: the sequencer that runs here (R57: CTSM and FTS
reach the endpoints by the micro-operations, the mainline by commands only). -/
inductive Issuer
  | control
  | frame
  | bulk
  deriving DecidableEq, Repr

/-- Who may issue at this point: the running handler, else the command being served, else nobody (R57, R321). -/
def issuer (s : State) : Option Issuer :=
  if s.irq.inIsr then
    if s.ct.pc ≠ .idle then some .control else if s.ft.pc ≠ .idle then some .frame else none
  else if s.be.pc ≠ .idle then some .bulk
  else none

/-- The micro-operations each sequencer may issue (R34): the cursor is written by the control state machine only; the
pulse timers are armed by the bulk engine, and by the receive the frame handler performs (R274); an endpoint is
initialised by the handlers only (R158, R191, R272). The waits write nothing and run in either context (R312). -/
def mayIssue (w : Issuer) : Instr → Bool
  | .curInit _ => w == .control
  | .emit8 _ => w == .control
  | .emitN _ => w == .control
  | .initEp _ _ => w != .bulk
  | .armTx => w == .bulk
  | .armRx => w != .control
  | .waitIn | .waitOut | .select _ | .testSetup | .read8 | .readN _ | .write8 _ | .byteCount | .rwAllowed | .sendSpace _
  | .stall | .clearSetup | .ackIn | .clearOut | .releaseRx | .releaseTx | .critEnter | .critExit | .armOutStage => true
  | .getStatus _ | .setAddress _ | .getDescriptor _ | .getDescriptorDevice _ | .getDescriptorConfiguration _
  | .getDescriptorString _ | .getDescriptorOther _ | .setDescriptor _ | .getConfiguration _ | .setConfiguration _
  | .standardUnlisted _ _ | .classRequest _ _ | .kindVendor _ _ | .kindReserved _ _ => false
  | .attach | .send _ _ _ _ _ _ | .recv _ _ _ _ | .available _ _ | .flush _ _ => false
  | .evtSetupReceived | .evtFrameTick | .evtBusReset | .evtSpuriousComm => false

/-- Whether somebody runs who may issue the micro-operation. -/
def issueAllowed (i : Instr) (s : State) : Bool :=
  match issuer s with
  | none => false
  | some w => mayIssue w i

/-- The sequencer that runs is held at an earlier word (log 8). -/
abbrev issuerHeld (s : State) : Prop := s.io.held ≠ [] ∨ s.irq.inIsr = false ∧ s.io.mainWait ≠ none

/-- The decoded operation of a `word` entry. A command waits while a handler runs (R91); a micro-operation is issued
for the sequencer that runs (R34, R57), and waits while its issuer is held (log 8); an event is a delivery. A setup
packet comes by `ENV_SETUP` (R85): no word decodes to one. -/
def issueDecoded (i : Instr) (rest : List Input) (s : State) : Out :=
  match i.format with
  | .cmd => if s.irq.inIsr then blockStep false s else exec i { s with io.inputs := rest }
  | .uop =>
    if issuerHeld s then blockStep true s
    else if issueAllowed i s then exec i { s with io.inputs := rest }
    else .refused .notTheOwner
  | .evt => exec i { s with io.inputs := rest }
  | .setup8 => .refused .reservedEncoding

/-- A `word` entry (R122, R127): decoded, or refused (R131). -/
def issueWord (bs : List Byte) (rest : List Input) (s : State) : Out :=
  match decodeWord bs with
  | .error _ => .refused .reservedEncoding
  | .ok (i, _) => issueDecoded i rest s

/-- A register write by the mainline (R48, R56, R57): the four command registers, the write of `CMD_OP` being
the one that starts the command (a reserved code is refused, R131); every other block register is refused (R368,
U19). DESIGN CHOICE (log 34): the spec refuses a command issued while one is served (R56) and is silent on a write of
`CMD_EPF`, `CMD_PTR` or `CMD_LEN` alone at that time; the model refuses it too. DESIGN CHOICE (log 36): the spec says a
model refuses `CMD_EPF[4:3] ≠ 0` (R58) and not where; a write of `CMD_EPF` alone stores any byte, and the command that
takes a reserved one is refused. DESIGN CHOICE (log 37): of a value wider than the register its low bits are written. -/
def mainlineWrite (n : Nat) (v : Word16) (rest : List Input) (s : State) : Out :=
  let s1 : State := { s with io.inputs := rest }
  match n with
  | 0x20 => if (lo8 v).toNat < 5 then issueWord (portBytes (lo8 v) s) rest s else .refused .reservedEncoding
  | 0x21 => if busy s then .refused .commandWhileBusy else .next { s1 with port.epf := lo8 v }
  | 0x22 => if busy s then .refused .commandWhileBusy else .next { s1 with port.ptr := v }
  | 0x23 => if busy s then .refused .commandWhileBusy else .next { s1 with port.len := v }
  | _ => .refused .mainlineRegisterAccess

/-- A step of the mainline's own: it waits while a handler runs (R91). -/
def whenMainline (f : State → Out) (rest : List Input) (s : State) : Out :=
  if s.irq.inIsr then blockStep false s else f { s with io.inputs := rest }

/-- One step of the machine: the next entry of the schedule; with none left, the block runs on. -/
def advance (s : State) : Out :=
  match s.io.inputs with
  | [] => blockStep true s
  | .env m :: rest => envMove m { s with io.inputs := rest }
  | .run :: rest => blockStep false { s with io.inputs := rest }
  | .word bs :: rest => issueWord bs rest s
  | .ie v :: rest => whenMainline (fun s1 => .next { s1 with irq.ie := v }) rest s
  | .bufWrite a b :: rest => whenMainline (fun s1 => .next { s1 with buf := s1.buf.write a b }) rest s
  | .peek n :: rest => whenMainline (peek n) rest s
  | .regWrite n v :: rest => if s.irq.inIsr then blockStep false s else mainlineWrite n (BitVec.ofNat 16 v) rest s

end Sys2Proof.Machine
end

