-- ==== Sys2Proof/Machine/Step.lean ====
section
/-! DEFINITION. One step, and the placing of an encoded operation where the next step takes it (log 6). -/

namespace Sys2Proof.Machine

def step : State → Host.Outcome State Fault Refusal := advance

/-- No handler runs. -/
def State.outOfHandlers (s : State) : State :=
  { s with irq.inIsr := false, ct.pc := .idle, ct.todo := [], ft.pc := .idle }

/-- A command of the bulk engine is being served, at `p` where none was. -/
def State.serving (s : State) (p : BePoint) : State := { s with be.pc := if s.be.pc = .idle then p else s.be.pc }

/-- The sequencer that issues a micro-operation runs (R34): SEND for ARM_TX, RECV for ARM_RX, the communication
handler inside a collaborator's call for every other; commands and events come while no handler runs. -/
def issueContext (i : Option Instr) (s : State) : State :=
  match i with
  | none => s
  | some .armTx => s.outOfHandlers.serving .sndArm
  | some .armRx => s.outOfHandlers.serving .rcvArm
  | some j =>
    if j.format = .uop then { s with irq.inIsr := true, ct.pc := .s4CallWait, ct.todo := [], ft.pc := .idle }
    else s.outOfHandlers

/-- `s` with an operation placed where the next step takes it. A setup packet (64 bits, R134) stands in `SP`
with the handler at S4 of R170, endpoint 0 initialised where it was not; any other word is the next entry of
the schedule, in the context that issues it. -/
def State.withFetchWord (s : State) (nbits w : Nat) : State :=
  if nbits = 64 then
    let p := SetupPacket.ofNat w
    let s1 := if (s.ep 0).en then s else initEndpoint 0 .control s
    { s1 with
      latch := ⟨p, true⟩
      cursor := ⟨0, p.wLength⟩
      sel := 0
      irq.inIsr := true
      ct.pc := .s4
      ct.todo := []
      io.held := []
      io.inputs := .run :: s1.io.inputs }
  else
    { issueContext (decodeTableWord nbits w) s with
      io.held := []
      io.mainWait := none
      io.inputs := .word (tableBytes nbits w) :: s.io.inputs }

end Sys2Proof.Machine
end

