-- ==== Sys2Proof/Safety.lean ====
section
/-! DEFINITION. What holds in every state a run reaches, one predicate per part of the state, in the terms the
statements use. -/

namespace Sys2Proof

/-- The kinds SEND and FLUSH are for (R257). -/
def EpType.sends : EpType → Bool
  | .bulkIn => true
  | .interruptIn => true
  | .control => false
  | .bulkOut => false
  | .disabled => false

end Sys2Proof

namespace Sys2Proof.Machine

/-- `BUF` is in its canonical form. -/
abbrev memoryOk (s : State) : Prop := Memory.wf s.buf

/-- The bounds of one endpoint (R46, R58, R59, R61, R159): at most 64 bytes in the bank and in every packet, at
most `banks` committed packets and `banks - 1` received ones behind the current; a free bank where `in_rdy` is
1; `setup` is 0 on e ≥ 1; endpoint 0 is `control` or `disabled`; a disabled endpoint is empty. -/
structure EndpointOk (e : EpIdx) (p : Endpoint) : Prop where
  dataBound : p.data.length ≤ Config.epSize
  inBound : p.inQ.length ≤ banks e
  outBound : p.outQ.length ≤ banks e - 1
  inPackets : ∀ q ∈ p.inQ, q.length ≤ Config.epSize
  outPackets : ∀ q ∈ p.outQ, q.length ≤ Config.epSize
  freeBank : p.inRdy = true → p.inQ.length < banks e
  setupZero : e ≠ 0 → p.setup = false
  zeroKind : e = 0 → p.kind = .control ∨ p.kind = .disabled
  enabled : p.en = (p.kind != .disabled)
  disabledEmpty : p.kind = .disabled →
    p.setup = false ∧ p.inRdy = false ∧ p.outRdy = false ∧ p.data = [] ∧ p.inQ = [] ∧ p.outQ = []
  noIn : inCapable p.kind = false → p.inRdy = false ∧ p.inQ = []
  noOut : outCapable p.kind = false → p.outRdy = false ∧ p.outQ = []

/-- Every endpoint is within its bounds. -/
abbrev endpointsOk (s : State) : Prop := ∀ e : EpIdx, EndpointOk e (s.ep e)

/-- `SEL` is below `N_EP` (R49, R58). -/
structure SelectorOk (s : State) : Prop where
  some : 1 ≤ s.conf.nEp
  sel : s.sel.toNat < s.conf.nEp

/-- The pulse timers run from 100 to 0, and a lit indicator has a running timer (R28, R29, R275). -/
structure PulsesOk (s : State) : Prop where
  tx : s.pulse.txp.toNat ≤ 100
  rx : s.pulse.rxp.toNat ≤ 100
  ledTx : s.pulse.ledTx = true → s.pulse.txp ≠ 0
  ledRx : s.pulse.ledRx = true → s.pulse.rxp ≠ 0

/-- `IN_ISR` is 1 while exactly one handler runs, and 0 while none does (R51, R319). -/
abbrev handlersOk (s : State) : Prop :=
  (s.irq.inIsr = true ↔ s.ct.pc ≠ .idle ∨ s.ft.pc ≠ .idle) ∧ (s.ct.pc = .idle ∨ s.ft.pc = .idle)

/-- What the attach sequence has written at each of its points (R54, R281, R282, R284). -/
abbrev attachOk (s : State) : Prop :=
  match s.power.pc with
  | .idle =>
    if s.power.pwr then
      s.power.clkEn = true ∧ s.power.pllEn = true ∧ s.power.pllLock = true ∧ s.irq.ienEor = true ∧
        s.irq.ienSof = true ∧ s.power.attachEn = true
    else
      s.power.clkEn = false ∧ s.power.pllEn = false ∧ s.power.pllLock = false ∧ s.irq.ienEor = false ∧
        s.irq.ienSof = false ∧ s.power.attachEn = false
  | .a2 =>
    s.power.pwr = true ∧ s.power.clkEn = false ∧ s.power.pllEn = false ∧ s.power.pllLock = false ∧
      s.irq.ienEor = false ∧ s.irq.ienSof = false ∧ s.power.attachEn = false
  | .a2Wait =>
    s.power.pwr = true ∧ s.power.clkEn = true ∧ s.power.pllEn = true ∧ s.irq.ienEor = false ∧
      s.irq.ienSof = false ∧ s.power.attachEn = false
  | .a3 =>
    s.power.pwr = true ∧ s.power.clkEn = true ∧ s.power.pllEn = true ∧ s.power.pllLock = true ∧
      s.irq.ienEor = false ∧ s.irq.ienSof = false ∧ s.power.attachEn = false
  | .a4 =>
    s.power.pwr = true ∧ s.power.clkEn = true ∧ s.power.pllEn = true ∧ s.power.pllLock = true ∧
      s.irq.ienEor = true ∧ s.irq.ienSof = true ∧ s.power.attachEn = false
  | .a5 =>
    s.power.pwr = true ∧ s.power.clkEn = true ∧ s.power.pllEn = true ∧ s.power.pllLock = true ∧
      s.irq.ienEor = true ∧ s.irq.ienSof = true ∧ s.power.attachEn = true

/-- SEND is being served. -/
def BePoint.sending : BePoint → Bool
  | .idle => false
  | .sndLoop => true
  | .sndSpace => true
  | .sndWait => true
  | .sndChunk => true
  | .sndArm => true
  | .sndDone => true
  | .rcvCrit => false
  | .rcvArm => false

/-- The bytes of the chunk in hand. -/
def chunkInHand (b : Be) : Nat := if b.pc = .sndChunk then b.sndN.toNat else 0

/-- The accounts of SEND (R32, R244, R245, R248): what was written, what is in hand and what remains make up the
payload; the budget is neither spent nor refilled beyond 250; a chunk is at most 64 bytes (R82); the length is
not negative. -/
structure SendOk (s : State) : Prop where
  total : s.be.pc.sending = true → s.be.sndTotal.toNat < 32768
  account : s.be.pc.sending = true →
    s.be.sndI.toNat + chunkInHand s.be + s.be.sndRem.toNat = s.be.sndTotal.toNat
  budget : s.be.pc.sending = true → 1 ≤ s.be.sndTmo.toNat ∧ s.be.sndTmo.toNat ≤ 250
  chunk : s.be.pc = .sndChunk → 1 ≤ s.be.sndN.toNat ∧ s.be.sndN.toNat ≤ 64
  space : s.be.pc = .sndSpace → s.be.sndRem ≠ 0
  done : s.be.pc = .sndDone → s.be.sndRem = 0

/-- What the block writes to `RES`: `OK(n)` with n ≤ 32767, or 0xFFFF (R12, R125). -/
abbrev resultOk (v : Word16) : Prop := v = Config.failResult ∨ v.toNat < 32768

/-- `CT.pc` is past S2, where `SP` is read (R21). -/
def CtPoint.readsLatch : CtPoint → Bool
  | .idle => false
  | .s1 => false
  | .s2 => false
  | .s3 => true
  | .s3Wait => true
  | .s4 => true
  | .s4EmitWait => true
  | .s4SetaddrWait => true
  | .s4CallWait => true
  | .s5 => true
  | .exit => false

/-- `SP` has been written wherever a step reads it (R21). -/
abbrev latchOk (s : State) : Prop := s.ct.pc.readsLatch = true → s.latch.valid = true

/-- The micro-operations that can hold (R11, R36). -/
def Micro.canHold : Micro → Bool
  | .emit8 _ => true
  | .waitIn => true
  | .waitOut => true
  | .readN _ => false
  | .clearOut => false
  | .select _ => false
  | .rawWrite _ => false
  | .setAddress _ => false
  | .callReturn => false
  | .hostOut _ _ => false

/-- What waits to be done (logs 7, 8): a micro-operation word is held in `io.held` only inside a handler, by
operations that can hold; a write of the address waits only behind the wait of a SET_ADDRESS in `SP` (R185), and it
is that of `wValueL[6:0]`. -/
structure PendingOk (s : State) : Prop where
  context : s.ct.pc ≠ .idle → s.irq.inIsr = true
  heldContext : s.io.held ≠ [] → s.irq.inIsr = true ∧ (s.ct.pc ≠ .idle ∨ s.ft.pc ≠ .idle)
  heldKind : ∀ m ∈ s.io.held, m.canHold = true
  address : ∀ a, Micro.setAddress a ∈ s.ct.todo →
    s.ct.pc = .s4SetaddrWait ∧ s.ct.todo = [.waitIn, .setAddress a] ∧
    ∃ r : Req, decodeSetup s.latch.packet = .setAddress r ∧ a = r.wValueL.extractLsb' 0 7

/-! ## Terms of the statements -/

/-- `CT.pc` at S5 with the result of DISPATCH (R170, R180), everything else as in `s`. -/
def State.answered (s : State) (r : CtResult) : State := { s with ct.pc := .s5, ct.todo := [], ct.result := r }

/-- Endpoint 0 is an initialised control endpoint. -/
abbrev State.controlOn (s : State) : Prop := (s.ep 0).en = true ∧ (s.ep 0).kind = .control

/-- The part of `bs` the cursor lets through: its first `min(len, CUR_LIM - CUR_POS)` bytes (R177, R179). -/
def State.sentPart (s : State) (bs : List Byte) : List Byte :=
  bs.take (s.cursor.lim.toNat - s.cursor.pos.toNat)

/-- After `bs` was emitted: the part let through stands in the bank, the position counts every byte (R179). -/
def State.emitted (s : State) (bs : List Byte) : State :=
  { s.setEp 0 { s.ep 0 with data := (s.ep 0).data ++ s.sentPart bs } with
    cursor.pos := s.cursor.pos + BitVec.ofNat 16 bs.length }

/-- `bs` can be emitted without a hold and without filling the bank: endpoint 0 is selected (R177), the position
does not pass 65535 (R175), and what is transmitted, if anything is, finds a bank with more room than it needs. -/
structure EmitFits (s : State) (bs : List Byte) : Prop where
  sel : s.sel = 0
  count : s.cursor.pos.toNat + bs.length ≤ 65535
  bank : s.sentPart bs ≠ [] →
    s.controlOn ∧ (s.ep 0).inRdy = true ∧ (s.ep 0).data.length + (s.sentPart bs).length < 64

/-- The places in `COLLABS` of the HID-like collaborators, in order (R219). -/
def hidIndices (cs : List Collab) : List Nat := (List.range cs.length).filter fun k => (cs.getD k default).kind == .hidLike

/-- No handler runs, none can start, no micro-operation word holds and the schedule is empty: the mainline's
sequencer takes every step. -/
structure MainlineAlone (s : State) : Prop where
  noIsr : s.irq.inIsr = false
  noIe : s.irq.ie = false
  noHeld : s.io.held = []
  noWait : s.io.mainWait = none
  noInputs : s.io.inputs = []

/-- No mainline command is being served (R56). -/
abbrev State.mainlineIdle (s : State) : Prop := s.be.pc = .idle ∧ s.power.pc = .idle

end Sys2Proof.Machine
end

