-- ==== Sys2Proof/Certificates/Slice0/Obligations.lean ====
section
/-! DEFINITION. The statements for the provers. Each docstring names the rules it formalises. -/

open Sys2Proof Sys2Proof.Machine

/-! ## Encoding -/

/-- Decoding an encoded well-formed operation gives the row performed, every operand at every value
(30_encoding.md R101, R102, R107, R108, R109, R122, R123, R127, R134). -/
def Obligations.DecodeEncode : Prop :=
  ∀ i : Instr, i.wf = true → decode (encode i) = .ok i.performed

/-- The same inside a stream of bytes: the decoder takes the operation's bytes and leaves the rest (R100: "Every
format has a fixed length"; the operand bytes of micro-operations are the model's, log 13). -/
def Obligations.DecodeTakesItsBytes : Prop :=
  ∀ (i : Instr) (bs rest : List Byte), i.wf = true → encode i = .word bs →
    decodeWord (bs ++ rest) = .ok (i, rest)

/-- Every setup packet decodes, to a well-formed request that encodes to it, and never to the parent row (R109, R134);
the direction bit selects no other row (R110). -/
def Obligations.EveryPacketDecodes : Prop :=
  ∀ p : SetupPacket, (decodeSetup p).wf = true ∧ encode (decodeSetup p) = .setup p ∧
    (decodeSetup p).performed = decodeSetup p ∧ (∀ r : Req, decodeSetup p ≠ .getDescriptor r) ∧
    (decodeSetup { p with bmRequestType := p.bmRequestType ^^^ 0x80 }).row = (decodeSetup p).row

/-- The reserved encodings are refused (R58, R131): `CMD_OP` from 0x05 to 0x0F and every code above 0x33 or between
0x29 and 0x2F, `CMD_EPF[4:3]` not 0, a negative `CMD_LEN` of SEND, a type code of 5 or more, an endpoint index of
`N_EP` or more in a command. -/
def Obligations.ReservedEncodingsRefused : Prop :=
  (∀ (c : Byte) (bs : List Byte), (5 ≤ c.toNat ∧ c.toNat < 0x10) ∨ (0x29 ≤ c.toNat ∧ c.toNat < 0x30) ∨ 0x34 ≤ c.toNat →
    decodeWord (c :: bs) = .error .reservedOpcode) ∧
  (∀ (c b : Byte) (bs : List Byte), 1 ≤ c.toNat → c.toNat ≤ 4 → b.extractLsb' 3 2 ≠ 0 →
    decodeWord (c :: b :: bs) = .error .reservedEpfBits) ∧
  (∀ (b p0 p1 l0 l1 : Byte) (bs : List Byte), b.extractLsb' 3 2 = 0 → 0x80 ≤ l1.toNat →
    decodeWord (0x01 :: b :: p0 :: p1 :: l0 :: l1 :: bs) = .error .negativeSendLength) ∧
  (∀ (e c : Byte) (bs : List Byte), e.toNat < 8 → 5 ≤ c.toNat →
    decodeWord (0x20 :: e :: c :: bs) = .error .reservedTypeCode) ∧
  (∀ (s : State) (bs : List Byte) (rest : List Input) (x : DecodeError), s.io.inputs = .word bs :: rest →
    decodeWord bs = .error x → step s = .refused .reservedEncoding) ∧
  (∀ (s : State) (e : EpIdx) (f : BitVec 3) (rom rel zero : Bool) (ptr len : Word16), s.mainlineIdle →
    s.conf.nEp ≤ e.toNat →
    exec (.send e rom rel zero ptr len) s = .refused .reservedEndpoint ∧
    exec (.recv e f ptr len) s = .refused .reservedEndpoint ∧
    exec (.available e f) s = .refused .reservedEndpoint ∧
    exec (.flush e f) s = .refused .reservedEndpoint)

/-- Words written out from the tables of 30_encoding.md (R103, R107, R108, R122, R123, R127, R133) decode to the operations
they stand for: a sanity statement. -/
def Obligations.WrittenWordsDecode : Prop :=
  decodeSetup ⟨0x80, 0x00, 0x00, 0x00, 0x00, 0x00, 0x02, 0x00⟩ = .getStatus ⟨true, 0, 0, 0, 0, 2⟩ ∧
  decodeSetup ⟨0x00, 0x05, 0x07, 0x00, 0x00, 0x00, 0x00, 0x00⟩ = .setAddress ⟨false, 0, 7, 0, 0, 0⟩ ∧
  decodeSetup ⟨0x80, 0x06, 0x02, 0x03, 0x09, 0x04, 0xFF, 0x00⟩ = .getDescriptorString ⟨true, 0, 2, 3, 0x0409, 255⟩ ∧
  decodeSetup ⟨0x21, 0x22, 0x00, 0x00, 0x01, 0x00, 0x00, 0x00⟩ = .classRequest 0x22 ⟨false, 1, 0, 0, 1, 0⟩ ∧
  decodeWord [0x01, 0xC3, 0x40, 0x00, 0x04, 0x00] = .ok (.send 3 true true false 0x0040 4, []) ∧
  decodeWord [0x02, 0x02, 0x00, 0x02, 0xFF, 0xFF] = .ok (.recv 2 0 0x0200 0xFFFF, []) ∧
  (SetupPacket.mk 0x80 0x06 0x02 0x03 0x09 0x04 0xFF 0x00).wValue = 0x0302 ∧
  decodeWord [0x20, 0x03, 0x02] = .ok (.initEp 3 .bulkIn, []) ∧
  decodeWord [0x30] = .ok (.evtSetupReceived, [])

/-! ## A step runs the decoded operation -/

/-- A step runs the decoded operation. An issued word: `step` is `exec` of it, the schedule's entry being used up; a
command waits while a handler runs (R91), a micro-operation is issued for the sequencer that runs (R34) and not
while its issuer is held (R312, log 8). A setup packet at S4 of the running handler: `step` is `exec` of the request in
`SP` (R180). The mainline's write of `CMD_OP` runs the operation its port holds (R48, R56; log 13); its other accesses
(R48, R50, R56, R72) change what they name and nothing else, and a register read gives the register's value. That a
write of `CMD_EPF` alone stores a reserved value too is log 36, and that a value wider than its register is cut to it is
log 37. -/
def Obligations.StepRunsTheDecodedOperation : Prop :=
  (∀ (s : State) (bs tail : List Byte) (rest : List Input) (i : Instr), s.io.inputs = .word bs :: rest →
    decodeWord bs = .ok (i, tail) → (i.format = .cmd → s.irq.inIsr = false) →
    (i.format = .uop →
      s.io.held = [] ∧ (s.irq.inIsr = true ∨ s.io.mainWait = none) ∧ issueAllowed i s = true) →
    step s = exec i { s with io.inputs := rest }) ∧
  (∀ (s : State), s.ct.pc = .s4 → s.latch.valid = true → s.irq.inIsr = true → s.io.held = [] →
    (s.io.inputs = [] → step s = exec (decodeSetup s.latch.packet) s) ∧
    (∀ rest, s.io.inputs = .run :: rest →
      step s = exec (decodeSetup s.latch.packet) { s with io.inputs := rest })) ∧
  (∀ (s : State) (v : Nat) (op : Byte) (rest : List Input) (i : Instr) (tail : List Byte),
    s.io.inputs = .regWrite 0x20 v :: rest → s.irq.inIsr = false → op = lo8 (BitVec.ofNat 16 v) → op.toNat < 5 →
    decodeWord [op, s.port.epf, lo8 s.port.ptr, hi8 s.port.ptr, lo8 s.port.len, hi8 s.port.len] = .ok (i, tail) →
    step s = exec i { s with io.inputs := rest }) ∧
  (∀ (s : State) (v : Nat) (w : Word16) (rest : List Input), w = BitVec.ofNat 16 v → s.irq.inIsr = false →
    s.mainlineIdle →
    (s.io.inputs = .regWrite 0x21 v :: rest → step s = .next { s with io.inputs := rest, port.epf := lo8 w }) ∧
    (s.io.inputs = .regWrite 0x22 v :: rest → step s = .next { s with io.inputs := rest, port.ptr := w }) ∧
    (s.io.inputs = .regWrite 0x23 v :: rest → step s = .next { s with io.inputs := rest, port.len := w })) ∧
  (∀ (s : State) (n : Nat) (v : Word16) (rest : List Input), s.io.inputs = .peek n :: rest → s.irq.inIsr = false →
    (n = 0x06 ∧ v = s.dev.cfg.setWidth 16 ∨
     n = 0x07 ∧ v = (if s.dev.composite then 1 else 0) ∨
     n = 0x0B ∧ v = (if s.pulse.ledTx then 1 else 0) + (if s.pulse.ledRx then 2 else 0) ∨
     n = 0x0C ∧ v = s.pulse.txp.setWidth 16 ∨ n = 0x0D ∧ v = s.pulse.rxp.setWidth 16 ∨ n = 0x24 ∧ v = s.port.res) →
    step s = .next { s with io.inputs := rest, io.ret := .word v }) ∧
  (∀ (s : State) (v : Bool) (rest : List Input), s.io.inputs = .ie v :: rest → s.irq.inIsr = false →
    step s = .next { s with io.inputs := rest, irq.ie := v }) ∧
  (∀ (s : State) (a : Nat) (b : Byte) (rest : List Input), s.io.inputs = .bufWrite a b :: rest →
    s.irq.inIsr = false → memoryOk s →
    ∃ t, step s = .next t ∧ t = { s with io.inputs := rest, buf := t.buf } ∧
      ∀ x, t.buf.read x = if x = a then b else s.buf.read x)

/-- An operation placed where the step fetches runs next (log 6: the placing is the model's). -/
def Obligations.PlacedWordRunsNext : Prop :=
  (∀ (s : State) (w : Nat), ∃ t, step (s.withFetchWord 64 w) = exec (decodeSetup (SetupPacket.ofNat w)) t ∧
    t.latch = ⟨SetupPacket.ofNat w, true⟩ ∧ t.sel = 0 ∧ t.irq.inIsr = true ∧ t.ct.pc = .s4 ∧
    t.io.inputs = s.io.inputs ∧ t.dev = s.dev ∧ t.buf = s.buf) ∧
  (∀ (s : State) (nbits w : Nat) (i : Instr), nbits ≠ 64 → decodeTableWord nbits w = some i →
    ∃ t, step (s.withFetchWord nbits w) = exec i t ∧ (i.format = .cmd → t.irq.inIsr = false) ∧
      (i.format = .uop → issueAllowed i t = true) ∧
      t = { s with irq.inIsr := t.irq.inIsr, ct.pc := t.ct.pc, ct.todo := [], ft.pc := .idle, be.pc := t.be.pc,
                   io.held := [], io.mainWait := none })

/-! ## Reset -/

/-- Power-on reset leaves what the table of R341 states, for every value of the parameters; the values R341 calls
unspecified are the model's choice (logs 1, 2) and not stated here. -/
def Obligations.ResetValues : Prop :=
  ∀ c : Conf, let s := State.resetWith c
    s.conf = c ∧ s.cursor = ⟨0, 0⟩ ∧ s.dev = ⟨0, false, 0, false⟩ ∧ s.pulse = ⟨0, 0, false, false⟩ ∧ s.sel = 0 ∧
    s.irq = ⟨false, false, false, false, false, false, false, false⟩ ∧
    s.power = ⟨false, false, false, false, false, .idle⟩ ∧
    (∀ e : EpIdx, s.ep e = ⟨false, .disabled, false, false, false, false, [], [], []⟩ ∧ s.txlogOf e = []) ∧
    s.ct.pc = .idle ∧ s.ft.pc = .idle ∧ s.be.pc = .idle ∧ s.ghost.rxSink = [] ∧
    State.reset = State.resetWith Config.confE

/-- The state after reset meets every invariant below, for parameters within R7's bounds and whatever values the
registers hold that R341 leaves unspecified (R342). -/
def Obligations.ResetMeetsTheInvariants : Prop :=
  ∀ (c : Conf) (p : SetupPacket) (crit : Crit) (be : Be) (port : Port) (buf : Memory) (result : CtResult)
    (measured : Word16) (nifTotal : Byte) (eor sof : Bool) (tmp : Byte), c.wf = true → be.pc = .idle →
    Memory.wf buf →
    let s := { State.resetWith c with
      latch := ⟨p, false⟩, crit := crit, be := be, port := port, buf := buf,
      ct := ⟨.idle, [], result, measured, nifTotal⟩, ft := ⟨.idle, eor, sof, tmp⟩ }
    memoryOk s ∧ endpointsOk s ∧ SelectorOk s ∧ PulsesOk s ∧ handlersOk s ∧ attachOk s ∧ SendOk s ∧ latchOk s ∧
    PendingOk s

/-! ## Invariants of every step -/

/-- `BUF` keeps its canonical form (20_memory.md R72; log 2 for the bytes nothing has written). -/
def Obligations.MemoryStaysCanonical : Prop :=
  ∀ s t : State, memoryOk s → step s = .next t → memoryOk t

/-- Every endpoint keeps its bounds (R46, R58, R59, R60, R61, R159). -/
def Obligations.EndpointsStayInBounds : Prop :=
  ∀ s t : State, endpointsOk s → step s = .next t → endpointsOk t

/-- `SEL` stays below `N_EP` (R49, R58, R141, R161): a CRIT_EXIT that would break it is refused (log 21). -/
def Obligations.SelectorStaysLegal : Prop :=
  ∀ s t : State, SelectorOk s → step s = .next t → SelectorOk t

/-- The pulse timers stay within 0 to 100, and a lit indicator has a running timer (R28, R29, R275). -/
def Obligations.PulsesStayInRange : Prop :=
  ∀ s t : State, PulsesOk s → step s = .next t → PulsesOk t

/-- `IN_ISR` is 1 exactly while one handler runs; the handlers never run together (R51, R319). -/
def Obligations.OneHandlerAtATime : Prop :=
  ∀ s t : State, handlersOk s → step s = .next t → handlersOk t

/-- The attach sequence writes its bits in order and none is ever taken back (R54, R281, R282, R284). -/
def Obligations.AttachOrderKept : Prop :=
  ∀ s t : State, attachOk s → step s = .next t → attachOk t

/-- SEND's accounts: bytes written, in hand and left make up the payload at every point, whatever the handlers and
the environment do in between, and the timeout budget stays within 1 to 250 (R244, R245, R246, R248). -/
def Obligations.SendAccountsKept : Prop :=
  ∀ s t : State, SendOk s → step s = .next t → SendOk t

/-- A step leaves `RES` as it is, or writes a count of at most 32767 or the sentinel (R12, R125). -/
def Obligations.ResultStaysCountOrSentinel : Prop :=
  ∀ s t : State, endpointsOk s → SendOk s → step s = .next t → t.port.res = s.port.res ∨ resultOk t.port.res

/-- `SP` is never read before the first S2 (R21: "no rule of this spec performs such a read"): a state that meets the
invariant takes no fault, and its next state meets it. -/
def Obligations.NoFaultEver : Prop :=
  ∀ s : State, latchOk s → (∀ f, step s ≠ .fault f) ∧ ∀ t, step s = .next t → latchOk t

/-! ## Rules about every step -/

/-- The composite latch is never cleared (R26, R343, R344); nothing clears an interrupt enable or a power bit (R52, R54,
R284, R312). -/
def Obligations.NothingIsTakenBack : Prop :=
  (∀ s t : State, step s = .next t → s.dev.composite = true → t.dev.composite = true) ∧
  (∀ s t : State, step s = .next t →
    (s.irq.ienEor = true → t.irq.ienEor = true) ∧ (s.irq.ienSof = true → t.irq.ienSof = true) ∧
    (s.irq.ienSetup0 = true → t.irq.ienSetup0 = true) ∧ (s.power.pwr = true → t.power.pwr = true) ∧
    (s.power.clkEn = true → t.power.clkEn = true) ∧ (s.power.pllEn = true → t.power.pllEn = true) ∧
    (s.power.attachEn = true → t.power.attachEn = true) ∧ (s.power.pllLock = true → t.power.pllLock = true))

/-- The parameters, `ROM` among them, are fixed; the ghost histories only grow (R31, R63, R96, R97, R346). -/
def Obligations.ParametersFixedLogsGrow : Prop :=
  ∀ s t : State, step s = .next t →
    t.conf = s.conf ∧ (∀ e : EpIdx, s.txlogOf e <+: t.txlogOf e) ∧ s.ghost.rxSink <+: t.ghost.rxSink

/-- A handler starts only where `IE = 1`, `IN_ISR = 0` and its request is true, and its entry changes nothing but
`IN_ISR`, `SPUR_COMM` and its own program point (R314, R316, R317). -/
def Obligations.HandlersStartOnlyWhenAllowed : Prop :=
  ∀ s t : State, step s = .next t → s.irq.inIsr = false → t.irq.inIsr = true →
    s.irq.ie = true ∧
    ((s.irq.ienSetup0 = true ∧ (s.ep 0).setup = true ∨ s.irq.spurComm = true) ∧
      t = { s with irq.inIsr := true, irq.spurComm := false, ct.pc := .s1, io := t.io } ∨
     (s.irq.ienEor = true ∧ s.irq.pendEor = true ∨ s.irq.ienSof = true ∧ s.irq.pendSof = true) ∧
      t = { s with irq.inIsr := true, ft.pc := .f1, io := t.io })

/-- While a handler runs the mainline takes no step: its sequencers and their wait, its command port, its buffer and `IE`
stand still (R91, R319), `IE` but for a raw CRIT_ENTER or CRIT_EXIT issued for the handler (log 8). That `RES` stands
still while the pull of the frame handler performs RECV is the model's reading of R32, R274 and R278 (log 25). -/
def Obligations.MainlineWaitsForTheHandler : Prop :=
  ∀ s t : State, step s = .next t → s.irq.inIsr = true →
    t.be = s.be ∧ t.port = s.port ∧ t.buf = s.buf ∧ t.power.pc = s.power.pc ∧ t.io.mainWait = s.io.mainWait ∧
    ((∀ bs rest tail, s.io.inputs = .word bs :: rest →
        decodeWord bs ≠ .ok (.critEnter, tail) ∧ decodeWord bs ≠ .ok (.critExit, tail)) →
      t.irq.ie = s.irq.ie)

/-- `CFG` has two writers: SET_CONFIGURATION with recipient device, which stores `wValueL`, and the bus-reset branch
of the frame handler, which stores 0 (R25, R189, R272). -/
def Obligations.ConfigurationHasTwoWriters : Prop :=
  ∀ s t : State, step s = .next t → t.dev.cfg ≠ s.dev.cfg →
    s.irq.inIsr = true ∧
    ((s.ct.pc = .s4 ∧ ∃ r : Req, decodeSetup s.latch.packet = .setConfiguration r ∧ r.recipient = 0 ∧
        t.dev.cfg = r.wValueL) ∨
     (s.ct.pc = .idle ∧ s.ft.pc = .f2 ∧ s.ft.eor = true ∧ t.dev.cfg = 0))

/-- `ADDR` and `ADDR_EN` are written by SET_ADDRESS, at S4 or where its wait ends, with `wValueL[6:0]` of the request
in `SP`, and cleared by the end of a bus reset; by nothing else (R27, R87, R185). What waits to be written at any
point is that same value (`PendingOk`, kept by every step; logs 7, 8). -/
def Obligations.AddressHasTwoWriters : Prop :=
  ∀ s t : State, PendingOk s → step s = .next t →
    PendingOk t ∧
    ((t.dev.addr ≠ s.dev.addr ∨ t.dev.addrEn ≠ s.dev.addrEn) →
      (∃ rest, s.io.inputs = .env .eor :: rest ∧ t.dev.addr = 0 ∧ t.dev.addrEn = false) ∨
      (s.irq.inIsr = true ∧ (s.ct.pc = .s4 ∨ s.ct.pc = .s4SetaddrWait) ∧ t.dev.addrEn = true ∧
        ∃ r : Req, decodeSetup s.latch.packet = .setAddress r ∧ t.dev.addr = r.wValueL.extractLsb' 0 7))

/-- Every step of the bulk engine and of the frame handler leaves `SEL` and `IE` as it found them (R246, R278), and a
step of the bulk engine never touches the cursor, `SP`, the device registers, the handlers' program points or the
attach sequence (R240). -/
def Obligations.SequencersRestoreSelector : Prop :=
  (∀ s t : State, ftStep s = .next t → t.sel = s.sel ∧ t.irq.ie = s.irq.ie ∧ t.crit = s.crit) ∧
  (∀ s t : State, beStep s = .next t → t.sel = s.sel ∧ t.irq = s.irq ∧ t.crit = s.crit ∧ t.cursor = s.cursor ∧
    t.latch = s.latch ∧ t.dev = s.dev ∧ t.ct = s.ct ∧ t.ft = s.ft ∧ t.power = s.power)

/-! ## The control handler -/

/-- S1 on a spurious entry: `SEL <- 0` and nothing else, then the return (R171, R318). -/
def Obligations.SpuriousEntryReturns : Prop :=
  ∀ s : State, s.ct.pc = .s1 → (s.ep 0).setup = false →
    ∃ t, ctStep s = .next t ∧ t = { s with sel := 0, ct.pc := .exit } ∧
      ctStep t = .next { s with sel := 0, irq.inIsr := false, ct.pc := .idle }

/-- S1 to S3 after a setup packet (R171, R172, R173, R174): `SP` holds its eight bytes in arrival order, `setup` and
`out_rdy` are cleared, the cursor is `(0, wLength)`; with `dir = 1` S3 waits for `in_rdy`, with `dir = 0` it commits
the zero-length status packet. At S3.wait (R36, R143, R173) it stands still while `in_rdy` is 0 and goes to S4 where it is 1. -/
def Obligations.SetupPacketIsParsed : Prop :=
  (∀ (s : State) (p : SetupPacket), s.ct.pc = .s2 → s.sel = 0 → s.controlOn → (s.ep 0).data = p.bytes →
    ctStep s = .next { s.setEp 0 { s.ep 0 with data := [], setup := false, outRdy := false } with
      latch := ⟨p, true⟩, cursor := ⟨0, p.wLength⟩, ct.pc := .s3 }) ∧
  (∀ s : State, s.ct.pc = .s1 → s.controlOn → (s.ep 0).setup = true →
    ctStep s = .next { s with sel := 0, ct.pc := .s2 }) ∧
  (∀ s : State, s.ct.pc = .s3 → s.latch.valid = true → s.sel = 0 → s.controlOn → s.latch.packet.dir = true →
    ctStep s = .next { s with ct.pc := if (s.ep 0).inRdy then .s4 else .s3Wait }) ∧
  (∀ s : State, s.ct.pc = .s3 → s.latch.valid = true → s.sel = 0 → s.controlOn → s.latch.packet.dir = false →
    (s.ep 0).inRdy = true → (s.ep 0).inQ = [] →
    ctStep s = .next { (s.setEp 0 { s.ep 0 with inQ := [(s.ep 0).data], data := [], inRdy := false }).logTx 0
      (s.ep 0).data with ct.pc := .s4 }) ∧
  (∀ s : State, s.ct.pc = .s3Wait → s.sel = 0 → s.controlOn →
    ctStep s = .next (if (s.ep 0).inRdy then { s with ct.pc := .s4 } else s))

/-- S5 and the return (R194, R318): after `ok` the bank is committed where the block owns one, after `fail` the
endpoint is stalled and nothing is committed; either way the handler is back at IDLE with `IN_ISR = 0` two steps
later, with no hold (R196 (a), R305). -/
def Obligations.HandlerCompletes : Prop :=
  (∀ s : State, s.ct.pc = .s5 → s.ct.result = .ok → s.sel = 0 → s.controlOn → (s.ep 0).inRdy = true →
    (s.ep 0).inQ = [] →
    ctStep s = .next { (s.setEp 0 { s.ep 0 with inQ := [(s.ep 0).data], data := [], inRdy := false }).logTx 0
      (s.ep 0).data with ct.pc := .exit }) ∧
  (∀ s : State, s.ct.pc = .s5 → s.ct.result = .ok → s.sel = 0 → s.controlOn → (s.ep 0).inRdy = false →
    ctStep s = .next { s with ct.pc := .exit }) ∧
  (∀ (s : State) (c : Cause), s.ct.pc = .s5 → s.ct.result = .fail c → s.sel = 0 →
    ctStep s = .next { s.setEp 0 { s.ep 0 with stall := true } with ct.pc := .exit }) ∧
  (∀ s : State, s.ct.pc = .exit → ctStep s = .next { s with irq.inIsr := false, ct.pc := .idle })

/-- A whole GET_STATUS transfer, from the host's packet to the return of the handler (R85, R170, R184, R316, R318;
vector V-CT-1), whatever its `wLength`, `wIndex`, `wValue` and recipient: one packet of the two zero bytes, or of as
many of them as `wLength` lets through, is committed, whatever was queued before. -/
def Obligations.GetStatusIsServed : Prop :=
  ∀ (s : State) (p : SetupPacket), p.dir = true → p.kind = 0 → p.bRequest = 0 →
    s.controlOn → (s.ep 0).setup = false → s.irq.ie = true → s.irq.inIsr = false → s.irq.ienSetup0 = true →
    s.irq.pendEor = false → s.irq.pendSof = false → s.ct.pc = .idle → s.ft.pc = .idle → s.io.held = [] →
    s.io.inputs = [.env (.setup p)] →
    ∃ t, Host.Core.run Sys2Proof.core 8 s = .next t ∧
      t.ep 0 = { s.ep 0 with setup := false, outRdy := false, stall := false, data := [], outQ := [],
                             inQ := [List.replicate (min 2 p.wLength.toNat) 0], inRdy := false } ∧
      t.txlogOf 0 = s.txlogOf 0 ++ [List.replicate (min 2 p.wLength.toNat) 0] ∧
      (∀ e : EpIdx, e ≠ 0 → t.ep e = s.ep e ∧ t.txlogOf e = s.txlogOf e) ∧
      t.latch = ⟨p, true⟩ ∧ t.cursor = ⟨2, p.wLength⟩ ∧ t.sel = 0 ∧ t.dev = s.dev ∧
      t.irq = { s.irq with spurComm := false } ∧ t.ct.pc = .idle ∧ t.buf = s.buf

/-! ## The requests -/

/-- GET_STATUS emits two zero bytes and GET_CONFIGURATION one byte, the constant 1, whatever `CFG` holds, through the
cursor (R184, R188); with bytes to transmit and no free bank each holds (R177). -/
def Obligations.ConstantAnswers : Prop :=
  (∀ (s : State) (r : Req), EmitFits s [0, 0] → exec (.getStatus r) s = .next ((s.emitted [0, 0]).answered .ok)) ∧
  (∀ (s : State) (r : Req), EmitFits s [1] → exec (.getConfiguration r) s = .next ((s.emitted [1]).answered .ok)) ∧
  (∀ (s : State) (r : Req), s.sel = 0 → s.controlOn → (s.ep 0).inRdy = false →
    s.cursor.pos.toNat < s.cursor.lim.toNat →
    exec (.getStatus r) s =
      .next { s with ct.pc := .s4EmitWait, ct.todo := [.emit8 0, .emit8 0], ct.result := .ok } ∧
    exec (.getConfiguration r) s =
      .next { s with ct.pc := .s4EmitWait, ct.todo := [.emit8 1], ct.result := .ok })

/-- SET_ADDRESS (R185): with the status packet collected, `ADDR <- wValueL[6:0]` and `ADDR_EN <- 1` in one step and
nothing else but the program point; before that it holds, and writes them where the hold ends. -/
def Obligations.SetAddressWaitsThenWrites : Prop :=
  ∀ (s : State) (r : Req), s.sel = 0 → s.controlOn →
    ((s.ep 0).inRdy = true →
      exec (.setAddress r) s =
        .next ({ s with dev.addr := r.wValueL.extractLsb' 0 7, dev.addrEn := true }.answered .ok)) ∧
    ((s.ep 0).inRdy = false →
      ∃ h, exec (.setAddress r) s = .next h ∧
        h = { s with ct.pc := .s4SetaddrWait, ct.todo := [.waitIn, .setAddress (r.wValueL.extractLsb' 0 7)],
                     ct.result := .ok } ∧
        ctStep h = .next h ∧
        ∀ q : List Packet, ctStep (h.setEp 0 { h.ep 0 with inRdy := true, inQ := q }) =
          .next ({ s.setEp 0 { s.ep 0 with inRdy := true, inQ := q } with
                   dev.addr := r.wValueL.extractLsb' 0 7, dev.addrEn := true }.answered .ok))

/-- SET_CONFIGURATION (R189, R191): with recipient device every endpoint from 1 to `N_EP - 1` is initialised with the
type of the table and `CFG` takes `wValueL`; endpoint 0, the endpoints past `N_EP` and everything else stand. Any
other recipient fails and writes nothing. -/
def Obligations.SetConfigurationInitialises : Prop :=
  ∀ (s : State) (r : Req),
    (r.recipient = 0 →
      ∃ t, exec (.setConfiguration r) s = .next t ∧
        (∀ e : EpIdx, t.ep e =
          if e ≠ 0 ∧ e.toNat < s.conf.nEp then
            let k := s.conf.epTable.getD (e.toNat - 1) .disabled
            ⟨k != .disabled, k, false, inCapable k, false, false, [], [], []⟩
          else s.ep e) ∧
        t = ({ s with eps := t.eps, dev.cfg := r.wValueL }.answered .ok)) ∧
    (r.recipient ≠ 0 → exec (.setConfiguration r) s = .next (s.answered (.fail .fRecipient)))

/-- SET_DESCRIPTOR and the kinds 2 and 3 always fail, reading and writing nothing (R187, R193). A request code the source does not name gives the parameter `UNLISTED_STD_RESULT` and touches nothing else, for
both values of the parameter (R190). -/
def Obligations.RequestsThatOnlyAnswer : Prop :=
  (∀ (s : State) (b : Byte) (r : Req),
    exec (.setDescriptor r) s = .next (s.answered (.fail .fSetDescriptor)) ∧
    exec (.kindVendor b r) s = .next (s.answered (.fail .fKind)) ∧
    exec (.kindReserved b r) s = .next (s.answered (.fail .fKind))) ∧
  (∀ (s : State) (b : Byte) (r : Req),
    (s.conf.unlistedOk = true → exec (.standardUnlisted b r) s = .next (s.answered .ok)) ∧
    (s.conf.unlistedOk = false → exec (.standardUnlisted b r) s = .next (s.answered (.fail .fUnlisted))))

/-- A class request resets the cursor to `(0, wLength)`. An interface nobody owns is a success without a call; the
owner of the interface, the collaborator whose run of `NIF` indices holds `wIndex[7:0]`, is called once with `SP`,
and its result is the request's (R192). The calls are answered from `io.answers` (log 9), and the answer is performed
on endpoint 0: it emits through the cursor, waits for an OUT packet and holds there (R356), reads and releases it, with
the host's next packet falling where it may (R86, R93; log 7). A collaborator that returns with another endpoint
selected, or writes outside the cursor, is refused (R192, R353, R360, U13). -/
def Obligations.ClassRequestsReachTheOwner : Prop :=
  (∀ (s : State) (b : Byte) (r : Req),
    ((s.conf.collabs.map fun c => c.nif.toNat).sum ≤ (lo8 r.wIndex).toNat) →
    exec (.classRequest b r) s = .next ({ s with cursor := ⟨0, r.wLength⟩ }.answered .ok)) ∧
  (∀ (s t : State) (b : Byte) (r : Req) (before after : List Collab) (c : Collab) (a : CollabAnswer)
      (as : List CollabAnswer) (res : CtResult),
    s.conf.collabs = before ++ c :: after →
    (before.map fun c => c.nif.toNat).sum ≤ (lo8 r.wIndex).toNat →
    (lo8 r.wIndex).toNat < (before.map fun c => c.nif.toNat).sum + c.nif.toNat →
    s.io.answers = a :: as → res = (if a.ok then .ok else .fail .fClass) →
    t = { s with cursor := ⟨0, r.wLength⟩, io.answers := as,
                 ghost.calls := s.ghost.calls ++ [CollabCall.setup before.length (r.packet 1 b)] } →
    exec (.classRequest b r) s = runRequest (answerMicros a) res t ∧
    (s.sel = 0 → a.ops = [] → exec (.classRequest b r) s = .next (t.answered res)) ∧
    (∀ bs, a.ops = [.emit bs] → EmitFits t bs →
      exec (.classRequest b r) s = .next ((t.emitted bs).answered res)) ∧
    (∀ more, a.ops = .waitOut :: more → s.sel = 0 → s.controlOn → (s.ep 0).outRdy = false →
      ∃ h, exec (.classRequest b r) s = .next h ∧
        h = { t with ct.pc := .s4CallWait, ct.todo := answerMicros a, ct.result := res } ∧ ctStep h = .next h) ∧
    (∀ n, a.ops = [.waitOut, .readN n, .clearOut] → s.sel = 0 → s.controlOn → (s.ep 0).outRdy = true →
      (s.ep 0).outQ = [] → n.toNat ≤ (s.ep 0).data.length → n.toNat ≤ 64 →
      exec (.classRequest b r) s =
        .next ({ t.setEp 0 { t.ep 0 with outRdy := false, data := [] } with
          io.ret := .bytes ((t.ep 0).data.take n.toNat) }.answered res)) ∧
    (∀ p bs, a.ops = [.clearOut, .hostOut 0 p, .emit bs] → s.sel = 0 → s.controlOn → (s.ep 0).outRdy = true →
      (s.ep 0).outQ = [] → (s.ep 0).setup = false → (s.ep 0).stall = false → (s.ep 0).inRdy = true →
      p.length + bs.length < 64 →
      exec (.classRequest b r) s =
        .next ({ t.setEp 0 { t.ep 0 with data := p ++ bs.take r.wLength.toNat } with
          cursor := ⟨BitVec.ofNat 16 bs.length, r.wLength⟩ }.answered res)) ∧
    (∀ i, i ≠ 0 → a.ops = [.select i] →
      exec (.classRequest b r) s =
        .refused (if i.toNat < s.conf.nEp then .collabLeftSelector else .reservedEndpoint)) ∧
    (∀ x, a.ops = [.write8 x] → exec (.classRequest b r) s = .refused .collabWroteRaw))

/-! ## The descriptors -/

/-- GET_DESCRIPTOR(DEVICE) (R212, R112, R113): latch first, where `wLength` is 8, then the 18 bytes of the variant the
latch selects, through the cursor, in every state of the bank (what an emission that fills it does is stated by
EmissionFollowsTheCursor). The parent row GET_DESCRIPTOR performs the row its `wValueH` selects, for every request
(R134, R211). -/
def Obligations.DeviceDescriptor : Prop :=
  (∀ (s : State) (r : Req) (t : State) (bytes : List Byte),
    t = { s with dev.composite := s.dev.composite || r.wLength == 8 } →
    bytes = [0x12, 0x01, 0x00, 0x01, if t.dev.composite then s.conf.compositeClass else 0x00, 0x00, 0x00, 0x40,
      lo8 s.conf.vid, hi8 s.conf.vid, lo8 s.conf.pid, hi8 s.conf.pid, 0x00, 0x01,
      s.conf.iManufacturer, s.conf.iProduct, s.conf.iSerial, 0x01] →
    exec (.getDescriptorDevice r) s = runRequest (bytes.map .emit8) .ok t ∧
    (EmitFits s bytes →
      exec (.getDescriptorDevice r) s = .next ((t.emitted bytes).answered .ok) ∧
      (r.wValueH = 1 → exec (.getDescriptor r) s = .next ((t.emitted bytes).answered .ok)))) ∧
  (∀ (s : State) (r : Req), exec (.getDescriptor r) s = exec (Instr.getDescriptor r).performed s)

/-- GET_DESCRIPTOR(STRING) (R213, R214, R114 to R117): index 0 the language table, then product, then manufacturer,
each with its length and type byte and its code units low byte first, in every state of the bank; any other index fails
and emits nothing. -/
def Obligations.StringDescriptor : Prop :=
  (∀ (s : State) (r : Req) (bytes : List Byte), s.conf.wf = true →
    (r.wValueL = 0 ∧ bytes = [4, 3, lo8 s.conf.langId, hi8 s.conf.langId] ∨
     r.wValueL ≠ 0 ∧ r.wValueL = s.conf.iProduct ∧
       bytes = BitVec.ofNat 8 (2 + 2 * s.conf.strProduct.length) :: 3 ::
         (s.conf.strProduct.map fun u => [lo8 u, hi8 u]).flatten ∨
     r.wValueL ≠ 0 ∧ r.wValueL ≠ s.conf.iProduct ∧ r.wValueL = s.conf.iManufacturer ∧
       bytes = BitVec.ofNat 8 (2 + 2 * s.conf.strManufacturer.length) :: 3 ::
         (s.conf.strManufacturer.map fun u => [lo8 u, hi8 u]).flatten) →
    exec (.getDescriptorString r) s = runRequest (bytes.map .emit8) .ok s ∧
    (EmitFits s bytes → exec (.getDescriptorString r) s = .next ((s.emitted bytes).answered .ok))) ∧
  (∀ (s : State) (r : Req), r.wValueL ≠ 0 → r.wValueL ≠ s.conf.iProduct → r.wValueL ≠ s.conf.iManufacturer →
    exec (.getDescriptorString r) s = .next (s.answered (.fail .fDescNotFound)))

/-- GET_DESCRIPTOR(CONFIGURATION) (R216, R217, R218, R222, R118, R119): pass 1 counts and transmits nothing, pass 2 emits
the 9-byte header with the measured total and the sum of the interface counts, then the same bytes again, in every
state of the bank; the position ends at the total the header states. A total above 65535 is refused (R222, U12). -/
def Obligations.ConfigurationDescriptor : Prop :=
  (∀ (s t : State) (r : Req) (body header : List Byte),
    body = (s.conf.collabs.map fun c => c.ifDesc).flatten → body.length + 9 ≤ 65535 →
    t = { s with cursor := ⟨0, r.wLength⟩, ct.measured := BitVec.ofNat 16 body.length,
                 ct.nifTotal := BitVec.ofNat 8 (s.conf.collabs.map fun c => c.nif.toNat).sum } →
    header = [9, 2, lo8 (BitVec.ofNat 16 (body.length + 9)), hi8 (BitVec.ofNat 16 (body.length + 9)),
      BitVec.ofNat 8 (s.conf.collabs.map fun c => c.nif.toNat).sum, s.conf.cfgValue, s.conf.cfgIString,
      s.conf.cfgAttr, s.conf.cfgMaxPower] →
    s.sel = 0 →
    exec (.getDescriptorConfiguration r) s = runRequest ((header ++ body).map .emit8) .ok t ∧
    (EmitFits t (header ++ body) →
      exec (.getDescriptorConfiguration r) s = .next ((t.emitted (header ++ body)).answered .ok) ∧
      ((t.emitted (header ++ body)).answered .ok).cursor.pos = BitVec.ofNat 16 (body.length + 9))) ∧
  (∀ (s : State) (r : Req), s.sel = 0 → 65535 < (s.conf.collabs.map fun c => c.ifDesc).flatten.length + 9 →
    exec (.getDescriptorConfiguration r) s = .refused .cursorOverflow)

/-- GET_DESCRIPTOR of any other type (R219): offered to the HID-like collaborators in order, the first success ends the
search, and it fails where none succeeds. The answers are those of `io.answers` (log 9), what each does is performed in
order (log 30), and each collaborator asked is logged with `SP`. -/
def Obligations.OtherDescriptor : Prop :=
  (∀ (s : State) (r : Req), (∀ c ∈ s.conf.collabs, c.kind ≠ .hidLike) →
    exec (.getDescriptorOther r) s = .next (s.answered (.fail .fDescNotFound))) ∧
  (∀ (s t : State) (r : Req) (fails as : List CollabAnswer),
    (∀ a ∈ fails, a.ok = false) → fails.length = (hidIndices s.conf.collabs).length → s.io.answers = fails ++ as →
    t = { s with io.answers := as,
                 ghost.calls := s.ghost.calls ++ (hidIndices s.conf.collabs).map (.getDescriptor · (r.packet 0 6)) } →
    exec (.getDescriptorOther r) s = runRequest (fails.map answerMicros).flatten (.fail .fDescNotFound) t ∧
    (s.sel = 0 → (∀ a ∈ fails, a.ops = []) →
      exec (.getDescriptorOther r) s = .next (t.answered (.fail .fDescNotFound)))) ∧
  (∀ (s t : State) (r : Req) (fails as : List CollabAnswer) (win : CollabAnswer),
    (∀ a ∈ fails, a.ok = false) → win.ok = true → fails.length < (hidIndices s.conf.collabs).length →
    s.io.answers = fails ++ win :: as →
    t = { s with io.answers := as,
                 ghost.calls := s.ghost.calls ++
                   ((hidIndices s.conf.collabs).take (fails.length + 1)).map (.getDescriptor · (r.packet 0 6)) } →
    exec (.getDescriptorOther r) s = runRequest ((fails ++ [win]).map answerMicros).flatten .ok t ∧
    (s.sel = 0 → (∀ a ∈ fails, a.ops = []) → win.ops = [] →
      exec (.getDescriptorOther r) s = .next (t.answered .ok)) ∧
    (∀ bs, (∀ a ∈ fails, a.ops = []) → win.ops = [.emit bs] → EmitFits s bs →
      exec (.getDescriptorOther r) s = .next ((t.emitted bs).answered .ok)))

/-! ## Emission -/

/-- EMIT8 and EMIT_N where the bank keeps room (R177, R178, R179): the first `min(k, CUR_LIM - CUR_POS)` bytes stand in
the bank in order, the position counts all k, nothing else changes. With limit 0 nothing is written (R175).
A response of more than one packet (R121, R177): 64 bytes leave as one packet, and the next byte waits for the
host to collect it. The byte that fills the bank commits the packet; with no free bank a transmitted byte holds (log 8
for the word of a handler).
The same of a request's response (R195): with room it ends in one step; what fills the bank exactly is committed and the
request ends; what passes the bank is committed and the handler holds at S4.emit.wait with the rest, where it stands
still while no bank is free, and goes on with the rest once the host has collected the packet (log 7). -/
def Obligations.EmissionFollowsTheCursor : Prop :=
  (∀ (s : State) (bs : List Byte), EmitFits s bs → exec (.emitN bs) s = .next (s.emitted bs)) ∧
  (∀ (s : State) (b : Byte), EmitFits s [b] → exec (.emit8 b) s = .next (s.emitted [b])) ∧
  (∀ (s : State) (bs : List Byte), s.sel = 0 → s.controlOn → (s.ep 0).inRdy = true → (s.ep 0).data = [] →
    64 < bs.length → s.cursor.pos.toNat + 64 < s.cursor.lim.toNat →
    exec (.emitN bs) s =
      .next { (s.setEp 0 { s.ep 0 with inQ := (s.ep 0).inQ ++ [bs.take 64], inRdy := false }).logTx 0 (bs.take 64) with
        cursor.pos := s.cursor.pos + 64, io.held := (bs.drop 64).map .emit8 }) ∧
  (∀ (s : State) (b : Byte), s.sel = 0 → s.controlOn → (s.ep 0).inRdy = true → (s.ep 0).data.length = 63 →
    s.cursor.pos.toNat < s.cursor.lim.toNat →
    exec (.emit8 b) s =
      .next { (s.setEp 0 { s.ep 0 with inQ := (s.ep 0).inQ ++ [(s.ep 0).data ++ [b]], data := [], inRdy := false }).logTx 0
        ((s.ep 0).data ++ [b]) with cursor.pos := s.cursor.pos + 1 }) ∧
  (∀ (s : State) (b : Byte), s.sel = 0 → s.controlOn → (s.ep 0).inRdy = false →
    s.cursor.pos.toNat < s.cursor.lim.toNat → exec (.emit8 b) s = .next { s with io.held := [.emit8 b] }) ∧
  (∀ (s : State) (bs : List Byte) (res : CtResult), EmitFits s bs →
    runRequest (bs.map .emit8) res s = .next ((s.emitted bs).answered res)) ∧
  (∀ (s : State) (bs : List Byte) (res : CtResult), s.sel = 0 → s.controlOn → (s.ep 0).inRdy = true →
    (s.ep 0).data.length < 64 → s.cursor.pos.toNat + bs.length ≤ 65535 →
    (s.ep 0).data.length + (s.sentPart bs).length = 64 →
    runRequest (bs.map .emit8) res s =
      .next ({ (s.setEp 0 { s.ep 0 with inQ := (s.ep 0).inQ ++ [(s.ep 0).data ++ s.sentPart bs], data := [],
                                        inRdy := false }).logTx 0 ((s.ep 0).data ++ s.sentPart bs) with
        cursor.pos := s.cursor.pos + BitVec.ofNat 16 bs.length }.answered res)) ∧
  (∀ (s : State) (bs : List Byte) (res : CtResult) (k : Nat), s.sel = 0 → s.controlOn → (s.ep 0).inRdy = true →
    (s.ep 0).data.length < 64 → k = 64 - (s.ep 0).data.length → k < (s.sentPart bs).length →
    runRequest (bs.map .emit8) res s =
      .next { (s.setEp 0 { s.ep 0 with inQ := (s.ep 0).inQ ++ [(s.ep 0).data ++ bs.take k], data := [],
                                       inRdy := false }).logTx 0 ((s.ep 0).data ++ bs.take k) with
        cursor.pos := s.cursor.pos + BitVec.ofNat 16 k,
        ct.pc := .s4EmitWait, ct.todo := (bs.drop k).map .emit8, ct.result := res }) ∧
  (∀ (s : State) (b : Byte) (bs : List Byte), s.ct.pc = .s4EmitWait → s.ct.todo = (b :: bs).map .emit8 → s.sel = 0 →
    s.controlOn → s.cursor.pos.toNat < s.cursor.lim.toNat →
    ((s.ep 0).inRdy = false → ctStep s = .next s) ∧
    ∀ q : List Packet,
      ctStep (s.setEp 0 { s.ep 0 with inRdy := true, inQ := q }) =
        runRequest ((b :: bs).map .emit8) s.ct.result (s.setEp 0 { s.ep 0 with inRdy := true, inQ := q }))

/-- CUR_INIT writes the cursor and nothing else (R176). -/
def Obligations.CursorInit : Prop :=
  ∀ (s : State) (n : Word16), exec (.curInit n) s = .next { s with cursor := ⟨0, n⟩ }

/-! ## The endpoint register interface -/

/-- SELECT, TEST_SETUP, BYTE_COUNT (R141, R142, R148): the selector moves, the others only read, into the model's
result field (log 8). That TEST_SETUP answers 0 on a non-control endpoint and is not refused is the model's reading of
R142 beside R157 (log 19). -/
def Obligations.SelectAndQueries : Prop :=
  (∀ (s : State) (i : EpIdx), i.toNat < s.conf.nEp → exec (.select i) s = .next { s with sel := i }) ∧
  (∀ (s : State) (i : EpIdx), s.conf.nEp ≤ i.toNat → exec (.select i) s = .refused .reservedEndpoint) ∧
  (∀ s : State, exec .testSetup s =
    .next { s with io.ret := .bit (s.cur.en && s.cur.kind == .control && s.cur.setup) }) ∧
  (∀ s : State, exec .byteCount s =
    .next { s with io.ret := .count (BitVec.ofNat 7 (if s.cur.en then s.cur.data.length else 0)) })

/-- RW_ALLOWED and SEND_SPACE by type (R45, R149, R242, R159): writable below 64 bytes, readable above 0, 0 on a
disabled endpoint; SEND_SPACE leaves `SEL` and `IE` alone. A control endpoint is refused (R157). -/
def Obligations.SpaceQueries : Prop :=
  (∀ (s : State) (e : EpIdx) (rw : Bool), e.toNat < s.conf.nEp → (s.ep e).en = true → (s.ep e).kind ≠ .control →
    rw = ((s.ep e).kind.sends && (s.ep e).inRdy && decide ((s.ep e).data.length < 64) ||
          (s.ep e).kind == .bulkOut && (s.ep e).outRdy && decide (0 < (s.ep e).data.length)) →
    (s.sel = e → exec .rwAllowed s = .next { s with io.ret := .bit rw }) ∧
    exec (.sendSpace e) s =
      .next { s with io.ret := .count (BitVec.ofNat 7 (if rw then 64 - (s.ep e).data.length else 0)) }) ∧
  (∀ (s : State) (e : EpIdx), e.toNat < s.conf.nEp → (s.ep e).en = false →
    (s.sel = e → exec .rwAllowed s = .next { s with io.ret := .bit false }) ∧
    exec (.sendSpace e) s = .next { s with io.ret := .count 0 }) ∧
  (∀ (s : State) (e : EpIdx), e.toNat < s.conf.nEp → (s.ep e).en = true → (s.ep e).kind = .control →
    (s.sel = e → exec .rwAllowed s = .refused .wrongEndpointType) ∧
    exec (.sendSpace e) s = .refused .wrongEndpointType)

/-- WAIT_IN and WAIT_OUT (R143, R144): with the flag up they fall through and change nothing; with it down the sequencer
that issued it holds, a handler or the mainline's, and nothing else changes, `IE` among it (R312; log 8 for where a hold
stands). The hold of either ends at the first step at which the flag is up and stands still before that; a held emission
(R177, R178) stands still while no bank is free and then goes on as the same word issued anew. While the mainline's
sequencer waits, the handlers are delivered as ever ("no interrupts masked", R312). -/
def Obligations.WaitsHold : Prop :=
  (∀ s : State, s.cur.en = true → inCapable s.cur.kind = true →
    exec .waitIn s = .next (
      if s.cur.inRdy then s else if s.irq.inIsr then { s with io.held := [.waitIn] }
      else { s with io.mainWait := some .inReady })) ∧
  (∀ s : State, s.cur.en = true → outCapable s.cur.kind = true →
    exec .waitOut s = .next (
      if s.cur.outRdy then s else if s.irq.inIsr then { s with io.held := [.waitOut] }
      else { s with io.mainWait := some .outReady })) ∧
  (∀ (s : State) (d : Bool), s.irq.inIsr = true → s.cur.en = true →
    (s.io.held = [.waitIn] → inCapable s.cur.kind = true →
      blockStep d s = .next (if s.cur.inRdy then { s with io.held := [] } else s)) ∧
    (s.io.held = [.waitOut] → outCapable s.cur.kind = true →
      blockStep d s = .next (if s.cur.outRdy then { s with io.held := [] } else s))) ∧
  (∀ (s : State) (d : Bool) (b : Byte) (bs : List Byte), s.irq.inIsr = true → s.io.held = (b :: bs).map .emit8 →
    s.sel = 0 → s.controlOn →
    ((s.ep 0).inRdy = false → s.cursor.pos.toNat < s.cursor.lim.toNat → blockStep d s = .next s) ∧
    ((s.ep 0).inRdy = true → blockStep d s = exec (.emitN (b :: bs)) { s with io.held := [] })) ∧
  (∀ s : State, s.io.held = [] → s.irq.inIsr = false → s.cur.en = true →
    (s.io.mainWait = some .inReady → inCapable s.cur.kind = true →
      blockStep false s = .next (if s.cur.inRdy then { s with io.mainWait := none } else s)) ∧
    (s.io.mainWait = some .outReady → outCapable s.cur.kind = true →
      blockStep false s = .next (if s.cur.outRdy then { s with io.mainWait := none } else s))) ∧
  (∀ s : State, s.io.held = [] → s.irq.inIsr = false → s.irq.ie = true → s.io.mainWait ≠ none →
    (commReq s = true → frameReq s = false →
      blockStep true s = .next { s with irq.inIsr := true, irq.spurComm := false, ct.pc := .s1 }) ∧
    (commReq s = false → frameReq s = true →
      blockStep true s = .next { s with irq.inIsr := true, ft.pc := .f1 }))

/-- READ8 and READ_N (R145, R146): the first bytes of the bank in arrival order, the rest stays. Past the end each
byte is a free value, and the bank stays empty: of the two treatments R145 allows this is the model's choice (log 10).
The result stands in the model's result field (log 8).
WRITE8 (R147): the byte at the end of the bank; a full bank or `in_rdy = 0` is refused. -/
def Obligations.FifoAccess : Prop :=
  (∀ (s : State) (b : Byte) (rest : List Byte), s.cur.en = true → outCapable s.cur.kind = true →
    s.cur.data = b :: rest →
    exec .read8 s = .next { s.setEp s.sel { s.cur with data := rest } with io.ret := .byte b }) ∧
  (∀ s : State, s.cur.en = true → outCapable s.cur.kind = true → s.cur.data = [] →
    ∃ b : Byte, exec .read8 s = .next { s with io.draws := s.io.draws + 1, io.ret := .byte b }) ∧
  (∀ (s : State) (n : Byte), n.toNat ≤ 64 → (n ≠ 0 → s.cur.en = true ∧ outCapable s.cur.kind = true) →
    ∃ extra : List Byte, extra.length = n.toNat - s.cur.data.length ∧
      exec (.readN n) s =
        .next { s.setEp s.sel { s.cur with data := s.cur.data.drop n.toNat } with
          io.draws := s.io.draws + (n.toNat - s.cur.data.length),
          io.ret := .bytes (s.cur.data.take n.toNat ++ extra) }) ∧
  (∀ (s : State) (b : Byte), s.cur.en = true → inCapable s.cur.kind = true → s.cur.inRdy = true →
    s.cur.data.length < 64 →
    exec (.write8 b) s = .next (s.setEp s.sel { s.cur with data := s.cur.data ++ [b] })) ∧
  (∀ (s : State) (b : Byte), s.cur.en = true → inCapable s.cur.kind = true →
    (s.cur.inRdy = false ∨ 64 ≤ s.cur.data.length) → exec (.write8 b) s = .refused .writeWithoutRoom)

/-- ACK_IN, ARM_OUT_STAGE and RELEASE_TX (R150, R153, R156, R174): the bank is logged and queued, `in_rdy` stays while a
bank is left; without a bank nothing happens.
CLEAR_OUT and RELEASE_RX (R154, R155): the next received packet takes the bank's place, or the bank is given back;
without a received packet nothing happens. -/
def Obligations.CommitsAndReleases : Prop :=
  (∀ (s : State) (i : Instr),
    (s.cur.en = true ∧ s.cur.kind = .control ∧ (i = .ackIn ∨ i = .armOutStage) ∨
      s.cur.en = true ∧ s.cur.kind.sends = true ∧ i = .releaseTx) →
    (s.cur.inRdy = true →
      exec i s = .next ((s.setEp s.sel { s.cur with
        inQ := s.cur.inQ ++ [s.cur.data], data := [],
        inRdy := decide (s.cur.inQ.length + 1 < if s.sel = 0 then 1 else 2) }).logTx s.sel s.cur.data)) ∧
    (s.cur.inRdy = false → exec i s = .next s)) ∧
  (∀ (s : State) (i : Instr),
    (s.cur.en = true ∧ s.cur.kind = .control ∧ i = .clearOut ∨
      s.cur.en = true ∧ s.cur.kind = .bulkOut ∧ i = .releaseRx) →
    (s.cur.outRdy = true → s.cur.outQ = [] →
      exec i s = .next (s.setEp s.sel { s.cur with outRdy := false, data := [] })) ∧
    (∀ q qs, s.cur.outRdy = true → s.cur.outQ = q :: qs →
      exec i s = .next (s.setEp s.sel { s.cur with data := q, outQ := qs })) ∧
    (s.cur.outRdy = false → exec i s = .next s))

/-- CLEAR_SETUP and STALL (R151, R152): two flags down, one flag up. ARM_TX and ARM_RX (R255, R256): the timer and its
indicator in one step, restarted at 100. Nothing else changes. -/
def Obligations.FlagAndPulseOperations : Prop :=
  (∀ s : State, s.cur.en = false ∨ s.cur.kind = .control →
    exec .clearSetup s = .next (s.setEp s.sel { s.cur with setup := false, outRdy := false })) ∧
  (∀ s : State, exec .stall s = .next (s.setEp s.sel { s.cur with stall := true })) ∧
  (∀ s : State,
    exec .armTx s = .next { s with pulse.txp := 100, pulse.ledTx := true } ∧
    exec .armRx s = .next { s with pulse.rxp := 100, pulse.ledRx := true })

/-- INIT_EP (R158): every field of the endpoint as the type operand says, no other endpoint, `SEL` and the log
unchanged; the type of endpoint 0 alone is `control` whatever type but `disabled` is given (R58; log 16). -/
def Obligations.InitEndpoint : Prop :=
  (∀ (s : State) (e : EpIdx) (t : EpType), e.toNat < s.conf.nEp →
    exec (.initEp e t) s = .next (s.setEp e
      ⟨t != .disabled, if e = 0 ∧ t ≠ .disabled then .control else t, false,
        t == .control || t == .bulkIn || t == .interruptIn, false, false, [], [], []⟩)) ∧
  (∀ (s : State) (e : EpIdx) (t : EpType), s.conf.nEp ≤ e.toNat →
    exec (.initEp e t) s = .refused .reservedEndpoint)

/-- CRIT_ENTER saves `IE` and `SEL` and masks; CRIT_EXIT restores the saved values, whatever the body selected; a body
that only selects changes nothing outside (R161, R162). A CRIT_EXIT that would give `SEL` a value of `N_EP` or more,
which no CRIT_ENTER has saved, is refused (R58; log 21). -/
def Obligations.CriticalSection : Prop :=
  (∀ s : State, ∃ t, exec .critEnter s = .next t ∧ t.irq = { s.irq with ie := false } ∧ t.sel = s.sel ∧
    t = { s with irq := t.irq, crit := t.crit } ∧ t.critCtx.snap = ⟨s.irq.ie, s.sel⟩ ∧
    (if s.irq.inIsr then t.crit.main = s.crit.main else t.crit.isr = s.crit.isr)) ∧
  (∀ s : State, s.critCtx.snap.sel.toNat < s.conf.nEp →
    ∃ t, exec .critExit s = .next t ∧ t.irq = { s.irq with ie := s.critCtx.snap.ie } ∧
    t.sel = s.critCtx.snap.sel ∧ t = { s with irq := t.irq, sel := t.sel, crit := t.crit }) ∧
  (∀ s : State, s.conf.nEp ≤ s.critCtx.snap.sel.toNat → exec .critExit s = .refused .reservedEndpoint) ∧
  (∀ (s t : State) (i : EpIdx), s.sel.toNat < s.conf.nEp → exec .critEnter s = .next t →
    exec .critExit { t with sel := i } = .next s)

/-- An operation on an endpoint of the wrong type is refused (R157, R257; U7, U16); the cursor is never wrapped (R175),
and emission needs endpoint 0 selected (R177; log 23).
On a disabled endpoint every query answers 0, the flags read 0, the waits, READ8 and WRITE8 are refused (R159), and
commits and releases, whose flag reads 0, have no effect (R153 to R156, R159; log 17).
A bulk command that names endpoint 0 is refused in every state (R368, U16). A raw micro-operation is refused where no
sequencer runs that may use it: none with every sequencer idle, the cursor outside the control handler, ARM_TX outside the
bulk engine, INIT_EP in it (R34, R57, R321; log 8). The mainline's access to every register but those of R48 it may
read and the command port is refused (R57, R368, U19), a reserved `CMD_OP` is (R131), and so is a write of the port
while a command is served (R56; log 34 for the write of one register). -/
def Obligations.MisuseIsRefused : Prop :=
  (∀ (s : State) (b : Byte), s.cur.en = true →
    (inCapable s.cur.kind = false → exec .waitIn s = .refused .wrongEndpointType ∧
      exec (.write8 b) s = .refused .wrongEndpointType) ∧
    (outCapable s.cur.kind = false → exec .waitOut s = .refused .wrongEndpointType ∧
      exec .read8 s = .refused .wrongEndpointType) ∧
    (s.cur.kind.sends = true ∨ s.cur.kind = .bulkOut → exec .ackIn s = .refused .wrongEndpointType ∧
      exec .clearSetup s = .refused .wrongEndpointType ∧ exec .clearOut s = .refused .wrongEndpointType ∧
      exec .armOutStage s = .refused .wrongEndpointType) ∧
    (s.cur.kind = .control ∨ s.cur.kind = .bulkOut → exec .releaseTx s = .refused .wrongEndpointType) ∧
    (s.cur.kind = .control ∨ s.cur.kind.sends = true → exec .releaseRx s = .refused .wrongEndpointType)) ∧
  (∀ (s : State) (e : EpIdx) (f : BitVec 3) (rom rel zero : Bool) (ptr len : Word16), s.mainlineIdle →
    e.toNat < s.conf.nEp → (s.ep e).en = true →
    ((s.ep e).kind = .control ∨ (s.ep e).kind = .bulkOut →
      exec (.flush e f) s = .refused .wrongEndpointType ∧
      (len.msb = false → exec (.send e rom rel zero ptr len) s = .refused .wrongEndpointType)) ∧
    ((s.ep e).kind = .control → exec (.available e f) s = .refused .wrongEndpointType) ∧
    ((s.ep e).kind = .control ∨ (s.ep e).kind.sends = true →
      exec (.recv e f ptr len) s = .refused .wrongEndpointType)) ∧
  (∀ (s : State) (f : BitVec 3) (rom rel zero : Bool) (ptr len : Word16), s.mainlineIdle → 0 < s.conf.nEp →
    exec (.flush 0 f) s = .refused .wrongEndpointType ∧ exec (.available 0 f) s = .refused .wrongEndpointType ∧
    exec (.recv 0 f ptr len) s = .refused .wrongEndpointType ∧
    (len.msb = false → exec (.send 0 rom rel zero ptr len) s = .refused .wrongEndpointType)) ∧
  (∀ (s : State) (bs tail : List Byte) (rest : List Input) (i : Instr), s.io.inputs = .word bs :: rest →
    decodeWord bs = .ok (i, tail) → i.format = .uop → s.io.held = [] → (s.irq.inIsr = true ∨ s.io.mainWait = none) →
    (s.irq.inIsr = false ∧ s.be.pc = .idle ∨ s.irq.inIsr = true ∧ s.ct.pc = .idle ∧ s.ft.pc = .idle ∨
     ((∃ n, i = .curInit n) ∨ (∃ b, i = .emit8 b) ∨ (∃ b, i = .emitN b)) ∧
       (s.irq.inIsr = false ∨ s.ct.pc = .idle) ∨
     (∃ e k, i = .initEp e k) ∧ s.irq.inIsr = false ∨
     i = .armTx ∧ s.irq.inIsr = true ∨ i = .armRx ∧ s.irq.inIsr = true ∧ s.ct.pc ≠ .idle) →
    step s = .refused .notTheOwner) ∧
  (∀ (s : State) (n v : Nat) (rest : List Input), s.irq.inIsr = false →
    (s.io.inputs = .peek n :: rest →
      n ≠ 0x06 ∧ n ≠ 0x07 ∧ n ≠ 0x0B ∧ n ≠ 0x0C ∧ n ≠ 0x0D ∧ n ≠ 0x24 → step s = .refused .mainlineRegisterAccess) ∧
    (s.io.inputs = .regWrite n v :: rest → n < 0x20 ∨ 0x23 < n → step s = .refused .mainlineRegisterAccess) ∧
    (s.io.inputs = .regWrite 0x20 v :: rest → 5 ≤ (lo8 (BitVec.ofNat 16 v)).toNat →
      step s = .refused .reservedEncoding) ∧
    (s.io.inputs = .regWrite n v :: rest → 0x21 ≤ n → n ≤ 0x23 → ¬ s.mainlineIdle →
      step s = .refused .commandWhileBusy)) ∧
  (∀ (s : State) (b : Byte), s.sel = 0 → s.cursor.pos = 0xFFFF → exec (.emit8 b) s = .refused .cursorOverflow) ∧
  (∀ (s : State) (b : Byte), s.sel ≠ 0 → exec (.emit8 b) s = .refused .emitOffControl) ∧
  (∀ (s : State) (b : Byte), s.cur.en = false →
    exec .byteCount s = .next { s with io.ret := .count 0 } ∧
    exec .testSetup s = .next { s with io.ret := .bit false } ∧
    exec .rwAllowed s = .next { s with io.ret := .bit false } ∧
    regView 0x01 s = some 0 ∧
    exec .waitIn s = .refused .disabledEndpoint ∧ exec .waitOut s = .refused .disabledEndpoint ∧
    exec .read8 s = .refused .disabledEndpoint ∧ exec (.write8 b) s = .refused .disabledEndpoint ∧
    exec .ackIn s = .next s ∧ exec .armOutStage s = .next s ∧ exec .releaseTx s = .next s ∧
    exec .clearOut s = .next s ∧ exec .releaseRx s = .next s)

/-! ## The mainline's commands -/

/-- ATTACH (R281): accepted once, A1; then A2, the hold until the lock, A3, A4, A5, each one step, and nothing but the
seven bits named is written. A second ATTACH is refused (R280). -/
def Obligations.AttachSequence : Prop :=
  (∀ s : State, s.mainlineIdle → s.power.pwr = false →
    exec .attach s = .next { s with port.op := 0, power.pwr := true, power.pc := .a2 }) ∧
  (∀ s : State, s.mainlineIdle → s.power.pwr = true → exec .attach s = .refused .attachTwice) ∧
  (∀ s : State, s.power.pc = .a2 → atStep s = { s with power.clkEn := true, power.pllEn := true, power.pc := .a2Wait }) ∧
  (∀ s : State, s.power.pc = .a2Wait → s.power.pllLock = false → atStep s = s) ∧
  (∀ s : State, s.power.pc = .a2Wait → s.power.pllLock = true →
    atStep (atStep (atStep (atStep s))) =
      { s with irq.ienEor := true, irq.ienSof := true, power.attachEn := true, power.pc := .idle,
               pulse.ledTx := false, pulse.ledRx := false })

/-- SEND.check (R244, R249): a payload outside its space is refused (R368; log 3); unconfigured it fails before anything
else is read or written but the port; configured it loads the working registers; while another command is served it is
refused (R56). The order of the checks is log 20.
Length 0 (R249): `OK(0)`, no FIFO access, no release whatever the flags, no pulse. -/
def Obligations.SendIsChecked : Prop :=
  (∀ (s : State) (e : EpIdx) (rom rel zero : Bool) (ptr len : Word16) (p : Port),
    p = { s.port with op := 0x01, epf := BitVec.ofBool rom ++ BitVec.ofBool rel ++ BitVec.ofBool zero ++ (0 : BitVec 2) ++ e,
                      ptr := ptr, len := len } →
    (¬ s.mainlineIdle → exec (.send e rom rel zero ptr len) s = .refused .commandWhileBusy) ∧
    (s.mainlineIdle → e.toNat < s.conf.nEp → e ≠ 0 → len.msb = false →
      ((s.ep e).en = false ∨ (s.ep e).kind.sends = true ∨ (s.ep e).kind = .disabled) →
      (∀ k, zero = false → (if rom then s.conf.romEnd else s.conf.bufEnd) = some k → 0 < len.toNat →
        k < ptr.toNat + len.toNat → exec (.send e rom rel zero ptr len) s = .refused .rangeOutsideMemory) ∧
      ((zero = true ∨ ∀ k, (if rom then s.conf.romEnd else s.conf.bufEnd) = some k →
          len = 0 ∨ ptr.toNat + len.toNat ≤ k) →
        (s.dev.cfg = 0 → exec (.send e rom rel zero ptr len) s =
          .next { s with port := { p with res := 0xFFFF }, ghost.bulkFail := some .eNotConfigured }) ∧
        (s.dev.cfg ≠ 0 → exec (.send e rom rel zero ptr len) s =
          .next { s with port := p, be.pc := .sndLoop, be.sndEp := e,
                         be.sndFlags := BitVec.ofBool rom ++ BitVec.ofBool rel ++ BitVec.ofBool zero,
                         be.sndPtr := ptr, be.sndTotal := len, be.sndRem := len, be.sndTmo := 250, be.sndI := 0 })))) ∧
  (∀ (s : State) (e : EpIdx) (rom rel zero : Bool) (ptr : Word16), MainlineAlone s → s.mainlineIdle → s.dev.cfg ≠ 0 →
    e.toNat < s.conf.nEp → e ≠ 0 → ((s.ep e).en = false ∨ (s.ep e).kind.sends = true) →
    ∃ t u, exec (.send e rom rel zero ptr 0) s = .next t ∧ Host.Core.run Sys2Proof.core 2 t = .next u ∧
      u.port.res = 0 ∧ u.be.pc = .idle ∧ u.eps = s.eps ∧ u.ghost.txlog = s.ghost.txlog ∧ u.pulse = s.pulse)

/-- A SEND that fits in the bank, run to its end (R243, R244, R247): the bytes of its source in order behind what the
bank held, the bank committed where it is full or RELEASE was asked, `RES` the length, the transmit pulse armed,
`SEL`, `IE`, `BUF` and every other endpoint as before. The bytes stand at `CMD_PTR + i` without a wrap at 65536, and a range
outside a bounded `BUF` or `ROM` is refused (SendIsChecked): the model's reading (log 3).
A SEND of any length, step by step (R243, R244, R245, R247, R248): SND.loop ends with nothing left; at SND.space the chunk is
the least of the free space and what remains, and without free space it waits; SND.chunk writes the bytes of the payload
from index `i` on behind what the bank holds, in order, and commits a bank it fills, or the last one with RELEASE, once; the
pulse is armed after each chunk, and `RES` is the whole length at the end. -/
def Obligations.SendOfOneChunk : Prop :=
  (∀ (s : State) (e : EpIdx) (rom rel zero : Bool) (ptr len : Word16) (bytes : List Byte),
    MainlineAlone s → s.mainlineIdle → s.dev.cfg ≠ 0 → e.toNat < s.conf.nEp → e ≠ 0 →
    (zero = true ∨ ∀ k, (if rom then s.conf.romEnd else s.conf.bufEnd) = some k → ptr.toNat + len.toNat ≤ k) →
    (s.ep e).en = true → (s.ep e).kind.sends = true → (s.ep e).inRdy = true → 0 < len.toNat →
    (s.ep e).data.length + len.toNat ≤ 64 →
    bytes = (List.range len.toNat).map (fun k =>
      if zero then 0 else if rom then s.conf.rom.read (ptr.toNat + k) else s.buf.read (ptr.toNat + k)) →
    ∃ t u, exec (.send e rom rel zero ptr len) s = .next t ∧ Host.Core.run Sys2Proof.core 6 t = .next u ∧
      u.port.res = len ∧ u.be.pc = .idle ∧ u.be.sndTmo = 250 ∧
      u.pulse = { s.pulse with txp := 100, ledTx := true } ∧ u.sel = s.sel ∧ u.irq = s.irq ∧ u.buf = s.buf ∧
      u.dev = s.dev ∧ u.cursor = s.cursor ∧ (∀ f, f ≠ e → u.ep f = s.ep f ∧ u.txlogOf f = s.txlogOf f) ∧
      (if (s.ep e).data.length + len.toNat = 64 ∨ rel = true then
        u.ep e = { s.ep e with inQ := (s.ep e).inQ ++ [(s.ep e).data ++ bytes], data := [],
                               inRdy := decide ((s.ep e).inQ.length + 1 < 2) } ∧
        u.txlogOf e = s.txlogOf e ++ [(s.ep e).data ++ bytes]
       else u.ep e = { s.ep e with data := (s.ep e).data ++ bytes } ∧ u.txlogOf e = s.txlogOf e)) ∧
  (∀ s : State, s.be.pc = .sndLoop →
    beStep s = .next { s with be.pc := if s.be.sndRem = 0 then .sndDone else .sndSpace }) ∧
  (∀ (s : State) (e : EpIdx) (free k : Nat), s.be.pc = .sndSpace → e = s.be.sndEp →
    ((s.ep e).en = false ∨ (s.ep e).kind.sends = true) →
    free = (if (s.ep e).en ∧ (s.ep e).inRdy then 64 - (s.ep e).data.length else 0) → k = min free s.be.sndRem.toNat →
    (free = 0 → beStep s = .next { s with be.sndN := 0, be.pc := .sndWait }) ∧
    (0 < free → beStep s = .next { s with
      be.sndN := BitVec.ofNat 7 k, be.sndRem := BitVec.ofNat 16 (s.be.sndRem.toNat - k), be.pc := .sndChunk })) ∧
  (∀ s : State, s.be.pc = .sndWait → 1 < s.be.sndTmo.toNat →
    beStep s = .next { s with be.sndTmo := s.be.sndTmo - 1, be.pc := .sndLoop }) ∧
  (∀ (s : State) (e : EpIdx) (rom rel zero : Bool) (bytes : List Byte), s.be.pc = .sndChunk → e = s.be.sndEp → e ≠ 0 →
    s.be.sndFlags = BitVec.ofBool rom ++ BitVec.ofBool rel ++ BitVec.ofBool zero →
    (s.ep e).en = true → (s.ep e).kind.sends = true → (s.ep e).inRdy = true →
    (s.ep e).data.length + s.be.sndN.toNat ≤ 64 →
    bytes = (List.range s.be.sndN.toNat).map (fun k =>
      if zero then 0
      else if rom then s.conf.rom.read (s.be.sndPtr.toNat + (s.be.sndI.toNat + k))
      else s.buf.read (s.be.sndPtr.toNat + (s.be.sndI.toNat + k))) →
    beStep s = .next (
      let t := if (s.ep e).data.length + s.be.sndN.toNat = 64 ∨ s.be.sndRem = 0 ∧ rel = true then
          (s.setEp e { s.ep e with inQ := (s.ep e).inQ ++ [(s.ep e).data ++ bytes], data := [],
                                   inRdy := decide ((s.ep e).inQ.length + 1 < 2) }).logTx e ((s.ep e).data ++ bytes)
        else s.setEp e { s.ep e with data := (s.ep e).data ++ bytes }
      { t with be.sndI := s.be.sndI + BitVec.ofNat 16 s.be.sndN.toNat, be.pc := .sndArm })) ∧
  (∀ s : State, s.be.pc = .sndArm →
    beStep s = .next { s with pulse.txp := 100, pulse.ledTx := true, be.pc := .sndLoop }) ∧
  (∀ s : State, s.be.pc = .sndDone →
    beStep s = .next { s with port.res := s.be.sndTotal, be.pc := .idle, ghost.bulkFail := none })

/-- The timeout (R245, R257): with no free space and the host never collecting, the 250th observation fails the
command, after 250 waits and not before; `RES` is the sentinel, nothing is written or committed, the pulse is not
armed, and the counter stops at 0. So it is for an endpoint without a free bank, a full one, and a disabled one. -/
def Obligations.SendTimesOut : Prop :=
  ∀ (s : State) (e : EpIdx) (rom rel zero : Bool) (ptr len : Word16), MainlineAlone s → s.mainlineIdle →
    s.dev.cfg ≠ 0 → e.toNat < s.conf.nEp → e ≠ 0 → s.conf.bufEnd = none → s.conf.romEnd = none → 0 < len.toNat →
    len.msb = false →
    ((s.ep e).en = false ∨ (s.ep e).kind.sends = true ∧ ((s.ep e).inRdy = false ∨ 64 ≤ (s.ep e).data.length)) →
    ∃ t u, exec (.send e rom rel zero ptr len) s = .next t ∧
      Host.Core.run Sys2Proof.core 750 t = .next u ∧
      (∀ m, m < 750 → ∃ v, Host.Core.run Sys2Proof.core m t = .next v ∧ v.be.pc.sending = true) ∧
      u.port.res = 0xFFFF ∧ u.be.pc = .idle ∧ u.be.sndTmo = 0 ∧ u.ghost.bulkFail = some .eSendTimeout ∧
      u.eps = s.eps ∧ u.ghost.txlog = s.ghost.txlog ∧ u.pulse = s.pulse ∧ u.buf = s.buf ∧ u.sel = s.sel ∧
      u.irq = s.irq

/-- RECV (R250, R251, R252): a range outside `BUF` is refused (R368; log 3); it fails unconfigured or with a negative
length; else `min(cnt, len)` bytes go to `BUF` from `CMD_PTR` upward, every other byte of `BUF` reads as before, the bank
is released when at least one byte was read and none is left, `RES` is the count, and the receive pulse is armed when it
is not 0. The order of the checks is log 20. -/
def Obligations.RecvReadsTheBank : Prop :=
  (∀ (s : State) (e : EpIdx) (f : BitVec 3) (ptr len : Word16) (p : Port),
    p = { s.port with op := 0x02, epf := f ++ (0 : BitVec 2) ++ e, ptr := ptr, len := len } →
    s.mainlineIdle → e.toNat < s.conf.nEp → e ≠ 0 →
    ((s.ep e).en = false ∨ (s.ep e).kind = .bulkOut ∨ (s.ep e).kind = .disabled) →
    (∀ k, len.msb = false → s.conf.bufEnd = some k → 0 < len.toNat → k < ptr.toNat + len.toNat →
      exec (.recv e f ptr len) s = .refused .rangeOutsideMemory) ∧
    ((len.msb = true ∨ ∀ k, s.conf.bufEnd = some k → len = 0 ∨ ptr.toNat + len.toNat ≤ k) →
      (s.dev.cfg = 0 → exec (.recv e f ptr len) s =
        .next { s with port := { p with res := 0xFFFF }, ghost.bulkFail := some .eNotConfigured }) ∧
      (s.dev.cfg ≠ 0 → len.msb = true → exec (.recv e f ptr len) s =
        .next { s with port := { p with res := 0xFFFF }, ghost.bulkFail := some .eNegLength }) ∧
      (s.dev.cfg ≠ 0 → len.msb = false → exec (.recv e f ptr len) s =
        .next { s with port := p, be.pc := .rcvCrit }))) ∧
  (∀ (s : State) (e : EpIdx) (n : Nat), s.be.pc = .rcvCrit → e = s.port.epf.extractLsb' 0 3 → memoryOk s →
    ((s.ep e).en = false ∨ (s.ep e).kind = .bulkOut) → (s.ep e).data.length ≤ 64 →
    n = min (if (s.ep e).en then (s.ep e).data.length else 0) s.port.len.toNat →
    ∃ t u, beStep s = .next t ∧ beStep t = .next u ∧
      (∀ a, u.buf.read a = if s.port.ptr.toNat ≤ a ∧ a < s.port.ptr.toNat + n
        then (s.ep e).data.getD (a - s.port.ptr.toNat) 0 else s.buf.read a) ∧
      u.port = { s.port with res := BitVec.ofNat 16 n } ∧ u.be.pc = .idle ∧
      u.pulse = (if n = 0 then s.pulse else { s.pulse with rxp := 100, ledRx := true }) ∧
      u.sel = s.sel ∧ u.irq = s.irq ∧ u.dev = s.dev ∧ u.ghost.txlog = s.ghost.txlog ∧ (∀ f, f ≠ e → u.ep f = s.ep f) ∧
      (n = 0 ∨ n < (s.ep e).data.length → u.ep e = { s.ep e with data := (s.ep e).data.drop n }) ∧
      (0 < n → n = (s.ep e).data.length → (s.ep e).outRdy = true → (s.ep e).outQ = [] →
        u.ep e = { s.ep e with outRdy := false, data := [] }) ∧
      (∀ q qs, 0 < n → n = (s.ep e).data.length → (s.ep e).outRdy = true → (s.ep e).outQ = q :: qs →
        u.ep e = { s.ep e with data := q, outQ := qs }))

/-- AVAILABLE (R253): the byte count of the current bank, no failure, nothing written but the port and the model's
label of the last failure, which is cleared (log 27); no test of `CFG`. A disabled endpoint counts 0 (R159); that a type
matters only while the endpoint is enabled is log 15. -/
def Obligations.AvailableReportsTheCount : Prop :=
  ∀ (s : State) (e : EpIdx) (f : BitVec 3), s.mainlineIdle → e.toNat < s.conf.nEp → e ≠ 0 →
    ((s.ep e).en = false ∨ (s.ep e).kind ≠ .control) →
    exec (.available e f) s =
      .next { s with port := { s.port with op := 0x03, epf := f ++ (0 : BitVec 2) ++ e,
                                           res := BitVec.ofNat 16 (if (s.ep e).en then (s.ep e).data.length else 0) },
                     ghost.bulkFail := none }

/-- FLUSH (R254): a bank with bytes in it is committed, an empty one is not; no result, no test of `CFG`, `SEL` and `IE`
as before. -/
def Obligations.FlushCommitsAPartialBank : Prop :=
  ∀ (s : State) (e : EpIdx) (f : BitVec 3) (p : Port), s.mainlineIdle → e.toNat < s.conf.nEp → e ≠ 0 →
    p = { s.port with op := 0x04, epf := f ++ (0 : BitVec 2) ++ e } →
    ((s.ep e).en = false → exec (.flush e f) s = .next { s with port := p }) ∧
    ((s.ep e).en = true → (s.ep e).kind.sends = true → ((s.ep e).data = [] ∨ (s.ep e).inRdy = false) →
      exec (.flush e f) s = .next { s with port := p }) ∧
    ((s.ep e).en = true → (s.ep e).kind.sends = true → (s.ep e).data ≠ [] → (s.ep e).inRdy = true →
      exec (.flush e f) s = .next ({ s.setEp e { s.ep e with
        inQ := (s.ep e).inQ ++ [(s.ep e).data], data := [],
        inRdy := decide ((s.ep e).inQ.length + 1 < 2) } with port := p }.logTx e (s.ep e).data))

/-! ## Interrupts and the frame handler -/

/-- The events deliver their interrupt where a handler may start (R127, R309, R310, R314 to R317; log 12), and leave the
request pending elsewhere.
With both interrupts requested the parameter `IRQ_ORDER` decides (R315); without a request nothing is delivered. -/
def Obligations.EventsEnterTheHandler : Prop :=
  (∀ s : State, s.irq.ie = true → s.irq.inIsr = false → (s.conf.irqOrder ≠ .frameFirst ∨ frameReq s = false) →
    (s.irq.ienSetup0 = true → (s.ep 0).setup = true →
      exec .evtSetupReceived s = .next { s with irq.inIsr := true, irq.spurComm := false, ct.pc := .s1 }) ∧
    (s.irq.spurComm = true → (s.ep 0).setup = false →
      exec .evtSpuriousComm s = .next { s with irq.inIsr := true, irq.spurComm := false, ct.pc := .s1 })) ∧
  (∀ s : State, s.irq.ie = true → s.irq.inIsr = false → (s.conf.irqOrder ≠ .commFirst ∨ commReq s = false) →
    (s.irq.ienSof = true → s.irq.pendSof = true →
      exec .evtFrameTick s = .next { s with irq.inIsr := true, ft.pc := .f1 }) ∧
    (s.irq.ienEor = true → s.irq.pendEor = true →
      exec .evtBusReset s = .next { s with irq.inIsr := true, ft.pc := .f1 })) ∧
  (∀ s : State, (s.irq.ie = false ∨ s.irq.inIsr = true) →
    exec .evtSetupReceived s = .next s ∧ exec .evtFrameTick s = .next s ∧ exec .evtBusReset s = .next s ∧
    exec .evtSpuriousComm s = .next s) ∧
  (∀ s : State, (commReq s = true → frameReq s = true → s.conf.irqOrder = .frameFirst →
      exec .evtSetupReceived s = .next s ∧ exec .evtSpuriousComm s = .next s) ∧
    (commReq s = true → frameReq s = true → s.conf.irqOrder = .commFirst →
      exec .evtFrameTick s = .next s ∧ exec .evtBusReset s = .next s) ∧
    (commReq s = false → exec .evtSetupReceived s = .next s ∧ exec .evtSpuriousComm s = .next s) ∧
    (frameReq s = false → exec .evtFrameTick s = .next s ∧ exec .evtBusReset s = .next s))

/-- F1 and the bus-reset branch (R271, R272, R343): both pending bits are taken and cleared in one step; endpoint 0 is
initialised, `CFG` is 0, the setup interrupt is armed, and nothing else changes. F3 (R273): the first serial-like
collaborator's sending endpoint is flushed, wherever it stands in `COLLABS`.
The pull loop (R274, R277, R362): each turn gives the front byte of its receiving endpoint to the sink and arms the
receive pulse, and the byte that empties the bank releases it, so that a queued packet takes its place (R155, R251); that
this RECV writes neither `RES` nor `RCV_N` is the model's reading of R32, R274 and R278 (log 25);
with nothing buffered, or without such a collaborator, the loop ends; while `CFG = 0` with bytes buffered it never
does: the handler hangs. F5 counts the pulses down (R275), and the handler returns (R318). -/
def Obligations.FrameHandlerSteps : Prop :=
  (∀ s : State, s.ft.pc = .f1 → ftStep s = .next { s with
    ft.eor := s.irq.pendEor, ft.sof := s.irq.pendSof, irq.pendEor := false, irq.pendSof := false, ft.pc := .f2 }) ∧
  (∀ s : State, s.ft.pc = .f2 → s.ft.eor = true → ftStep s = .next { s.setEp 0
      ⟨true, .control, false, true, false, false, [], [], []⟩ with
    dev.cfg := 0, irq.ienSetup0 := true, ft.pc := if s.ft.sof then .f3 else .exit }) ∧
  (∀ s : State, s.ft.pc = .f2 → s.ft.eor = false →
    ftStep s = .next { s with ft.pc := if s.ft.sof then .f3 else .exit }) ∧
  (∀ s : State, (∀ c ∈ s.conf.collabs, c.kind = .hidLike) →
    (s.ft.pc = .f3 → ftStep s = .next { s with ft.pc := .f4 }) ∧
    (s.ft.pc = .f4 → ftStep s = .next { s with ft.pc := .f5 })) ∧
  (∀ (s : State) (c : Collab) (before after : List Collab) (tx rx : EpIdx), s.conf.collabs = before ++ c :: after →
    (∀ d ∈ before, d.kind = .hidLike) → c.kind = .serialLike tx rx →
    (s.ft.pc = .f3 → tx.toNat < s.conf.nEp → tx ≠ 0 →
      ((s.ep tx).en = false → ftStep s = .next { s with ft.pc := .f4 }) ∧
      ((s.ep tx).kind.sends = true → (s.ep tx).data = [] ∨ (s.ep tx).inRdy = false →
        ftStep s = .next { s with ft.pc := .f4 }) ∧
      ((s.ep tx).en = true → (s.ep tx).kind.sends = true → (s.ep tx).data ≠ [] → (s.ep tx).inRdy = true →
        ftStep s = .next { (s.setEp tx { s.ep tx with
          inQ := (s.ep tx).inQ ++ [(s.ep tx).data], data := [],
          inRdy := decide ((s.ep tx).inQ.length + 1 < 2) }).logTx tx (s.ep tx).data with ft.pc := .f4 })) ∧
    (s.ft.pc = .f4 → rx.toNat < s.conf.nEp → rx ≠ 0 →
      ((s.ep rx).en = false → ftStep s = .next { s with ft.pc := .f5 }) ∧
      ((s.ep rx).en = true → (s.ep rx).kind = .bulkOut →
        ((s.ep rx).data = [] → ftStep s = .next { s with ft.pc := .f5 }) ∧
        ((s.ep rx).data ≠ [] → s.dev.cfg = 0 → ftStep s = .next s) ∧
        (∀ b rest p, (s.ep rx).data = b :: rest → s.dev.cfg ≠ 0 →
          (rest ≠ [] ∧ p = { s.ep rx with data := rest } ∨
           rest = [] ∧ (s.ep rx).outRdy = true ∧ (s.ep rx).outQ = [] ∧ p = { s.ep rx with outRdy := false, data := [] } ∨
           rest = [] ∧ (s.ep rx).outRdy = true ∧
             ∃ q qs, (s.ep rx).outQ = q :: qs ∧ p = { s.ep rx with data := q, outQ := qs }) →
          ftStep s = .next { s.setEp rx p with
            pulse.rxp := 100, pulse.ledRx := true, ft.tmp := b, ghost.rxSink := s.ghost.rxSink ++ [b] })))) ∧
  (∀ s : State, s.ft.pc = .f5 → ftStep s = .next { s with
    pulse := ⟨BitVec.ofNat 8 (s.pulse.txp.toNat - 1), BitVec.ofNat 8 (s.pulse.rxp.toNat - 1),
      s.pulse.ledTx && s.pulse.txp != 1, s.pulse.ledRx && s.pulse.rxp != 1⟩, ft.pc := .exit }) ∧
  (∀ s : State, s.ft.pc = .exit → ftStep s = .next { s with irq.inIsr := false, ft.pc := .idle })

/-- The pulse decays (R275): n ticks after arming, with no arming in between, the timer is at `100 - n` and the
indicator on, for n below 100; at the 100th tick both are off, and they stay off (no wrap to 255). The two timers
are independent. -/
def Obligations.PulseDecays : Prop :=
  ∀ (s : State) (n : Nat),
    (Nat.iterate tickTimers n (armTx s)).pulse.txp.toNat = 100 - n ∧
    ((Nat.iterate tickTimers n (armTx s)).pulse.ledTx = true ↔ n < 100) ∧
    (Nat.iterate tickTimers n (armRx s)).pulse.rxp.toNat = 100 - n ∧
    ((Nat.iterate tickTimers n (armRx s)).pulse.ledRx = true ↔ n < 100) ∧
    (Nat.iterate tickTimers n (armTx s)).pulse.rxp = (Nat.iterate tickTimers n s).pulse.rxp ∧
    (Nat.iterate tickTimers n (armRx s)).pulse.txp = (Nat.iterate tickTimers n s).pulse.txp

/-- The environment's moves (R85, R86, R87, R88): what each changes, and nothing else. A move whose precondition does not
hold cannot happen, and its entry changes nothing (log 5); ENV_SETUP while the control handler runs (D44, U20) and ENV_EOR
in the middle of an operation (R89, U20) are refused. ENV_SETUP with a packet still unserved replaces it, which is
R85's effect (R311 says that it does not happen: log 35); ENV_OUT on endpoint 0 goes by R86 (log 38). -/
def Obligations.EnvironmentMoves : Prop :=
  (∀ (s : State) (p : SetupPacket),
    ((s.ep 0).en = true → s.ct.pc = .idle →
      envMove (.setup p) s = .next (s.setEp 0 { s.ep 0 with
        data := p.bytes, setup := true, inQ := [], inRdy := true, outQ := [], stall := false })) ∧
    ((s.ep 0).en = true → s.ct.pc ≠ .idle →
      envMove (.setup p) s = .refused .setupDuringTransfer) ∧
    ((s.ep 0).en = false → envMove (.setup p) s = .next s)) ∧
  (∀ (s : State) (e : EpIdx),
    (∀ q qs, (s.ep e).inQ = q :: qs →
      envMove (.inTaken e) s = .next (s.setEp e { s.ep e with inQ := qs, inRdy := true })) ∧
    ((s.ep e).inQ = [] → envMove (.inTaken e) s = .next s)) ∧
  (∀ (s : State) (e : EpIdx) (p : Packet), e ≠ 0 → (s.ep e).en = true → (s.ep e).kind = .bulkOut →
    (s.ep e).stall = false → p.length ≤ 64 →
    ((s.ep e).outRdy = false → envMove (.out e p) s = .next (s.setEp e { s.ep e with data := p, outRdy := true })) ∧
    ((s.ep e).outRdy = true → (s.ep e).outQ = [] →
      envMove (.out e p) s = .next (s.setEp e { s.ep e with outQ := [p] })) ∧
    ((s.ep e).outRdy = true → (s.ep e).outQ ≠ [] → envMove (.out e p) s = .next s)) ∧
  (∀ (s : State) (p : Packet), s.controlOn → (s.ep 0).stall = false → p.length ≤ 64 →
    ((s.ep 0).outRdy = false → (s.ep 0).setup = false → (s.ep 0).data = [] →
      envMove (.out 0 p) s = .next (s.setEp 0 { s.ep 0 with data := p, outRdy := true })) ∧
    ((s.ep 0).outRdy = true ∨ (s.ep 0).setup = true ∨ (s.ep 0).data ≠ [] → envMove (.out 0 p) s = .next s)) ∧
  (∀ (s : State) (e : EpIdx) (p : Packet),
    (s.ep e).en = false ∨ (s.ep e).stall = true ∨ (s.ep e).kind.sends = true ∨ 64 < p.length →
    envMove (.out e p) s = .next s) ∧
  (∀ s : State,
    (s.power.attachEn = true → s.ct.pc = .idle → s.be.pc = .idle →
      ∃ t, envMove .eor s = .next t ∧
        (∀ e : EpIdx, t.ep e = if e = 0 then s.ep 0 else ⟨false, .disabled, false, false, false, false, [], [], []⟩) ∧
        t = { s with eps := t.eps, irq.pendEor := true, dev.addr := 0, dev.addrEn := false }) ∧
    (s.power.attachEn = true → s.ct.pc ≠ .idle ∨ s.be.pc ≠ .idle →
      envMove .eor s = .refused .busResetDuringOperation) ∧
    (s.power.attachEn = false → envMove .eor s = .next s)) ∧
  (∀ s : State,
    envMove .sof s = .next (if s.power.attachEn then { s with irq.pendSof := true } else s) ∧
    envMove .pllLock s = .next (if s.power.pllEn then { s with power.pllLock := true } else s) ∧
    envMove .spur s = .next { s with irq.spurComm := true })
end

