-- ==== Sys2Proof/Laws/State.lean ====
section
/-! SUPPORT. What each named update of State leaves and sets: one lemma per field per update. -/

namespace Sys2Proof.Machine

/-! ## Fields an update does not touch -/

@[simp] theorem State.setEp_conf (s : State) (e : EpIdx) (p : Endpoint) : (s.setEp e p).conf = s.conf := rfl
@[simp] theorem State.setEp_latch (s : State) (e : EpIdx) (p : Endpoint) : (s.setEp e p).latch = s.latch := rfl
@[simp] theorem State.setEp_cursor (s : State) (e : EpIdx) (p : Endpoint) : (s.setEp e p).cursor = s.cursor := rfl
@[simp] theorem State.setEp_dev (s : State) (e : EpIdx) (p : Endpoint) : (s.setEp e p).dev = s.dev := rfl
@[simp] theorem State.setEp_pulse (s : State) (e : EpIdx) (p : Endpoint) : (s.setEp e p).pulse = s.pulse := rfl
@[simp] theorem State.setEp_sel (s : State) (e : EpIdx) (p : Endpoint) : (s.setEp e p).sel = s.sel := rfl
@[simp] theorem State.setEp_irq (s : State) (e : EpIdx) (p : Endpoint) : (s.setEp e p).irq = s.irq := rfl
@[simp] theorem State.setEp_crit (s : State) (e : EpIdx) (p : Endpoint) : (s.setEp e p).crit = s.crit := rfl
@[simp] theorem State.setEp_power (s : State) (e : EpIdx) (p : Endpoint) : (s.setEp e p).power = s.power := rfl
@[simp] theorem State.setEp_ct (s : State) (e : EpIdx) (p : Endpoint) : (s.setEp e p).ct = s.ct := rfl
@[simp] theorem State.setEp_ft (s : State) (e : EpIdx) (p : Endpoint) : (s.setEp e p).ft = s.ft := rfl
@[simp] theorem State.setEp_be (s : State) (e : EpIdx) (p : Endpoint) : (s.setEp e p).be = s.be := rfl
@[simp] theorem State.setEp_port (s : State) (e : EpIdx) (p : Endpoint) : (s.setEp e p).port = s.port := rfl
@[simp] theorem State.setEp_buf (s : State) (e : EpIdx) (p : Endpoint) : (s.setEp e p).buf = s.buf := rfl
@[simp] theorem State.setEp_ghost (s : State) (e : EpIdx) (p : Endpoint) : (s.setEp e p).ghost = s.ghost := rfl
@[simp] theorem State.setEp_io (s : State) (e : EpIdx) (p : Endpoint) : (s.setEp e p).io = s.io := rfl

@[simp] theorem State.setSel_conf (s : State) (i : EpIdx) : (s.setSel i).conf = s.conf := rfl
@[simp] theorem State.setSel_latch (s : State) (i : EpIdx) : (s.setSel i).latch = s.latch := rfl
@[simp] theorem State.setSel_cursor (s : State) (i : EpIdx) : (s.setSel i).cursor = s.cursor := rfl
@[simp] theorem State.setSel_dev (s : State) (i : EpIdx) : (s.setSel i).dev = s.dev := rfl
@[simp] theorem State.setSel_pulse (s : State) (i : EpIdx) : (s.setSel i).pulse = s.pulse := rfl
@[simp] theorem State.setSel_eps (s : State) (i : EpIdx) : (s.setSel i).eps = s.eps := rfl
@[simp] theorem State.setSel_irq (s : State) (i : EpIdx) : (s.setSel i).irq = s.irq := rfl
@[simp] theorem State.setSel_crit (s : State) (i : EpIdx) : (s.setSel i).crit = s.crit := rfl
@[simp] theorem State.setSel_power (s : State) (i : EpIdx) : (s.setSel i).power = s.power := rfl
@[simp] theorem State.setSel_ct (s : State) (i : EpIdx) : (s.setSel i).ct = s.ct := rfl
@[simp] theorem State.setSel_ft (s : State) (i : EpIdx) : (s.setSel i).ft = s.ft := rfl
@[simp] theorem State.setSel_be (s : State) (i : EpIdx) : (s.setSel i).be = s.be := rfl
@[simp] theorem State.setSel_port (s : State) (i : EpIdx) : (s.setSel i).port = s.port := rfl
@[simp] theorem State.setSel_buf (s : State) (i : EpIdx) : (s.setSel i).buf = s.buf := rfl
@[simp] theorem State.setSel_ghost (s : State) (i : EpIdx) : (s.setSel i).ghost = s.ghost := rfl
@[simp] theorem State.setSel_io (s : State) (i : EpIdx) : (s.setSel i).io = s.io := rfl

@[simp] theorem State.setRet_conf (s : State) (r : Ret) : (s.setRet r).conf = s.conf := rfl
@[simp] theorem State.setRet_latch (s : State) (r : Ret) : (s.setRet r).latch = s.latch := rfl
@[simp] theorem State.setRet_cursor (s : State) (r : Ret) : (s.setRet r).cursor = s.cursor := rfl
@[simp] theorem State.setRet_dev (s : State) (r : Ret) : (s.setRet r).dev = s.dev := rfl
@[simp] theorem State.setRet_pulse (s : State) (r : Ret) : (s.setRet r).pulse = s.pulse := rfl
@[simp] theorem State.setRet_eps (s : State) (r : Ret) : (s.setRet r).eps = s.eps := rfl
@[simp] theorem State.setRet_sel (s : State) (r : Ret) : (s.setRet r).sel = s.sel := rfl
@[simp] theorem State.setRet_irq (s : State) (r : Ret) : (s.setRet r).irq = s.irq := rfl
@[simp] theorem State.setRet_crit (s : State) (r : Ret) : (s.setRet r).crit = s.crit := rfl
@[simp] theorem State.setRet_power (s : State) (r : Ret) : (s.setRet r).power = s.power := rfl
@[simp] theorem State.setRet_ct (s : State) (r : Ret) : (s.setRet r).ct = s.ct := rfl
@[simp] theorem State.setRet_ft (s : State) (r : Ret) : (s.setRet r).ft = s.ft := rfl
@[simp] theorem State.setRet_be (s : State) (r : Ret) : (s.setRet r).be = s.be := rfl
@[simp] theorem State.setRet_port (s : State) (r : Ret) : (s.setRet r).port = s.port := rfl
@[simp] theorem State.setRet_buf (s : State) (r : Ret) : (s.setRet r).buf = s.buf := rfl
@[simp] theorem State.setRet_ghost (s : State) (r : Ret) : (s.setRet r).ghost = s.ghost := rfl

@[simp] theorem State.logTx_conf (s : State) (e : EpIdx) (p : Packet) : (s.logTx e p).conf = s.conf := rfl
@[simp] theorem State.logTx_latch (s : State) (e : EpIdx) (p : Packet) : (s.logTx e p).latch = s.latch := rfl
@[simp] theorem State.logTx_cursor (s : State) (e : EpIdx) (p : Packet) : (s.logTx e p).cursor = s.cursor := rfl
@[simp] theorem State.logTx_dev (s : State) (e : EpIdx) (p : Packet) : (s.logTx e p).dev = s.dev := rfl
@[simp] theorem State.logTx_pulse (s : State) (e : EpIdx) (p : Packet) : (s.logTx e p).pulse = s.pulse := rfl
@[simp] theorem State.logTx_eps (s : State) (e : EpIdx) (p : Packet) : (s.logTx e p).eps = s.eps := rfl
@[simp] theorem State.logTx_sel (s : State) (e : EpIdx) (p : Packet) : (s.logTx e p).sel = s.sel := rfl
@[simp] theorem State.logTx_irq (s : State) (e : EpIdx) (p : Packet) : (s.logTx e p).irq = s.irq := rfl
@[simp] theorem State.logTx_crit (s : State) (e : EpIdx) (p : Packet) : (s.logTx e p).crit = s.crit := rfl
@[simp] theorem State.logTx_power (s : State) (e : EpIdx) (p : Packet) : (s.logTx e p).power = s.power := rfl
@[simp] theorem State.logTx_ct (s : State) (e : EpIdx) (p : Packet) : (s.logTx e p).ct = s.ct := rfl
@[simp] theorem State.logTx_ft (s : State) (e : EpIdx) (p : Packet) : (s.logTx e p).ft = s.ft := rfl
@[simp] theorem State.logTx_be (s : State) (e : EpIdx) (p : Packet) : (s.logTx e p).be = s.be := rfl
@[simp] theorem State.logTx_port (s : State) (e : EpIdx) (p : Packet) : (s.logTx e p).port = s.port := rfl
@[simp] theorem State.logTx_buf (s : State) (e : EpIdx) (p : Packet) : (s.logTx e p).buf = s.buf := rfl
@[simp] theorem State.logTx_io (s : State) (e : EpIdx) (p : Packet) : (s.logTx e p).io = s.io := rfl

@[simp] theorem State.logCall_conf (s : State) (c : CollabCall) : (s.logCall c).conf = s.conf := rfl
@[simp] theorem State.logCall_latch (s : State) (c : CollabCall) : (s.logCall c).latch = s.latch := rfl
@[simp] theorem State.logCall_cursor (s : State) (c : CollabCall) : (s.logCall c).cursor = s.cursor := rfl
@[simp] theorem State.logCall_dev (s : State) (c : CollabCall) : (s.logCall c).dev = s.dev := rfl
@[simp] theorem State.logCall_pulse (s : State) (c : CollabCall) : (s.logCall c).pulse = s.pulse := rfl
@[simp] theorem State.logCall_eps (s : State) (c : CollabCall) : (s.logCall c).eps = s.eps := rfl
@[simp] theorem State.logCall_sel (s : State) (c : CollabCall) : (s.logCall c).sel = s.sel := rfl
@[simp] theorem State.logCall_irq (s : State) (c : CollabCall) : (s.logCall c).irq = s.irq := rfl
@[simp] theorem State.logCall_crit (s : State) (c : CollabCall) : (s.logCall c).crit = s.crit := rfl
@[simp] theorem State.logCall_power (s : State) (c : CollabCall) : (s.logCall c).power = s.power := rfl
@[simp] theorem State.logCall_ct (s : State) (c : CollabCall) : (s.logCall c).ct = s.ct := rfl
@[simp] theorem State.logCall_ft (s : State) (c : CollabCall) : (s.logCall c).ft = s.ft := rfl
@[simp] theorem State.logCall_be (s : State) (c : CollabCall) : (s.logCall c).be = s.be := rfl
@[simp] theorem State.logCall_port (s : State) (c : CollabCall) : (s.logCall c).port = s.port := rfl
@[simp] theorem State.logCall_buf (s : State) (c : CollabCall) : (s.logCall c).buf = s.buf := rfl
@[simp] theorem State.logCall_io (s : State) (c : CollabCall) : (s.logCall c).io = s.io := rfl

@[simp] theorem curInit_conf (s : State) (n : Word16) : (curInit n s).conf = s.conf := rfl
@[simp] theorem curInit_latch (s : State) (n : Word16) : (curInit n s).latch = s.latch := rfl
@[simp] theorem curInit_dev (s : State) (n : Word16) : (curInit n s).dev = s.dev := rfl
@[simp] theorem curInit_pulse (s : State) (n : Word16) : (curInit n s).pulse = s.pulse := rfl
@[simp] theorem curInit_eps (s : State) (n : Word16) : (curInit n s).eps = s.eps := rfl
@[simp] theorem curInit_sel (s : State) (n : Word16) : (curInit n s).sel = s.sel := rfl
@[simp] theorem curInit_irq (s : State) (n : Word16) : (curInit n s).irq = s.irq := rfl
@[simp] theorem curInit_crit (s : State) (n : Word16) : (curInit n s).crit = s.crit := rfl
@[simp] theorem curInit_power (s : State) (n : Word16) : (curInit n s).power = s.power := rfl
@[simp] theorem curInit_ct (s : State) (n : Word16) : (curInit n s).ct = s.ct := rfl
@[simp] theorem curInit_ft (s : State) (n : Word16) : (curInit n s).ft = s.ft := rfl
@[simp] theorem curInit_be (s : State) (n : Word16) : (curInit n s).be = s.be := rfl
@[simp] theorem curInit_port (s : State) (n : Word16) : (curInit n s).port = s.port := rfl
@[simp] theorem curInit_buf (s : State) (n : Word16) : (curInit n s).buf = s.buf := rfl
@[simp] theorem curInit_ghost (s : State) (n : Word16) : (curInit n s).ghost = s.ghost := rfl
@[simp] theorem curInit_io (s : State) (n : Word16) : (curInit n s).io = s.io := rfl

@[simp] theorem bumpCursor_conf (s : State) : (bumpCursor s).conf = s.conf := rfl
@[simp] theorem bumpCursor_latch (s : State) : (bumpCursor s).latch = s.latch := rfl
@[simp] theorem bumpCursor_dev (s : State) : (bumpCursor s).dev = s.dev := rfl
@[simp] theorem bumpCursor_pulse (s : State) : (bumpCursor s).pulse = s.pulse := rfl
@[simp] theorem bumpCursor_eps (s : State) : (bumpCursor s).eps = s.eps := rfl
@[simp] theorem bumpCursor_sel (s : State) : (bumpCursor s).sel = s.sel := rfl
@[simp] theorem bumpCursor_irq (s : State) : (bumpCursor s).irq = s.irq := rfl
@[simp] theorem bumpCursor_crit (s : State) : (bumpCursor s).crit = s.crit := rfl
@[simp] theorem bumpCursor_power (s : State) : (bumpCursor s).power = s.power := rfl
@[simp] theorem bumpCursor_ct (s : State) : (bumpCursor s).ct = s.ct := rfl
@[simp] theorem bumpCursor_ft (s : State) : (bumpCursor s).ft = s.ft := rfl
@[simp] theorem bumpCursor_be (s : State) : (bumpCursor s).be = s.be := rfl
@[simp] theorem bumpCursor_port (s : State) : (bumpCursor s).port = s.port := rfl
@[simp] theorem bumpCursor_buf (s : State) : (bumpCursor s).buf = s.buf := rfl
@[simp] theorem bumpCursor_ghost (s : State) : (bumpCursor s).ghost = s.ghost := rfl
@[simp] theorem bumpCursor_io (s : State) : (bumpCursor s).io = s.io := rfl

@[simp] theorem armTx_conf (s : State) : (armTx s).conf = s.conf := rfl
@[simp] theorem armTx_latch (s : State) : (armTx s).latch = s.latch := rfl
@[simp] theorem armTx_cursor (s : State) : (armTx s).cursor = s.cursor := rfl
@[simp] theorem armTx_dev (s : State) : (armTx s).dev = s.dev := rfl
@[simp] theorem armTx_eps (s : State) : (armTx s).eps = s.eps := rfl
@[simp] theorem armTx_sel (s : State) : (armTx s).sel = s.sel := rfl
@[simp] theorem armTx_irq (s : State) : (armTx s).irq = s.irq := rfl
@[simp] theorem armTx_crit (s : State) : (armTx s).crit = s.crit := rfl
@[simp] theorem armTx_power (s : State) : (armTx s).power = s.power := rfl
@[simp] theorem armTx_ct (s : State) : (armTx s).ct = s.ct := rfl
@[simp] theorem armTx_ft (s : State) : (armTx s).ft = s.ft := rfl
@[simp] theorem armTx_be (s : State) : (armTx s).be = s.be := rfl
@[simp] theorem armTx_port (s : State) : (armTx s).port = s.port := rfl
@[simp] theorem armTx_buf (s : State) : (armTx s).buf = s.buf := rfl
@[simp] theorem armTx_ghost (s : State) : (armTx s).ghost = s.ghost := rfl
@[simp] theorem armTx_io (s : State) : (armTx s).io = s.io := rfl

@[simp] theorem armRx_conf (s : State) : (armRx s).conf = s.conf := rfl
@[simp] theorem armRx_latch (s : State) : (armRx s).latch = s.latch := rfl
@[simp] theorem armRx_cursor (s : State) : (armRx s).cursor = s.cursor := rfl
@[simp] theorem armRx_dev (s : State) : (armRx s).dev = s.dev := rfl
@[simp] theorem armRx_eps (s : State) : (armRx s).eps = s.eps := rfl
@[simp] theorem armRx_sel (s : State) : (armRx s).sel = s.sel := rfl
@[simp] theorem armRx_irq (s : State) : (armRx s).irq = s.irq := rfl
@[simp] theorem armRx_crit (s : State) : (armRx s).crit = s.crit := rfl
@[simp] theorem armRx_power (s : State) : (armRx s).power = s.power := rfl
@[simp] theorem armRx_ct (s : State) : (armRx s).ct = s.ct := rfl
@[simp] theorem armRx_ft (s : State) : (armRx s).ft = s.ft := rfl
@[simp] theorem armRx_be (s : State) : (armRx s).be = s.be := rfl
@[simp] theorem armRx_port (s : State) : (armRx s).port = s.port := rfl
@[simp] theorem armRx_buf (s : State) : (armRx s).buf = s.buf := rfl
@[simp] theorem armRx_ghost (s : State) : (armRx s).ghost = s.ghost := rfl
@[simp] theorem armRx_io (s : State) : (armRx s).io = s.io := rfl

@[simp] theorem initEndpoint_conf (s : State) (e : EpIdx) (t : EpType) : (initEndpoint e t s).conf = s.conf := rfl
@[simp] theorem initEndpoint_latch (s : State) (e : EpIdx) (t : EpType) : (initEndpoint e t s).latch = s.latch := rfl
@[simp] theorem initEndpoint_cursor (s : State) (e : EpIdx) (t : EpType) : (initEndpoint e t s).cursor = s.cursor := rfl
@[simp] theorem initEndpoint_dev (s : State) (e : EpIdx) (t : EpType) : (initEndpoint e t s).dev = s.dev := rfl
@[simp] theorem initEndpoint_pulse (s : State) (e : EpIdx) (t : EpType) : (initEndpoint e t s).pulse = s.pulse := rfl
@[simp] theorem initEndpoint_sel (s : State) (e : EpIdx) (t : EpType) : (initEndpoint e t s).sel = s.sel := rfl
@[simp] theorem initEndpoint_irq (s : State) (e : EpIdx) (t : EpType) : (initEndpoint e t s).irq = s.irq := rfl
@[simp] theorem initEndpoint_crit (s : State) (e : EpIdx) (t : EpType) : (initEndpoint e t s).crit = s.crit := rfl
@[simp] theorem initEndpoint_power (s : State) (e : EpIdx) (t : EpType) : (initEndpoint e t s).power = s.power := rfl
@[simp] theorem initEndpoint_ct (s : State) (e : EpIdx) (t : EpType) : (initEndpoint e t s).ct = s.ct := rfl
@[simp] theorem initEndpoint_ft (s : State) (e : EpIdx) (t : EpType) : (initEndpoint e t s).ft = s.ft := rfl
@[simp] theorem initEndpoint_be (s : State) (e : EpIdx) (t : EpType) : (initEndpoint e t s).be = s.be := rfl
@[simp] theorem initEndpoint_port (s : State) (e : EpIdx) (t : EpType) : (initEndpoint e t s).port = s.port := rfl
@[simp] theorem initEndpoint_buf (s : State) (e : EpIdx) (t : EpType) : (initEndpoint e t s).buf = s.buf := rfl
@[simp] theorem initEndpoint_ghost (s : State) (e : EpIdx) (t : EpType) : (initEndpoint e t s).ghost = s.ghost := rfl
@[simp] theorem initEndpoint_io (s : State) (e : EpIdx) (t : EpType) : (initEndpoint e t s).io = s.io := rfl

@[simp] theorem releaseOut_conf (s : State) (e : EpIdx) : (releaseOut e s).conf = s.conf := rfl
@[simp] theorem releaseOut_latch (s : State) (e : EpIdx) : (releaseOut e s).latch = s.latch := rfl
@[simp] theorem releaseOut_cursor (s : State) (e : EpIdx) : (releaseOut e s).cursor = s.cursor := rfl
@[simp] theorem releaseOut_dev (s : State) (e : EpIdx) : (releaseOut e s).dev = s.dev := rfl
@[simp] theorem releaseOut_pulse (s : State) (e : EpIdx) : (releaseOut e s).pulse = s.pulse := rfl
@[simp] theorem releaseOut_sel (s : State) (e : EpIdx) : (releaseOut e s).sel = s.sel := rfl
@[simp] theorem releaseOut_irq (s : State) (e : EpIdx) : (releaseOut e s).irq = s.irq := rfl
@[simp] theorem releaseOut_crit (s : State) (e : EpIdx) : (releaseOut e s).crit = s.crit := rfl
@[simp] theorem releaseOut_power (s : State) (e : EpIdx) : (releaseOut e s).power = s.power := rfl
@[simp] theorem releaseOut_ct (s : State) (e : EpIdx) : (releaseOut e s).ct = s.ct := rfl
@[simp] theorem releaseOut_ft (s : State) (e : EpIdx) : (releaseOut e s).ft = s.ft := rfl
@[simp] theorem releaseOut_be (s : State) (e : EpIdx) : (releaseOut e s).be = s.be := rfl
@[simp] theorem releaseOut_port (s : State) (e : EpIdx) : (releaseOut e s).port = s.port := rfl
@[simp] theorem releaseOut_buf (s : State) (e : EpIdx) : (releaseOut e s).buf = s.buf := rfl
@[simp] theorem releaseOut_ghost (s : State) (e : EpIdx) : (releaseOut e s).ghost = s.ghost := rfl
@[simp] theorem releaseOut_io (s : State) (e : EpIdx) : (releaseOut e s).io = s.io := rfl

@[simp] theorem stallOp_conf (s : State) : (stallOp s).conf = s.conf := rfl
@[simp] theorem stallOp_latch (s : State) : (stallOp s).latch = s.latch := rfl
@[simp] theorem stallOp_cursor (s : State) : (stallOp s).cursor = s.cursor := rfl
@[simp] theorem stallOp_dev (s : State) : (stallOp s).dev = s.dev := rfl
@[simp] theorem stallOp_pulse (s : State) : (stallOp s).pulse = s.pulse := rfl
@[simp] theorem stallOp_sel (s : State) : (stallOp s).sel = s.sel := rfl
@[simp] theorem stallOp_irq (s : State) : (stallOp s).irq = s.irq := rfl
@[simp] theorem stallOp_crit (s : State) : (stallOp s).crit = s.crit := rfl
@[simp] theorem stallOp_power (s : State) : (stallOp s).power = s.power := rfl
@[simp] theorem stallOp_ct (s : State) : (stallOp s).ct = s.ct := rfl
@[simp] theorem stallOp_ft (s : State) : (stallOp s).ft = s.ft := rfl
@[simp] theorem stallOp_be (s : State) : (stallOp s).be = s.be := rfl
@[simp] theorem stallOp_port (s : State) : (stallOp s).port = s.port := rfl
@[simp] theorem stallOp_buf (s : State) : (stallOp s).buf = s.buf := rfl
@[simp] theorem stallOp_ghost (s : State) : (stallOp s).ghost = s.ghost := rfl
@[simp] theorem stallOp_io (s : State) : (stallOp s).io = s.io := rfl

@[simp] theorem okResult_conf (s : State) (n : Word16) : (okResult n s).conf = s.conf := rfl
@[simp] theorem okResult_latch (s : State) (n : Word16) : (okResult n s).latch = s.latch := rfl
@[simp] theorem okResult_cursor (s : State) (n : Word16) : (okResult n s).cursor = s.cursor := rfl
@[simp] theorem okResult_dev (s : State) (n : Word16) : (okResult n s).dev = s.dev := rfl
@[simp] theorem okResult_pulse (s : State) (n : Word16) : (okResult n s).pulse = s.pulse := rfl
@[simp] theorem okResult_eps (s : State) (n : Word16) : (okResult n s).eps = s.eps := rfl
@[simp] theorem okResult_sel (s : State) (n : Word16) : (okResult n s).sel = s.sel := rfl
@[simp] theorem okResult_irq (s : State) (n : Word16) : (okResult n s).irq = s.irq := rfl
@[simp] theorem okResult_crit (s : State) (n : Word16) : (okResult n s).crit = s.crit := rfl
@[simp] theorem okResult_power (s : State) (n : Word16) : (okResult n s).power = s.power := rfl
@[simp] theorem okResult_ct (s : State) (n : Word16) : (okResult n s).ct = s.ct := rfl
@[simp] theorem okResult_ft (s : State) (n : Word16) : (okResult n s).ft = s.ft := rfl
@[simp] theorem okResult_buf (s : State) (n : Word16) : (okResult n s).buf = s.buf := rfl
@[simp] theorem okResult_io (s : State) (n : Word16) : (okResult n s).io = s.io := rfl

@[simp] theorem failResult_conf (s : State) (c : Cause) : (failResult c s).conf = s.conf := rfl
@[simp] theorem failResult_latch (s : State) (c : Cause) : (failResult c s).latch = s.latch := rfl
@[simp] theorem failResult_cursor (s : State) (c : Cause) : (failResult c s).cursor = s.cursor := rfl
@[simp] theorem failResult_dev (s : State) (c : Cause) : (failResult c s).dev = s.dev := rfl
@[simp] theorem failResult_pulse (s : State) (c : Cause) : (failResult c s).pulse = s.pulse := rfl
@[simp] theorem failResult_eps (s : State) (c : Cause) : (failResult c s).eps = s.eps := rfl
@[simp] theorem failResult_sel (s : State) (c : Cause) : (failResult c s).sel = s.sel := rfl
@[simp] theorem failResult_irq (s : State) (c : Cause) : (failResult c s).irq = s.irq := rfl
@[simp] theorem failResult_crit (s : State) (c : Cause) : (failResult c s).crit = s.crit := rfl
@[simp] theorem failResult_power (s : State) (c : Cause) : (failResult c s).power = s.power := rfl
@[simp] theorem failResult_ct (s : State) (c : Cause) : (failResult c s).ct = s.ct := rfl
@[simp] theorem failResult_ft (s : State) (c : Cause) : (failResult c s).ft = s.ft := rfl
@[simp] theorem failResult_buf (s : State) (c : Cause) : (failResult c s).buf = s.buf := rfl
@[simp] theorem failResult_io (s : State) (c : Cause) : (failResult c s).io = s.io := rfl

/-! ## Fields an update sets -/

@[simp] theorem State.setSel_sel (s : State) (i : EpIdx) : (s.setSel i).sel = i := rfl
@[simp] theorem State.setRet_ret (s : State) (r : Ret) : (s.setRet r).io.ret = r := rfl
@[simp] theorem State.setRet_inputs (s : State) (r : Ret) : (s.setRet r).io.inputs = s.io.inputs := rfl
@[simp] theorem State.setRet_held (s : State) (r : Ret) : (s.setRet r).io.held = s.io.held := rfl
@[simp] theorem State.setRet_mainWait (s : State) (r : Ret) : (s.setRet r).io.mainWait = s.io.mainWait := rfl
@[simp] theorem State.setRet_draws (s : State) (r : Ret) : (s.setRet r).io.draws = s.io.draws := rfl
@[simp] theorem State.setRet_answers (s : State) (r : Ret) : (s.setRet r).io.answers = s.io.answers := rfl
@[simp] theorem curInit_cursor (s : State) (n : Word16) : (curInit n s).cursor = ⟨0, n⟩ := rfl
@[simp] theorem bumpCursor_pos (s : State) : (bumpCursor s).cursor.pos = s.cursor.pos + 1 := rfl
@[simp] theorem bumpCursor_lim (s : State) : (bumpCursor s).cursor.lim = s.cursor.lim := rfl
@[simp] theorem okResult_res (s : State) (n : Word16) : (okResult n s).port.res = n := rfl
@[simp] theorem okResult_pc (s : State) (n : Word16) : (okResult n s).be.pc = .idle := rfl
@[simp] theorem failResult_res (s : State) (c : Cause) : (failResult c s).port.res = Config.failResult := rfl
@[simp] theorem failResult_pc (s : State) (c : Cause) : (failResult c s).be.pc = .idle := rfl

/-! ## Endpoints -/

/-- The vector of endpoints is the function `ep`. -/
theorem State.eps_ext {v w : Vector Endpoint 8} (h : ∀ e : EpIdx, v[e.toNat]'e.isLt = w[e.toNat]'e.isLt) :
    v = w := by
  apply Vector.ext
  intro i hi
  have := h (BitVec.ofNat 3 i)
  simpa [Nat.mod_eq_of_lt hi] using this

@[simp] theorem State.ep_setEp_same (s : State) (e : EpIdx) (p : Endpoint) : (s.setEp e p).ep e = p := by
  simp [State.setEp, State.ep]

theorem State.ep_setEp_ne (s : State) (e f : EpIdx) (p : Endpoint) (h : f ≠ e) :
    (s.setEp e p).ep f = s.ep f := by
  have : e.toNat ≠ f.toNat := fun h' => h (BitVec.eq_of_toNat_eq h'.symm)
  simp [State.setEp, State.ep, this]

/-- Reading an endpoint after one was written. -/
theorem State.ep_setEp (s : State) (e f : EpIdx) (p : Endpoint) :
    (s.setEp e p).ep f = if f = e then p else s.ep f := by
  by_cases h : f = e
  · subst h; simp
  · simp [h, State.ep_setEp_ne s e f p h]

theorem State.setEp_setEp (s : State) (e : EpIdx) (p q : Endpoint) : (s.setEp e p).setEp e q = s.setEp e q := by
  simp [State.setEp]

theorem State.setEp_ep (s : State) (e : EpIdx) : s.setEp e (s.ep e) = s := by
  simp [State.setEp, State.ep]

@[simp] theorem State.cur_setEp_sel (s : State) (p : Endpoint) : (s.setEp s.sel p).cur = p := by
  simp [State.cur]

@[simp] theorem State.ep_setSel (s : State) (i e : EpIdx) : (s.setSel i).ep e = s.ep e := rfl
@[simp] theorem State.cur_setSel (s : State) (i : EpIdx) : (s.setSel i).cur = s.ep i := rfl
@[simp] theorem State.ep_logTx (s : State) (e f : EpIdx) (p : Packet) : (s.logTx e p).ep f = s.ep f := rfl
@[simp] theorem State.ep_bumpCursor (s : State) (e : EpIdx) : (bumpCursor s).ep e = s.ep e := rfl
@[simp] theorem State.ep_curInit (s : State) (n : Word16) (e : EpIdx) : (curInit n s).ep e = s.ep e := rfl

/-! ## The log of committed packets -/

@[simp] theorem State.txlogOf_setEp (s : State) (e f : EpIdx) (p : Endpoint) :
    (s.setEp e p).txlogOf f = s.txlogOf f := rfl

/-- `TXLOG` after one more packet. -/
theorem State.txlogOf_logTx (s : State) (e f : EpIdx) (p : Packet) :
    (s.logTx e p).txlogOf f = if f = e then s.txlogOf e ++ [p] else s.txlogOf f := by
  by_cases h : f = e
  · subst h; simp [State.logTx, State.txlogOf]
  · have : e.toNat ≠ f.toNat := fun h' => h (BitVec.eq_of_toNat_eq h'.symm)
    simp [State.logTx, State.txlogOf, this, h]

end Sys2Proof.Machine
end

