-- ==== Sys2Proof/Laws/Ops.lean ====
section
/-! SUPPORT. What each shared operation can do, said once: the critical sections collapse to what their body
does (R161), reads and writes of a bank are list operations, emission follows the cursor law (R179). -/

namespace Sys2Proof.Machine

/-! ## Critical sections -/

/-- A `crit` around a selection leaves the state as it was. -/
@[simp] theorem critExit_setSel_critEnter (s : State) (e : EpIdx) : critExit ((critEnter s).setSel e) = s := by
  obtain ⟨conf, latch, cursor, dev, pulse, eps, sel, irq, crit, power, ct, ft, be, port, buf, ghost, io⟩ := s
  obtain ⟨ie, inIsr, a, b, c, d, f, g⟩ := irq
  cases inIsr <;> rfl

/-- CRIT_EXIT undoes CRIT_ENTER (R161). -/
@[simp] theorem critExit_critEnter (s : State) : critExit (critEnter s) = s := by
  obtain ⟨conf, latch, cursor, dev, pulse, eps, sel, irq, crit, power, ct, ft, be, port, buf, ghost, io⟩ := s
  obtain ⟨ie, inIsr, a, b, c, d, f, g⟩ := irq
  cases inIsr <;> rfl

@[simp] theorem ep_critEnter (s : State) (e : EpIdx) : (critEnter s).ep e = s.ep e := by
  simp only [critEnter, State.setCritCtx]; split <;> rfl

/-- SEND_SPACE's critical section: the free space, nothing changed. -/
theorem spaceCrit_eq (e : EpIdx) (s : State) : spaceCrit e s = ((s.ep e).freeSpace, s) := by
  simp [spaceCrit]

/-- AVAILABLE's critical section: the count, nothing changed. -/
theorem countCrit_eq (e : EpIdx) (s : State) : countCrit e s = ((s.ep e).cnt, s) := by
  simp [countCrit]

/-- A body that changes only endpoints, seen from outside its `crit`. -/
theorem critExit_eps (e : EpIdx) (v : Vector Endpoint 8) (s : State) :
    critExit { (critEnter s).setSel e with eps := v } = { s with eps := v } := by
  obtain ⟨conf, latch, cursor, dev, pulse, eps, sel, irq, crit, power, ct, ft, be, port, buf, ghost, io⟩ := s
  obtain ⟨ie, inIsr, a, b, c, d, f, g⟩ := irq
  cases inIsr <;> rfl

/-- The same for a body that also commits. -/
theorem critExit_eps_ghost (e : EpIdx) (v : Vector Endpoint 8) (g : Ghost) (s : State) :
    critExit { (critEnter s).setSel e with eps := v, ghost := g } = { s with eps := v, ghost := g } := by
  obtain ⟨conf, latch, cursor, dev, pulse, eps, sel, irq, crit, power, ct, ft, be, port, buf, ghost, io⟩ := s
  obtain ⟨ie, inIsr, a, b, c, d, f, g⟩ := irq
  cases inIsr <;> rfl

theorem critEnter_eps (s : State) : (critEnter s).eps = s.eps := by
  simp only [critEnter, State.setCritCtx]; split <;> rfl

theorem critEnter_ghost (s : State) : (critEnter s).ghost = s.ghost := by
  simp only [critEnter, State.setCritCtx]; split <;> rfl

theorem critEnter_io (s : State) : (critEnter s).io = s.io := by
  simp only [critEnter, State.setCritCtx]; split <;> rfl

/-! ## Reading a bank -/

/-- READ_N of at most the count: the first bytes, in order, and the rest stays (R146). -/
theorem popBytes_eq (n : Nat) : ∀ (s : State), n ≤ s.cur.data.length →
    popBytes n s = (s.cur.data.take n, s.setEp s.sel { s.cur with data := s.cur.data.drop n }) := by
  induction n with
  | zero => intro s _; exact Prod.ext rfl (State.setEp_ep s s.sel).symm
  | succ n ih =>
    intro s h
    obtain ⟨b, rest, hd⟩ : ∃ b rest, s.cur.data = b :: rest := by
      cases hc : s.cur.data with
      | nil => simp [hc] at h
      | cons b rest => exact ⟨b, rest, rfl⟩
    have hp : popByte s = (b, s.setEp s.sel { s.cur with data := rest }) := by simp [popByte, hd]
    have hl : n ≤ (s.setEp s.sel { s.cur with data := rest }).cur.data.length := by
      simp [hd] at h ⊢; omega
    simp only [popBytes, hp, ih _ hl]
    simp [hd, State.setEp_setEp]

/-! ## Committing and releasing -/

/-- `commit_in(e)` where the block owns a bank (R150). -/
theorem commitIn_ready (e : EpIdx) (s : State) (h : (s.ep e).inFlag = true) :
    commitIn e s = (s.setEp e ((s.ep e).committed (banks e))).logTx e (s.ep e).data := by
  simp [commitIn, h]

/-- `commit_in(e)` where the block owns none: no effect (R150). -/
theorem commitIn_noop (e : EpIdx) (s : State) (h : (s.ep e).inFlag = false) : commitIn e s = s := by
  simp [commitIn, h]

/-- FLUSH (R254): a commit unless the bank is empty, `SEL` and `IE` as before. -/
theorem flushCrit_eq (e : EpIdx) (s : State) :
    flushCrit e s = if (s.ep e).cnt ≠ 0 then commitIn e s else s := by
  simp only [flushCrit, State.cur_setSel, ep_critEnter, State.setSel_sel]
  split
  · cases h : (s.ep e).inFlag with
    | false =>
      rw [commitIn_noop e s h, commitIn_noop e _ (by simpa using h)]; simp
    | true =>
      rw [commitIn_ready e s h, commitIn_ready e _ (by simpa using h)]
      simp only [State.setEp, State.logTx, State.txlogOf, State.ep_setSel, ep_critEnter]
      simp only [State.setSel, critEnter_eps, critEnter_ghost]
      exact critExit_eps_ghost e _ _ s
  · simp

/-- The bank after RECV took at most `len` bytes (R250, R251): released when at least one was taken and none is
left. -/
def drained (p : Endpoint) (len : Nat) : Endpoint :=
  let n := min p.cnt len
  let q : Endpoint := { p with data := p.data.drop n }
  if 0 < n ∧ q.cnt = 0 then q.released else q

theorem drainSelected_eq (len : Nat) (s : State) :
    drainSelected len s = (s.cur.data.take (min s.cur.cnt len), s.setEp s.sel (drained s.cur len)) := by
  have hle : min s.cur.cnt len ≤ s.cur.data.length := by simp only [Endpoint.cnt]; split <;> omega
  rw [drainSelected]
  simp only [popBytes_eq _ s hle]
  refine Prod.ext rfl ?_
  simp only [State.cur_setEp_sel, drained]
  split
  · simp only [releaseOut, State.setEp_sel, State.ep_setEp_same, State.setEp_setEp]
  · rfl

/-- RECV's critical section (R250): the bytes, the bank without them, `SEL` and `IE` as before. -/
theorem recvCrit_eq (e : EpIdx) (len : Nat) (s : State) :
    recvCrit e len s = ((s.ep e).data.take (min (s.ep e).cnt len), s.setEp e (drained (s.ep e) len)) := by
  rw [recvCrit]
  simp only [drainSelected_eq, State.cur_setSel, ep_critEnter, State.setSel_sel]
  refine Prod.ext rfl ?_
  exact (congrArg critExit (by simp [State.setEp, critEnter_eps])).trans (critExit_eps e _ s)

/-! ## Writing a bank -/

/-- Successive writes that fit append their bytes (R147). -/
theorem writeBytes_eq (bs : List Byte) : ∀ (s : State), s.cur.en = true → inCapable s.cur.kind = true →
    s.cur.inRdy = true → s.cur.data.length + bs.length ≤ Config.epSize →
    writeBytes bs s = .ok (s.setEp s.sel { s.cur with data := s.cur.data ++ bs }) := by
  induction bs with
  | nil =>
    intro s _ _ _ _
    have h : ({ s.cur with data := s.cur.data ++ [] } : Endpoint) = s.ep s.sel := by simp [State.cur]
    rw [h, State.setEp_ep]; rfl
  | cons b bs ih =>
    intro s hen hk hr hl
    have hlt : s.cur.data.length < Config.epSize := by simp at hl; omega
    have hw : write8Op b s = .ok (s.setEp s.sel { s.cur with data := s.cur.data ++ [b] }) := by
      simp [write8Op, Endpoint.ty, hen, hk, hr, hlt]
    simp only [writeBytes, hw, MicroOut.bind]
    rw [ih _ (by simpa using hen) (by simpa using hk) (by simpa using hr) (by simp at hl ⊢; omega)]
    simp [State.setEp_setEp]

/-- Inside the `crit` of a chunk whose bytes fit (R244, R247): they stand behind what the bank held, and the bank is committed
where it is full or the chunk is the last of a SEND with RELEASE; `SEL` and `IE` as before. -/
theorem chunkCrit_eq (e : EpIdx) (bs : List Byte) (last : Bool) (s : State) (hen : (s.ep e).en = true)
    (hk : (s.ep e).kind = .bulkIn ∨ (s.ep e).kind = .interruptIn) (hr : (s.ep e).inRdy = true)
    (hl : (s.ep e).data.length + bs.length ≤ Config.epSize) :
    chunkCrit e bs last s = .ok (
      let p : Endpoint := { s.ep e with data := (s.ep e).data ++ bs }
      if (s.ep e).data.length + bs.length = Config.epSize ∨ last = true then
        (s.setEp e (p.committed (banks e))).logTx e p.data
      else s.setEp e p) := by
  have hi : inCapable (s.ep e).kind = true := by rcases hk with h | h <;> rw [h] <;> rfl
  have ha : ({ s.ep e with data := (s.ep e).data ++ bs } : Endpoint).rwAllowed =
      !decide ((s.ep e).data.length + bs.length = Config.epSize) := by
    have : decide ((s.ep e).data.length + bs.length < Config.epSize) =
        !decide ((s.ep e).data.length + bs.length = Config.epSize) := by
      rw [← decide_not]; exact decide_eq_decide.2 ⟨fun h => by omega, fun h => by omega⟩
    rcases hk with h | h <;> simp [Endpoint.rwAllowed, Endpoint.ty, hen, h, hr, this]
  have hc : ((critEnter s).setSel e).cur = s.ep e := by simp
  have hs : ((critEnter s).setSel e).sel = e := rfl
  rw [chunkCrit, chunkSelected, writeBytes_eq bs _ (by rw [hc]; exact hen) (by rw [hc]; exact hi) (by rw [hc]; exact hr)
    (by rw [hc]; exact hl)]
  have hp : ∀ (u : State) (p : Endpoint), u.sel = e → (u.setEp e p).cur = p := fun u p h => by subst h; simp
  simp only [MicroOut.bind, hc, hs, hp _ _ hs, ha, State.setEp_sel]
  congr 1
  by_cases h : (s.ep e).data.length + bs.length = Config.epSize ∨ last = true
  · rw [if_pos h, if_pos (by simpa using h), commitIn_ready _ _ (by simp [Endpoint.inFlag, hen, hr])]
    simp only [State.ep_setEp_same, State.setEp_setEp]
    simp only [State.setEp, State.logTx, State.txlogOf, State.setSel, critEnter_eps, critEnter_ghost]
    exact critExit_eps_ghost e _ _ s
  · rw [if_neg h, if_neg (by simpa using h)]
    exact (congrArg critExit (by simp [State.setEp, critEnter_eps])).trans (critExit_eps e _ s)

/-! ## Running micro-operations -/

@[simp] theorem runMicros_nil (s : State) : runMicros [] s = .finished s := rfl

theorem runMicros_cons_ok {m : Micro} {ms : List Micro} {s s' : State} (h : microStep m s = .ok s') :
    runMicros (m :: ms) s = runMicros ms s' := by simp [runMicros, h]

theorem runMicros_cons_hold {m : Micro} {ms : List Micro} {s : State} (h : microStep m s = .hold) :
    runMicros (m :: ms) s = .held (m :: ms) s := by simp [runMicros, h]

theorem runMicros_cons_refused {m : Micro} {ms : List Micro} {s : State} {r : Refusal}
    (h : microStep m s = .refused r) : runMicros (m :: ms) s = .refused r := by simp [runMicros, h]

/-- Past the limit, or with limit 0, emission only counts (R175, R177). -/
theorem emit8Op_counts (b : Byte) (s : State) (hs : s.sel = 0) (hp : s.cursor.pos ≠ 0xFFFF)
    (hl : s.cursor.lim.toNat ≤ s.cursor.pos.toNat) : emit8Op b s = .ok (bumpCursor s) := by
  rw [emit8Op, if_neg (by simpa using hs), if_neg hp, if_neg (by omega)]

/-- A bank of the selected endpoint the block may write, with room for one more byte behind the next. -/
structure Roomy (s : State) : Prop where
  en : s.cur.en = true
  kind : inCapable s.cur.kind = true
  ready : s.cur.inRdy = true

theorem waitInOp_ready (s : State) (h : Roomy s) : waitInOp s = .ok s := by
  simp [waitInOp, Endpoint.ty, Endpoint.inFlag, h.en, h.kind, h.ready]

theorem write8Op_ready (b : Byte) (s : State) (h : Roomy s) (hd : s.cur.data.length < Config.epSize) :
    write8Op b s = .ok (s.setEp s.sel { s.cur with data := s.cur.data ++ [b] }) := by
  simp [write8Op, Endpoint.ty, h.en, h.kind, h.ready, hd]

/-- Below the limit, with room for one more byte after it, emission writes the byte (R177). -/
theorem emit8Op_writes (b : Byte) (s : State) (hs : s.sel = 0) (hp : s.cursor.pos.toNat < s.cursor.lim.toNat)
    (h : Roomy s) (hd : s.cur.data.length + 1 < Config.epSize) :
    emit8Op b s = .ok (bumpCursor (s.setEp s.sel { s.cur with data := s.cur.data ++ [b] })) := by
  have h1 : s.cursor.pos ≠ 0xFFFF := by
    intro e; have := s.cursor.lim.isLt; rw [e] at hp; simp at hp; omega
  have h2 : ({ s.cur with data := s.cur.data ++ [b] } : Endpoint).cnt ≠ Config.epSize := by
    simp [Endpoint.cnt, h.en]; omega
  rw [emit8Op, if_neg (by simpa using hs), if_neg h1, if_pos hp]
  simp only [transmitOp, waitInOp_ready s h, write8Op_ready b s h (by omega), MicroOut.bind, State.cur_setEp_sel]
  split
  · rename_i h3; split at h3
    · exact absurd ‹_› h2
    · cases h3; rfl
  · rename_i h3; split at h3
    · exact absurd ‹_› h2
    · cases h3
  · rename_i h3; split at h3
    · exact absurd ‹_› h2
    · cases h3

end Sys2Proof.Machine
end

