-- ==== Sys2Proof/Laws/Frame.lean ====
section
/-! SUPPORT. What micro-operations leave alone, whatever they do: their frame, said once, and carried through a
sequence of them. -/

namespace Sys2Proof.Machine

/-- `t` differs from `s` at most in the endpoints, `SEL`, the cursor, `ADDR` and `ADDR_EN`, the transmit log, the
counter of the free values and the last result. -/
structure Outside (s t : State) : Prop where
  conf : t.conf = s.conf
  latch : t.latch = s.latch
  pulse : t.pulse = s.pulse
  irq : t.irq = s.irq
  crit : t.crit = s.crit
  power : t.power = s.power
  ct : t.ct = s.ct
  ft : t.ft = s.ft
  be : t.be = s.be
  port : t.port = s.port
  buf : t.buf = s.buf
  cfg : t.dev.cfg = s.dev.cfg
  composite : t.dev.composite = s.dev.composite
  rxSink : t.ghost.rxSink = s.ghost.rxSink
  calls : t.ghost.calls = s.ghost.calls
  bulkFail : t.ghost.bulkFail = s.ghost.bulkFail
  inputs : t.io.inputs = s.io.inputs
  answers : t.io.answers = s.io.answers
  held : t.io.held = s.io.held
  mainWait : t.io.mainWait = s.io.mainWait

theorem Outside.refl (s : State) : Outside s s := by constructor <;> rfl

theorem Outside.trans {s t u : State} (h : Outside s t) (k : Outside t u) : Outside s u := by
  constructor
  · exact k.conf.trans h.conf
  · exact k.latch.trans h.latch
  · exact k.pulse.trans h.pulse
  · exact k.irq.trans h.irq
  · exact k.crit.trans h.crit
  · exact k.power.trans h.power
  · exact k.ct.trans h.ct
  · exact k.ft.trans h.ft
  · exact k.be.trans h.be
  · exact k.port.trans h.port
  · exact k.buf.trans h.buf
  · exact k.cfg.trans h.cfg
  · exact k.composite.trans h.composite
  · exact k.rxSink.trans h.rxSink
  · exact k.calls.trans h.calls
  · exact k.bulkFail.trans h.bulkFail
  · exact k.inputs.trans h.inputs
  · exact k.answers.trans h.answers
  · exact k.held.trans h.held
  · exact k.mainWait.trans h.mainWait

/-! ## The operations -/

theorem outside_setEp (s : State) (e : EpIdx) (p : Endpoint) : Outside s (s.setEp e p) := by constructor <;> rfl

theorem outside_setSel (s : State) (i : EpIdx) : Outside s (s.setSel i) := by constructor <;> rfl

theorem outside_setRet (s : State) (r : Ret) : Outside s (s.setRet r) := by constructor <;> rfl

theorem outside_commitIn (e : EpIdx) (s : State) : Outside s (commitIn e s) := by
  simp only [commitIn]; split <;> constructor <;> rfl

theorem outside_popByte (s : State) : Outside s (popByte s).2 := by
  simp only [popByte]; split <;> constructor <;> rfl

theorem outside_popBytes (n : Nat) : ∀ s : State, Outside s (popBytes n s).2 := by
  induction n with
  | zero => exact fun s => Outside.refl s
  | succ n ih => exact fun s => (outside_popByte s).trans (ih _)

/-- A micro-operation that ends, ends in a state that differs only there. -/
def MicroOut.Keeps (R : State → State → Prop) (s : State) (m : MicroOut) : Prop := ∀ t, m = .ok t → R s t

theorem MicroOut.keeps_ok {R : State → State → Prop} {s t : State} (h : R s t) : MicroOut.Keeps R s (.ok t) := by
  intro u e; cases e; exact h

theorem MicroOut.keeps_hold {R : State → State → Prop} {s : State} : MicroOut.Keeps R s .hold := by
  intro u e; cases e

theorem MicroOut.keeps_refused {R : State → State → Prop} {s : State} {r : Refusal} :
    MicroOut.Keeps R s (.refused r) := by intro u e; cases e

theorem MicroOut.keeps_bind {R : State → State → Prop} (htrans : ∀ {a b c : State}, R a b → R b c → R a c)
    {s : State} {m : MicroOut} {f : State → MicroOut} (h : MicroOut.Keeps R s m)
    (k : ∀ t, m = .ok t → MicroOut.Keeps R t (f t)) : MicroOut.Keeps R s (m.bind f) := by
  intro u e
  cases m with
  | ok t => exact htrans (h t rfl) (k t rfl u e)
  | hold => cases e
  | refused r => cases e

theorem outside_of_eq {s t : State} (h : t = s) : Outside s t := by subst h; exact Outside.refl _

theorem waitInOp_eq {s t : State} (h : waitInOp s = .ok t) : t = s := by
  revert h; simp only [waitInOp]; repeat' split
  all_goals intro h; cases h
  rfl

theorem waitOutOp_eq {s t : State} (h : waitOutOp s = .ok t) : t = s := by
  revert h; simp only [waitOutOp]; repeat' split
  all_goals intro h; cases h
  rfl

theorem outside_write8Op (b : Byte) (s : State) : MicroOut.Keeps Outside s (write8Op b s) := by
  simp only [write8Op]; repeat' split
  all_goals first
    | exact MicroOut.keeps_refused
    | exact MicroOut.keeps_ok (outside_setEp _ _ _)

theorem outside_ackInOp (s : State) : MicroOut.Keeps Outside s (ackInOp s) := by
  simp only [ackInOp]; split
  · exact MicroOut.keeps_refused
  · exact MicroOut.keeps_ok (outside_commitIn _ _)

theorem outside_readNOp (n : Nat) (s : State) : MicroOut.Keeps Outside s (readNOp n s) := by
  simp only [readNOp]; repeat' split
  · exact MicroOut.keeps_ok (outside_setRet _ _)
  · exact MicroOut.keeps_refused
  · exact MicroOut.keeps_ok ((outside_popBytes _ _).trans (outside_setRet _ _))

theorem outside_transmitOp (b : Byte) (s : State) : MicroOut.Keeps Outside s (transmitOp b s) := by
  refine MicroOut.keeps_bind (R := Outside) Outside.trans (fun t h => outside_of_eq (waitInOp_eq h)) fun t _ => ?_
  refine MicroOut.keeps_bind (R := Outside) Outside.trans (outside_write8Op b t) fun u _ => ?_
  split
  · exact outside_ackInOp u
  · exact MicroOut.keeps_ok (Outside.refl u)

theorem outside_envOut (e : EpIdx) (p : Packet) (s : State) : Outside s (envOut e p s) := by
  simp only [envOut]; repeat' split
  all_goals constructor <;> rfl

theorem outside_bumpCursor (s : State) : Outside s (bumpCursor s) := by constructor <;> rfl

theorem outside_emit8Op (b : Byte) (s : State) : MicroOut.Keeps Outside s (emit8Op b s) := by
  simp only [emit8Op]; repeat' split
  · exact MicroOut.keeps_refused
  · exact MicroOut.keeps_refused
  · exact MicroOut.keeps_bind (R := Outside) Outside.trans (outside_transmitOp b s) fun t _ =>
      MicroOut.keeps_ok (outside_bumpCursor t)
  · exact MicroOut.keeps_ok (outside_bumpCursor s)

/-- The frame of one micro-operation. -/
theorem outside_microStep (m : Micro) (s : State) : MicroOut.Keeps Outside s (microStep m s) := by
  cases m with
  | emit8 b => exact outside_emit8Op b s
  | waitIn => exact fun t h => outside_of_eq (waitInOp_eq h)
  | waitOut => exact fun t h => outside_of_eq (waitOutOp_eq h)
  | readN n =>
    simp only [microStep]; split
    · exact outside_readNOp _ s
    · exact MicroOut.keeps_refused
  | clearOut =>
    simp only [microStep, clearOutOp]; split
    · exact MicroOut.keeps_refused
    · exact MicroOut.keeps_ok (outside_setEp _ _ _)
  | select i =>
    simp only [microStep, selectOp]; split
    · exact MicroOut.keeps_ok (outside_setSel _ _)
    · exact MicroOut.keeps_refused
  | rawWrite b => exact MicroOut.keeps_refused
  | setAddress a => exact MicroOut.keeps_ok (by constructor <;> rfl)
  | callReturn =>
    simp only [microStep]; split
    · exact MicroOut.keeps_ok (Outside.refl s)
    · exact MicroOut.keeps_refused
  | hostOut e p => exact MicroOut.keeps_ok (outside_envOut e p s)

/-! ## Sequences -/

/-- A relation that every micro-operation keeps holds from the start of a sequence to where it ends or holds. -/
theorem runMicros_keeps {R : State → State → Prop} (hrefl : ∀ s, R s s)
    (htrans : ∀ {a b c : State}, R a b → R b c → R a c) {ms : List Micro}
    (hm : ∀ m ∈ ms, ∀ s, MicroOut.Keeps R s (microStep m s)) : ∀ s : State,
    (∀ t, runMicros ms s = .finished t → R s t) ∧ (∀ rest t, runMicros ms s = .held rest t → R s t ∧ rest <:+ ms) := by
  induction ms with
  | nil => intro s; exact ⟨fun t h => by cases h; exact hrefl s, fun rest t h => by cases h⟩
  | cons m ms ih =>
    intro s
    have ih := ih fun n hn => hm n (List.mem_cons_of_mem _ hn)
    have hs := hm m (List.mem_cons_self ..) s
    simp only [runMicros]
    split
    · rename_i s' he
      refine ⟨fun t h => htrans (hs _ he) ((ih s').1 t h), fun rest t h => ?_⟩
      exact ⟨htrans (hs _ he) ((ih s').2 rest t h).1, ((ih s').2 rest t h).2.trans (List.suffix_cons m ms)⟩
    · refine ⟨fun t h => ?_, fun rest t h => ?_⟩
      · cases h
      · cases h; exact ⟨hrefl s, List.suffix_refl _⟩
    · refine ⟨fun t h => ?_, fun rest t h => ?_⟩
      · cases h
      · cases h

/-- The frame of a sequence. -/
theorem outside_runMicros (ms : List Micro) (s : State) :
    (∀ t, runMicros ms s = .finished t → Outside s t) ∧ (∀ rest t, runMicros ms s = .held rest t → Outside s t) :=
  have h := runMicros_keeps Outside.refl Outside.trans (fun m _ s => outside_microStep m s) s
  ⟨h.1, fun rest t e => (h.2 rest t e).1⟩

/-! ## Emission does not look at what is held -/

/-- A micro-operation's outcome with other words held. -/
def MicroOut.withHeld (h : List Micro) (m : MicroOut) : MicroOut :=
  match m with
  | .ok s => .ok { s with io.held := h }
  | .hold => .hold
  | .refused r => .refused r

theorem MicroOut.bind_held {h : List Micro} {m : MicroOut} {f : State → MicroOut}
    (hf : ∀ u : State, f { u with io.held := h } = (f u).withHeld h) : (m.withHeld h).bind f = (m.bind f).withHeld h := by
  cases m <;> simp [MicroOut.withHeld, MicroOut.bind, hf]

theorem commitIn_held (e : EpIdx) (s : State) (h : List Micro) :
    commitIn e { s with io.held := h } = { commitIn e s with io.held := h } := by
  have he : ({ s with io.held := h } : State).ep e = s.ep e := rfl
  simp only [commitIn, he]; split <;> rfl

theorem ackInOp_held (s : State) (h : List Micro) : ackInOp { s with io.held := h } = (ackInOp s).withHeld h := by
  have hc : controlRefusal { s with io.held := h } = controlRefusal s := rfl
  simp only [ackInOp, hc, commitIn_held]; split <;> rfl

theorem emit8Op_held (b : Byte) (s : State) (h : List Micro) :
    emit8Op b { s with io.held := h } = (emit8Op b s).withHeld h := by
  have hc : ({ s with io.held := h } : State).cur = s.cur := rfl
  have hw : waitInOp { s with io.held := h } = (waitInOp s).withHeld h := by
    simp only [waitInOp, hc]; repeat' split
    all_goals rfl
  have hb : ∀ u : State, write8Op b { u with io.held := h } = (write8Op b u).withHeld h := by
    intro u
    have hc : ({ u with io.held := h } : State).cur = u.cur := rfl
    simp only [write8Op, hc]; repeat' split
    all_goals rfl
  have ht : transmitOp b { s with io.held := h } = (transmitOp b s).withHeld h := by
    simp only [transmitOp, hw]
    refine MicroOut.bind_held fun u => ?_
    rw [hb]
    refine MicroOut.bind_held fun v => ?_
    have hc : ({ v with io.held := h } : State).cur = v.cur := rfl
    simp only [hc, ackInOp_held]; split <;> rfl
  simp only [emit8Op, ht]
  repeat' split
  · rfl
  · rfl
  · exact MicroOut.bind_held fun _ => rfl
  · rfl

/-- Emissions do not look at what is held. -/
theorem runMicros_emit_held (bs : List Byte) (h : List Micro) : ∀ s : State,
    runMicros (bs.map .emit8) { s with io.held := h } = match runMicros (bs.map .emit8) s with
      | .finished u => .finished { u with io.held := h }
      | .held rest u => .held rest { u with io.held := h }
      | .refused r => .refused r := by
  induction bs with
  | nil => intro s; rfl
  | cons b bs ih =>
    intro s
    simp only [List.map_cons, runMicros, microStep, emit8Op_held]
    cases emit8Op b s with
    | ok u => exact ih u
    | hold => rfl
    | refused r => rfl

/-! ## Requests and words -/

/-- What a request can answer: a state that differs in the frame above and in the handler's program point, result
and remaining micro-operations; never a fault. -/
theorem runRequest_cases {ms : List Micro} {res : CtResult} {s t : State} (h : runRequest ms res s = .next t) :
    (∃ u, runMicros ms s = .finished u ∧ t = { u with ct.pc := .s5, ct.todo := [], ct.result := res }) ∨
    (∃ rest u, runMicros ms s = .held rest u ∧
      t = { u with ct.pc := holdPoint rest, ct.todo := rest, ct.result := res }) := by
  revert h; simp only [runRequest]
  split
  · intro h; cases h; exact .inl ⟨_, ‹_›, rfl⟩
  · intro h; cases h; exact .inr ⟨_, _, ‹_›, rfl⟩
  · intro h; cases h

theorem runRequest_no_fault (ms : List Micro) (res : CtResult) (s : State) (f : Fault) :
    runRequest ms res s ≠ .fault f := by
  simp only [runRequest]; split <;> simp

/-- What a raw issue can answer. -/
theorem issue_cases {ms : List Micro} {s t : State} (h : issue ms s = .next t) :
    runMicros ms s = .finished t ∨ (∃ rest u, runMicros ms s = .held rest u ∧ t = { u with io.held := rest }) := by
  revert h; simp only [issue]
  split
  · intro h; cases h; exact .inl ‹_›
  · intro h; cases h; exact .inr ⟨_, _, ‹_›, rfl⟩
  · intro h; cases h

/-- A wait whose flag is up changes nothing. -/
theorem waitOp_eq {w : Wait} {s t : State} (h : waitOp w s = .ok t) : t = s := by
  cases w
  · exact waitInOp_eq h
  · exact waitOutOp_eq h

/-- What a wait issued as a word can answer: it falls through, or its sequencer holds; nothing else changes. -/
theorem issueWait_cases {w : Wait} {s t : State} (h : issueWait w s = .next t) : t = s ∨ t = holdAt w s := by
  revert h; simp only [issueWait]
  split
  · intro h; cases h; exact .inl (waitOp_eq ‹_›)
  · intro h; cases h; exact .inr rfl
  · intro h; cases h

theorem issueWait_no_fault (w : Wait) (s : State) (f : Fault) : issueWait w s ≠ .fault f := by
  simp only [issueWait]; split <;> simp

/-- What the mainline's sequencer can do at a wait: the wait ends, or it stands still. -/
theorem resumeWait_cases {w : Wait} {s t : State} (h : resumeWait w s = .next t) :
    t = s ∨ t = { s with io.mainWait := none } := by
  revert h; simp only [resumeWait]
  split
  · intro h; cases h; rename_i u hu; rw [waitOp_eq hu]; exact .inr rfl
  · intro h; cases h; exact .inl rfl
  · intro h; cases h

/-- Where a wait holds: the running handler's word, or the mainline's sequencer. -/
@[simp] theorem holdAt_inIsr {w : Wait} {s : State} (h : s.irq.inIsr = true) :
    holdAt w s = { s with io.held := [w.micro] } := by simp [holdAt, h]

@[simp] theorem holdAt_mainline {w : Wait} {s : State} (h : s.irq.inIsr = false) :
    holdAt w s = { s with io.mainWait := some w } := by simp [holdAt, h]

/-- A hold changes nothing outside the model's own fields. -/
theorem holdAt_eq (w : Wait) (s : State) : ∃ h m, holdAt w s = { s with io.held := h, io.mainWait := m } := by
  simp only [holdAt]; split
  · exact ⟨_, _, rfl⟩
  · exact ⟨_, _, rfl⟩

/-- A repeated initialisation changes only endpoints. -/
theorem initAllEndpoints_eq (s : State) : initAllEndpoints s = { s with eps := (initAllEndpoints s).eps } := by
  have h : ∀ (l : List Nat) (s : State), l.foldl (fun s e =>
      if e < s.conf.nEp then initEndpoint (BitVec.ofNat 3 e) (tableType s.conf e) s else s) s =
      { s with eps := (l.foldl (fun s e =>
        if e < s.conf.nEp then initEndpoint (BitVec.ofNat 3 e) (tableType s.conf e) s else s) s).eps } := by
    intro l
    induction l with
    | nil => intro s; rfl
    | cons e l ih =>
      intro s
      simp only [List.foldl_cons]
      rw [ih]
      split <;> rfl
  exact h _ s

/-- The end of a bus reset changes only endpoints. -/
theorem clearEndpoints_eq (s : State) : clearEndpoints s = { s with eps := (clearEndpoints s).eps } := by
  have h : ∀ (l : List Nat) (s : State), l.foldl (fun s e => s.setEp (BitVec.ofNat 3 e) Endpoint.off) s =
      { s with eps := (l.foldl (fun s e => s.setEp (BitVec.ofNat 3 e) Endpoint.off) s).eps } := by
    intro l
    induction l with
    | nil => intro s; rfl
    | cons e l ih =>
      intro s
      simp only [List.foldl_cons]
      rw [ih]
      rfl
  exact h _ s

end Sys2Proof.Machine
end

