-- ==== Sys2Proof/Laws/Bounds.lean ====
section
/-! SUPPORT. The bounds of one endpoint (R46, R58 to R61, R159), kept by every change an operation makes to it. -/

namespace Sys2Proof.Machine

/-- One endpoint replaced by one within its bounds. -/
theorem endpointsOk_setEp {s : State} {e : EpIdx} {p : Endpoint} (h : endpointsOk s) (hp : EndpointOk e p) :
    endpointsOk (s.setEp e p) := by
  intro f
  rw [State.ep_setEp]; split
  · subst_vars; assumption
  · exact h f

theorem EndpointOk.kind_of_data {e : EpIdx} {p : Endpoint} (h : EndpointOk e p) (hd : p.data ≠ []) :
    p.kind ≠ .disabled := fun hk => hd (h.disabledEmpty hk).2.2.2.1

theorem EndpointOk.kind_of_en {e : EpIdx} {p : Endpoint} (h : EndpointOk e p) (hd : p.en = true) :
    p.kind ≠ .disabled := by
  intro hk; have := h.enabled; rw [hd, hk] at this; simp at this

/-- A bank with fewer of its bytes. -/
theorem EndpointOk.dropData {e : EpIdx} {p : Endpoint} (h : EndpointOk e p) (n : Nat) :
    EndpointOk e { p with data := p.data.drop n } where
  dataBound := by have := h.dataBound; simp; omega
  inBound := h.inBound
  outBound := h.outBound
  inPackets := h.inPackets
  outPackets := h.outPackets
  freeBank := h.freeBank
  setupZero := h.setupZero
  zeroKind := h.zeroKind
  enabled := h.enabled
  disabledEmpty := fun hk => by obtain ⟨a, b, c, d, f, g⟩ := h.disabledEmpty hk; exact ⟨a, b, c, by simp [d], f, g⟩
  noIn := h.noIn
  noOut := h.noOut

/-- A bank with one byte more, where there was room. -/
theorem EndpointOk.appendByte {e : EpIdx} {p : Endpoint} (h : EndpointOk e p) (b : Byte)
    (hr : p.data.length < Config.epSize) (hk : p.kind ≠ .disabled) : EndpointOk e { p with data := p.data ++ [b] } where
  dataBound := by simp; omega
  inBound := h.inBound
  outBound := h.outBound
  inPackets := h.inPackets
  outPackets := h.outPackets
  freeBank := h.freeBank
  setupZero := h.setupZero
  zeroKind := h.zeroKind
  enabled := h.enabled
  disabledEmpty := fun h => absurd h hk
  noIn := h.noIn
  noOut := h.noOut

/-- A committed bank (R150). -/
theorem EndpointOk.commit {e : EpIdx} {p : Endpoint} (h : EndpointOk e p) (hf : p.inFlag = true) :
    EndpointOk e (p.committed (banks e)) := by
  simp only [Endpoint.inFlag, Bool.and_eq_true] at hf
  have hfree := h.freeBank hf.2
  refine { dataBound := by simp [Endpoint.committed], inBound := ?_, outBound := h.outBound, inPackets := ?_,
           outPackets := h.outPackets, freeBank := ?_, setupZero := h.setupZero, zeroKind := h.zeroKind,
           enabled := h.enabled, disabledEmpty := fun hk => absurd hk (h.kind_of_en hf.1), noIn := ?_, noOut := h.noOut }
  · simp [Endpoint.committed]; omega
  · intro q hq
    simp only [Endpoint.committed, List.mem_append, List.mem_singleton] at hq
    rcases hq with hq | hq
    · exact h.inPackets q hq
    · subst hq; exact h.dataBound
  · intro hr; simp only [Endpoint.committed, decide_eq_true_eq] at hr ⊢; exact hr
  · intro hk; exact absurd (h.noIn hk).1 (by simp [hf.2])

/-- A released OUT bank (R154, R155). -/
theorem EndpointOk.release {e : EpIdx} {p : Endpoint} (h : EndpointOk e p) : EndpointOk e p.released := by
  simp only [Endpoint.released]
  split
  · rename_i hf
    simp only [Endpoint.outFlag, Bool.and_eq_true] at hf
    have hk := h.kind_of_en hf.1
    split
    · rename_i hq
      exact { dataBound := by simp, inBound := h.inBound, outBound := h.outBound, inPackets := h.inPackets,
              outPackets := h.outPackets, freeBank := h.freeBank, setupZero := h.setupZero, zeroKind := h.zeroKind,
              enabled := h.enabled, disabledEmpty := fun x => absurd x hk, noIn := h.noIn,
              noOut := fun x => ⟨rfl, (h.noOut x).2⟩ }
    · rename_i q qs hq
      have hb := h.outBound
      have hp := h.outPackets
      rw [hq] at hb hp
      exact { dataBound := hp q (by simp), inBound := h.inBound,
              outBound := by simp at hb ⊢; omega, inPackets := h.inPackets,
              outPackets := fun r hr => hp r (by simp [hr]), freeBank := h.freeBank, setupZero := h.setupZero,
              zeroKind := h.zeroKind, enabled := h.enabled, disabledEmpty := fun x => absurd x hk, noIn := h.noIn,
              noOut := fun x => absurd (h.noOut x).1 (by simp [hf.2]) }
  · exact h

/-- The setup and OUT flags taken down (R152). -/
theorem EndpointOk.clearSetup {e : EpIdx} {p : Endpoint} (h : EndpointOk e p) :
    EndpointOk e { p with setup := false, outRdy := false } :=
  { h with
    setupZero := fun _ => rfl
    disabledEmpty := fun hk => by obtain ⟨a, b, c, d, f, g⟩ := h.disabledEmpty hk; exact ⟨rfl, b, rfl, d, f, g⟩
    noOut := fun x => ⟨rfl, (h.noOut x).2⟩ }

/-- A stalled endpoint (R151). -/
theorem EndpointOk.stalled {e : EpIdx} {p : Endpoint} (h : EndpointOk e p) : EndpointOk e { p with stall := true } :=
  { h with }

/-- A disabled endpoint (R341). -/
theorem EndpointOk.off (e : EpIdx) : EndpointOk e Endpoint.off where
  dataBound := by simp [Endpoint.off]
  inBound := by simp [Endpoint.off]
  outBound := by simp [Endpoint.off]
  inPackets := by simp [Endpoint.off]
  outPackets := by simp [Endpoint.off]
  freeBank := by simp [Endpoint.off]
  setupZero := fun _ => rfl
  zeroKind := fun _ => .inr rfl
  enabled := rfl
  disabledEmpty := fun _ => ⟨rfl, rfl, rfl, rfl, rfl, rfl⟩
  noIn := fun _ => ⟨rfl, rfl⟩
  noOut := fun _ => ⟨rfl, rfl⟩

/-- An initialised endpoint (R158). -/
theorem EndpointOk.init (e : EpIdx) (t : EpType) :
    EndpointOk e { Endpoint.fresh t with kind := hardwiredType e t } where
  dataBound := by simp [Endpoint.fresh]
  inBound := by simp [Endpoint.fresh]
  outBound := by simp [Endpoint.fresh]
  inPackets := by simp [Endpoint.fresh]
  outPackets := by simp [Endpoint.fresh]
  freeBank := by intro _; simp only [Endpoint.fresh, banks]; split <;> simp [Config.ep0Banks, Config.epNBanks]
  setupZero := fun _ => rfl
  zeroKind := by intro he; simp only [hardwiredType, he]; cases t <;> simp
  enabled := by simp only [Endpoint.fresh, hardwiredType]; cases t <;> split <;> first | rfl | simp_all
  disabledEmpty := by
    intro hk
    have ht : t = .disabled := by
      revert hk; simp only [hardwiredType]; cases t <;> split <;> simp_all
    subst ht; exact ⟨rfl, rfl, rfl, rfl, rfl, rfl⟩
  noIn := by
    intro hk
    refine ⟨?_, rfl⟩
    revert hk; simp only [Endpoint.fresh, hardwiredType]; cases t <;> split <;> simp_all [inCapable]
  noOut := fun _ => ⟨rfl, rfl⟩

theorem EndpointOk.outReceived {e : EpIdx} {p : Endpoint} (h : EndpointOk e p) (q : Packet)
    (hl : q.length ≤ Config.epSize) (hen : p.en = true) (hc : outCapable p.kind = true) :
    EndpointOk e { p with data := q, outRdy := true } :=
  { h with
    dataBound := hl
    disabledEmpty := fun x => absurd x (h.kind_of_en hen)
    noOut := fun x => by rw [hc] at x; cases x }

theorem EndpointOk.outQueued {e : EpIdx} {p : Endpoint} (h : EndpointOk e p) (q : Packet)
    (hl : q.length ≤ Config.epSize) (hen : p.en = true) (hc : outCapable p.kind = true)
    (hr : p.outQ.length < banks e - 1) : EndpointOk e { p with outQ := p.outQ ++ [q] } :=
  { h with
    outBound := by simp; omega
    outPackets := fun r hm => by
      rcases List.mem_append.1 hm with hm | hm
      · exact h.outPackets r hm
      · simp at hm; rw [hm]; exact hl
    disabledEmpty := fun x => absurd x (h.kind_of_en hen)
    noOut := fun x => by rw [hc] at x; cases x }

/-! ## The operations -/

/-- `t` has its endpoints within their bounds if `s` has. -/
def KeepsBounds (s t : State) : Prop := endpointsOk s → endpointsOk t

theorem KeepsBounds.refl (s : State) : KeepsBounds s s := id

theorem KeepsBounds.trans {s t u : State} (h : KeepsBounds s t) (k : KeepsBounds t u) : KeepsBounds s u := k ∘ h

theorem KeepsBounds.of_eps {s t : State} (h : t.eps = s.eps) : KeepsBounds s t := by
  intro k e; simp only [State.ep, h]; exact k e

theorem keepsBounds_commitIn (e : EpIdx) (s : State) : KeepsBounds s (commitIn e s) := by
  intro h
  simp only [commitIn]; split
  · exact (KeepsBounds.of_eps rfl) (endpointsOk_setEp h ((h e).commit ‹_›))
  · exact h

theorem keepsBounds_releaseOut (e : EpIdx) (s : State) : KeepsBounds s (releaseOut e s) :=
  fun h => endpointsOk_setEp h (h e).release

theorem keepsBounds_initEndpoint (e : EpIdx) (t : EpType) (s : State) : KeepsBounds s (initEndpoint e t s) :=
  fun h => endpointsOk_setEp h (EndpointOk.init e t)

theorem keepsBounds_popByte (s : State) : KeepsBounds s (popByte s).2 := by
  intro h
  simp only [popByte]; split
  · exact (KeepsBounds.of_eps rfl) h
  · rename_i b rest hd
    have := (h s.sel).dropData 1
    have hr : (s.ep s.sel).data.drop 1 = rest := by simp only [State.cur] at hd; simp [hd]
    rw [hr] at this
    exact endpointsOk_setEp h this

theorem keepsBounds_popBytes (n : Nat) : ∀ s : State, KeepsBounds s (popBytes n s).2 := by
  induction n with
  | zero => exact fun s => id
  | succ n ih => exact fun s => (keepsBounds_popByte s).trans (ih _)

theorem keepsBounds_write8Op (b : Byte) (s : State) : MicroOut.Keeps KeepsBounds s (write8Op b s) := by
  simp only [write8Op]
  split
  · exact MicroOut.keeps_refused
  · split
    · exact MicroOut.keeps_refused
    · split
      · rename_i hen _ hr
        refine MicroOut.keeps_ok fun h => ?_
        simp only [Bool.and_eq_true, decide_eq_true_eq] at hr
        exact endpointsOk_setEp h ((h s.sel).appendByte b hr.2 ((h s.sel).kind_of_en (by simpa [State.cur] using hen)))
      · exact MicroOut.keeps_refused

theorem keepsBounds_ackInOp (s : State) : MicroOut.Keeps KeepsBounds s (ackInOp s) := by
  simp only [ackInOp]; split
  · exact MicroOut.keeps_refused
  · exact MicroOut.keeps_ok (keepsBounds_commitIn _ _)

theorem keepsBounds_emit8Op (b : Byte) (s : State) : MicroOut.Keeps KeepsBounds s (emit8Op b s) := by
  simp only [emit8Op]; repeat' split
  · exact MicroOut.keeps_refused
  · exact MicroOut.keeps_refused
  · refine MicroOut.keeps_bind (R := KeepsBounds) KeepsBounds.trans ?_ fun t _ =>
      MicroOut.keeps_ok (KeepsBounds.of_eps rfl)
    refine MicroOut.keeps_bind (R := KeepsBounds) KeepsBounds.trans
      (fun t h => KeepsBounds.of_eps (congrArg State.eps (waitInOp_eq h))) fun t _ => ?_
    refine MicroOut.keeps_bind (R := KeepsBounds) KeepsBounds.trans (keepsBounds_write8Op b t) fun u _ => ?_
    split
    · exact keepsBounds_ackInOp u
    · exact MicroOut.keeps_ok (KeepsBounds.refl u)
  · exact MicroOut.keeps_ok (KeepsBounds.of_eps rfl)

theorem keepsBounds_envOut (e : EpIdx) (p : Packet) (s : State) : KeepsBounds s (envOut e p s) := by
  simp only [envOut]; split
  · exact id
  · rename_i ho
    simp only [outEnabled, Bool.not_eq_true', Bool.and_eq_true, decide_eq_true_eq, Bool.or_eq_true,
      Bool.not_eq_false] at ho
    obtain ⟨⟨⟨⟨⟨hl, hen⟩, hc⟩, _⟩, hr⟩, _⟩ := ho
    have hc : outCapable (s.ep e).kind = true := by simpa [Endpoint.ty, hen] using hc
    split
    · exact fun k => endpointsOk_setEp k ((k e).outReceived p hl hen hc)
    · rename_i hb
      exact fun k => endpointsOk_setEp k ((k e).outQueued p hl hen hc (hr.resolve_left (by simpa using hb)))

theorem keepsBounds_microStep (m : Micro) (s : State) : MicroOut.Keeps KeepsBounds s (microStep m s) := by
  cases m with
  | emit8 b => exact keepsBounds_emit8Op b s
  | waitIn => exact fun t h => KeepsBounds.of_eps (congrArg State.eps (waitInOp_eq h))
  | waitOut => exact fun t h => KeepsBounds.of_eps (congrArg State.eps (waitOutOp_eq h))
  | readN n =>
    simp only [microStep, readNOp]; repeat' split
    · exact MicroOut.keeps_ok (KeepsBounds.of_eps rfl)
    · exact MicroOut.keeps_refused
    · exact MicroOut.keeps_ok ((keepsBounds_popBytes _ _).trans (KeepsBounds.of_eps rfl))
    · exact MicroOut.keeps_refused
  | clearOut =>
    simp only [microStep, clearOutOp]; split
    · exact MicroOut.keeps_refused
    · exact MicroOut.keeps_ok (keepsBounds_releaseOut _ _)
  | select i =>
    simp only [microStep, selectOp]; split
    · exact MicroOut.keeps_ok (KeepsBounds.of_eps rfl)
    · exact MicroOut.keeps_refused
  | rawWrite b => exact MicroOut.keeps_refused
  | setAddress a => exact MicroOut.keeps_ok (KeepsBounds.of_eps rfl)
  | callReturn =>
    simp only [microStep]; split
    · exact MicroOut.keeps_ok (KeepsBounds.refl s)
    · exact MicroOut.keeps_refused
  | hostOut e p => exact MicroOut.keeps_ok (keepsBounds_envOut e p s)

/-- A sequence keeps the bounds. -/
theorem keepsBounds_runMicros (ms : List Micro) (s : State) :
    (∀ t, runMicros ms s = .finished t → KeepsBounds s t) ∧
    (∀ rest t, runMicros ms s = .held rest t → KeepsBounds s t) :=
  have h := runMicros_keeps KeepsBounds.refl KeepsBounds.trans (fun m _ s => keepsBounds_microStep m s) s
  ⟨h.1, fun rest t e => (h.2 rest t e).1⟩

theorem keepsBounds_initAllEndpoints (s : State) : KeepsBounds s (initAllEndpoints s) := by
  have h : ∀ (l : List Nat) (s : State), KeepsBounds s (l.foldl (fun s e =>
      if e < s.conf.nEp then initEndpoint (BitVec.ofNat 3 e) (tableType s.conf e) s else s) s) := by
    intro l
    induction l with
    | nil => exact fun s => id
    | cons e l ih =>
      intro s
      refine KeepsBounds.trans ?_ (ih _)
      beta_reduce
      split
      · exact keepsBounds_initEndpoint _ _ s
      · exact id
  exact h _ s

theorem keepsBounds_clearEndpoints (s : State) : KeepsBounds s (clearEndpoints s) := by
  have h : ∀ (l : List Nat) (s : State),
      KeepsBounds s (l.foldl (fun s e => s.setEp (BitVec.ofNat 3 e) Endpoint.off) s) := by
    intro l
    induction l with
    | nil => exact fun s => id
    | cons e l ih => exact fun s => KeepsBounds.trans (fun h => endpointsOk_setEp h (EndpointOk.off _)) (ih _)
  exact h _ s

end Sys2Proof.Machine
end

