-- ==== Sys2Proof/Laws/Decode.lean ====
section
/-! SUPPORT. Laws of the decoder: what a decoded word can be, and that fields split and join back. -/

namespace Sys2Proof

/-! ## A property of every operation a word decodes to -/

/-- Every operation of a decoding outcome has property `P`. -/
def Decoded.All (P : Instr → Prop) (d : Decoded) : Prop := ∀ i r, d = .ok (i, r) → P i

theorem Decoded.all_ok {P : Instr → Prop} {i : Instr} {r : List Byte} (h : P i) : Decoded.All P (.ok (i, r)) := by
  intro j q e; cases e; exact h

theorem Decoded.all_error {P : Instr → Prop} {x : DecodeError} : Decoded.All P (.error x) := by
  intro j q e; cases e

theorem Decoded.all_operand {P : Instr → Prop} {bs : List Byte} {k : Byte → List Byte → Decoded}
    (h : ∀ b r, Decoded.All P (k b r)) : Decoded.All P (operand bs k) := by
  cases bs with
  | nil => exact all_error
  | cons b r => exact h b r

theorem Decoded.all_operand16 {P : Instr → Prop} {bs : List Byte} {k : Word16 → List Byte → Decoded}
    (h : ∀ v r, Decoded.All P (k v r)) : Decoded.All P (operand16 bs k) :=
  all_operand fun l _ => all_operand fun g r => h (le16 l g) r

theorem Decoded.all_operandEp {P : Instr → Prop} {bs : List Byte} {k : EpIdx → List Byte → Decoded}
    (h : ∀ v r, Decoded.All P (k v r)) : Decoded.All P (operandEp bs k) :=
  all_operand fun b r => by
    split
    · exact h _ r
    · exact all_error

theorem Decoded.all_operandEpf {P : Instr → Prop} {bs : List Byte} {k : EpIdx → BitVec 3 → List Byte → Decoded}
    (h : ∀ e f r, Decoded.All P (k e f r)) : Decoded.All P (operandEpf bs k) :=
  all_operand fun b r => by
    split
    · exact h _ _ r
    · exact all_error

/-- No word decodes to a setup packet, and what it decodes to is well formed. -/
theorem decodeWord_all (bs : List Byte) :
    Decoded.All (fun i => i.format ≠ .setup8 ∧ i.performed = i) (decodeWord bs) := by
  cases bs with
  | nil => exact Decoded.all_error
  | cons c bs =>
    simp only [decodeWord, decodeCode]
    split
    all_goals first
      | exact Decoded.all_error
      | exact Decoded.all_ok ⟨by simp [Instr.format], rfl⟩
      | skip
    all_goals first
      | (refine Decoded.all_operandEpf fun _ _ _ => Decoded.all_operand16 fun _ _ => Decoded.all_operand16 fun _ _ => ?_; split)
      | refine Decoded.all_operandEpf fun _ _ _ => Decoded.all_operand16 fun _ _ => Decoded.all_operand16 fun _ _ => ?_
      | refine Decoded.all_operandEpf fun _ _ _ => ?_
      | (refine Decoded.all_operandEp fun _ _ => Decoded.all_operand fun _ _ => ?_; split)
      | refine Decoded.all_operandEp fun _ _ => ?_
      | (refine Decoded.all_operand16 fun _ _ => ?_; split)
      | refine Decoded.all_operand16 fun _ _ => ?_
      | (refine Decoded.all_operand fun _ _ => ?_; split)
      | refine Decoded.all_operand fun _ _ => ?_
    all_goals first
      | exact Decoded.all_error
      | exact Decoded.all_ok ⟨by simp [Instr.format], rfl⟩

theorem decodeWord_format {bs r : List Byte} {i : Instr} (h : decodeWord bs = .ok (i, r)) : i.format ≠ .setup8 :=
  (decodeWord_all bs i r h).1

/-! ## Splitting and joining -/

theorem le16_lo_hi (v : Word16) : le16 (lo8 v) (hi8 v) = v := by
  apply BitVec.eq_of_getLsbD_eq
  intro i hi
  simp only [le16, lo8, hi8, BitVec.getLsbD_append, BitVec.getLsbD_extractLsb']
  by_cases h : i < 8
  · simp [h]
  · have h2 : i - 8 < 8 := by omega
    have h3 : 8 + (i - 8) = i := by omega
    simp [h, h2, h3]

theorem getLsbD_le16 (l h : Byte) (i : Nat) :
    (le16 l h).getLsbD i = if i < 8 then l.getLsbD i else h.getLsbD (i - 8) := by
  have := BitVec.getLsbD_append (x := h) (y := l) (i := i)
  simpa [le16, Bool.cond_eq_ite] using this

theorem lo8_le16 (l h : Byte) : lo8 (le16 l h) = l := by
  apply BitVec.eq_of_getLsbD_eq
  intro i hi
  rw [lo8, BitVec.getLsbD_extractLsb', getLsbD_le16]
  simp [hi]

theorem hi8_le16 (l h : Byte) : hi8 (le16 l h) = h := by
  apply BitVec.eq_of_getLsbD_eq
  intro i hi
  rw [hi8, BitVec.getLsbD_extractLsb', getLsbD_le16]
  simp [hi]

theorem dirOf_requestTypeOf (d : Bool) (k : BitVec 2) (r : BitVec 5) : dirOf (requestTypeOf d k r) = d := by
  revert d k r; decide

theorem kindOf_requestTypeOf (d : Bool) (k : BitVec 2) (r : BitVec 5) : kindOf (requestTypeOf d k r) = k := by
  revert d k r; decide

theorem recipientOf_requestTypeOf (d : Bool) (k : BitVec 2) (r : BitVec 5) :
    recipientOf (requestTypeOf d k r) = r := by
  revert d k r; decide

theorem requestTypeOf_fields (b : Byte) : requestTypeOf (dirOf b) (kindOf b) (recipientOf b) = b := by
  revert b; decide

/-- The packet of a request gives its fields back. -/
theorem req_packet (r : Req) (k : BitVec 2) (b : Byte) : (r.packet k b).req = r := by
  simp [SetupPacket.req, Req.packet, SetupPacket.dir, SetupPacket.wIndex, SetupPacket.wLength, dirOf_requestTypeOf,
    recipientOf_requestTypeOf, le16_lo_hi]

theorem kind_packet (r : Req) (k : BitVec 2) (b : Byte) : (r.packet k b).kind = k := by
  simp [SetupPacket.kind, Req.packet, kindOf_requestTypeOf]

theorem bRequest_packet (r : Req) (k : BitVec 2) (b : Byte) : (r.packet k b).bRequest = b := rfl

/-- A packet is the packet of its request fields. -/
theorem packet_req (p : SetupPacket) : p.req.packet p.kind p.bRequest = p := by
  simp [SetupPacket.req, Req.packet, SetupPacket.dir, SetupPacket.kind, SetupPacket.wIndex, SetupPacket.wLength,
    requestTypeOf_fields, lo8_le16, hi8_le16]

theorem epByte_lt (e : EpIdx) : (epByte e).toNat < 8 := by revert e; decide

theorem extract_epByte (e : EpIdx) : (epByte e).extractLsb' 0 3 = e := by revert e; decide

theorem epfOf_zero (e : EpIdx) (f : BitVec 3) : (epfOf e f).extractLsb' 3 2 = (0 : BitVec 2) := by
  revert e f; decide

theorem epfOf_ep (e : EpIdx) (f : BitVec 3) : (epfOf e f).extractLsb' 0 3 = e := by revert e f; decide

theorem epfOf_flags (e : EpIdx) (f : BitVec 3) : (epfOf e f).extractLsb' 5 3 = f := by revert e f; decide

theorem typeOfCode_typeCode (t : EpType) : typeOfCode (typeCode t) = some t := by cases t <;> rfl

end Sys2Proof
end

