-- ==== Sys2Proof/Laws/Exec.lean ====
section
/-! SUPPORT. The frames of the operations by format: what no micro-operation, and no request, writes. -/

namespace Sys2Proof.Machine

/-! ## Micro-operations -/

/-- `t` differs from `s` at most where a raw micro-operation can write. -/
structure UopFrame (s t : State) : Prop where
  conf : t.conf = s.conf
  latch : t.latch = s.latch
  irq : t.irq = { s.irq with ie := t.irq.ie }
  power : t.power = s.power
  ct : t.ct = s.ct
  ft : t.ft = s.ft
  be : t.be = s.be
  port : t.port = s.port
  buf : t.buf = s.buf
  dev : t.dev = { s.dev with addr := t.dev.addr, addrEn := t.dev.addrEn }
  rxSink : t.ghost.rxSink = s.ghost.rxSink
  calls : t.ghost.calls = s.ghost.calls
  bulkFail : t.ghost.bulkFail = s.ghost.bulkFail
  inputs : t.io.inputs = s.io.inputs
  answers : t.io.answers = s.io.answers
  mainWait : s.irq.inIsr = true → t.io.mainWait = s.io.mainWait
  bounds : KeepsBounds s t

theorem UopFrame.of_outside {s t : State} (h : Outside s t) (k : KeepsBounds s t) : UopFrame s t where
  conf := h.conf
  latch := h.latch
  irq := by rw [h.irq]
  power := h.power
  ct := h.ct
  ft := h.ft
  be := h.be
  port := h.port
  buf := h.buf
  dev := by
    have h1 := h.cfg; have h2 := h.composite
    revert h1 h2; cases t.dev; cases s.dev; rintro rfl rfl; rfl
  rxSink := h.rxSink
  calls := h.calls
  bulkFail := h.bulkFail
  inputs := h.inputs
  answers := h.answers
  mainWait := fun _ => h.mainWait
  bounds := k

theorem uopFrame_issue {ms : List Micro} {s t : State} (h : issue ms s = .next t) : UopFrame s t := by
  rcases issue_cases h with hr | ⟨rest, u, hr, rfl⟩
  · exact UopFrame.of_outside ((outside_runMicros ms s).1 t hr) ((keepsBounds_runMicros ms s).1 t hr)
  · have := UopFrame.of_outside ((outside_runMicros ms s).2 rest u hr) ((keepsBounds_runMicros ms s).2 rest u hr)
    exact { this with bounds := this.bounds }

theorem uopFrame_issueWait {w : Wait} {s t : State} (h : issueWait w s = .next t) : UopFrame s t := by
  rcases issueWait_cases h with rfl | rfl
  · exact UopFrame.of_outside (Outside.refl _) id
  · have hw : s.irq.inIsr = true → (holdAt w s).io.mainWait = s.io.mainWait := fun h => by rw [holdAt_inIsr h]
    obtain ⟨x, m, he⟩ := holdAt_eq w s
    rw [he] at hw ⊢
    exact { UopFrame.of_outside (Outside.refl s) id with mainWait := hw, bounds := KeepsBounds.of_eps rfl }

theorem uopFrame_direct {m : MicroOut} {s t : State} (h : direct m s = .next t)
    (ho : MicroOut.Keeps Outside s m) (hb : MicroOut.Keeps KeepsBounds s m) : UopFrame s t := by
  cases m with
  | ok u => cases h; exact UopFrame.of_outside (ho _ rfl) (hb _ rfl)
  | hold => cases h; exact UopFrame.of_outside (Outside.refl s) id
  | refused r => cases h

/-- A change of endpoints and nothing else. -/
theorem uopFrame_setEp {s : State} {e : EpIdx} {p : Endpoint} (h : EndpointOk e (s.ep e) → EndpointOk e p) :
    UopFrame s (s.setEp e p) :=
  UopFrame.of_outside (outside_setEp s e p) fun k => endpointsOk_setEp k (h (k e))

/-- The frame of every raw micro-operation. -/
theorem uopFrame_exec {i : Instr} {s t : State} (hf : i.format = .uop) (h : exec i s = .next t) : UopFrame s t := by
  have same : ∀ r, UopFrame s (s.setRet r) := fun r => by constructor <;> first | rfl | exact fun _ => rfl | exact KeepsBounds.of_eps rfl
  cases i <;> simp only [Instr.format, reduceCtorEq] at hf <;> simp only [exec] at h
  case select => exact uopFrame_issue h
  case testSetup => cases h; exact same _
  case waitIn => exact uopFrame_issueWait h
  case waitOut => exact uopFrame_issueWait h
  case read8 =>
    simp only [execRead8] at h; split at h
    · cases h
    · cases h
      exact UopFrame.of_outside ((outside_popByte s).trans (outside_setRet _ _))
        ((keepsBounds_popByte s).trans (KeepsBounds.of_eps rfl))
  case readN => exact uopFrame_issue h
  case write8 b => exact uopFrame_direct h (outside_write8Op b s) (keepsBounds_write8Op b s)
  case byteCount => cases h; exact same _
  case rwAllowed =>
    simp only [execRwAllowed] at h; split at h
    · cases h
    · cases h; exact same _
  case sendSpace e =>
    simp only [execSendSpace, spaceCrit_eq] at h; repeat' split at h
    · cases h
    · cases h
    · cases h; exact same _
  case stall => cases h; exact uopFrame_setEp EndpointOk.stalled
  case clearSetup =>
    simp only [execClearSetup, clearSetupOp] at h; split at h
    · cases h
    · cases h; exact uopFrame_setEp EndpointOk.clearSetup
  case ackIn => exact uopFrame_direct h (outside_ackInOp s) (keepsBounds_ackInOp s)
  case clearOut =>
    simp only [execClearOut, clearOutOp] at h; split at h
    · cases h
    · cases h; exact uopFrame_setEp EndpointOk.release
  case releaseRx =>
    simp only [execReleaseRx] at h; split at h
    · cases h
    · cases h; exact uopFrame_setEp EndpointOk.release
  case releaseTx =>
    simp only [execReleaseTx] at h; split at h
    · cases h
    · cases h; exact UopFrame.of_outside (outside_commitIn _ s) (keepsBounds_commitIn _ s)
  case initEp e k =>
    simp only [execInitEp] at h; split at h
    · cases h
    · cases h; exact uopFrame_setEp fun _ => EndpointOk.init e k
  case critEnter =>
    cases h
    have he := critEnter_eps s
    simp only [critEnter, State.setCritCtx] at he ⊢
    split <;> constructor <;> first | rfl | exact fun _ => rfl | exact KeepsBounds.of_eps rfl
  case critExit =>
    simp only [execCritExit] at h; split at h
    · cases h
      simp only [critExit, State.setCritCtx]
      split <;> constructor <;> first | rfl | exact fun _ => rfl | exact KeepsBounds.of_eps rfl
    · cases h
  case curInit => cases h; constructor <;> first | rfl | exact fun _ => rfl | exact KeepsBounds.of_eps rfl
  case emit8 => exact uopFrame_issue h
  case emitN => exact uopFrame_issue h
  case armTx => cases h; constructor <;> first | rfl | exact fun _ => rfl | exact KeepsBounds.of_eps rfl
  case armRx => cases h; constructor <;> first | rfl | exact fun _ => rfl | exact KeepsBounds.of_eps rfl
  case armOutStage => exact uopFrame_direct h (outside_ackInOp s) (keepsBounds_ackInOp s)

/-! ## Requests -/

/-- `t` differs from `s` at most where a request can write; the handler stands at S5 or at a hold of S4. -/
structure RequestFrame (s t : State) : Prop where
  conf : t.conf = s.conf
  latch : t.latch = s.latch
  pulse : t.pulse = s.pulse
  irq : t.irq = s.irq
  crit : t.crit = s.crit
  power : t.power = s.power
  ft : t.ft = s.ft
  be : t.be = s.be
  port : t.port = s.port
  buf : t.buf = s.buf
  rxSink : t.ghost.rxSink = s.ghost.rxSink
  bulkFail : t.ghost.bulkFail = s.ghost.bulkFail
  inputs : t.io.inputs = s.io.inputs
  held : t.io.held = s.io.held
  mainWait : t.io.mainWait = s.io.mainWait
  point : t.ct.pc = .s5 ∨ t.ct.pc = .s4SetaddrWait ∨ t.ct.pc = .s4CallWait ∨ t.ct.pc = .s4EmitWait
  bounds : KeepsBounds s t

theorem holdPoint_cases (ms : List Micro) :
    holdPoint ms = .s4SetaddrWait ∨ holdPoint ms = .s4CallWait ∨ holdPoint ms = .s4EmitWait := by
  unfold holdPoint; split <;> simp

/-- The frame of a request whose micro-operations start at `u`, which itself differs from `s` only where a request
writes. -/
theorem requestFrame_run {ms : List Micro} {res : CtResult} {s u t : State} (h : runRequest ms res u = .next t)
    (k : RequestFrame s { u with ct.pc := .s5 }) : RequestFrame s t := by
  rcases runRequest_cases h with ⟨v, hv, rfl⟩ | ⟨rest, v, hv, rfl⟩
  · have ho := (outside_runMicros ms u).1 v hv
    have hb := (keepsBounds_runMicros ms u).1 v hv
    exact { conf := ho.conf.trans k.conf, latch := ho.latch.trans k.latch, pulse := ho.pulse.trans k.pulse,
            irq := ho.irq.trans k.irq, crit := ho.crit.trans k.crit, power := ho.power.trans k.power,
            ft := ho.ft.trans k.ft, be := ho.be.trans k.be, port := ho.port.trans k.port, buf := ho.buf.trans k.buf,
            rxSink := ho.rxSink.trans k.rxSink, bulkFail := ho.bulkFail.trans k.bulkFail,
            inputs := ho.inputs.trans k.inputs, held := ho.held.trans k.held, mainWait := ho.mainWait.trans k.mainWait,
            point := .inl rfl,
            bounds := KeepsBounds.trans k.bounds hb }
  · have ho := (outside_runMicros ms u).2 rest v hv
    have hb := (keepsBounds_runMicros ms u).2 rest v hv
    exact { conf := ho.conf.trans k.conf, latch := ho.latch.trans k.latch, pulse := ho.pulse.trans k.pulse,
            irq := ho.irq.trans k.irq, crit := ho.crit.trans k.crit, power := ho.power.trans k.power,
            ft := ho.ft.trans k.ft, be := ho.be.trans k.be, port := ho.port.trans k.port, buf := ho.buf.trans k.buf,
            rxSink := ho.rxSink.trans k.rxSink, bulkFail := ho.bulkFail.trans k.bulkFail,
            inputs := ho.inputs.trans k.inputs, held := ho.held.trans k.held, mainWait := ho.mainWait.trans k.mainWait,
            point := .inr (holdPoint_cases rest),
            bounds := KeepsBounds.trans k.bounds hb }

/-- `u` differs from `s` at most in the cursor, the configuration registers, the handler's own registers, the call log
and the oracle's answers. -/
def StartOf (s u : State) : Prop :=
  ∃ c d k l a n, u = { s with cursor := c, dev := d, ct := k, ghost.calls := l, io.answers := a, io.draws := n }

theorem requestFrame_start {s u : State} (h : StartOf s u) : RequestFrame s { u with ct.pc := .s5 } := by
  obtain ⟨c, d, k, l, a, n, rfl⟩ := h
  constructor <;> first | rfl | exact .inl rfl | exact KeepsBounds.of_eps rfl

theorem StartOf.refl (s : State) : StartOf s s := ⟨_, _, _, _, _, _, rfl⟩

theorem StartOf.trans {s t u : State} (h : StartOf s t) (k : StartOf t u) : StartOf s u := by
  obtain ⟨c, d, x, l, a, n, rfl⟩ := h
  obtain ⟨c, d, x, l, a, n, rfl⟩ := k
  exact ⟨_, _, _, _, _, _, rfl⟩

theorem startOf_nextAnswer (s : State) : StartOf s (nextAnswer s).2 := by
  simp only [nextAnswer]; split <;> exact ⟨_, _, _, _, _, _, rfl⟩

theorem startOf_logCall (s : State) (c : CollabCall) : StartOf s (s.logCall c) := ⟨_, _, _, _, _, _, rfl⟩

theorem startOf_curInit (s : State) (n : Word16) : StartOf s (curInit n s) := ⟨_, _, _, _, _, _, rfl⟩

theorem startOf_offerDescriptor (p : SetupPacket) : ∀ (cs : List Collab) (k : Nat) (s : State),
    StartOf s (offerDescriptor p cs k s).2.2 := by
  intro cs
  induction cs with
  | nil => exact fun k s => StartOf.refl s
  | cons c cs ih =>
    intro k s
    simp only [offerDescriptor]
    have hn := (startOf_logCall s (.getDescriptor k p)).trans (startOf_nextAnswer _)
    repeat' split
    · exact ih _ _
    · exact hn
    · exact hn.trans (ih _ _)

theorem requestFrame_descConfig {r : Req} {s t : State} (h : descConfig r s = .next t) : RequestFrame s t := by
  simp only [descConfig] at h
  split at h
  · rename_i s1 h1
    simp only [configPass2] at h
    split at h
    · cases h
    · have ho := (outside_runMicros _ _).1 _ h1
      have hb := (keepsBounds_runMicros _ _).1 _ h1
      refine requestFrame_run h ?_
      exact { conf := ho.conf, latch := ho.latch, pulse := ho.pulse, irq := ho.irq, crit := ho.crit,
              power := ho.power, ft := ho.ft, be := ho.be, port := ho.port, buf := ho.buf, rxSink := ho.rxSink,
              bulkFail := ho.bulkFail, inputs := ho.inputs, held := ho.held, mainWait := ho.mainWait, point := .inl rfl, bounds := hb }
  · rename_i rest s1 h1
    cases h
    have ho := (outside_runMicros _ _).2 _ _ h1
    have hb := (keepsBounds_runMicros _ _).2 _ _ h1
    exact { conf := ho.conf, latch := ho.latch, pulse := ho.pulse, irq := ho.irq, crit := ho.crit,
            power := ho.power, ft := ho.ft, be := ho.be, port := ho.port, buf := ho.buf, rxSink := ho.rxSink,
            bulkFail := ho.bulkFail, inputs := ho.inputs, held := ho.held, mainWait := ho.mainWait, point := .inr (holdPoint_cases rest),
            bounds := hb }
  · cases h

theorem requestFrame_descDevice {r : Req} {s t : State} (h : descDevice r s = .next t) : RequestFrame s t := by
  refine requestFrame_run h (requestFrame_start ?_)
  split
  · exact ⟨_, _, _, _, _, _, rfl⟩
  · exact StartOf.refl s

theorem requestFrame_descString {r : Req} {s t : State} (h : descString r s = .next t) : RequestFrame s t := by
  simp only [descString] at h
  split at h <;> exact requestFrame_run h (requestFrame_start (StartOf.refl s))

theorem requestFrame_descOther {r : Req} {s t : State} (h : descOther r s = .next t) : RequestFrame s t := by
  exact requestFrame_run h (requestFrame_start (startOf_offerDescriptor _ _ _ _))

/-- The frame of every request. -/
theorem requestFrame_exec {i : Instr} {s t : State} (hf : i.format = .setup8) (h : exec i s = .next t) :
    RequestFrame s t := by
  have start : ∀ {ms res}, runRequest ms res s = .next t → RequestFrame s t :=
    fun h => requestFrame_run h (requestFrame_start (StartOf.refl s))
  cases i <;> simp only [Instr.format, reduceCtorEq] at hf <;> simp only [exec] at h
  case getStatus => exact start h
  case setAddress => exact start h
  case getDescriptor =>
    simp only [execGetDescriptor] at h; repeat' split at h
    · exact requestFrame_descConfig h
    · exact requestFrame_descDevice h
    · exact requestFrame_descString h
    · exact requestFrame_descOther h
  case getDescriptorDevice => exact requestFrame_descDevice h
  case getDescriptorConfiguration => exact requestFrame_descConfig h
  case getDescriptorString => exact requestFrame_descString h
  case getDescriptorOther => exact requestFrame_descOther h
  case setDescriptor => exact start h
  case getConfiguration => exact start h
  case setConfiguration r =>
    simp only [execSetConfiguration] at h; split at h
    · refine requestFrame_run h ?_
      have hb := keepsBounds_initAllEndpoints s
      obtain ⟨v, hv⟩ : ∃ v, initAllEndpoints s = { s with eps := v } := ⟨_, initAllEndpoints_eq s⟩
      rw [hv] at hb ⊢
      constructor <;> first | rfl | exact .inl rfl | exact hb
    · exact start h
  case standardUnlisted => exact start h
  case classRequest b r =>
    simp only [execClassRequest] at h; split at h
    · exact requestFrame_run h (requestFrame_start (startOf_curInit s _))
    · exact requestFrame_run h (requestFrame_start
        (((startOf_curInit s _).trans (startOf_logCall _ _)).trans (startOf_nextAnswer _)))
  case kindVendor => exact start h
  case kindReserved => exact start h

/-- No operation faults. -/
theorem exec_no_fault (i : Instr) (s : State) (f : Fault) : exec i s ≠ .fault f := by
  have issue_nf : ∀ ms s, issue ms s ≠ .fault f := by
    intro ms s; simp only [issue]; split <;> simp
  have direct_nf : ∀ m s, direct m s ≠ .fault f := by
    intro m s; simp only [direct]; split <;> simp
  have config_nf : ∀ r s, descConfig r s ≠ .fault f := by
    intro r s; simp only [descConfig, configPass2]; repeat' split
    all_goals first | exact runRequest_no_fault _ _ _ f | simp
  have string_nf : ∀ r s, descString r s ≠ .fault f := by
    intro r s; simp only [descString]; split <;> exact runRequest_no_fault _ _ _ f
  have other_nf : ∀ r s, descOther r s ≠ .fault f := fun r s => runRequest_no_fault _ _ _ f
  have device_nf : ∀ r s, descDevice r s ≠ .fault f := fun r s => runRequest_no_fault _ _ _ f
  have deliver_nf : ∀ src c s, deliver src c s ≠ .fault f := by
    intro src c s; simp only [deliver]; split <;> simp
  cases i <;> simp only [exec]
  case getStatus => exact runRequest_no_fault _ _ _ f
  case setAddress => exact runRequest_no_fault _ _ _ f
  case getDescriptor =>
    simp only [execGetDescriptor]; repeat' split
    · exact config_nf _ _
    · exact device_nf _ _
    · exact string_nf _ _
    · exact other_nf _ _
  case getDescriptorDevice => exact device_nf _ _
  case getDescriptorConfiguration => exact config_nf _ _
  case getDescriptorString => exact string_nf _ _
  case getDescriptorOther => exact other_nf _ _
  case setDescriptor => exact runRequest_no_fault _ _ _ f
  case getConfiguration => exact runRequest_no_fault _ _ _ f
  case setConfiguration => simp only [execSetConfiguration]; split <;> exact runRequest_no_fault _ _ _ f
  case standardUnlisted => exact runRequest_no_fault _ _ _ f
  case classRequest => simp only [execClassRequest]; split <;> exact runRequest_no_fault _ _ _ f
  case kindVendor => exact runRequest_no_fault _ _ _ f
  case kindReserved => exact runRequest_no_fault _ _ _ f
  case attach => simp only [execAttach]; repeat' split
                 all_goals simp
  case send => simp only [execSend]; repeat' split
               all_goals simp
  case recv => simp only [execRecv]; repeat' split
               all_goals simp
  case available => simp only [execAvailable]; repeat' split
                    all_goals simp
  case flush => simp only [execFlush]; repeat' split
                all_goals simp
  case select => exact issue_nf _ _
  case testSetup => simp [execTestSetup]
  case waitIn => exact issueWait_no_fault _ _ f
  case waitOut => exact issueWait_no_fault _ _ f
  case read8 => simp only [execRead8]; split <;> simp
  case readN => exact issue_nf _ _
  case write8 => exact direct_nf _ _
  case byteCount => simp [execByteCount]
  case rwAllowed => simp only [execRwAllowed]; split <;> simp
  case sendSpace => simp only [execSendSpace]; repeat' split
                    all_goals simp
  case stall => simp [execStall]
  case clearSetup => exact direct_nf _ _
  case ackIn => exact direct_nf _ _
  case clearOut => exact direct_nf _ _
  case releaseRx => simp only [execReleaseRx]; split <;> simp
  case releaseTx => simp only [execReleaseTx]; split <;> simp
  case initEp => simp only [execInitEp]; split <;> simp
  case critEnter => simp [execCritEnter]
  case critExit => simp only [execCritExit]; split <;> simp
  case curInit => simp [execCurInit]
  case emit8 => exact issue_nf _ _
  case emitN => exact issue_nf _ _
  case armTx => simp [execArmTx]
  case armRx => simp [execArmRx]
  case armOutStage => exact direct_nf _ _
  case evtSetupReceived => exact deliver_nf _ _ _
  case evtFrameTick => exact deliver_nf _ _ _
  case evtBusReset => exact deliver_nf _ _ _
  case evtSpuriousComm => exact deliver_nf _ _ _

/-! ## Events -/

/-- An event delivers its interrupt where one may be delivered, or changes nothing. -/
theorem exec_evt_cases {i : Instr} {s t : State} (hf : i.format = .evt) (h : exec i s = .next t) :
    t = s ∨ ∃ src, s.irq.ie = true ∧ s.irq.inIsr = false ∧ irqReq src s = true ∧ t = enterHandler src s := by
  have key : ∀ src c, deliver src c s = .next t →
      t = s ∨ ∃ src, s.irq.ie = true ∧ s.irq.inIsr = false ∧ irqReq src s = true ∧ t = enterHandler src s := by
    intro src c h
    simp only [deliver] at h
    split at h
    · rename_i hg
      cases h
      simp only [grants, canDeliver, Bool.and_eq_true, Bool.not_eq_true'] at hg
      exact .inr ⟨src, hg.1.1.1.1, hg.1.1.1.2, hg.1.1.2, rfl⟩
    · cases h; exact .inl rfl
  cases i <;> simp only [Instr.format, reduceCtorEq] at hf <;> exact key _ _ h

/-- The rows of setup packets decode from setup packets only. -/
theorem format_decodeSetup (p : SetupPacket) : (decodeSetup p).format = .setup8 := by
  unfold decodeSetup decodeStandard decodeDescriptor
  repeat' split
  all_goals rfl

end Sys2Proof.Machine
end

