-- ==== Sys2Proof/Laws/Memory.lean ====
section
/-! SUPPORT. The laws of byte memory: reading after writing, and the canonical form kept. -/

namespace Sys2Proof

theorem Memory.wf_nil : Memory.wf [] := by simp [Memory.wf]

/-- In a canonical list no address below the first is listed. -/
theorem Memory.read_below {m : Memory} {a : Nat} (h : ∀ c ∈ m, a < c.1) : Memory.read m a = Memory.unlisted := by
  induction m with
  | nil => rfl
  | cons c m ih =>
    obtain ⟨k, v⟩ := c
    have hk : a < k := h (k, v) (by simp)
    simp only [Memory.read]
    rw [if_neg (by omega)]
    exact ih fun c hc => h c (by simp [hc])

/-- Every address listed after a write is the written one or was listed before. -/
theorem Memory.mem_write {m : Memory} {a : Nat} {b : Byte} {c : Host.Cell} (h : c ∈ Memory.write m a b) :
    c = (a, b) ∧ b ≠ Memory.unlisted ∨ c ∈ m := by
  induction m with
  | nil =>
    simp only [Memory.write] at h
    split at h
    · simp at h
    · simp at h; exact .inl ⟨h, ‹_›⟩
  | cons d m ih =>
    obtain ⟨k, v⟩ := d
    simp only [Memory.write] at h
    split at h
    · split at h
      · exact .inr h
      · rcases List.mem_cons.1 h with h | h
        · exact .inl ⟨h, ‹_›⟩
        · exact .inr h
    · split at h
      · split at h
        · exact .inr (by simp [h])
        · rcases List.mem_cons.1 h with h | h
          · exact .inl ⟨h, ‹_›⟩
          · exact .inr (by simp [h])
      · rcases List.mem_cons.1 h with h | h
        · exact .inr (by simp [h])
        · rcases ih h with h | h
          · exact .inl h
          · exact .inr (by simp [h])

/-- A write keeps the canonical form. -/
theorem Memory.wf_write {m : Memory} (h : m.wf) (a : Nat) (b : Byte) : (Memory.write m a b).wf := by
  induction m with
  | nil => simp only [Memory.write]; split <;> simp_all [Memory.wf]
  | cons d m ih =>
    obtain ⟨k, v⟩ := d
    obtain ⟨hp, hv⟩ := h
    rw [List.pairwise_cons] at hp
    have hm : Memory.wf m := ⟨hp.2, fun c hc => hv c (by simp [hc])⟩
    have hkv : v ≠ Memory.unlisted := hv (k, v) (by simp)
    simp only [Memory.write]
    split
    · split
      · exact ⟨List.pairwise_cons.2 hp, hv⟩
      · refine ⟨List.pairwise_cons.2 ⟨?_, List.pairwise_cons.2 hp⟩, ?_⟩
        · intro c hc
          rcases List.mem_cons.1 hc with hc | hc
          · subst hc; assumption
          · have := hp.1 c hc; simp only at this ⊢; omega
        · intro c hc
          rcases List.mem_cons.1 hc with hc | hc
          · subst hc; assumption
          · exact hv c hc
    · split
      · split
        · exact hm
        · refine ⟨List.pairwise_cons.2 ⟨?_, hp.2⟩, ?_⟩
          · intro c hc
            have := hp.1 c hc
            simp only at this ⊢; omega
          · intro c hc
            rcases List.mem_cons.1 hc with hc | hc
            · subst hc; assumption
            · exact hv c (by simp [hc])
      · have hw := ih hm
        refine ⟨List.pairwise_cons.2 ⟨?_, hw.1⟩, ?_⟩
        · intro c hc
          rcases Memory.mem_write hc with ⟨rfl, _⟩ | hc
          · simp only; omega
          · exact hp.1 c hc
        · intro c hc
          rcases List.mem_cons.1 hc with hc | hc
          · subst hc; exact hkv
          · exact hw.2 c hc

/-- Reading after a write. -/
theorem Memory.read_write {m : Memory} (h : m.wf) (a : Nat) (b : Byte) (x : Nat) :
    Memory.read (Memory.write m a b) x = if x = a then b else Memory.read m x := by
  induction m with
  | nil => simp only [Memory.write]; split <;> simp_all [Memory.read, eq_comm]
  | cons d m ih =>
    obtain ⟨k, v⟩ := d
    obtain ⟨hp, hv⟩ := h
    rw [List.pairwise_cons] at hp
    have hm : Memory.wf m := ⟨hp.2, fun c hc => hv c (by simp [hc])⟩
    simp only [Memory.write]
    split
    · split
      · by_cases hx : x = a
        · have : ∀ c ∈ (k, v) :: m, a < c.1 := by
            intro c hc
            rcases List.mem_cons.1 hc with hc | hc
            · subst hc; assumption
            · have := hp.1 c hc; simp only at this; omega
          simp only [hx, if_true]
          rw [Memory.read_below this]; simp_all
        · simp [hx]
      · by_cases hx : x = a
        · simp [Memory.read, hx]
        · have : a ≠ x := fun e => hx e.symm
          simp [Memory.read, hx, this]
    · split
      · rename_i hak hk
        subst hk
        have hb : Memory.read m a = Memory.unlisted := Memory.read_below fun c hc => hp.1 c hc
        split
        · by_cases hx : x = a
          · simp_all
          · have : a ≠ x := fun e => hx e.symm
            simp [Memory.read, hx, this]
        · by_cases hx : x = a
          · simp [Memory.read, hx]
          · have : a ≠ x := fun e => hx e.symm
            simp [Memory.read, hx, this]
      · by_cases hx : x = a
        · subst hx
          simp only [Memory.read]
          rw [if_neg (by omega), ih hm]
          simp
        · simp only [Memory.read, ih hm, hx, if_false]

theorem Memory.wf_writeList {bs : List Byte} : ∀ {m : Memory} (_ : m.wf) (a : Nat), (Memory.writeList m a bs).wf := by
  induction bs with
  | nil => intro m h a; exact h
  | cons b bs ih => intro m h a; exact ih (Memory.wf_write h a b) (a + 1)

/-- Reading after a run of bytes was written: the byte written there, or the old one. -/
theorem Memory.read_writeList {bs : List Byte} : ∀ {m : Memory} (_ : m.wf) (a x : Nat),
    Memory.read (Memory.writeList m a bs) x =
      if a ≤ x ∧ x < a + bs.length then bs.getD (x - a) 0 else Memory.read m x := by
  induction bs with
  | nil => intro m h a x; simp [Memory.writeList]
  | cons b bs ih =>
    intro m h a x
    rw [Memory.writeList, ih (Memory.wf_write h a b), Memory.read_write h]
    by_cases h1 : a + 1 ≤ x ∧ x < a + 1 + bs.length
    · have e : x - a = (x - (a + 1)) + 1 := by omega
      rw [if_pos h1, if_pos (by simp; omega), e]
      simp
    · rw [if_neg h1]
      by_cases hx : x = a
      · subst hx; simp
      · rw [if_neg hx, if_neg (by simp; omega)]

end Sys2Proof
end

