-- ==== Sys2Proof/Laws/PerInstr.lean ====
section
/-! SUPPORT. Statements made for every instruction: `Table`, its encoding matches its row of the opcode table. -/

namespace Sys2Proof.Laws

/-- The word of an encoded well-formed instruction matches the instruction's row (30_encoding.md R134). -/
def Table.Statement (i : Instr) : Prop :=
  i.wf = true → (encode i).tableWord &&& i.row.mask = i.row.pattern ∧ i.row.format = i.format

namespace Table

/-- A setup packet's bytes under a mask's bytes. -/
theorem toWord_and (p m : SetupPacket) : p.toWord &&& m.toWord =
    SetupPacket.toWord ⟨p.bmRequestType &&& m.bmRequestType, p.bRequest &&& m.bRequest, p.wValueL &&& m.wValueL,
      p.wValueH &&& m.wValueH, p.wIndexL &&& m.wIndexL, p.wIndexH &&& m.wIndexH, p.wLengthL &&& m.wLengthL,
      p.wLengthH &&& m.wLengthH⟩ := by
  unfold SetupPacket.toWord
  iterate 7 erw [BitVec.and_append]

theorem and_none (x : Byte) : x &&& 0 = 0 := BitVec.and_zero

theorem and_all (x : Byte) : x &&& 0xFF = x := BitVec.and_allOnes

theorem kind_and (d : Bool) (k : BitVec 2) (r : BitVec 5) :
    requestTypeOf d k r &&& 0x60 = (0 : BitVec 1) ++ k ++ (0 : BitVec 5) := by
  revert d k r; decide

/-- A row that fixes the kind alone. -/
theorem match_kind (r : Req) (k : BitVec 2) (b : Byte) (pat : BitVec 64)
    (h : SetupPacket.toWord ⟨(0 : BitVec 1) ++ k ++ (0 : BitVec 5), 0, 0, 0, 0, 0, 0, 0⟩ = pat) :
    (r.packet k b).toWord &&& 0x6000000000000000 = pat := by
  rw [show (0x6000000000000000 : BitVec 64) = SetupPacket.toWord ⟨0x60, 0, 0, 0, 0, 0, 0, 0⟩ by decide, toWord_and,
    ← h]
  simp only [Req.packet, kind_and, and_none]

/-- A row that fixes the kind and the request code. -/
theorem match_request (r : Req) (k : BitVec 2) (b : Byte) (pat : BitVec 64)
    (h : SetupPacket.toWord ⟨(0 : BitVec 1) ++ k ++ (0 : BitVec 5), b, 0, 0, 0, 0, 0, 0⟩ = pat) :
    (r.packet k b).toWord &&& 0x60FF000000000000 = pat := by
  rw [show (0x60FF000000000000 : BitVec 64) = SetupPacket.toWord ⟨0x60, 0xFF, 0, 0, 0, 0, 0, 0⟩ by decide, toWord_and,
    ← h]
  simp only [Req.packet, kind_and, and_none, and_all]

/-- A row that fixes the descriptor type too. -/
theorem match_descriptor (r : Req) (k : BitVec 2) (b : Byte) (pat : BitVec 64)
    (h : SetupPacket.toWord ⟨(0 : BitVec 1) ++ k ++ (0 : BitVec 5), b, 0, r.wValueH, 0, 0, 0, 0⟩ = pat) :
    (r.packet k b).toWord &&& 0x60FF00FF00000000 = pat := by
  rw [show (0x60FF00FF00000000 : BitVec 64) = SetupPacket.toWord ⟨0x60, 0xFF, 0, 0xFF, 0, 0, 0, 0⟩ by decide,
    toWord_and, ← h]
  simp only [Req.packet, kind_and, and_none, and_all]

/-- A row that fixes the code, the first byte. -/
theorem match_code (c : Byte) (bs : List Byte) (pat : BitVec 64) (h : c.setWidth 64 &&& 0xFF = pat) :
    (Encoded.word (c :: bs)).tableWord &&& 0xFF = pat := h

end Table

theorem Table.getStatus (r : Req) : Table.Statement (.getStatus r) := fun _ => ⟨Table.match_request _ _ _ _ rfl, rfl⟩
theorem Table.setAddress (r : Req) : Table.Statement (.setAddress r) := fun _ => ⟨Table.match_request _ _ _ _ rfl, rfl⟩
theorem Table.getDescriptor (r : Req) : Table.Statement (.getDescriptor r) := fun _ => ⟨Table.match_request _ _ _ _ rfl, rfl⟩
theorem Table.getDescriptorDevice (r : Req) : Table.Statement (.getDescriptorDevice r) := fun h =>
  ⟨Table.match_descriptor _ _ _ _ (by rw [LawfulBEq.eq_of_beq h]; rfl), rfl⟩
theorem Table.getDescriptorConfiguration (r : Req) : Table.Statement (.getDescriptorConfiguration r) := fun h =>
  ⟨Table.match_descriptor _ _ _ _ (by rw [LawfulBEq.eq_of_beq h]; rfl), rfl⟩
theorem Table.getDescriptorString (r : Req) : Table.Statement (.getDescriptorString r) := fun h =>
  ⟨Table.match_descriptor _ _ _ _ (by rw [LawfulBEq.eq_of_beq h]; rfl), rfl⟩
theorem Table.getDescriptorOther (r : Req) : Table.Statement (.getDescriptorOther r) := fun _ => ⟨Table.match_request _ _ _ _ rfl, rfl⟩
theorem Table.setDescriptor (r : Req) : Table.Statement (.setDescriptor r) := fun _ => ⟨Table.match_request _ _ _ _ rfl, rfl⟩
theorem Table.getConfiguration (r : Req) : Table.Statement (.getConfiguration r) := fun _ => ⟨Table.match_request _ _ _ _ rfl, rfl⟩
theorem Table.setConfiguration (r : Req) : Table.Statement (.setConfiguration r) := fun _ => ⟨Table.match_request _ _ _ _ rfl, rfl⟩
theorem Table.standardUnlisted (bRequest : Byte) (r : Req) : Table.Statement (.standardUnlisted bRequest r) := fun _ => ⟨Table.match_kind _ _ _ _ rfl, rfl⟩
theorem Table.classRequest (bRequest : Byte) (r : Req) : Table.Statement (.classRequest bRequest r) := fun _ => ⟨Table.match_kind _ _ _ _ rfl, rfl⟩
theorem Table.kindVendor (bRequest : Byte) (r : Req) : Table.Statement (.kindVendor bRequest r) := fun _ => ⟨Table.match_kind _ _ _ _ rfl, rfl⟩
theorem Table.kindReserved (bRequest : Byte) (r : Req) : Table.Statement (.kindReserved bRequest r) := fun _ => ⟨Table.match_kind _ _ _ _ rfl, rfl⟩
theorem Table.attach : Table.Statement (.attach) := fun _ =>
  ⟨Table.match_code 0x00 _ 0x00 (by decide), rfl⟩
theorem Table.send (ep : EpIdx) (rom release zero : Bool) (ptr len : Word16) : Table.Statement (.send ep rom release zero ptr len) := fun _ =>
  ⟨Table.match_code 0x01 _ 0x01 (by decide), rfl⟩
theorem Table.recv (ep : EpIdx) (flags : BitVec 3) (ptr len : Word16) : Table.Statement (.recv ep flags ptr len) := fun _ =>
  ⟨Table.match_code 0x02 _ 0x02 (by decide), rfl⟩
theorem Table.available (ep : EpIdx) (flags : BitVec 3) : Table.Statement (.available ep flags) := fun _ =>
  ⟨Table.match_code 0x03 _ 0x03 (by decide), rfl⟩
theorem Table.flush (ep : EpIdx) (flags : BitVec 3) : Table.Statement (.flush ep flags) := fun _ =>
  ⟨Table.match_code 0x04 _ 0x04 (by decide), rfl⟩
theorem Table.select (i : EpIdx) : Table.Statement (.select i) := fun _ =>
  ⟨Table.match_code 0x10 _ 0x10 (by decide), rfl⟩
theorem Table.testSetup : Table.Statement (.testSetup) := fun _ =>
  ⟨Table.match_code 0x11 _ 0x11 (by decide), rfl⟩
theorem Table.waitIn : Table.Statement (.waitIn) := fun _ =>
  ⟨Table.match_code 0x12 _ 0x12 (by decide), rfl⟩
theorem Table.waitOut : Table.Statement (.waitOut) := fun _ =>
  ⟨Table.match_code 0x13 _ 0x13 (by decide), rfl⟩
theorem Table.read8 : Table.Statement (.read8) := fun _ =>
  ⟨Table.match_code 0x14 _ 0x14 (by decide), rfl⟩
theorem Table.readN (n : Byte) : Table.Statement (.readN n) := fun _ =>
  ⟨Table.match_code 0x15 _ 0x15 (by decide), rfl⟩
theorem Table.write8 (b : Byte) : Table.Statement (.write8 b) := fun _ =>
  ⟨Table.match_code 0x16 _ 0x16 (by decide), rfl⟩
theorem Table.byteCount : Table.Statement (.byteCount) := fun _ =>
  ⟨Table.match_code 0x17 _ 0x17 (by decide), rfl⟩
theorem Table.rwAllowed : Table.Statement (.rwAllowed) := fun _ =>
  ⟨Table.match_code 0x18 _ 0x18 (by decide), rfl⟩
theorem Table.sendSpace (e : EpIdx) : Table.Statement (.sendSpace e) := fun _ =>
  ⟨Table.match_code 0x19 _ 0x19 (by decide), rfl⟩
theorem Table.stall : Table.Statement (.stall) := fun _ =>
  ⟨Table.match_code 0x1A _ 0x1A (by decide), rfl⟩
theorem Table.clearSetup : Table.Statement (.clearSetup) := fun _ =>
  ⟨Table.match_code 0x1B _ 0x1B (by decide), rfl⟩
theorem Table.ackIn : Table.Statement (.ackIn) := fun _ =>
  ⟨Table.match_code 0x1C _ 0x1C (by decide), rfl⟩
theorem Table.clearOut : Table.Statement (.clearOut) := fun _ =>
  ⟨Table.match_code 0x1D _ 0x1D (by decide), rfl⟩
theorem Table.releaseRx : Table.Statement (.releaseRx) := fun _ =>
  ⟨Table.match_code 0x1E _ 0x1E (by decide), rfl⟩
theorem Table.releaseTx : Table.Statement (.releaseTx) := fun _ =>
  ⟨Table.match_code 0x1F _ 0x1F (by decide), rfl⟩
theorem Table.initEp (e : EpIdx) (t : EpType) : Table.Statement (.initEp e t) := fun _ =>
  ⟨Table.match_code 0x20 _ 0x20 (by decide), rfl⟩
theorem Table.critEnter : Table.Statement (.critEnter) := fun _ =>
  ⟨Table.match_code 0x21 _ 0x21 (by decide), rfl⟩
theorem Table.critExit : Table.Statement (.critExit) := fun _ =>
  ⟨Table.match_code 0x22 _ 0x22 (by decide), rfl⟩
theorem Table.curInit (n : Word16) : Table.Statement (.curInit n) := fun _ =>
  ⟨Table.match_code 0x23 _ 0x23 (by decide), rfl⟩
theorem Table.emit8 (b : Byte) : Table.Statement (.emit8 b) := fun _ =>
  ⟨Table.match_code 0x24 _ 0x24 (by decide), rfl⟩
theorem Table.emitN (s : List Byte) : Table.Statement (.emitN s) := fun _ =>
  ⟨Table.match_code 0x25 _ 0x25 (by decide), rfl⟩
theorem Table.armTx : Table.Statement (.armTx) := fun _ =>
  ⟨Table.match_code 0x26 _ 0x26 (by decide), rfl⟩
theorem Table.armRx : Table.Statement (.armRx) := fun _ =>
  ⟨Table.match_code 0x27 _ 0x27 (by decide), rfl⟩
theorem Table.armOutStage : Table.Statement (.armOutStage) := fun _ =>
  ⟨Table.match_code 0x28 _ 0x28 (by decide), rfl⟩
theorem Table.evtSetupReceived : Table.Statement (.evtSetupReceived) := fun _ =>
  ⟨Table.match_code 0x30 _ 0x30 (by decide), rfl⟩
theorem Table.evtFrameTick : Table.Statement (.evtFrameTick) := fun _ =>
  ⟨Table.match_code 0x31 _ 0x31 (by decide), rfl⟩
theorem Table.evtBusReset : Table.Statement (.evtBusReset) := fun _ =>
  ⟨Table.match_code 0x32 _ 0x32 (by decide), rfl⟩
theorem Table.evtSpuriousComm : Table.Statement (.evtSpuriousComm) := fun _ =>
  ⟨Table.match_code 0x33 _ 0x33 (by decide), rfl⟩

end Sys2Proof.Laws
end

