-- ==== Sys2Proof/Laws/Sequencers.lean ====
section
/-! SUPPORT. What a step of each sequencer can do, and what it leaves alone. -/

namespace Sys2Proof.Machine

/-! ## Changes of endpoints -/

theorem write8Op_eps {b : Byte} {s t : State} (h : write8Op b s = .ok t) : ∃ v, t = { s with eps := v } := by
  revert h; simp only [write8Op]; repeat' split
  all_goals intro h; cases h
  exact ⟨_, rfl⟩

theorem writeBytes_eps {bs : List Byte} : ∀ {s t : State}, writeBytes bs s = .ok t → ∃ v, t = { s with eps := v } := by
  induction bs with
  | nil => intro s t h; cases h; exact ⟨s.eps, rfl⟩
  | cons b bs ih =>
    intro s t h
    simp only [writeBytes] at h
    cases hw : write8Op b s with
    | ok u =>
      rw [hw] at h
      obtain ⟨v, rfl⟩ := write8Op_eps hw
      obtain ⟨w, rfl⟩ := ih h
      exact ⟨w, rfl⟩
    | hold => rw [hw] at h; cases h
    | refused r => rw [hw] at h; cases h

theorem commitIn_eps (e : EpIdx) (s : State) : ∃ v g, commitIn e s = { s with eps := v, ghost.txlog := g } := by
  simp only [commitIn]; split
  · exact ⟨_, _, rfl⟩
  · exact ⟨s.eps, s.ghost.txlog, rfl⟩

theorem writeBytes_keepsBounds (bs : List Byte) : ∀ s : State, MicroOut.Keeps KeepsBounds s (writeBytes bs s) := by
  induction bs with
  | nil => exact fun s => MicroOut.keeps_ok (KeepsBounds.refl s)
  | cons b bs ih =>
    exact fun s => MicroOut.keeps_bind (R := KeepsBounds) KeepsBounds.trans (keepsBounds_write8Op b s) fun t _ => ih t

theorem critExit_bounds (s : State) : KeepsBounds s (critExit s) :=
  KeepsBounds.of_eps (by simp only [critExit, State.setCritCtx]; split <;> rfl)

/-- The critical section of a chunk changes endpoints and the transmit log, and nothing else (R246). -/
theorem chunkCrit_eps {e : EpIdx} {bs : List Byte} {last : Bool} {s t : State} (h : chunkCrit e bs last s = .ok t) :
    (∃ v g, t = { s with eps := v, ghost.txlog := g }) ∧ KeepsBounds s t := by
  simp only [chunkCrit, chunkSelected] at h
  cases hw : writeBytes bs ((critEnter s).setSel e) with
  | hold => rw [hw] at h; cases h
  | refused r => rw [hw] at h; cases h
  | ok u =>
    rw [hw] at h
    have hbw := writeBytes_keepsBounds bs _ u hw
    have h0 : KeepsBounds s ((critEnter s).setSel e) := KeepsBounds.of_eps (critEnter_eps s)
    obtain ⟨v, rfl⟩ := writeBytes_eps hw
    simp only [MicroOut.bind] at h
    cases h
    split
    · have hbc := keepsBounds_commitIn ({ (critEnter s).setSel e with eps := v } : State).sel
        { (critEnter s).setSel e with eps := v }
      obtain ⟨w, g, hc⟩ := commitIn_eps ({ (critEnter s).setSel e with eps := v } : State).sel
        { (critEnter s).setSel e with eps := v }
      rw [hc] at hbc ⊢
      refine ⟨⟨w, g, ?_⟩, ?_⟩
      · have := critExit_eps_ghost e w { ((critEnter s).setSel e).ghost with txlog := g } s
        refine this.trans ?_
        simp only [State.setSel, critEnter_ghost]
      · exact (h0.trans hbw).trans (hbc.trans (critExit_bounds _))
    · refine ⟨⟨v, s.ghost.txlog, critExit_eps e v s⟩, (h0.trans hbw).trans (critExit_bounds _)⟩

/-! ## The bulk engine -/

/-- `t` differs from `s` at most where the bulk engine writes. -/
structure BulkFrame (s t : State) : Prop where
  conf : t.conf = s.conf
  latch : t.latch = s.latch
  cursor : t.cursor = s.cursor
  dev : t.dev = s.dev
  sel : t.sel = s.sel
  irq : t.irq = s.irq
  crit : t.crit = s.crit
  power : t.power = s.power
  ct : t.ct = s.ct
  ft : t.ft = s.ft
  io : t.io = s.io
  rxSink : t.ghost.rxSink = s.ghost.rxSink
  calls : t.ghost.calls = s.ghost.calls
  port : t.port = { s.port with res := t.port.res }
  bounds : KeepsBounds s t

theorem EndpointOk.drain {e : EpIdx} {p : Endpoint} (h : EndpointOk e p) (n : Nat) : EndpointOk e (drained p n) := by
  simp only [drained]; split
  · exact (h.dropData _).release
  · exact h.dropData _

theorem bulkFrame_beStep {s t : State} (h : beStep s = .next t) : BulkFrame s t := by
  have plain : ∀ p g b r, BulkFrame s { s with pulse := p, ghost.bulkFail := g, be := b, port.res := r } := by
    intro p g b r; constructor <;> first | rfl | exact KeepsBounds.of_eps rfl
  simp only [beStep] at h
  split at h
  · cases h; exact plain _ _ _ _
  · cases h; simp only [sndLoop]; split <;> exact plain _ _ _ _
  · simp only [sndSpace, spaceCrit_eq] at h
    split at h
    · cases h
    · split at h <;> cases h <;> exact plain _ _ _ _
  · cases h; simp only [sndWait]; split <;> exact plain _ _ _ _
  · simp only [sndChunk] at h
    split at h
    · rename_i u hu
      cases h
      obtain ⟨⟨v, g, rfl⟩, hb⟩ := chunkCrit_eps hu
      constructor <;> first | rfl | exact hb
    · cases h; exact plain _ _ _ _
    · cases h
  · cases h; exact plain _ _ _ _
  · cases h; exact plain _ _ _ _
  · simp only [rcvCritStep, recvCrit_eq] at h
    split at h
    · cases h
    · cases h
      constructor <;> first | rfl | exact fun k => endpointsOk_setEp k ((k _).drain _)
  · cases h; simp only [rcvArm]; split <;> exact plain _ _ _ _

/-! ## The frame handler -/

/-- `t` differs from `s` at most where the frame handler writes. -/
structure TickFrame (s t : State) : Prop where
  conf : t.conf = s.conf
  latch : t.latch = s.latch
  cursor : t.cursor = s.cursor
  sel : t.sel = s.sel
  ie : t.irq.ie = s.irq.ie
  ienEor : t.irq.ienEor = s.irq.ienEor
  ienSof : t.irq.ienSof = s.irq.ienSof
  spurComm : t.irq.spurComm = s.irq.spurComm
  crit : t.crit = s.crit
  power : t.power = s.power
  ct : t.ct = s.ct
  be : t.be = s.be
  port : t.port = s.port
  buf : t.buf = s.buf
  io : t.io = s.io
  composite : t.dev.composite = s.dev.composite
  addr : t.dev.addr = s.dev.addr
  addrEn : t.dev.addrEn = s.dev.addrEn
  calls : t.ghost.calls = s.ghost.calls
  bulkFail : t.ghost.bulkFail = s.ghost.bulkFail
  bounds : KeepsBounds s t

theorem flushCrit_eps (e : EpIdx) (s : State) :
    (∃ v g, flushCrit e s = { s with eps := v, ghost.txlog := g }) ∧ KeepsBounds s (flushCrit e s) := by
  rw [flushCrit_eq]; split
  · exact ⟨commitIn_eps e s, keepsBounds_commitIn e s⟩
  · exact ⟨⟨s.eps, s.ghost.txlog, rfl⟩, id⟩

theorem tickFrame_ftStep {s t : State} (h : ftStep s = .next t) : TickFrame s t := by
  simp only [ftStep] at h
  split at h
  · cases h; constructor <;> first | rfl | exact KeepsBounds.of_eps rfl
  · cases h; constructor <;> first | rfl | exact KeepsBounds.of_eps rfl
  · cases h
    simp only [frameReset]; split
    · constructor <;> first | rfl | exact keepsBounds_initEndpoint 0 .control s
    · constructor <;> first | rfl | exact KeepsBounds.of_eps rfl
  · simp only [tickFlush] at h
    split at h
    · cases h; constructor <;> first | rfl | exact KeepsBounds.of_eps rfl
    · rename_i tx _ _
      repeat' split at h
      · cases h
      · cases h
      · cases h
        obtain ⟨⟨v, g, hv⟩, hb⟩ := flushCrit_eps tx s
        rw [hv] at hb ⊢
        constructor <;> first | rfl | exact hb
  · simp only [tickPull] at h
    split at h
    · cases h; constructor <;> first | rfl | exact KeepsBounds.of_eps rfl
    · rename_i rx _
      simp only [countCrit_eq, recvCrit_eq] at h
      repeat' split at h
      · cases h
      · cases h
      · cases h; constructor <;> first | rfl | exact KeepsBounds.of_eps rfl
      · cases h; constructor <;> first | rfl | exact KeepsBounds.of_eps rfl
      · cases h
      · cases h
        constructor <;> first | rfl | exact fun k => endpointsOk_setEp k ((k _).drain _)
  · cases h; constructor <;> first | rfl | exact KeepsBounds.of_eps rfl
  · cases h; constructor <;> first | rfl | exact KeepsBounds.of_eps rfl

/-! ## The control handler -/

/-- `t` differs from `s` at most where the control handler writes. -/
structure ControlFrame (s t : State) : Prop where
  conf : t.conf = s.conf
  pulse : t.pulse = s.pulse
  irq : t.irq = { s.irq with inIsr := t.irq.inIsr }
  crit : t.crit = s.crit
  power : t.power = s.power
  ft : t.ft = s.ft
  be : t.be = s.be
  port : t.port = s.port
  buf : t.buf = s.buf
  rxSink : t.ghost.rxSink = s.ghost.rxSink
  bulkFail : t.ghost.bulkFail = s.ghost.bulkFail
  inputs : t.io.inputs = s.io.inputs
  held : t.io.held = s.io.held
  mainWait : t.io.mainWait = s.io.mainWait
  /-- the handler leaves IDLE and the return alone: it is at IDLE after the return and before its entry only -/
  point : (s.ct.pc = .idle ∧ t = s) ∨ (s.ct.pc = .exit ∧ t.ct.pc = .idle ∧ t.irq.inIsr = false) ∨
    (t.ct.pc ≠ .idle ∧ t.irq.inIsr = s.irq.inIsr)
  bounds : KeepsBounds s t

theorem RequestFrame.control {s t : State} (h : RequestFrame s t) : ControlFrame s t where
  conf := h.conf
  pulse := h.pulse
  irq := by rw [h.irq]
  crit := h.crit
  power := h.power
  ft := h.ft
  be := h.be
  port := h.port
  buf := h.buf
  rxSink := h.rxSink
  bulkFail := h.bulkFail
  inputs := h.inputs
  held := h.held
  mainWait := h.mainWait
  point := .inr (.inr ⟨by rcases h.point with h | h | h | h <;> simp [h], by rw [h.irq]⟩)
  bounds := h.bounds

/-- A part of the handler that only runs micro-operations and moves on. -/
theorem controlFrame_outside {s t : State} (p : CtPoint) (hp : p ≠ .idle) (h : Outside s t) (k : KeepsBounds s t) :
    ControlFrame s { t with ct.pc := p } where
  conf := h.conf
  pulse := h.pulse
  irq := by simp only [h.irq]
  crit := h.crit
  power := h.power
  ft := h.ft
  be := h.be
  port := h.port
  buf := h.buf
  rxSink := h.rxSink
  bulkFail := h.bulkFail
  inputs := h.inputs
  held := h.held
  mainWait := h.mainWait
  point := .inr (.inr ⟨hp, by rw [show ({ t with ct.pc := p } : State).irq = t.irq from rfl, h.irq]⟩)
  bounds := k

theorem clearSetupOp_cases {s t : State} (h : clearSetupOp s = .ok t) :
    t = s.setEp s.sel { s.cur with setup := false, outRdy := false } := by
  revert h; simp only [clearSetupOp]; split
  · intro h; cases h
  · intro h; cases h; rfl

/-- S2. -/
theorem controlFrame_ctParse {s t : State} (h : ctParse s = .next t) : ControlFrame s t := by
  simp only [ctParse] at h
  have ho := outside_popBytes Config.setupLen s
  have hb := keepsBounds_popBytes Config.setupLen s
  revert h ho hb
  generalize popBytes Config.setupLen s = r
  intro h ho hb
  split at h
  · cases h
  · split at h
    · rename_i u hu
      cases h
      rw [clearSetupOp_cases hu]
      refine { conf := ho.conf, pulse := ho.pulse, irq := ?_, crit := ho.crit, power := ho.power, ft := ho.ft,
               be := ho.be, port := ho.port, buf := ho.buf, rxSink := ho.rxSink, bulkFail := ho.bulkFail,
               inputs := ho.inputs, held := ho.held, mainWait := ho.mainWait, point := ?_, bounds := ?_ }
      · show r.2.irq = { s.irq with inIsr := r.2.irq.inIsr }
        rw [ho.irq]
      · refine .inr (.inr ⟨by simp, ?_⟩)
        show r.2.irq.inIsr = _
        rw [ho.irq]
      · intro k
        exact (KeepsBounds.of_eps rfl) (endpointsOk_setEp (hb k) (hb k _).clearSetup)
    · rename_i hh; simp only [clearSetupOp] at hh; split at hh <;> cases hh
    · cases h

theorem controlFrame_ctStep {s t : State} (h : ctStep s = .next t) : ControlFrame s t := by
  have wait : ∀ {t}, ctWaitIn s = .next t → ControlFrame s t := by
    intro t h
    simp only [ctWaitIn] at h
    split at h
    · cases h; rename_i u hu; rw [waitInOp_eq hu]
      exact controlFrame_outside _ (by simp) (Outside.refl s) id
    · cases h; exact controlFrame_outside _ (by simp) (Outside.refl s) id
    · cases h
  have run : runRequest s.ct.todo s.ct.result s = .next t → ControlFrame s t :=
    fun h => (requestFrame_run h (requestFrame_start (StartOf.refl s))).control
  have ack : ∀ {t p}, p ≠ .idle → (match ackInOp s with
      | .ok s1 => (.next { s1 with ct.pc := p } : Out)
      | .hold => .next s
      | .refused r => .refused r) = .next t → ControlFrame s t := by
    intro t p hp h
    split at h
    · cases h; exact controlFrame_outside _ hp (outside_ackInOp s _ ‹_›) (keepsBounds_ackInOp s _ ‹_›)
    · rename_i hh; simp only [ackInOp] at hh; split at hh <;> cases hh
    · cases h
  rw [ctStep] at h
  split at h
  · rename_i hpc; cases h
    constructor <;> first | rfl | exact .inl ⟨hpc, rfl⟩ | exact id
  · cases h
    simp only [ctSelect]
    exact controlFrame_outside _ (by split <;> simp) (outside_setSel s 0) (KeepsBounds.of_eps rfl)
  · exact controlFrame_ctParse h
  · simp only [withLatch] at h; split at h
    · simp only [ctArm] at h; split at h
      · exact wait h
      · exact ack (by simp) h
    · cases h
  · exact wait h
  · simp only [withLatch] at h; split at h
    · exact (requestFrame_exec (format_decodeSetup _) h).control
    · cases h
  · exact run h
  · exact run h
  · exact run h
  · simp only [ctComplete] at h
    split at h
    · exact ack (by simp) h
    · cases h
      exact controlFrame_outside _ (by simp) (outside_setEp s _ _) fun k => endpointsOk_setEp k (k _).stalled
  · rename_i hpc; cases h
    constructor <;> first | rfl | exact .inr (.inl ⟨hpc, rfl, rfl⟩) | exact KeepsBounds.of_eps rfl

/-! ## Commands -/

/-- `t` differs from `s` at most where the issue of a command writes; a command is issued only while none is being
served (R56). -/
structure CommandFrame (s t : State) : Prop where
  idle : s.be.pc = .idle ∧ s.power.pc = .idle
  conf : t.conf = s.conf
  latch : t.latch = s.latch
  cursor : t.cursor = s.cursor
  dev : t.dev = s.dev
  pulse : t.pulse = s.pulse
  sel : t.sel = s.sel
  irq : t.irq = s.irq
  crit : t.crit = s.crit
  power : t.power = s.power ∨ s.power.pwr = false ∧ t.power = { s.power with pwr := true, pc := .a2 } ∧ t.be = s.be
  ct : t.ct = s.ct
  ft : t.ft = s.ft
  buf : t.buf = s.buf
  rxSink : t.ghost.rxSink = s.ghost.rxSink
  calls : t.ghost.calls = s.ghost.calls
  io : t.io = s.io
  bounds : KeepsBounds s t

theorem not_busy {s : State} (h : ¬ busy s = true) : s.be.pc = .idle ∧ s.power.pc = .idle := by
  simpa [busy] using h

theorem commandFrame_exec {i : Instr} {s t : State} (hf : i.format = .cmd) (h : exec i s = .next t) :
    CommandFrame s t := by
  have plain : ∀ (u : State), ¬ busy s = true →
      (∃ b p g, u = { s with be := b, port := p, ghost.bulkFail := g }) → CommandFrame s u := by
    rintro u hb ⟨b, p, g, rfl⟩
    constructor <;> first | rfl | exact not_busy hb | exact .inl rfl | exact KeepsBounds.of_eps rfl
  cases i <;> simp only [Instr.format, reduceCtorEq] at hf <;> simp only [exec] at h
  case attach =>
    simp only [execAttach] at h; repeat' split at h
    · cases h
    · cases h
    · rename_i hb hp
      cases h
      constructor <;> first
        | rfl
        | exact not_busy hb
        | exact .inr ⟨by simpa using hp, rfl, rfl⟩
        | exact KeepsBounds.of_eps rfl
  case send =>
    simp only [execSend] at h; repeat' split at h
    all_goals cases h
    all_goals exact plain _ ‹_› ⟨_, _, _, rfl⟩
  case recv =>
    simp only [execRecv] at h; repeat' split at h
    all_goals cases h
    all_goals exact plain _ ‹_› ⟨_, _, _, rfl⟩
  case available e f =>
    simp only [execAvailable, countCrit_eq] at h; repeat' split at h
    all_goals cases h
    all_goals exact plain _ ‹_› ⟨_, _, _, rfl⟩
  case flush e f =>
    simp only [execFlush] at h; repeat' split at h
    all_goals cases h
    rename_i hb _ _ _
    obtain ⟨⟨v, g, hv⟩, hk⟩ := flushCrit_eps e { s with port.op := 0x04, port.epf := epfOf e f }
    rw [hv] at hk ⊢
    constructor <;> first | rfl | exact not_busy hb | exact .inl rfl | exact hk

/-! ## The environment -/

/-- `t` differs from `s` at most where the environment writes. -/
structure EnvFrame (s t : State) : Prop where
  conf : t.conf = s.conf
  latch : t.latch = s.latch
  cursor : t.cursor = s.cursor
  pulse : t.pulse = s.pulse
  sel : t.sel = s.sel
  irq : t.irq = { s.irq with pendEor := t.irq.pendEor, pendSof := t.irq.pendSof, spurComm := t.irq.spurComm }
  crit : t.crit = s.crit
  power : t.power = s.power ∨ s.power.pllEn = true ∧ t.power = { s.power with pllLock := true }
  ct : t.ct = s.ct
  ft : t.ft = s.ft
  be : t.be = s.be
  port : t.port = s.port
  buf : t.buf = s.buf
  ghost : t.ghost = s.ghost
  io : t.io = s.io
  cfg : t.dev.cfg = s.dev.cfg
  composite : t.dev.composite = s.dev.composite
  bounds : KeepsBounds s t

theorem EndpointOk.setupReceived {p : Endpoint} (h : EndpointOk 0 p) (he : p.en = true) (bs : List Byte)
    (hl : bs.length ≤ Config.epSize) :
    EndpointOk 0 { p with data := bs, setup := true, inQ := [], inRdy := true, outQ := [], stall := false } := by
  have hk := h.kind_of_en he
  have hc : p.kind = .control := (h.zeroKind rfl).resolve_right hk
  exact { dataBound := hl, inBound := by simp, outBound := by simp, inPackets := by simp, outPackets := by simp,
          freeBank := by simp [banks, Config.ep0Banks], setupZero := by simp, zeroKind := fun _ => .inl hc,
          enabled := h.enabled, disabledEmpty := fun x => absurd x hk, noIn := by simp [hc, inCapable],
          noOut := by simp [hc, outCapable] }

theorem EndpointOk.inTaken {e : EpIdx} {p : Endpoint} (h : EndpointOk e p) (q : Packet) (qs : List Packet)
    (hq : p.inQ = q :: qs) : EndpointOk e { p with inQ := qs, inRdy := true } := by
  have hb := h.inBound
  have hp := h.inPackets
  rw [hq] at hb hp
  exact { h with
    inBound := by simp at hb ⊢; omega
    inPackets := fun r hr => hp r (by simp [hr])
    freeBank := fun _ => by simp at hb ⊢; omega
    disabledEmpty := fun x => by have := (h.disabledEmpty x).2.2.2.2.1; simp [hq] at this
    noIn := fun x => by have := (h.noIn x).2; simp [hq] at this }

theorem envFrame_envMove {m : EnvMove} {s t : State} (h : envMove m s = .next t) : EnvFrame s t := by
  have plain : ∀ (u : State), (∃ v, u = { s with eps := v }) → KeepsBounds s u → EnvFrame s u := by
    rintro u ⟨v, rfl⟩ hk
    constructor <;> first | rfl | exact .inl rfl | exact hk
  cases m <;> simp only [envMove] at h
  case setup p =>
    simp only [envSetup] at h; repeat' split at h
    · cases h; exact plain _ ⟨_, rfl⟩ id
    · cases h
    · rename_i hen _
      cases h
      exact plain _ ⟨_, rfl⟩ fun k =>
        endpointsOk_setEp k ((k 0).setupReceived (by simpa using hen) _ (by simp [SetupPacket.bytes, Config.epSize]))
  case inTaken e =>
    cases h; simp only [envInTaken]; split
    · exact plain _ ⟨_, rfl⟩ id
    · exact plain _ ⟨_, rfl⟩ fun k => endpointsOk_setEp k ((k e).inTaken _ _ ‹_›)
  case out e p =>
    cases h
    refine plain _ ?_ (keepsBounds_envOut e p s)
    simp only [envOut]; repeat' split
    · exact ⟨s.eps, rfl⟩
    · exact ⟨_, rfl⟩
    · exact ⟨_, rfl⟩
  case eor =>
    simp only [envEor] at h; repeat' split at h
    · cases h; exact plain _ ⟨_, rfl⟩ id
    · cases h
    · cases h
      have hk := keepsBounds_clearEndpoints s
      obtain ⟨v, hv⟩ : ∃ v, clearEndpoints s = { s with eps := v } := ⟨_, clearEndpoints_eq s⟩
      rw [hv] at hk ⊢
      constructor <;> first | rfl | exact .inl rfl | exact hk
  case sof =>
    cases h; simp only [envSof]; split
    · constructor <;> first | rfl | exact .inl rfl | exact KeepsBounds.of_eps rfl
    · exact plain _ ⟨_, rfl⟩ id
  case pllLock =>
    cases h; simp only [envPllLock]; split
    · constructor <;> first | rfl | exact .inr ⟨‹_›, rfl⟩ | exact KeepsBounds.of_eps rfl
    · exact plain _ ⟨_, rfl⟩ id
  case spur =>
    cases h; constructor <;> first | rfl | exact .inl rfl | exact KeepsBounds.of_eps rfl

end Sys2Proof.Machine
end

