-- ==== Sys2Proof/Laws/Step.lean ====
section
/-! SUPPORT. What a step can do, said once: the schedule's entry, then the agent of the block that moves. -/

namespace Sys2Proof.Machine

/-- What a step of the block can do: a handler's held micro-operations go on; an agent stands still at a wait; the
running handler moves; an interrupt is delivered; the mainline's sequencer moves, or its wait ends. -/
theorem blockStep_cases {d : Bool} {s t : State} (h : blockStep d s = .next t) :
    (∃ u, runMicros s.io.held s = .finished u ∧ s.io.held ≠ [] ∧ t = { u with io.held := [] }) ∨
    (∃ rest u, runMicros s.io.held s = .held rest u ∧ s.io.held ≠ [] ∧ t = { u with io.held := rest }) ∨
    t = s ∨
    (s.irq.inIsr = true ∧ s.io.held = [] ∧ s.ct.pc ≠ .idle ∧ ctStep s = .next t) ∨
    (s.irq.inIsr = true ∧ s.io.held = [] ∧ s.ct.pc = .idle ∧ ftStep s = .next t) ∨
    (s.irq.inIsr = false ∧ ∃ src n, s.irq.ie = true ∧ irqReq src s = true ∧
      t = enterHandler src { s with io.draws := n }) ∨
    (s.irq.inIsr = false ∧ s.io.mainWait ≠ none ∧ t = { s with io.mainWait := none }) ∨
    (s.irq.inIsr = false ∧ s.io.mainWait = none ∧ s.be.pc ≠ .idle ∧ beStep s = .next t) ∨
    (s.irq.inIsr = false ∧ s.io.mainWait = none ∧ s.be.pc = .idle ∧ t = atStep s) := by
  rw [blockStep] at h
  split at h
  · rename_i out ho
    subst h
    simp only [heldStep] at ho
    split at ho
    · cases ho
    · rename_i m ms hm
      split at ho
      · cases ho; exact .inl ⟨_, by rw [hm]; assumption, by simp [hm], rfl⟩
      · split at ho
        · cases ho; exact .inr (.inl ⟨_, _, by rw [hm]; assumption, by simp [hm], rfl⟩)
        · cases ho
      · cases ho
  · cases hi : s.irq.inIsr with
    | true =>
      simp only [hi, if_true, isrStep] at h
      split at h
      · rename_i hh
        split at h
        · exact .inr (.inr (.inr (.inl ⟨rfl, hh, ‹_›, h⟩)))
        · exact .inr (.inr (.inr (.inr (.inl ⟨rfl, hh, Decidable.not_not.1 ‹_›, h⟩))))
      · cases h; exact .inr (.inr (.inl rfl))
    | false =>
      simp only [hi, Bool.false_eq_true, if_false] at h
      have hmain : mainStep s = .next t → t = s ∨ (s.io.mainWait ≠ none ∧ t = { s with io.mainWait := none }) ∨
          (s.io.mainWait = none ∧ s.be.pc ≠ .idle ∧ beStep s = .next t) ∨
          (s.io.mainWait = none ∧ s.be.pc = .idle ∧ t = atStep s) := by
        simp only [mainStep]; split
        · intro h
          rcases resumeWait_cases h with h | h
          · exact .inl h
          · exact .inr (.inl ⟨by simp [*], h⟩)
        · split
          · exact fun h => .inr (.inr (.inl ⟨‹_›, ‹_›, h⟩))
          · intro h; cases h; exact .inr (.inr (.inr ⟨‹_›, Decidable.not_not.1 ‹_›, rfl⟩))
      have rest : mainStep s = .next t → t = s ∨
          (false = false ∧ s.io.mainWait ≠ none ∧ t = { s with io.mainWait := none }) ∨
          (false = false ∧ s.io.mainWait = none ∧ s.be.pc ≠ .idle ∧ beStep s = .next t) ∨
          (false = false ∧ s.io.mainWait = none ∧ s.be.pc = .idle ∧ t = atStep s) := fun h =>
        (hmain h).imp_right (Or.imp (⟨rfl, ·⟩) (Or.imp (⟨rfl, ·⟩) (⟨rfl, ·⟩)))
      cases d with
      | false =>
        simp only [Bool.false_eq_true, if_false] at h
        exact (rest h).elim (fun h => .inr (.inr (.inl h))) fun h => .inr (.inr (.inr (.inr (.inr (.inr h)))))
      | true =>
        simp only [if_true] at h
        split at h
        · rename_i src s1 hp
          cases h
          refine .inr (.inr (.inr (.inr (.inr (.inl ⟨rfl, src, ?_⟩)))))
          simp only [pickIrq] at hp
          split at hp
          · rename_i hc
            have hie : s.irq.ie = true := by simp [canDeliver] at hc; exact hc.1
            have hself : ∀ x, enterHandler x s = enterHandler x { s with io.draws := s.io.draws } := fun _ => rfl
            split at hp
            · cases hp
            · cases hp; exact ⟨s.io.draws, hie, by simpa [irqReq], rfl⟩
            · cases hp; exact ⟨s.io.draws, hie, by simpa [irqReq], rfl⟩
            · split at hp
              · cases hp; exact ⟨s.io.draws, hie, by simpa [irqReq], rfl⟩
              · cases hp; exact ⟨s.io.draws, hie, by simpa [irqReq], rfl⟩
              · cases hp
                refine ⟨s.io.draws + 1, hie, ?_, rfl⟩
                split <;> simpa [irqReq]
          · cases hp
        · exact (rest h).elim (fun h => .inr (.inr (.inl h))) fun h => .inr (.inr (.inr (.inr (.inr (.inr h)))))

/-- A code below 5 is a command (R122). -/
theorem format_decodeCode {code : Byte} {bs rest : List Byte} {i : Instr} (hc : code.toNat < 5)
    (h : decodeCode code bs = .ok (i, rest)) : i.format = .cmd := by
  revert h
  simp only [decodeCode, operandEpf, operand16, operand]
  split
  · intro h; cases h; rfl
  all_goals first
    | omega
    | (repeat' split) <;> intro h <;> cases h <;> rfl

/-- An operation issued by a word of the schedule, or by the command port (R56): what its format asks of the state. -/
structure Issued (i : Instr) (rest : List Input) (s : State) : Prop where
  notSetup : i.format ≠ .setup8
  command : i.format = .cmd → s.irq.inIsr = false
  operation : i.format = .uop → ¬ issuerHeld s ∧ issueAllowed i s = true
  word : i.format ≠ .cmd → ∃ bs tail, s.io.inputs = .word bs :: rest ∧ decodeWord bs = .ok (i, tail)

/-- What a step can do. -/
theorem step_cases {s t : State} (h : step s = .next t) : ∃ rest,
    (∃ d, blockStep d { s with io.inputs := rest } = .next t) ∨
    (∃ m, s.io.inputs = .env m :: rest ∧ envMove m { s with io.inputs := rest } = .next t) ∨
    (∃ i, Issued i rest s ∧ exec i { s with io.inputs := rest } = .next t) ∨
    (s.irq.inIsr = false ∧
      ((∃ v, t = { s with io.inputs := rest, irq.ie := v }) ∨
       (∃ a b, t = { s with io.inputs := rest, buf := s.buf.write a b }) ∨
       (∃ r, t = { s with io.inputs := rest, io.ret := r }) ∨
       (busy s = false ∧ ∃ e p l, t = { s with io.inputs := rest, port.epf := e, port.ptr := p, port.len := l }))) := by
  have hword : ∀ bs rest, issueWord bs rest s = .next t →
      (s.io.inputs = .word bs :: rest ∨ ∀ i tail, decodeWord bs = .ok (i, tail) → i.format = .cmd) →
      (∃ d, blockStep d s = .next t) ∨
      (∃ i, Issued i rest s ∧ exec i { s with io.inputs := rest } = .next t) := by
    intro bs rest h hin
    simp only [issueWord] at h
    split at h
    · cases h
    · rename_i i r hd
      have hw : i.format ≠ .cmd → ∃ bs tail, s.io.inputs = .word bs :: rest ∧ decodeWord bs = .ok (i, tail) :=
        fun hf => ⟨bs, r, hin.resolve_right fun k => hf (k i r hd), hd⟩
      simp only [issueDecoded] at h
      cases hf : i.format with
      | setup8 => simp [hf] at h
      | cmd =>
        simp only [hf] at h
        split at h
        · exact .inl ⟨false, h⟩
        · exact .inr ⟨i, ⟨by simp [hf], fun _ => Bool.eq_false_iff.2 ‹_›, by simp [hf], hw⟩, h⟩
      | uop =>
        simp only [hf] at h
        split at h
        · exact .inl ⟨true, h⟩
        · split at h
          · exact .inr ⟨i, ⟨by simp [hf], by simp [hf], fun _ => ⟨‹_›, ‹_›⟩, hw⟩, h⟩
          · cases h
      | evt => simp only [hf] at h; exact .inr ⟨i, ⟨by simp [hf], by simp [hf], by simp [hf], hw⟩, h⟩
  rw [step, advance] at h
  split at h
  · exact ⟨s.io.inputs, .inl ⟨true, h⟩⟩
  · exact ⟨_, .inr (.inl ⟨_, ‹_›, h⟩)⟩
  · exact ⟨_, .inl ⟨false, h⟩⟩
  · rename_i bs rest hin
    rcases hword bs rest h (.inl hin) with hb | hb
    · exact ⟨s.io.inputs, .inl hb⟩
    · exact ⟨rest, .inr (.inr (.inl hb))⟩
  · simp only [whenMainline] at h
    split at h
    · exact ⟨s.io.inputs, .inl ⟨false, h⟩⟩
    · cases h; exact ⟨_, .inr (.inr (.inr ⟨Bool.eq_false_iff.2 ‹_›, .inl ⟨_, rfl⟩⟩))⟩
  · simp only [whenMainline] at h
    split at h
    · exact ⟨s.io.inputs, .inl ⟨false, h⟩⟩
    · cases h; exact ⟨_, .inr (.inr (.inr ⟨Bool.eq_false_iff.2 ‹_›, .inr (.inl ⟨_, _, rfl⟩)⟩))⟩
  · simp only [whenMainline] at h
    split at h
    · exact ⟨s.io.inputs, .inl ⟨false, h⟩⟩
    · simp only [peek] at h
      split at h
      · split at h
        · cases h; exact ⟨_, .inr (.inr (.inr ⟨Bool.eq_false_iff.2 ‹_›, .inr (.inr (.inl ⟨_, rfl⟩))⟩))⟩
        · cases h
      · cases h
  · rename_i n v rest hin
    split at h
    · exact ⟨s.io.inputs, .inl ⟨false, h⟩⟩
    · have hi : s.irq.inIsr = false := Bool.eq_false_iff.2 ‹_›
      simp only [mainlineWrite] at h
      split at h
      · split at h
        · rename_i hlt
          rcases hword _ rest h (.inr fun i tail hd => format_decodeCode hlt hd) with hb | hb
          · exact ⟨s.io.inputs, .inl hb⟩
          · exact ⟨rest, .inr (.inr (.inl hb))⟩
        · cases h
      · split at h
        · cases h
        · cases h; exact ⟨rest, .inr (.inr (.inr ⟨hi, .inr (.inr (.inr ⟨Bool.eq_false_iff.2 ‹_›, _, _, _, rfl⟩))⟩))⟩
      · split at h
        · cases h
        · cases h; exact ⟨rest, .inr (.inr (.inr ⟨hi, .inr (.inr (.inr ⟨Bool.eq_false_iff.2 ‹_›, _, _, _, rfl⟩))⟩))⟩
      · split at h
        · cases h
        · cases h; exact ⟨rest, .inr (.inr (.inr ⟨hi, .inr (.inr (.inr ⟨Bool.eq_false_iff.2 ‹_›, _, _, _, rfl⟩))⟩))⟩
      · cases h

end Sys2Proof.Machine
end

