-- ==== Sys2Proof/Laws/StepFrames.lean ====
section
/-! SUPPORT. What a step can do, with the frame of the agent that moves: an invariant of every step is one short
case for each constructor. -/

namespace Sys2Proof.Machine

/-- `s` with the entry of the schedule used up. -/
abbrev State.afterEntry (s : State) (rest : List Input) : State := { s with io.inputs := rest }

/-- A step from `s` to `t` that leaves the schedule `rest`, by the agent that moves. -/
inductive StepCase (s : State) (rest : List Input) (t : State) : Prop
  /-- a handler's held micro-operations go on -/
  | held (u : State) (more : List Micro) (isHeld : s.io.held ≠ [])
      (run : runMicros s.io.held (s.afterEntry rest) = .finished u ∧ more = [] ∨
        runMicros s.io.held (s.afterEntry rest) = .held more u)
      (frame : Outside (s.afterEntry rest) u) (bounds : KeepsBounds (s.afterEntry rest) u)
      (eq : t = { u with io.held := more })
  /-- an agent stands still at a wait, or an event that cannot be delivered -/
  | stays (eq : t = s.afterEntry rest)
  | control (isr : s.irq.inIsr = true) (free : s.io.held = []) (runs : s.ct.pc ≠ .idle)
      (move : ctStep (s.afterEntry rest) = .next t) (frame : ControlFrame (s.afterEntry rest) t)
  | tick (isr : s.irq.inIsr = true) (free : s.io.held = []) (other : s.ct.pc = .idle)
      (move : ftStep (s.afterEntry rest) = .next t) (frame : TickFrame (s.afterEntry rest) t)
  | entry (src : IrqSource) (n : Nat) (noIsr : s.irq.inIsr = false) (enabled : s.irq.ie = true)
      (request : irqReq src s = true) (eq : t = enterHandler src { s.afterEntry rest with io.draws := n })
  /-- the wait of the mainline's sequencer ends -/
  | waited (noIsr : s.irq.inIsr = false) (isWaiting : s.io.mainWait ≠ none)
      (eq : t = { s.afterEntry rest with io.mainWait := none })
  | bulk (noIsr : s.irq.inIsr = false) (noWait : s.io.mainWait = none) (runs : s.be.pc ≠ .idle) (move : beStep (s.afterEntry rest) = .next t)
      (frame : BulkFrame (s.afterEntry rest) t)
  | attach (noIsr : s.irq.inIsr = false) (noWait : s.io.mainWait = none) (other : s.be.pc = .idle) (eq : t = atStep (s.afterEntry rest))
  | env (m : EnvMove) (entry : s.io.inputs = .env m :: rest) (move : envMove m (s.afterEntry rest) = .next t)
      (frame : EnvFrame (s.afterEntry rest) t)
  | operation (i : Instr) (kind : i.format = .uop) (free : ¬ issuerHeld s) (allowed : issueAllowed i s = true)
      (word : ∃ bs tail, s.io.inputs = .word bs :: rest ∧ decodeWord bs = .ok (i, tail))
      (move : exec i (s.afterEntry rest) = .next t) (frame : UopFrame (s.afterEntry rest) t)
  | command (i : Instr) (kind : i.format = .cmd) (noIsr : s.irq.inIsr = false)
      (move : exec i (s.afterEntry rest) = .next t) (frame : CommandFrame (s.afterEntry rest) t)
  | enable (noIsr : s.irq.inIsr = false) (v : Bool) (eq : t = { s.afterEntry rest with irq.ie := v })
  | store (noIsr : s.irq.inIsr = false) (a : Nat) (b : Byte)
      (eq : t = { s.afterEntry rest with buf := s.buf.write a b })
  | peek (noIsr : s.irq.inIsr = false) (r : Ret) (eq : t = { s.afterEntry rest with io.ret := r })
  | port (noIsr : s.irq.inIsr = false) (notBusy : busy s = false) (e : Byte) (p l : Word16)
      (eq : t = { s.afterEntry rest with port.epf := e, port.ptr := p, port.len := l })

theorem step_frames {s t : State} (h : step s = .next t) : ∃ rest, StepCase s rest t := by
  obtain ⟨rest, h⟩ := step_cases h
  refine ⟨rest, ?_⟩
  rcases h with ⟨d, h⟩ | ⟨m, hin, h⟩ | ⟨i, hi, h⟩ | ⟨hi, ⟨v, h⟩ | ⟨a, b, h⟩ | ⟨r, h⟩ | ⟨hb, e, p, l, h⟩⟩
  · rcases blockStep_cases h with ⟨u, hr, h1, h⟩ | ⟨r, u, hr, h1, h⟩ | h | ⟨a, b, c, h⟩ | ⟨a, b, c, h⟩ |
      ⟨a, src, n, b, c, h⟩ | ⟨a, b, h⟩ | ⟨a, b, c, h⟩ | ⟨a, b, c, h⟩
    · exact .held u [] h1 (.inl ⟨hr, rfl⟩) ((outside_runMicros _ _).1 u hr) ((keepsBounds_runMicros _ _).1 u hr) h
    · exact .held u r h1 (.inr hr) ((outside_runMicros _ _).2 r u hr) ((keepsBounds_runMicros _ _).2 r u hr) h
    · exact .stays h
    · exact .control a b c h (controlFrame_ctStep h)
    · exact .tick a b c h (tickFrame_ftStep h)
    · exact .entry src n a b (by cases src <;> exact c) h
    · exact .waited a b h
    · exact .bulk a b c h (bulkFrame_beStep h)
    · exact .attach a b c h
  · exact .env m hin h (envFrame_envMove h)
  · cases hf : i.format with
    | setup8 => exact absurd hf hi.notSetup
    | cmd => exact .command i hf (hi.command hf) h (commandFrame_exec hf h)
    | uop =>
      exact .operation i hf (hi.operation hf).1 (hi.operation hf).2 (hi.word (by simp [hf])) h (uopFrame_exec hf h)
    | evt =>
      rcases exec_evt_cases hf h with h | ⟨src, a, b, c, h⟩
      · exact .stays h
      · exact .entry src s.io.draws b a (by cases src <;> exact c) h
  · exact .enable hi v h
  · exact .store hi a b h
  · exact .peek hi r h
  · exact .port hi hb e p l h

end Sys2Proof.Machine
end

