-- ==== Sys2Proof/Tests/Slice0.lean ====
section
/-! SUPPORT. Tests: the checks of WellFormed on ill-formed terms, words written out from the encodings of
30_encoding.md, one step each from the vectors of 95_test_vectors.md, and a witness for the hypotheses of every
statement. Expected values are the spec's; V-… names the vector. -/

namespace Sys2Proof.Tests

open Sys2Proof Sys2Proof.Machine

/-! ## Helpers -/

/-- The outcome is a next state with property `p`. -/
def holds (o : Out) (p : State → Bool) : Bool :=
  match o with
  | .next s => p s
  | .fault _ => false
  | .refused _ => false

/-- The outcome is the refusal `r`. -/
def stops (o : Out) (r : Refusal) : Bool :=
  match o with
  | .next _ => false
  | .fault _ => false
  | .refused x => x == r

theorem holds_iff (o : Out) (p : State → Bool) : holds o p = true ↔ ∃ t, o = .next t ∧ p t = true := by
  cases o <;> simp [holds]

/-- The word is the whole encoding of `i`. -/
def reads (bs : List Byte) (i : Instr) : Bool :=
  match decodeWord bs with
  | .ok (j, []) => j == i
  | .ok (_, _ :: _) => false
  | .error _ => false

/-- CONF-S of 95_test_vectors.md. -/
def confS : Conf :=
  { Config.confE with
    collabs := [⟨.serialLike 3 2, (List.range 58).map (BitVec.ofNat 8), 2⟩]
    compositeClass := 2 }

/-- CONF-E with one HID-like collaborator of one interface. -/
def confH : Conf := { Config.confE with collabs := [⟨.hidLike, [9, 4], 1⟩] }

/-- State BASE of 95_test_vectors.md. -/
def base (c : Conf) : State :=
  { initEndpoint 0 .control (State.resetWith c) with
    irq := ⟨true, false, true, true, true, false, false, false⟩
    power := ⟨true, true, true, true, true, .idle⟩ }

/-- State CONFD of 95_test_vectors.md (without the packet its set-up left in the log). -/
def confd (c : Conf) : State := { initAllEndpoints (base c) with dev.cfg := 1 }

/-- CONFD with interrupts masked: only the mainline steps. -/
def quiet (c : Conf) : State := { confd c with irq.ie := false }

/-- The control handler at S4 with `p` in SP. -/
def atS4 (p : SetupPacket) (s : State) : State :=
  { s with
    latch := ⟨p, true⟩
    cursor := ⟨0, p.wLength⟩
    sel := 0
    irq.inIsr := true
    ct.pc := .s4 }

/-- The request in `p`, performed at S4. -/
def served (p : SetupPacket) (s : State) : Out := exec (decodeSetup p) (atS4 p s)

/-- `EP[e].data <- bs`. -/
def withData (e : EpIdx) (bs : List Byte) (s : State) : State := s.setEp e { s.ep e with data := bs }

/-- A received packet in the bank of endpoint 2. -/
def received (bs : List Byte) (s : State) : State := s.setEp 2 { s.ep 2 with data := bs, outRdy := true }

/-- Inside a collaborator's call of the control handler: micro-operations are issued for it. -/
def inCall (s : State) : State := { s with irq.inIsr := true, ct.pc := .s4CallWait }

/-- Two HID-like collaborators with a serial-like one between them. -/
def confTwoHid : Conf :=
  { Config.confE with collabs := [⟨.hidLike, [1], 1⟩, ⟨.serialLike 3 2, [2], 1⟩, ⟨.hidLike, [3], 1⟩] }

/-- A received packet in the bank of endpoint 0, in the middle of a call. -/
def controlOut (bs : List Byte) (s : State) : State := s.setEp 0 { s.ep 0 with data := bs, outRdy := true }

/-- A GET_STATUS request's fields. -/
def req0 : Req := ⟨true, 0, 0, 0, 0, 2⟩

/-! ## WellFormed refuses ill-formed terms -/

theorem test_wf_refuses_descriptor_rows :
    (Instr.getDescriptorDevice { req0 with wValueH := 2 }).wf = false ∧
    (Instr.getDescriptorConfiguration { req0 with wValueH := 1 }).wf = false ∧
    (Instr.getDescriptorString { req0 with wValueH := 0 }).wf = false ∧
    (Instr.getDescriptorOther { req0 with wValueH := 1 }).wf = false ∧
    (Instr.getDescriptorOther { req0 with wValueH := 2 }).wf = false ∧
    (Instr.getDescriptorOther { req0 with wValueH := 3 }).wf = false := by decide

theorem test_wf_refuses_named_code_as_unlisted :
    (Instr.standardUnlisted 0 req0).wf = false ∧ (Instr.standardUnlisted 5 req0).wf = false ∧
    (Instr.standardUnlisted 9 req0).wf = false ∧ (Instr.standardUnlisted 3 req0).wf = true := by decide

theorem test_wf_refuses_negative_send : (Instr.send 3 false false false 0x100 0x8000).wf = false := by decide

theorem test_wf_refuses_long_read : (Instr.readN 65).wf = false ∧ (Instr.readN 64).wf = true := by decide

theorem test_wf_refuses_long_emission : (Instr.emitN (List.replicate 65536 0)).wf = false := by
  rw [Instr.wf, List.length_replicate]; decide

/-! ## Decoding: words written out from the spec's encodings -/

/-- R102, R107: `bmRequestType` = dir, kind 0, recipient; `bRequest`. -/
theorem test_decode_standard_requests :
    decodeSetup ⟨0x80, 0x00, 0, 0, 0, 0, 2, 0⟩ = .getStatus req0 ∧
    decodeSetup ⟨0x00, 0x05, 5, 0, 0, 0, 0, 0⟩ = .setAddress ⟨false, 0, 5, 0, 0, 0⟩ ∧
    decodeSetup ⟨0x00, 0x07, 0, 1, 0, 0, 0, 0⟩ = .setDescriptor ⟨false, 0, 0, 1, 0, 0⟩ ∧
    decodeSetup ⟨0x80, 0x08, 0, 0, 0, 0, 1, 0⟩ = .getConfiguration ⟨true, 0, 0, 0, 0, 1⟩ ∧
    decodeSetup ⟨0x01, 0x09, 1, 0, 0, 0, 0, 0⟩ = .setConfiguration ⟨false, 1, 1, 0, 0, 0⟩ ∧
    decodeSetup ⟨0x00, 0x03, 1, 0, 0, 0, 0, 0⟩ = .standardUnlisted 3 ⟨false, 0, 1, 0, 0, 0⟩ := by decide

/-- R104, R108: descriptor type in `wValueH`, index in `wValueL`; R103: little-endian `wIndex`, `wLength`. -/
theorem test_decode_descriptor_requests :
    decodeSetup ⟨0x80, 0x06, 0, 1, 0, 0, 0x12, 0⟩ = .getDescriptorDevice ⟨true, 0, 0, 1, 0, 18⟩ ∧
    decodeSetup ⟨0x80, 0x06, 0, 2, 0, 0, 0x43, 0⟩ = .getDescriptorConfiguration ⟨true, 0, 0, 2, 0, 67⟩ ∧
    decodeSetup ⟨0x80, 0x06, 2, 3, 0x09, 0x04, 0xFF, 0⟩ = .getDescriptorString ⟨true, 0, 2, 3, 0x0409, 255⟩ ∧
    decodeSetup ⟨0x81, 0x06, 0, 0x22, 0, 0, 0x40, 0⟩ = .getDescriptorOther ⟨true, 1, 0, 0x22, 0, 64⟩ ∧
    decodeSetup ⟨0x80, 0x06, 0, 1, 0, 0, 0x08, 0x01⟩ = .getDescriptorDevice ⟨true, 0, 0, 1, 0, 264⟩ ∧
    (SetupPacket.mk 0x80 6 2 3 9 4 0xFF 0).wValue = 0x0302 ∧ (SetupPacket.mk 0x80 6 2 3 9 4 0xFF 0).req.wValue = 0x0302 ∧
    encode (.getDescriptor ⟨true, 0, 0, 1, 0, 18⟩) = .setup ⟨0x80, 0x06, 0, 1, 0, 0, 0x12, 0⟩ := by decide

/-- R105: kinds 1, 2, 3. -/
theorem test_decode_other_kinds :
    decodeSetup ⟨0xA1, 0x21, 0, 0, 1, 0, 7, 0⟩ = .classRequest 0x21 ⟨true, 1, 0, 0, 1, 7⟩ ∧
    decodeSetup ⟨0x40, 0x00, 0, 0, 0, 0, 0, 0⟩ = .kindVendor 0 ⟨false, 0, 0, 0, 0, 0⟩ ∧
    decodeSetup ⟨0xE0, 0x00, 0, 0, 0, 0, 0, 0⟩ = .kindReserved 0 ⟨true, 0, 0, 0, 0, 0⟩ := by decide

/-- R122, R123: `CMD_OP`, `CMD_EPF`, `CMD_PTR`, `CMD_LEN`; flags 0x80 ROM, 0x40 RELEASE, 0x20 ZERO. -/
theorem test_decode_commands :
    reads [0x00] .attach = true ∧
    reads [0x01, 0x43, 0x00, 0x01, 0x82, 0x00] (.send 3 false true false 0x0100 130) = true ∧
    reads [0x01, 0xA3, 0x40, 0x00, 0x02, 0x00] (.send 3 true false true 0x0040 2) = true ∧
    reads [0x02, 0x02, 0x00, 0x02, 0xFF, 0xFF] (.recv 2 0 0x0200 0xFFFF) = true ∧
    reads [0x03, 0x02] (.available 2 0) = true ∧
    reads [0x04, 0x03] (.flush 3 0) = true := by decide

/-- R127: the codes 0x10 to 0x28 (operand bytes: log 13). -/
theorem test_decode_endpoint_operations :
    reads [0x10, 3] (.select 3) = true ∧ reads [0x11] .testSetup = true ∧ reads [0x12] .waitIn = true ∧
    reads [0x13] .waitOut = true ∧ reads [0x14] .read8 = true ∧ reads [0x15, 8] (.readN 8) = true ∧
    reads [0x16, 0xAA] (.write8 0xAA) = true ∧ reads [0x17] .byteCount = true ∧
    reads [0x18] .rwAllowed = true ∧ reads [0x19, 3] (.sendSpace 3) = true ∧ reads [0x1A] .stall = true ∧
    reads [0x1B] .clearSetup = true ∧ reads [0x1C] .ackIn = true := by decide

theorem test_decode_more_operations :
    reads [0x1D] .clearOut = true ∧ reads [0x1E] .releaseRx = true ∧ reads [0x1F] .releaseTx = true ∧
    reads [0x20, 3, 2] (.initEp 3 .bulkIn) = true ∧ reads [0x20, 1, 4] (.initEp 1 .interruptIn) = true ∧
    reads [0x21] .critEnter = true ∧ reads [0x22] .critExit = true ∧
    reads [0x23, 0x12, 0x01] (.curInit 0x0112) = true ∧ reads [0x24, 0x10] (.emit8 0x10) = true ∧
    reads [0x25, 2, 0, 9, 4] (.emitN [9, 4]) = true ∧ reads [0x26] .armTx = true ∧
    reads [0x27] .armRx = true ∧ reads [0x28] .armOutStage = true := by decide

/-- R127: the events. -/
theorem test_decode_events :
    reads [0x30] .evtSetupReceived = true ∧ reads [0x31] .evtFrameTick = true ∧
    reads [0x32] .evtBusReset = true ∧ reads [0x33] .evtSpuriousComm = true := by decide

/-- R134: `SP[0]` is the most significant byte of a 64-bit table word. -/
theorem test_table_words :
    decodeTableWord 64 0x8006000100001200 = some (.getDescriptorDevice ⟨true, 0, 0, 1, 0, 18⟩) ∧
    decodeTableWord 8 0x01 = some (.send 0 false false false 0 0) ∧
    decodeTableWord 8 0x28 = some .armOutStage ∧ decodeTableWord 8 0x29 = none := by decide

/-! ## Endpoint register interface (2.1) -/

/-- V-ER-1. -/
theorem test_write8 :
    holds (exec (.write8 0xAA) { confd Config.confE with sel := 3 }) (fun t => (t.ep 3).data == [0xAA]) = true := by
  decide

/-- V-ER-1, V-ER-7: a full bank is not writable. -/
theorem test_rw_allowed :
    holds (exec .rwAllowed { withData 3 [0xAA] (confd Config.confE) with sel := 3 }) (fun t => t.io.ret == .bit true)
      = true ∧
    holds (exec .rwAllowed { withData 3 (List.replicate 64 0) (confd Config.confE) with sel := 3 })
      (fun t => t.io.ret == .bit false) = true := by decide

/-- V-ER-3, V-ER-4: with both banks committed no bank is left, and a third commit has no effect. -/
theorem test_release_tx :
    holds (exec .releaseTx ({ confd Config.confE with sel := 3 }.setEp 3
        ⟨true, .bulkIn, false, true, false, false, [0xBB], [[0xAA]], []⟩))
      (fun t => (t.ep 3).inQ == [[0xAA], [0xBB]] && !(t.ep 3).inRdy && t.txlogOf 3 == [[0xBB]]) = true ∧
    holds (exec .releaseTx ({ confd Config.confE with sel := 3 }.setEp 3
        ⟨true, .bulkIn, false, false, false, false, [], [[0xAA], [0xBB]], []⟩))
      (fun t => (t.ep 3).inQ == [[0xAA], [0xBB]] && t.txlogOf 3 == []) = true := by decide

/-- V-ER-3: SEND_SPACE 3 is 0 with no free bank; V-ER-5: 64 with one. -/
theorem test_send_space :
    holds (exec (.sendSpace 3) ((confd Config.confE).setEp 3
        ⟨true, .bulkIn, false, false, false, false, [], [[0xAA], [0xBB]], []⟩))
      (fun t => t.io.ret == .count 0) = true ∧
    holds (exec (.sendSpace 3) (confd Config.confE)) (fun t => t.io.ret == .count 64) = true := by decide

/-- V-ER-6: the single bank of endpoint 0. -/
theorem test_ack_in :
    holds (exec .ackIn (withData 0 [1] (confd Config.confE)))
      (fun t => (t.ep 0).inQ == [[1]] && !(t.ep 0).inRdy && (t.ep 0).data == []) = true := by decide

/-- V-ER-8. -/
theorem test_read8 :
    holds (exec .read8 (received [1, 2, 3] { confd Config.confE with sel := 2 }))
      (fun t => t.io.ret == .byte 1 && (t.ep 2).data == [2, 3]) = true := by decide

/-- V-ER-8. -/
theorem test_byte_count :
    holds (exec .byteCount (received [1, 2, 3] { confd Config.confE with sel := 2 })) (fun t => t.io.ret == .count 3)
      = true := by decide

/-- R146: the bytes come out in arrival order. -/
theorem test_read_n :
    holds (exec (.readN 2) (received [1, 2, 3] { confd Config.confE with sel := 2 }))
      (fun t => t.io.ret == .bytes [1, 2] && (t.ep 2).data == [3]) = true := by decide

/-- V-ER-10: the queued packet takes the bank's place; V-ER-9: the last one gives it back. -/
theorem test_release_rx :
    holds (exec .releaseRx ({ confd Config.confE with sel := 2 }.setEp 2
        ⟨true, .bulkOut, false, false, true, false, [], [], [[0xBB, 0xCC]]⟩))
      (fun t => (t.ep 2).data == [0xBB, 0xCC] && (t.ep 2).outQ == [] && (t.ep 2).outRdy) = true ∧
    holds (exec .releaseRx (received [] { confd Config.confE with sel := 2 }))
      (fun t => !(t.ep 2).outRdy && (t.ep 2).data == []) = true := by decide

/-- R154: endpoint 0. -/
theorem test_clear_out :
    holds (exec .clearOut ((base Config.confE).setEp 0 ⟨true, .control, false, true, true, false, [7], [], []⟩))
      (fun t => !(t.ep 0).outRdy && (t.ep 0).data == [] && (t.ep 0).inRdy) = true := by decide

/-- V-ER-12: past the limit nothing is written and the position advances. -/
theorem test_emit8_past_limit :
    holds (exec (.emit8 0x12) { withData 0 [0x10, 0x11] (base Config.confE) with cursor := ⟨2, 2⟩ })
      (fun t => (t.ep 0).data == [0x10, 0x11] && t.cursor == ⟨3, 2⟩) = true := by decide

/-- V-ER-13: the 64th byte commits the packet. -/
theorem test_emit8_commits_full_packet :
    holds (exec (.emit8 0x7F) { withData 0 (List.replicate 63 0) (base Config.confE) with cursor := ⟨0, 100⟩ })
      (fun t => (t.ep 0).data == [] && ((t.ep 0).inQ.map List.length) == [64] && !(t.ep 0).inRdy) = true := by decide

/-- R178: an emission of 18 bytes with limit 8 transmits the first 8 and leaves (18, 8). -/
theorem test_emit_n :
    holds (exec (.emitN ((List.range 18).map (BitVec.ofNat 8))) { base Config.confE with cursor := ⟨0, 8⟩ })
      (fun t => (t.ep 0).data == [0, 1, 2, 3, 4, 5, 6, 7] && t.cursor == ⟨18, 8⟩) = true := by decide

/-- V-ER-14: no bank, so the emission holds and nothing is written; the same for WAIT_IN and WAIT_OUT, which hold the
running handler or the mainline's sequencer (R312). -/
theorem test_holds :
    let s := (base Config.confE).setEp 0 ⟨true, .control, false, false, false, false, [], [[1]], []⟩
    holds (exec (.emit8 0x80) { s with cursor := ⟨64, 100⟩ })
      (fun t => (t.ep 0).data == [] && t.cursor == ⟨64, 100⟩ && t.io.held == [.emit8 0x80]) = true ∧
    holds (exec .waitIn (inCall s)) (fun t => t.io.held == [.waitIn] && t.io.mainWait == none) = true ∧
    holds (exec .waitOut s) (fun t => t.io.mainWait == some .outReady && t.io.held == []) = true ∧
    holds (exec .waitIn (base Config.confE)) (fun t => t.io.held == [] && t.io.mainWait == none) = true := by decide

/-- R312: a WAIT_IN in the mainline context runs, leaves `IE`, and a handler is delivered while it waits; the wait
ends at the mainline's first step with the flag up, and the command in hand goes on after it. -/
theorem test_mainline_wait :
    let s := { (quiet Config.confE).setEp 3 ⟨true, .bulkIn, false, false, false, false, [], [[1], [2]], []⟩ with
      sel := 3, be.pc := .sndLoop, irq.ie := true }
    let w := { s with io.mainWait := some .inReady }
    holds (step { s with io.inputs := [.word [0x12]] })
      (fun t => t.io.mainWait == some .inReady && t.irq.ie && t.be == s.be) = true ∧
    holds (step { w with irq.spurComm := true }) (fun t => t.irq.inIsr && t.ct.pc == .s1 && t.io == w.io) = true ∧
    holds (step w) (fun t => t == w) = true ∧
    holds (step (w.setEp 3 ⟨true, .bulkIn, false, true, false, false, [], [[2]], []⟩))
      (fun t => t.io.mainWait == none && t.be == s.be) = true := by decide

/-- V-ER-15, V-ER-16: `IE` is restored, not set. -/
theorem test_crit :
    holds (exec .critEnter { base Config.confE with sel := 3 }) (fun t => !t.irq.ie && t.sel == 3) = true ∧
    holds (exec .critExit { base Config.confE with irq.ie := false, crit.main := ⟨⟨false, 3⟩, []⟩ })
      (fun t => !t.irq.ie && t.sel == 3) = true := by decide

/-- V-ER-17. -/
theorem test_clear_setup :
    holds (exec .clearSetup ((base Config.confE).setEp 0 ⟨true, .control, true, true, true, false, [], [], []⟩))
      (fun t => !(t.ep 0).setup && !(t.ep 0).outRdy && (t.ep 0).inRdy) = true := by decide

/-- V-ER-18. -/
theorem test_stall :
    holds (exec .stall (withData 0 [5] (base Config.confE))) (fun t => (t.ep 0).stall && (t.ep 0).data == [5]) = true := by
  decide

/-- V-ER-19, V-ER-20. -/
theorem test_init_ep :
    holds (exec (.initEp 3 .bulkIn) (withData 3 [9] (confd Config.confE)))
      (fun t => t.ep 3 == ⟨true, .bulkIn, false, true, false, false, [], [], []⟩ && t.sel == 0) = true ∧
    holds (exec (.initEp 4 .disabled) (confd Config.confE)) (fun t => t.ep 4 == Endpoint.off) = true := by decide

/-- V-ER-21: EPFLG 0x0A with a free, empty bank. -/
theorem test_flag_register :
    regView 0x01 { withData 3 [0xAA] (confd Config.confE) with sel := 3 } = some 0x0A := by decide

/-- R141: `SELECT` and its reserved indices; R142: TEST_SETUP after a setup packet. -/
theorem test_select_and_test_setup :
    holds (exec (.select 6) (base Config.confE)) (fun t => t.sel == 6) = true ∧
    stops (exec (.select 7) (base Config.confE)) .reservedEndpoint = true ∧
    holds (exec .testSetup ((base Config.confE).setEp 0 ⟨true, .control, true, true, false, false, [], [], []⟩))
      (fun t => t.io.ret == .bit true) = true := by decide

/-- R176, R255, R256. -/
theorem test_cursor_and_pulses :
    holds (exec (.curInit 18) { base Config.confE with cursor := ⟨5, 6⟩ }) (fun t => t.cursor == ⟨0, 18⟩) = true ∧
    holds (exec .armTx (base Config.confE)) (fun t => t.pulse == ⟨100, 0, true, false⟩) = true ∧
    holds (exec .armRx (base Config.confE)) (fun t => t.pulse == ⟨0, 100, false, true⟩) = true := by decide

/-- R174: the empty status packet. -/
theorem test_arm_out_stage :
    holds (exec .armOutStage (base Config.confE))
      (fun t => (t.ep 0).inQ == [[]] && !(t.ep 0).inRdy && t.txlogOf 0 == [[]]) = true := by decide

/-! ## Requests (2.2, 2.3) -/

/-- V-CT-1, V-CT-2. -/
theorem test_get_status :
    holds (served ⟨0x80, 0, 0, 0, 0, 0, 2, 0⟩ (base Config.confE))
      (fun t => (t.ep 0).data == [0, 0] && t.cursor == ⟨2, 2⟩ && t.ct.pc == .s5) = true ∧
    holds (served ⟨0x80, 0, 0, 0, 0, 0, 1, 0⟩ (base Config.confE))
      (fun t => (t.ep 0).data == [0] && t.cursor == ⟨2, 1⟩) = true := by decide

/-- V-CT-4b: bit 7 of the address byte is dropped. -/
theorem test_set_address :
    holds (served ⟨0, 5, 0x85, 0, 0, 0, 0, 0⟩ (base Config.confE))
      (fun t => t.dev.addr == 5 && t.dev.addrEn && t.dev.cfg == 0) = true := by decide

/-- V-CT-5, V-CT-9. -/
theorem test_set_configuration :
    holds (served ⟨0, 9, 7, 0, 0, 0, 0, 0⟩ (base Config.confE))
      (fun t => t.dev.cfg == 7 && (t.ep 1).kind == .interruptIn && (t.ep 2).kind == .bulkOut && (t.ep 3).inRdy &&
        !(t.ep 4).en) = true ∧
    holds (served ⟨1, 9, 1, 0, 0, 0, 0, 0⟩ (base Config.confE))
      (fun t => t.dev.cfg == 0 && !(t.ep 3).en && t.ct.result == .fail .fRecipient) = true := by decide

/-- V-CT-6: 1 with `CFG = 7`. -/
theorem test_get_configuration :
    holds (served ⟨0x80, 8, 0, 0, 0, 0, 1, 0⟩ { base Config.confE with dev.cfg := 7 }) (fun t => (t.ep 0).data == [1])
      = true := by decide

/-- V-CT-8, V-CT-10, V-CT-11. -/
theorem test_failing_requests :
    holds (served ⟨0, 7, 0, 1, 0, 0, 0, 0⟩ (base Config.confE)) (fun t => t.ct.result == .fail .fSetDescriptor) = true ∧
    holds (served ⟨0x40, 0, 0, 0, 0, 0, 0, 0⟩ (base Config.confE)) (fun t => t.ct.result == .fail .fKind) = true ∧
    holds (served ⟨0xE0, 0, 0, 0, 0, 0, 0, 0⟩ (base Config.confE)) (fun t => t.ct.result == .fail .fKind) = true ∧
    holds (served ⟨0, 3, 1, 0, 0, 0, 0, 0⟩ (base { Config.confE with unlistedOk := false }))
      (fun t => t.ct.result == .fail .fUnlisted) = true := by decide

/-- V-CT-12, V-CT-14: interface 2 is nobody's, interface 0 is S's. -/
theorem test_class_request :
    holds (served ⟨0x21, 0x22, 0, 0, 2, 0, 0, 0⟩ (base confS)) (fun t => t.ct.result == .ok && t.ghost.calls == []) = true ∧
    holds (served ⟨0x21, 0x20, 0, 0, 0, 0, 0, 0⟩ { base confS with io.answers := [⟨[], false⟩] })
      (fun t => t.ct.result == .fail .fClass && t.ghost.calls == [.setup 0 ⟨0x21, 0x20, 0, 0, 0, 0, 0, 0⟩]) = true := by
  decide

/-- V-DP-1, V-DP-3. -/
theorem test_device_descriptor :
    holds (served ⟨0x80, 6, 0, 1, 0, 0, 0x12, 0⟩ (base Config.confE))
      (fun t => (t.ep 0).data == [0x12, 1, 0, 1, 0, 0, 0, 0x40, 0x41, 0x23, 0x36, 0x80, 0, 1, 1, 2, 0, 1] &&
        t.cursor == ⟨18, 18⟩ && !t.dev.composite) = true ∧
    holds (served ⟨0x80, 6, 0, 1, 0, 0, 8, 0⟩ (base confS))
      (fun t => (t.ep 0).data == [0x12, 1, 0, 1, 2, 0, 0, 0x40] && t.cursor == ⟨18, 8⟩ && t.dev.composite) = true := by
  decide

/-- V-DP-7, V-DP-9. -/
theorem test_string_descriptor :
    holds (served ⟨0x80, 6, 1, 3, 9, 4, 0xFF, 0⟩ (base Config.confE))
      (fun t => (t.ep 0).data == [6, 3, 0x41, 0, 0x62, 0]) = true ∧
    holds (served ⟨0x80, 6, 3, 3, 9, 4, 0xFF, 0⟩ (base Config.confE))
      (fun t => (t.ep 0).data == [] && t.ct.result == .fail .fDescNotFound && t.cursor == ⟨0, 255⟩) = true := by decide

/-- V-DP-11. -/
theorem test_configuration_descriptor :
    holds (served ⟨0x80, 6, 0, 2, 0, 0, 9, 0⟩ (base confS))
      (fun t => (t.ep 0).data == [9, 2, 0x43, 0, 2, 1, 0, 0x80, 0xFA] && t.cursor == ⟨67, 9⟩ &&
        t.ct.measured == 58 && t.ct.nifTotal == 2) = true := by decide

/-- V-DP-16, and a HID-like collaborator that answers (R219). -/
theorem test_other_descriptor :
    holds (served ⟨0x81, 6, 0, 0x22, 0, 0, 0x40, 0⟩ (base confS)) (fun t => t.ct.result == .fail .fDescNotFound) = true ∧
    holds (served ⟨0x81, 6, 0, 0x22, 0, 0, 0x40, 0⟩ { base confH with io.answers := [⟨[.emit [1, 2]], true⟩] })
      (fun t => t.ct.result == .ok && (t.ep 0).data == [1, 2]) = true := by decide

/-- The parent row performs its sub-row (R134, R211). -/
theorem test_get_descriptor_parent :
    holds (exec (.getDescriptor ⟨true, 0, 0, 3, 0, 255⟩) (atS4 ⟨0x80, 6, 0, 3, 0, 0, 0xFF, 0⟩ (base Config.confE)))
      (fun t => (t.ep 0).data == [4, 3, 9, 4]) = true := by decide

/-! ## Bulk transfer engine (2.4) -/

/-- V-BE-5, and the working registers SND.check loads (R244). -/
theorem test_send_check :
    holds (exec (.send 3 false false false 0x100 10) (base Config.confE))
      (fun t => t.port.res == 0xFFFF && t.ghost.bulkFail == some .eNotConfigured && t.pulse.txp == 0) = true ∧
    holds (exec (.send 3 false false false 0x100 10) (confd Config.confE))
      (fun t => t.be.pc == .sndLoop && t.be.sndRem == 10 && t.be.sndTmo == 250) = true := by decide

/-- V-BE-9: the chunk comes from ROM, and RELEASE commits it. -/
theorem test_send_chunk :
    holds (beStep { confd { Config.confE with rom := [(0x40, 0xC0), (0x41, 0xC1), (0x42, 0xC2), (0x43, 0xC3)] } with
        be := ⟨.sndChunk, 3, 0b110, 0x40, 0, 4, 250, 4, 0, 0⟩ })
      (fun t => t.txlogOf 3 == [[0xC0, 0xC1, 0xC2, 0xC3]] && (t.ep 3).data == [] && t.sel == 0 && t.irq.ie) = true := by
  decide

/-- V-BE-4: the second chunk takes the payload from index 2 on. -/
theorem test_second_chunk :
    holds (beStep { quiet Config.confE with
        buf := Memory.writeList [] 0x100 [0, 1, 2, 3, 4], be := ⟨.sndChunk, 3, 0, 0x100, 0, 5, 250, 3, 2, 0⟩ })
      (fun t => (t.ep 3).data == [2, 3, 4] && t.be.sndI == 5 && t.be.pc == .sndArm) = true := by decide

/-- V-BE-6: the 250th observation fails (R245). -/
theorem test_send_timeout :
    holds (beStep { confd Config.confE with be := ⟨.sndWait, 3, 0, 0x100, 10, 10, 1, 0, 0, 0⟩ })
      (fun t => t.port.res == 0xFFFF && t.be.sndTmo == 0 && t.ghost.bulkFail == some .eSendTimeout) = true ∧
    holds (beStep { confd Config.confE with be := ⟨.sndWait, 3, 0, 0x100, 10, 10, 2, 0, 0, 0⟩ })
      (fun t => t.be.pc == .sndLoop && t.be.sndTmo == 1) = true := by decide

/-- V-BE-16, V-BE-17. -/
theorem test_recv_check :
    holds (exec (.recv 2 0 0x200 8) (base Config.confE)) (fun t => t.ghost.bulkFail == some .eNotConfigured) = true ∧
    holds (exec (.recv 2 0 0x200 0xFFFF) (received [1] (confd Config.confE)))
      (fun t => t.port.res == 0xFFFF && t.ghost.bulkFail == some .eNegLength && (t.ep 2).data == [1]) = true := by decide

/-- V-BE-11, V-BE-12: a short read leaves the rest; the read that drains the bank releases it. -/
theorem test_recv_crit :
    holds (beStep { received [1, 2, 3] (confd Config.confE) with be.pc := .rcvCrit, port := ⟨2, 2, 0x200, 2, 0⟩ })
      (fun t => t.buf == [(0x200, 1), (0x201, 2)] && (t.ep 2).data == [3] && (t.ep 2).outRdy) = true ∧
    holds (beStep { received [3] (confd Config.confE) with be.pc := .rcvCrit, port := ⟨2, 2, 0x200, 8, 0⟩ })
      (fun t => t.buf == [(0x200, 3)] && !(t.ep 2).outRdy && t.be.rcvN == 1) = true := by decide

/-- V-BE-13. -/
theorem test_available :
    holds (exec (.available 2 0) (received [1, 2, 3] (confd Config.confE))) (fun t => t.port.res == 3) = true := by decide

/-- V-BE-19, V-BE-20. -/
theorem test_flush :
    holds (exec (.flush 3 0) (withData 3 [0x80, 0x81] (confd Config.confE)))
      (fun t => t.txlogOf 3 == [[0x80, 0x81]] && (t.ep 3).data == [] && t.pulse.txp == 0) = true ∧
    holds (exec (.flush 3 0) (confd Config.confE)) (fun t => t.txlogOf 3 == []) = true := by decide

/-! ## Frame tick, attach, events, environment (2.5, 2.6) -/

/-- V-FT-1, V-FT-2, V-FT-4. -/
theorem test_tick_timers :
    (tickTimers { base Config.confE with pulse := ⟨40, 1, true, true⟩ }).pulse = ⟨39, 0, true, false⟩ ∧
    (tickTimers { base Config.confE with pulse := ⟨0, 0, false, false⟩ }).pulse = ⟨0, 0, false, false⟩ := by decide

/-- V-FT-6: one byte of the packet goes to the sink. -/
theorem test_tick_pull :
    holds (ftStep { received [0xAA, 0xBB] (confd confS) with irq.inIsr := true, ft.pc := .f4 })
      (fun t => t.ghost.rxSink == [0xAA] && (t.ep 2).data == [0xBB] && t.pulse.rxp == 100) = true := by decide

/-- V-FT-9: the block's part of a bus reset. -/
theorem test_bus_reset :
    holds (ftStep { confd Config.confE with
        irq.inIsr := true, ft := ⟨.f2, true, false, 0⟩, dev := ⟨1, true, 5, true⟩, pulse := ⟨7, 0, true, false⟩ })
      (fun t => t.dev.cfg == 0 && t.dev.composite && t.pulse.txp == 7 && t.irq.ienSetup0 &&
        t.ep 0 == ⟨true, .control, false, true, false, false, [], [], []⟩) = true := by decide

/-- V-AT-2: one step after `attach` PWRCTL is 0x07, and it stays at A2.wait. -/
theorem test_attach :
    holds (exec .attach State.reset) (fun t => t.power.pc == .a2 && regView 0x0A t == some 0x01) = true ∧
    regView 0x0A (atStep (atStep { State.reset with power := ⟨true, false, false, false, false, .a2⟩ })) = some 0x07 := by
  decide

/-- R316, R317; V-CT-18: nothing is delivered with `IE = 0`. -/
theorem test_events :
    let s := (base Config.confE).setEp 0 ⟨true, .control, true, true, false, false, [], [], []⟩
    holds (exec .evtSetupReceived s) (fun t => t.irq.inIsr && t.ct.pc == .s1) = true ∧
    holds (exec .evtSetupReceived { s with irq.ie := false }) (fun t => !t.irq.inIsr && t.ct.pc == .idle) = true ∧
    holds (exec .evtSpuriousComm { base Config.confE with irq.spurComm := true })
      (fun t => t.irq.inIsr && !t.irq.spurComm && t.ct.pc == .s1) = true := by decide

theorem test_frame_events :
    holds (exec .evtFrameTick { base Config.confE with irq.pendSof := true })
      (fun t => t.irq.inIsr && t.ft.pc == .f1 && t.irq.pendSof) = true ∧
    holds (exec .evtBusReset { base Config.confE with irq.pendEor := true })
      (fun t => t.irq.inIsr && t.ft.pc == .f1 && t.irq.pendEor) = true := by decide

/-- V-CT-16: a new setup packet discards the uncollected one; V-ER-11: a third OUT packet is not enabled. -/
theorem test_environment :
    holds (envMove (.setup ⟨0x80, 0, 0, 0, 0, 0, 2, 0⟩)
        ((base Config.confE).setEp 0 ⟨true, .control, false, false, true, true, [], [[0, 0]], []⟩))
      (fun t => t.ep 0 == ⟨true, .control, true, true, true, false, [0x80, 0, 0, 0, 0, 0, 2, 0], [], []⟩) = true ∧
    holds (envMove (.out 2 [0xEE]) ((confd Config.confE).setEp 2
        ⟨true, .bulkOut, false, false, true, false, [0xBB], [], [[0xDD]]⟩))
      (fun t => (t.ep 2).data == [0xBB] && (t.ep 2).outQ == [[0xDD]]) = true := by decide

/-- R85: a setup packet before the one before it is served replaces it (log 35). -/
theorem test_second_setup :
    holds (envMove (.setup ⟨0x80, 8, 0, 0, 0, 0, 1, 0⟩) ((base Config.confE).setEp 0
        ⟨true, .control, true, true, false, false, [0x80, 0, 0, 0, 0, 0, 2, 0], [], []⟩))
      (fun t => t.ep 0 == ⟨true, .control, true, true, false, false, [0x80, 8, 0, 0, 0, 0, 1, 0], [], []⟩) = true := by
  decide

/-- R192, R86, R93 (log 7): in a collaborator's call the host's OUT packet falls between the release of the bank and the
emission, so its bytes come first. -/
theorem test_host_packet_inside_a_call :
    holds (served ⟨0x21, 0x20, 0, 0, 0, 0, 8, 0⟩
        { controlOut [5] (base confS) with io.answers := [⟨[.clearOut, .hostOut 0 [1, 2], .emit [9]], true⟩] })
      (fun t => (t.ep 0).data == [1, 2, 9] && (t.ep 0).outRdy && t.ct.result == .ok) = true := by decide

/-- R219: the first HID-like collaborator fails, the second answers; both are asked, the serial-like one is not. -/
theorem test_descriptor_search :
    holds (served ⟨0x81, 6, 0, 0x22, 0, 0, 0x40, 0⟩
        { base confTwoHid with io.answers := [⟨[], false⟩, ⟨[.emit [7]], true⟩] })
      (fun t => t.ct.result == .ok && (t.ep 0).data == [7] && t.ghost.calls.length == 2) = true := by decide

/-- R34, R57 (log 8): no micro-operation for a sequencer that does not run. R368, U16: endpoint 0 in a command. U20:
a setup packet while the control handler runs. R56 (log 34): the port while a command is served. -/
theorem test_refusals :
    stops (step { State.reset with io.inputs := [.word [0x10, 3]] }) .notTheOwner = true ∧
    stops (exec (.send 0 false false false 0x100 1) State.reset) .wrongEndpointType = true ∧
    stops (exec (.available 0 0) State.reset) .wrongEndpointType = true ∧
    stops (envMove (.setup ⟨0, 0, 0, 0, 0, 0, 0, 0⟩) { base Config.confE with ct.pc := .s5 }) .setupDuringTransfer = true ∧
    stops (step { quiet Config.confE with be.pc := .sndLoop, io.inputs := [.regWrite 0x22 0] }) .commandWhileBusy = true := by
  decide

/-- R158: `in_rdy` by the type operand, on endpoint 0 too, whose type alone is hard-wired (R58). -/
theorem test_init_ep_zero :
    holds (exec (.initEp 0 .bulkOut) (base Config.confE))
      (fun t => t.ep 0 == ⟨true, .control, false, false, false, false, [], [], []⟩) = true := by decide

/-! ## Witnesses: a state and operands that meet the hypotheses of each statement

The statements whose hypotheses are not listed here have none. -/

/-- DecodeEncode, at both ends of the operand ranges. -/
theorem witness_DecodeEncode :
    (Instr.send 7 true true true 0xFFFF 0x7FFF).wf = true ∧ (Instr.readN 64).wf = true ∧
    (Instr.emitN []).wf = true ∧ (Instr.getDescriptorOther { req0 with wValueH := 4 }).wf = true ∧
    (Instr.standardUnlisted 10 req0).wf = true ∧ (Instr.getDescriptor req0).wf = true := by decide

theorem witness_DecodeTakesItsBytes :
    (Instr.recv 7 7 0xFFFF 0xFFFF).wf = true ∧
    encode (.recv 7 7 0xFFFF 0xFFFF) = .word [0x02, 0xE7, 0xFF, 0xFF, 0xFF, 0xFF] := by decide

/-- ReservedEncodingsRefused: the ends of each range. -/
theorem witness_ReservedEncodingsRefused :
    (∀ c ∈ [(5 : Byte), 0x0F, 0x29, 0x2F, 0x34, 0xFF],
      (5 ≤ c.toNat ∧ c.toNat < 0x10) ∨ (0x29 ≤ c.toNat ∧ c.toNat < 0x30) ∨ 0x34 ≤ c.toNat) ∧
    (1 ≤ (4 : Byte).toNat ∧ (4 : Byte).toNat ≤ 4 ∧ (0x08 : Byte).extractLsb' 3 2 ≠ 0) ∧
    ((0xE7 : Byte).extractLsb' 3 2 = 0 ∧ 0x80 ≤ (0x80 : Byte).toNat) ∧
    ((7 : Byte).toNat < 8 ∧ 5 ≤ (5 : Byte).toNat) ∧
    (∃ x, decodeWord [0x29] = .error x) ∧
    ((base Config.confE).mainlineIdle ∧ (base Config.confE).conf.nEp ≤ (7 : EpIdx).toNat) :=
  ⟨by decide, by decide, by decide, by decide, ⟨.reservedOpcode, rfl⟩, by decide⟩

/-- A command, a micro-operation of the running handler; S4 with both schedules; the command port; a register read;
`IE`; a byte of `BUF`. -/
theorem witness_StepRunsTheDecodedOperation :
    (decodeWord [0x03, 0x02] = .ok (.available 2 0, []) ∧ (base Config.confE).irq.inIsr = false) ∧
    (decodeWord [0x14] = .ok (.read8, []) ∧ (inCall (base Config.confE)).io.held = [] ∧
      issueAllowed .read8 (inCall (base Config.confE)) = true) ∧
    (let s := atS4 ⟨0x80, 0, 0, 0, 0, 0, 2, 0⟩ (base Config.confE)
     s.ct.pc = .s4 ∧ s.latch.valid = true ∧ s.irq.inIsr = true ∧ s.io.held = [] ∧ s.io.inputs = []) ∧
    (let s := { base Config.confE with port := ⟨0, 2, 0x200, 8, 0⟩, io.inputs := [.regWrite 0x20 4] }
     (lo8 (BitVec.ofNat 16 4)).toNat < 5 ∧
       decodeWord [4, s.port.epf, lo8 s.port.ptr, hi8 s.port.ptr, lo8 s.port.len, hi8 s.port.len] =
         .ok (.flush 2 0, [0, 2, 8, 0]) ∧ s.mainlineIdle ∧ memoryOk s ∧ s.irq.inIsr = false) :=
  ⟨⟨rfl, rfl⟩, ⟨rfl, rfl, rfl⟩, by decide, by decide⟩

theorem witness_PlacedWordRunsNext :
    (8 : Nat) ≠ 64 ∧ decodeTableWord 8 0x01 = some (.send 0 false false false 0 0) ∧
    decodeTableWord 8 0x26 = some .armTx := by
  decide

theorem witness_ResetMeetsTheInvariants :
    Config.confE.wf = true ∧ confS.wf = true ∧
    (⟨.idle, 7, 7, 0xFFFF, 0xFFFF, 0xFFFF, 0xFF, 127, 0xFFFF, 127⟩ : Be).pc = .idle ∧
    Memory.wf [(0x200, 1)] := by decide

/-! The states from which the invariant statements take a step that changes what they are about. -/

/-- RECV is about to store a byte: `BUF` is canonical before. -/
theorem witness_MemoryStaysCanonical :
    let s := { received [3] (quiet Config.confE) with be.pc := .rcvCrit, port := ⟨2, 2, 0x200, 8, 0⟩, buf := [(0x200, 1)] }
    memoryOk s ∧ holds (step s) (fun t => t.buf == [(0x200, 3)]) = true := by decide

theorem endpointsOk_base (c : Conf) : endpointsOk (base c) := fun e => by
  refine keepsBounds_initEndpoint 0 .control _ (fun e => ?_) e
  have h : (State.resetWith c).ep e = Endpoint.off := by simp [State.ep, State.resetWith]
  rw [h]; exact EndpointOk.off e

theorem endpointsOk_withCfg (s : State) (v : Byte) (h : endpointsOk s) : endpointsOk { s with dev.cfg := v } := h

theorem endpointsOk_confd (c : Conf) : endpointsOk (confd c) :=
  endpointsOk_withCfg _ 1 (keepsBounds_initAllEndpoints (base c) (endpointsOk_base c))

/-- A write steps from CONFD, issued inside a call. -/
theorem witness_EndpointsStayInBounds :
    let s := { inCall (confd Config.confE) with io.inputs := [.word [0x16, 0xAA]], sel := 3 }
    endpointsOk s ∧ holds (step s) (fun t => (t.ep 3).data == [0xAA]) = true :=
  ⟨endpointsOk_confd Config.confE, by decide⟩

/-- CRIT_EXIT gives back the highest index; CRIT_EXIT with an index no CRIT_ENTER has saved is refused (log 21). -/
theorem witness_SelectorStaysLegal :
    let s := { inCall (confd Config.confE) with io.inputs := [.word [0x22]], crit.isr := ⟨⟨false, 6⟩, []⟩ }
    SelectorOk s ∧ holds (step s) (fun t => t.sel == 6) = true ∧
    stops (step { s with crit.isr := ⟨⟨false, 7⟩, []⟩ }) .reservedEndpoint = true :=
  ⟨⟨by decide, by decide⟩, by decide, by decide⟩

/-- The last tick of a pulse. -/
theorem witness_PulsesStayInRange :
    let s := { confd Config.confE with irq.inIsr := true, ft.pc := .f5, pulse := ⟨1, 100, true, true⟩ }
    PulsesOk s ∧ holds (step s) (fun t => t.pulse == ⟨0, 99, false, true⟩) = true :=
  ⟨⟨by decide, by decide, by decide, by decide⟩, by decide⟩

theorem witness_OneHandlerAtATime :
    let s := { confd Config.confE with irq.inIsr := true, ft.pc := .exit }
    handlersOk s ∧ holds (step s) (fun t => !t.irq.inIsr && t.ft.pc == .idle) = true := by decide

/-- A step at A3. -/
theorem witness_AttachOrderKept :
    let s := { State.reset with power := ⟨true, true, true, false, true, .a3⟩ }
    attachOk s ∧ holds (step s) (fun t => t.irq.ienEor && t.power.pc == .a4) = true := by decide

/-- SND.space with 130 bytes to send, budget at its last value. -/
theorem witness_SendAccountsKept :
    let s := { quiet Config.confE with be := ⟨.sndSpace, 3, 0, 0x100, 130, 130, 1, 0, 0, 0⟩ }
    SendOk s ∧ holds (step s) (fun t => t.be.sndN == 64 && t.be.sndRem == 66) = true :=
  ⟨⟨by decide, by decide, by decide, by decide, by decide, by decide⟩, by decide⟩

/-- SND.done with the longest payload; `RES` before is neither a count nor the sentinel. -/
theorem witness_ResultStaysCountOrSentinel :
    let s := { quiet Config.confE with be := ⟨.sndDone, 3, 0, 0x100, 0, 0x7FFF, 250, 0, 0x7FFF, 0⟩, port.res := 0x9000 }
    endpointsOk s ∧ SendOk s ∧ ¬ resultOk s.port.res ∧ holds (step s) (fun t => t.port.res == 0x7FFF) = true :=
  ⟨endpointsOk_confd Config.confE, ⟨by decide, by decide, by decide, by decide, by decide, by decide⟩, by decide,
    by decide⟩

theorem witness_NoFaultEver :
    let s := atS4 ⟨0x80, 0, 0, 0, 0, 0, 2, 0⟩ (base Config.confE)
    latchOk s ∧ holds (step s) (fun t => t.ct.pc == .s5) = true := by decide

/-- A bus reset is served with the latch and every enable set. -/
theorem witness_NothingIsTakenBack :
    let s := { confd Config.confE with irq.inIsr := true, ft := ⟨.f2, true, false, 0⟩, dev.composite := true }
    s.dev.composite = true ∧ s.irq.ienSetup0 = true ∧ holds (step s) (fun t => t.dev.cfg == 0) = true := by decide

theorem witness_ParametersFixedLogsGrow :
    let s := { inCall (confd Config.confE) with io.inputs := [.word [0x1C]] }
    holds (step s) (fun t => t.txlogOf 0 == [[]]) = true := by decide

/-- Both kinds of entry. -/
theorem witness_HandlersStartOnlyWhenAllowed :
    let s := (base Config.confE).setEp 0 ⟨true, .control, true, true, false, false, [], [], []⟩
    let u := { base Config.confE with irq.pendSof := true }
    s.irq.inIsr = false ∧ holds (step s) (fun t => t.irq.inIsr && t.ct.pc == .s1) = true ∧
    u.irq.inIsr = false ∧ holds (step u) (fun t => t.irq.inIsr && t.ft.pc == .f1) = true := by decide

/-- A SEND is in progress while the frame handler runs; so is the mainline's write of `IE`, which waits. -/
theorem witness_MainlineWaitsForTheHandler :
    let s := { confd Config.confE with irq.inIsr := true, ft.pc := .f5, be.pc := .sndLoop, io.inputs := [.ie false] }
    s.irq.inIsr = true ∧ holds (step s) (fun t => t.ft.pc == .exit && t.be.pc == .sndLoop && t.irq.ie) = true := by
  decide

theorem witness_ConfigurationHasTwoWriters :
    let s := atS4 ⟨0, 9, 7, 0, 0, 0, 0, 0⟩ (base Config.confE)
    let u := { confd Config.confE with irq.inIsr := true, ft := ⟨.f2, true, false, 0⟩ }
    holds (step s) (fun t => t.dev.cfg != s.dev.cfg) = true ∧ holds (step u) (fun t => t.dev.cfg != u.dev.cfg) = true := by
  decide

/-- SET_ADDRESS at S4; its wait, which ends here; the end of a bus reset; a held wait of a handler. -/
theorem witness_AddressHasTwoWriters :
    let s := atS4 ⟨0, 5, 7, 0, 0, 0, 0, 0⟩ (base Config.confE)
    let w := { s with ct.pc := .s4SetaddrWait, ct.todo := [.waitIn, .setAddress 7] }
    let u := { confd Config.confE with dev.addrEn := true, io.inputs := [.env .eor] }
    let h := { inCall (base Config.confE) with io.held := [.waitIn] }
    (PendingOk s ∧ holds (step s) (fun t => t.dev.addr == 7 && t.dev.addrEn) = true) ∧
    (PendingOk w ∧ holds (step w) (fun t => t.dev.addr == 7 && t.dev.addrEn) = true) ∧
    (PendingOk u ∧ holds (step u) (fun t => !t.dev.addrEn) = true) ∧
    (PendingOk h ∧ holds (step h) (fun t => t.io.held == [] && !t.dev.addrEn) = true) := by
  refine ⟨⟨⟨by decide, by decide, by decide, ?_⟩, by decide⟩, ⟨⟨by decide, by decide, by decide, ?_⟩, by decide⟩,
    ⟨⟨by decide, by decide, by decide, ?_⟩, by decide⟩, ⟨⟨by decide, by decide, by decide, ?_⟩, by decide⟩⟩
  · intro a ha; exact absurd ha List.not_mem_nil
  · intro a ha
    have e : a = 7 := by
      have := List.mem_of_ne_of_mem (by simp) ha
      simpa using this
    subst e
    exact ⟨rfl, rfl, ⟨false, 0, 7, 0, 0, 0⟩, by decide, by decide⟩
  · intro a ha; exact absurd ha List.not_mem_nil
  · intro a ha; exact absurd ha List.not_mem_nil

theorem witness_SequencersRestoreSelector :
    let s := { withData 3 [1] (confd confS) with sel := 5, irq.inIsr := true, ft.pc := .f3 }
    let u := { quiet Config.confE with sel := 5, be := ⟨.sndChunk, 3, 1, 0, 0, 4, 250, 4, 0, 0⟩ }
    holds (ftStep s) (fun t => t.txlogOf 3 == [[1]] && t.sel == 5) = true ∧
    holds (beStep u) (fun t => (t.ep 3).data == [0, 0, 0, 0] && t.sel == 5) = true := by decide

theorem witness_SpuriousEntryReturns :
    let s := { base Config.confE with sel := 3, irq.inIsr := true, ct.pc := .s1 }
    s.ct.pc = .s1 ∧ (s.ep 0).setup = false := by decide

/-- S2, S1, S3 with `dir = 1`, S3 with `dir = 0`. -/
theorem witness_SetupPacketIsParsed :
    (let p : SetupPacket := ⟨0x80, 6, 0, 1, 0, 0, 0x12, 0⟩
     let s := { (base Config.confE).setEp 0 ⟨true, .control, true, true, false, false, p.bytes, [], []⟩ with ct.pc := .s2 }
     s.ct.pc = .s2 ∧ s.sel = 0 ∧ s.controlOn ∧ (s.ep 0).data = p.bytes) ∧
    (let s := { (base Config.confE).setEp 0 ⟨true, .control, true, true, false, false, [], [], []⟩ with ct.pc := .s1 }
     s.ct.pc = .s1 ∧ s.controlOn ∧ (s.ep 0).setup = true) ∧
    (let s := { atS4 ⟨0x80, 6, 0, 1, 0, 0, 0x12, 0⟩ (base Config.confE) with ct.pc := .s3 }
     s.ct.pc = .s3 ∧ s.latch.valid = true ∧ s.sel = 0 ∧ s.controlOn ∧ s.latch.packet.dir = true) ∧
    (let s := { atS4 ⟨0, 9, 1, 0, 0, 0, 0, 0⟩ (base Config.confE) with ct.pc := .s3 }
     s.ct.pc = .s3 ∧ s.latch.valid = true ∧ s.sel = 0 ∧ s.controlOn ∧ s.latch.packet.dir = false ∧
       (s.ep 0).inRdy = true ∧ (s.ep 0).inQ = []) ∧
    (let s := { atS4 ⟨0x80, 6, 0, 1, 0, 0, 0x12, 0⟩ (base Config.confE) with ct.pc := .s3Wait }
     s.ct.pc = .s3Wait ∧ s.sel = 0 ∧ s.controlOn) := by decide

/-- S5 after success with and without a bank, S5 after a failure, the return. -/
theorem witness_HandlerCompletes :
    (let s := { base Config.confE with ct := ⟨.s5, [], .ok, 0, 0⟩ }
     s.ct.pc = .s5 ∧ s.ct.result = .ok ∧ s.sel = 0 ∧ s.controlOn ∧ (s.ep 0).inRdy = true ∧ (s.ep 0).inQ = []) ∧
    (let s := { (base Config.confE).setEp 0 ⟨true, .control, false, false, false, false, [], [[]], []⟩ with
        ct := ⟨.s5, [], .ok, 0, 0⟩ }
     s.ct.pc = .s5 ∧ s.ct.result = .ok ∧ s.sel = 0 ∧ s.controlOn ∧ (s.ep 0).inRdy = false) ∧
    (let s := { base Config.confE with ct := ⟨.s5, [], .fail .fKind, 0, 0⟩ }
     s.ct.pc = .s5 ∧ s.ct.result = .fail .fKind ∧ s.sel = 0) ∧
    ({ base Config.confE with ct.pc := .exit } : State).ct.pc = .exit := by decide

/-- Recipient endpoint, `wIndex` 0x81, `wLength` 65535; and `wLength` 0. -/
theorem witness_GetStatusIsServed :
    (let p : SetupPacket := ⟨0x82, 0, 0, 0, 0x81, 0, 0xFF, 0xFF⟩
     let s := { base Config.confE with io.inputs := [.env (.setup p)] }
     p.dir = true ∧ p.kind = 0 ∧ p.bRequest = 0 ∧ p.wLength = 65535 ∧
       s.controlOn ∧ (s.ep 0).setup = false ∧ s.irq.ie = true ∧ s.irq.inIsr = false ∧ s.irq.ienSetup0 = true ∧
       s.irq.pendEor = false ∧ s.irq.pendSof = false ∧ s.ct.pc = .idle ∧ s.ft.pc = .idle ∧ s.io.held = [] ∧
       s.io.inputs = [.env (.setup p)]) ∧
    (let p : SetupPacket := ⟨0x82, 0, 0, 0, 0x81, 0, 0, 0⟩
     p.dir = true ∧ p.kind = 0 ∧ p.bRequest = 0 ∧ p.wLength = 0) := by decide

/-- `EmitFits` at its bound: 61 bytes in the bank and two to come; and with limit 0, no bank being needed. -/
theorem witness_ConstantAnswers :
    EmitFits { withData 0 (List.replicate 61 0) (base Config.confE) with cursor := ⟨0, 2⟩ } [0, 0] ∧
    EmitFits { State.reset with cursor := ⟨0xFFFE, 0⟩ } [1] ∧
    (let s := { (base Config.confE).setEp 0 ⟨true, .control, false, false, false, false, [], [[]], []⟩ with
        cursor := ⟨0, 1⟩ }
     s.sel = 0 ∧ s.controlOn ∧ (s.ep 0).inRdy = false ∧ s.cursor.pos.toNat < s.cursor.lim.toNat) :=
  ⟨⟨by decide, by decide, by decide⟩, ⟨by decide, by decide, by decide⟩, by decide⟩

/-- The status packet collected, and not yet. -/
theorem witness_SetAddressWaitsThenWrites :
    (let s := base Config.confE
     s.sel = 0 ∧ s.controlOn ∧ (s.ep 0).inRdy = true) ∧
    (let s := (base Config.confE).setEp 0 ⟨true, .control, false, false, false, false, [], [[]], []⟩
     s.sel = 0 ∧ s.controlOn ∧ (s.ep 0).inRdy = false) := by decide

theorem witness_SetConfigurationInitialises :
    ({ req0 with recipient := 0 } : Req).recipient = 0 ∧ ({ req0 with recipient := 1 } : Req).recipient ≠ 0 := by decide

theorem witness_RequestsThatOnlyAnswer :
    (base Config.confE).conf.unlistedOk = true ∧ (base { Config.confE with unlistedOk := false }).conf.unlistedOk = false := by
  decide

/-- Interface 1 is S's, 2 is nobody's; answers of each form of the statement, with the host's packet in the bank. -/
theorem witness_ClassRequestsReachTheOwner :
    ((confS.collabs.map fun c => c.nif.toNat).sum ≤ (lo8 (2 : Word16)).toNat) ∧
    ((([] : List Collab).map fun c => c.nif.toNat).sum ≤ (lo8 (1 : Word16)).toNat ∧
      (lo8 (1 : Word16)).toNat < (([] : List Collab).map fun c => c.nif.toNat).sum + (2 : Byte).toNat) ∧
    (∃ c, confS.collabs = [] ++ c :: [] ∧ c.nif = 2) ∧
    ({ base confS with io.answers := [⟨[], true⟩] } : State).io.answers = ⟨[], true⟩ :: [] ∧
    EmitFits { base confS with cursor := ⟨0, 8⟩ } [1, 2] ∧
    ((base confS).sel = 0 ∧ (base confS).controlOn ∧ ((base confS).ep 0).outRdy = false) ∧
    (let s := controlOut [1, 2, 3] (base confS)
     s.sel = 0 ∧ s.controlOn ∧ (s.ep 0).outRdy = true ∧ (s.ep 0).outQ = [] ∧ (3 : Byte).toNat ≤ (s.ep 0).data.length ∧
       (s.ep 0).setup = false ∧ (s.ep 0).stall = false ∧ (s.ep 0).inRdy = true ∧
       (List.replicate 62 (0 : Byte)).length + [(9 : Byte)].length < 64) ∧
    (((6 : EpIdx) ≠ 0 ∧ (6 : EpIdx).toNat < (base confS).conf.nEp) ∧ ((7 : EpIdx) ≠ 0 ∧ ¬ (7 : EpIdx).toNat < (base confS).conf.nEp)) :=
  ⟨by decide, by decide, ⟨⟨.serialLike 3 2, (List.range 58).map (BitVec.ofNat 8), 2⟩, rfl, rfl⟩, rfl,
    ⟨by decide, by decide, by decide⟩, by decide, by decide, by decide⟩

/-- The 18 bytes fit, latched or not. -/
theorem witness_DeviceDescriptor :
    EmitFits (atS4 ⟨0x80, 6, 0, 1, 0, 0, 0x12, 0⟩ (base Config.confE)) (List.replicate 18 0) ∧
    ({ req0 with wValueH := 1, wLength := 8 } : Req).wValueH = 1 ∧
    (({ req0 with wValueH := 1, wLength := 8 } : Req).wLength == 8) = true :=
  ⟨⟨by decide, by decide, by decide⟩, by decide⟩

theorem witness_StringDescriptor :
    Config.confE.wf = true ∧ EmitFits (atS4 ⟨0x80, 6, 2, 3, 9, 4, 0xFF, 0⟩ (base Config.confE)) (List.replicate 8 0) ∧
    ((2 : Byte) ≠ 0 ∧ 2 = Config.confE.iProduct) ∧
    ((1 : Byte) ≠ 0 ∧ 1 ≠ Config.confE.iProduct ∧ 1 = Config.confE.iManufacturer) ∧
    ((3 : Byte) ≠ 0 ∧ 3 ≠ Config.confE.iProduct ∧ 3 ≠ Config.confE.iManufacturer) :=
  ⟨by decide, ⟨by decide, by decide, by decide⟩, by decide⟩

/-- CONF-S, `wLength = 9`: 58 bytes of body, 67 in all, 9 transmitted; and a body of 65527 bytes, one too many. -/
theorem witness_ConfigurationDescriptor :
    (confS.collabs.map fun c => c.ifDesc).flatten.length + 9 ≤ 65535 ∧
    EmitFits { base confS with cursor := ⟨0, 9⟩, ct.measured := 58, ct.nifTotal := 2 } (List.replicate 67 0) ∧
    ∃ c : Collab, 65535 < ([c].map fun c => c.ifDesc).flatten.length + 9 :=
  ⟨by decide, ⟨by decide, by decide, by decide⟩, ⟨.hidLike, List.replicate 65527 0, 1⟩, by
    simp only [List.map_cons, List.map_nil, List.flatten_cons, List.flatten_nil, List.append_nil, List.length_replicate]
    decide⟩

/-- No HID-like collaborator; two, at places 0 and 2: both fail; the second succeeds, with and without an emission. -/
theorem witness_OtherDescriptor :
    (∀ c ∈ confS.collabs, c.kind ≠ .hidLike) ∧
    (let s := { base confTwoHid with io.answers := [⟨[], false⟩, ⟨[], false⟩] }
     hidIndices s.conf.collabs = [0, 2] ∧ (∀ a ∈ s.io.answers, a.ok = false ∧ a.ops = []) ∧
       s.io.answers.length = (hidIndices s.conf.collabs).length ∧ s.sel = 0) ∧
    (let s := { base confTwoHid with io.answers := [⟨[], false⟩, ⟨[.emit [7]], true⟩] }
     s.io.answers = [⟨[], false⟩] ++ ⟨[.emit [7]], true⟩ :: [] ∧
       [(⟨[], false⟩ : CollabAnswer)].length < (hidIndices s.conf.collabs).length) ∧
    EmitFits { base confTwoHid with cursor := ⟨0, 1⟩ } [7] :=
  ⟨by decide, by decide, by decide, ⟨by decide, by decide, by decide⟩⟩

/-- One byte short of a full bank; 65 bytes of a response of 66; the byte that fills the bank; no free bank; a response
that fills the bank exactly, one that passes it by one, and the wait of the rest. -/
theorem witness_EmissionFollowsTheCursor :
    EmitFits { withData 0 (List.replicate 62 0) (base Config.confE) with cursor := ⟨0, 1⟩ } [9, 9] ∧
    (let s := { base Config.confE with cursor := ⟨0, 65⟩ }
     s.sel = 0 ∧ s.controlOn ∧ (s.ep 0).inRdy = true ∧ (s.ep 0).data = [] ∧
       64 < (List.replicate 66 (0 : Byte)).length ∧ s.cursor.pos.toNat + 64 < s.cursor.lim.toNat) ∧
    (let s := { withData 0 (List.replicate 63 0) (base Config.confE) with cursor := ⟨0xFFFE, 0xFFFF⟩ }
     s.sel = 0 ∧ s.controlOn ∧ (s.ep 0).inRdy = true ∧ (s.ep 0).data.length = 63 ∧
       s.cursor.pos.toNat < s.cursor.lim.toNat) ∧
    (let s := { (base Config.confE).setEp 0 ⟨true, .control, false, false, false, false, [], [[]], []⟩ with
        cursor := ⟨0, 1⟩ }
     s.sel = 0 ∧ s.controlOn ∧ (s.ep 0).inRdy = false ∧ s.cursor.pos.toNat < s.cursor.lim.toNat) ∧
    (let s := { base Config.confE with cursor := ⟨0, 64⟩ }
     s.cursor.pos.toNat + (List.replicate 66 (0 : Byte)).length ≤ 65535 ∧
       (s.ep 0).data.length + (s.sentPart (List.replicate 66 0)).length = 64) ∧
    (let s := { base Config.confE with cursor := ⟨0, 65⟩ }
     64 = 64 - (s.ep 0).data.length ∧ 64 < (s.sentPart (List.replicate 66 0)).length) ∧
    (let s := { (base Config.confE).setEp 0 ⟨true, .control, false, false, false, false, [], [[]], []⟩ with
        cursor := ⟨64, 65⟩, ct.pc := .s4EmitWait, ct.todo := [.emit8 1] }
     s.ct.todo = [(1 : Byte)].map .emit8 ∧ s.sel = 0 ∧ s.controlOn ∧ s.cursor.pos.toNat < s.cursor.lim.toNat ∧
       (s.ep 0).inRdy = false) :=
  ⟨⟨by decide, by decide, by decide⟩, by decide⟩

theorem witness_SelectAndQueries :
    (6 : EpIdx).toNat < (base Config.confE).conf.nEp ∧ (base Config.confE).conf.nEp ≤ (7 : EpIdx).toNat := by decide

/-- An enabled sending and an enabled receiving endpoint, a disabled one, the control endpoint. -/
theorem witness_SpaceQueries :
    let s := confd Config.confE
    ((3 : EpIdx).toNat < s.conf.nEp ∧ (s.ep 3).en = true ∧ (s.ep 3).kind ≠ .control) ∧
    ((2 : EpIdx).toNat < s.conf.nEp ∧ (s.ep 2).en = true ∧ (s.ep 2).kind ≠ .control) ∧
    ((6 : EpIdx).toNat < s.conf.nEp ∧ (s.ep 6).en = false) ∧
    ((0 : EpIdx).toNat < s.conf.nEp ∧ (s.ep 0).en = true ∧ (s.ep 0).kind = .control) := by decide

theorem witness_WaitsHold :
    (let s := base Config.confE
     s.cur.en = true ∧ inCapable s.cur.kind = true ∧ outCapable s.cur.kind = true) ∧
    (let s := { inCall (base Config.confE) with io.held := [.waitIn] }
     s.irq.inIsr = true ∧ s.io.held = [.waitIn] ∧ s.cur.en = true ∧ inCapable s.cur.kind = true) ∧
    (let s := { inCall (base Config.confE) with io.held := [.waitOut] }
     s.io.held = [.waitOut] ∧ outCapable s.cur.kind = true) ∧
    (let s := { inCall (base Config.confE) with cursor := ⟨64, 65⟩, io.held := [.emit8 1] }
     s.irq.inIsr = true ∧ s.io.held = [(1 : Byte)].map .emit8 ∧ s.sel = 0 ∧ s.controlOn ∧ (s.ep 0).inRdy = true ∧
       s.cursor.pos.toNat < s.cursor.lim.toNat) ∧
    (let s := { base Config.confE with io.mainWait := some .inReady }
     s.io.held = [] ∧ s.irq.inIsr = false ∧ s.cur.en = true ∧ s.io.mainWait = some .inReady ∧
       inCapable s.cur.kind = true) ∧
    (let s := { base Config.confE with io.mainWait := some .outReady }
     s.io.mainWait = some .outReady ∧ outCapable s.cur.kind = true) ∧
    (let s := { base Config.confE with io.mainWait := some .inReady, irq.ie := true, irq.spurComm := true }
     s.io.held = [] ∧ s.irq.inIsr = false ∧ s.irq.ie = true ∧ s.io.mainWait ≠ none ∧ commReq s = true ∧
       frameReq s = false) ∧
    (let s := { base Config.confE with
       io.mainWait := some .inReady, irq := ⟨true, false, true, true, true, false, true, false⟩ }
     s.io.mainWait ≠ none ∧ commReq s = false ∧ frameReq s = true) := by decide

/-- A bank with a byte, an empty one; READ_N at 64 and at 0 on a disabled endpoint; WRITE8 at 63 and at 64. -/
theorem witness_FifoAccess :
    (let s := received [7] { confd Config.confE with sel := 2 }
     s.cur.en = true ∧ outCapable s.cur.kind = true ∧ s.cur.data = 7 :: []) ∧
    (let s := { confd Config.confE with sel := 2 }
     s.cur.en = true ∧ outCapable s.cur.kind = true ∧ s.cur.data = []) ∧
    ((64 : Byte).toNat ≤ 64 ∧ ((64 : Byte) ≠ 0 → (base Config.confE).cur.en = true ∧ outCapable (base Config.confE).cur.kind = true)) ∧
    ((0 : Byte).toNat ≤ 64 ∧ ((0 : Byte) ≠ 0 → State.reset.cur.en = true ∧ outCapable State.reset.cur.kind = true)) ∧
    (let s := withData 3 (List.replicate 63 0) { confd Config.confE with sel := 3 }
     s.cur.en = true ∧ inCapable s.cur.kind = true ∧ s.cur.inRdy = true ∧ s.cur.data.length < 64) ∧
    (let s := withData 3 (List.replicate 64 0) { confd Config.confE with sel := 3 }
     s.cur.en = true ∧ inCapable s.cur.kind = true ∧ (s.cur.inRdy = false ∨ 64 ≤ s.cur.data.length)) := by decide

theorem witness_CommitsAndReleases :
    (let s := base Config.confE
     s.cur.en = true ∧ s.cur.kind = .control ∧ s.cur.inRdy = true) ∧
    (let s := { confd Config.confE with sel := 1 }
     s.cur.en = true ∧ s.cur.kind.sends = true ∧ s.cur.inRdy = true) ∧
    (let s := { (confd Config.confE).setEp 3 ⟨true, .bulkIn, false, false, false, false, [], [[], []], []⟩ with sel := 3 }
     s.cur.en = true ∧ s.cur.kind.sends = true ∧ s.cur.inRdy = false) ∧
    (let s := received [7] { confd Config.confE with sel := 2 }
     s.cur.en = true ∧ s.cur.kind = .bulkOut ∧ s.cur.outRdy = true ∧ s.cur.outQ = []) ∧
    (let s := { (confd Config.confE).setEp 2 ⟨true, .bulkOut, false, false, true, false, [1], [], [[2]]⟩ with sel := 2 }
     s.cur.en = true ∧ s.cur.kind = .bulkOut ∧ s.cur.outRdy = true ∧ s.cur.outQ = [2] :: []) ∧
    (let s := base Config.confE
     s.cur.en = true ∧ s.cur.kind = .control ∧ s.cur.outRdy = false) := by decide

theorem witness_FlagAndPulseOperations :
    ((base Config.confE).cur.en = false ∨ (base Config.confE).cur.kind = .control) ∧
    (State.reset.cur.en = false ∨ State.reset.cur.kind = .control) := by decide

theorem witness_InitEndpoint :
    (6 : EpIdx).toNat < (base Config.confE).conf.nEp ∧ (0 : EpIdx).toNat < (base Config.confE).conf.nEp ∧
    (base Config.confE).conf.nEp ≤ (7 : EpIdx).toNat := by
  decide

/-- The highest legal snapshot, the lowest illegal one; an enter with the highest index selected. -/
theorem witness_CriticalSection :
    ({ base Config.confE with crit.main := ⟨⟨true, 6⟩, []⟩ } : State).critCtx.snap.sel.toNat < 7 ∧
    (base Config.confE).conf.nEp = 7 ∧
    (base Config.confE).conf.nEp ≤ ({ base Config.confE with crit.main := ⟨⟨true, 7⟩, []⟩ } : State).critCtx.snap.sel.toNat ∧
    ({ base Config.confE with sel := 6 } : State).sel.toNat < (base Config.confE).conf.nEp ∧
    holds (exec .critEnter { base Config.confE with sel := 6 }) (fun t => !t.irq.ie) = true := by decide

/-- Each clause: an endpoint of each type, a disabled one, endpoint 0 in a command with `CFG = 0`; who may issue;
registers beside those the mainline has; the cursor at its end. -/
theorem witness_MisuseIsRefused :
    (let s := { confd Config.confE with sel := 2 }
     s.cur.en = true ∧ inCapable s.cur.kind = false ∧ s.cur.kind = .bulkOut) ∧
    (let s := { confd Config.confE with sel := 3 }
     s.cur.en = true ∧ outCapable s.cur.kind = false ∧ s.cur.kind.sends = true) ∧
    (let s := confd Config.confE
     s.cur.en = true ∧ s.cur.kind = .control) ∧
    (let s := confd Config.confE
     s.mainlineIdle ∧ (3 : EpIdx).toNat < s.conf.nEp ∧ (s.ep 3).en = true ∧ (s.ep 3).kind.sends = true ∧
       (s.ep 2).kind = .bulkOut ∧ (0x7FFF : Word16).msb = false) ∧
    (State.reset.mainlineIdle ∧ 0 < State.reset.conf.nEp) ∧
    (decodeWord [0x10, 3] = .ok (.select 3, []) ∧ (Instr.select 3).format = .uop ∧ State.reset.irq.inIsr = false ∧
      State.reset.be.pc = .idle ∧ State.reset.ct.pc = .idle ∧ State.reset.io.held = [] ∧ State.reset.io.mainWait = none ∧
      (inCall State.reset).irq.inIsr = true ∧ (inCall State.reset).ct.pc ≠ .idle) ∧
    ((0x25 : Nat) < 0x20 ∨ 0x23 < 0x25) ∧ 5 ≤ (lo8 (BitVec.ofNat 16 5)).toNat ∧
    ¬ ({ quiet Config.confE with be.pc := .sndLoop } : State).mainlineIdle ∧
    (let s := { base Config.confE with cursor := ⟨0xFFFF, 0⟩ }
     s.sel = 0 ∧ s.cursor.pos = 0xFFFF) ∧
    ({ base Config.confE with sel := 1 } : State).sel ≠ 0 ∧ State.reset.cur.en = false := by decide

theorem witness_AttachSequence :
    (State.reset.mainlineIdle ∧ State.reset.power.pwr = false) ∧
    ((base Config.confE).mainlineIdle ∧ (base Config.confE).power.pwr = true) ∧
    ({ State.reset with power := ⟨true, false, false, false, false, .a2⟩ } : State).power.pc = .a2 ∧
    (let s := { State.reset with power := ⟨true, true, true, false, false, .a2Wait⟩ }
     s.power.pc = .a2Wait ∧ s.power.pllLock = false) ∧
    (let s := { State.reset with power := ⟨true, true, true, false, true, .a2Wait⟩ }
     s.power.pc = .a2Wait ∧ s.power.pllLock = true) := by decide

theorem mainlineAlone_quiet : MainlineAlone (quiet Config.confE) :=
  ⟨by decide, by decide, by decide, by decide, by decide⟩

/-- Busy; a payload one byte too long; one that ends at the limit; unconfigured; accepted; length 0. -/
theorem witness_SendIsChecked :
    ¬ ({ quiet Config.confE with be.pc := .sndLoop } : State).mainlineIdle ∧
    (let s := base { Config.confE with bufEnd := some 0x200 }
     s.mainlineIdle ∧ (6 : EpIdx).toNat < s.conf.nEp ∧ (6 : EpIdx) ≠ 0 ∧ (0x101 : Word16).msb = false ∧ s.dev.cfg = 0 ∧
       (s.ep 6).en = false ∧ s.conf.bufEnd = some 0x200 ∧ 0x200 < (0x100 : Word16).toNat + (0x101 : Word16).toNat ∧
       (0x100 : Word16).toNat + (0x100 : Word16).toNat ≤ 0x200) ∧
    (let s := quiet Config.confE
     s.mainlineIdle ∧ s.dev.cfg ≠ 0 ∧ (3 : EpIdx).toNat < s.conf.nEp ∧ (3 : EpIdx) ≠ 0 ∧ (0x7FFF : Word16).msb = false ∧
       s.conf.bufEnd = none ∧ s.conf.romEnd = none ∧
       ((s.ep 3).en = false ∨ (s.ep 3).kind.sends = true ∨ (s.ep 3).kind = .disabled)) ∧
    MainlineAlone (quiet Config.confE) :=
  ⟨by decide, by decide, by decide, mainlineAlone_quiet⟩

/-- One byte, the last of a bounded `BUF`, and exactly the room there is; a second chunk, and each other point of SEND. -/
theorem witness_SendOfOneChunk :
    (let s := withData 3 (List.replicate 63 0) (quiet { Config.confE with bufEnd := some 0x201 })
     s.mainlineIdle ∧ s.dev.cfg ≠ 0 ∧ (3 : EpIdx).toNat < s.conf.nEp ∧ (3 : EpIdx) ≠ 0 ∧ s.conf.bufEnd = some 0x201 ∧
       (0x200 : Word16).toNat + (1 : Word16).toNat ≤ 0x201 ∧ (s.ep 3).en = true ∧ (s.ep 3).kind.sends = true ∧
       (s.ep 3).inRdy = true ∧ 0 < (1 : Word16).toNat ∧ (s.ep 3).data.length + (1 : Word16).toNat ≤ 64) ∧
    MainlineAlone (withData 3 (List.replicate 63 0) (quiet { Config.confE with bufEnd := some 0x201 })) ∧
    (let s := { withData 3 (List.replicate 63 0) (quiet Config.confE) with
       be := ⟨.sndChunk, 3, 0b010, 0x100, 0, 3, 250, 1, 2, 0⟩ }
     s.be.pc = .sndChunk ∧ s.be.sndEp = 3 ∧
       s.be.sndFlags = (BitVec.ofBool false ++ BitVec.ofBool true ++ BitVec.ofBool false : BitVec 3) ∧ (s.ep 3).en = true ∧
       (s.ep 3).kind.sends = true ∧ (s.ep 3).inRdy = true ∧ (s.ep 3).data.length + s.be.sndN.toNat ≤ 64) ∧
    (let s := { quiet Config.confE with be := ⟨.sndSpace, 3, 0, 0x100, 1, 1, 250, 0, 0, 0⟩ }
     s.be.pc = .sndSpace ∧ (s.ep s.be.sndEp).kind.sends = true) ∧
    (let s := { quiet Config.confE with be := ⟨.sndWait, 3, 0, 0x100, 1, 1, 2, 0, 0, 0⟩ }
     s.be.pc = .sndWait ∧ 1 < s.be.sndTmo.toNat) ∧
    ({ quiet Config.confE with be.pc := .sndLoop } : State).be.pc = .sndLoop ∧
    ({ quiet Config.confE with be.pc := .sndArm } : State).be.pc = .sndArm ∧
    ({ quiet Config.confE with be.pc := .sndDone } : State).be.pc = .sndDone :=
  ⟨by decide, ⟨by decide, by decide, by decide, by decide, by decide⟩, by decide, by decide, by decide, rfl, rfl, rfl⟩

/-- A disabled endpoint, no free bank, a full bank. -/
theorem witness_SendTimesOut :
    (let s := quiet Config.confE
     s.mainlineIdle ∧ s.dev.cfg ≠ 0 ∧ (6 : EpIdx).toNat < s.conf.nEp ∧ (6 : EpIdx) ≠ 0 ∧ s.conf.bufEnd = none ∧
       s.conf.romEnd = none ∧ 0 < (0x7FFF : Word16).toNat ∧ (0x7FFF : Word16).msb = false ∧ (s.ep 6).en = false) ∧
    (let s := (quiet Config.confE).setEp 3 ⟨true, .bulkIn, false, false, false, false, [], [[1], [2]], []⟩
     s.mainlineIdle ∧ s.dev.cfg ≠ 0 ∧ (s.ep 3).kind.sends = true ∧ (s.ep 3).inRdy = false) ∧
    (let s := withData 3 (List.replicate 64 0) (quiet Config.confE)
     (s.ep 3).kind.sends = true ∧ 64 ≤ (s.ep 3).data.length) ∧
    MainlineAlone (quiet Config.confE) :=
  ⟨by decide, by decide, by decide, mainlineAlone_quiet⟩

/-- The checks; and the read: a drained bank with and without a queued packet, an empty bank, a disabled endpoint. -/
theorem witness_RecvReadsTheBank :
    ((base Config.confE).mainlineIdle ∧ (base Config.confE).dev.cfg = 0) ∧
    (let s := base { Config.confE with bufEnd := some 0x200 }
     (2 : EpIdx) ≠ 0 ∧ (s.ep 2).en = false ∧ s.conf.bufEnd = some 0x200 ∧ (1 : Word16).msb = false ∧
       0 < (1 : Word16).toNat ∧ 0x200 < (0x200 : Word16).toNat + (1 : Word16).toNat ∧
       (0x1FF : Word16).toNat + (1 : Word16).toNat ≤ 0x200) ∧
    (let s := confd Config.confE
     s.mainlineIdle ∧ (2 : EpIdx).toNat < s.conf.nEp ∧ s.dev.cfg ≠ 0 ∧ (0x8000 : Word16).msb = true ∧
       (0x7FFF : Word16).msb = false ∧ (s.ep 2).kind = .bulkOut ∧ s.conf.bufEnd = none) ∧
    (let s := { received [3] (confd Config.confE) with be.pc := .rcvCrit, port := ⟨2, 2, 0x200, 1, 0⟩ }
     s.be.pc = .rcvCrit ∧ (2 : EpIdx) = s.port.epf.extractLsb' 0 3 ∧ memoryOk s ∧ (s.ep 2).kind = .bulkOut ∧
       (s.ep 2).data.length ≤ 64 ∧ 1 = min (if (s.ep 2).en then (s.ep 2).data.length else 0) s.port.len.toNat ∧
       (s.ep 2).outRdy = true ∧ (s.ep 2).outQ = []) ∧
    (let s := { (confd Config.confE).setEp 2 ⟨true, .bulkOut, false, false, true, false, [1], [], [[2]]⟩ with
        be.pc := .rcvCrit, port := ⟨2, 2, 0x200, 8, 0⟩ }
     1 = min (if (s.ep 2).en then (s.ep 2).data.length else 0) s.port.len.toNat ∧ (s.ep 2).outQ = [2] :: []) ∧
    (let s := { confd Config.confE with be.pc := .rcvCrit, port := ⟨2, 6, 0x200, 8, 0⟩ }
     (6 : EpIdx) = s.port.epf.extractLsb' 0 3 ∧ (s.ep 6).en = false ∧
       0 = min (if (s.ep 6).en then (s.ep 6).data.length else 0) s.port.len.toNat) := by decide

theorem witness_AvailableReportsTheCount :
    let s := confd Config.confE
    s.mainlineIdle ∧ (2 : EpIdx).toNat < s.conf.nEp ∧ (2 : EpIdx) ≠ 0 ∧ (s.ep 2).kind ≠ .control ∧
    ((6 : EpIdx).toNat < s.conf.nEp ∧ (s.ep 6).en = false) := by decide

/-- A disabled endpoint, an empty bank, a bank with a byte. -/
theorem witness_FlushCommitsAPartialBank :
    (confd Config.confE).mainlineIdle ∧ (6 : EpIdx) ≠ 0 ∧ ((confd Config.confE).ep 6).en = false ∧
    (((confd Config.confE).ep 3).en = true ∧ ((confd Config.confE).ep 3).kind.sends = true ∧
      ((confd Config.confE).ep 3).data = []) ∧
    (let s := withData 3 [1] (confd Config.confE)
     (s.ep 3).en = true ∧ (s.ep 3).kind.sends = true ∧ (s.ep 3).data ≠ [] ∧ (s.ep 3).inRdy = true) := by decide

/-- Each event, alone and against the order; no delivery; both requested under each order; none requested. -/
theorem witness_EventsEnterTheHandler :
    (let s := { (base { Config.confE with irqOrder := .frameFirst }).setEp 0
        ⟨true, .control, true, true, false, false, [], [], []⟩ with irq.ienSetup0 := true }
     s.irq.ie = true ∧ s.irq.inIsr = false ∧ frameReq s = false ∧ s.irq.ienSetup0 = true ∧ (s.ep 0).setup = true) ∧
    (let s := { base Config.confE with irq.spurComm := true }
     s.irq.ie = true ∧ s.irq.inIsr = false ∧ s.conf.irqOrder ≠ .frameFirst ∧ s.irq.spurComm = true ∧
       (s.ep 0).setup = false) ∧
    (let s := { base { Config.confE with irqOrder := .commFirst } with irq.pendSof := true, irq.pendEor := true }
     s.irq.ie = true ∧ s.irq.inIsr = false ∧ commReq s = false ∧ s.irq.ienSof = true ∧ s.irq.pendSof = true ∧
       s.irq.ienEor = true ∧ s.irq.pendEor = true) ∧
    (State.reset.irq.ie = false ∨ State.reset.irq.inIsr = true) ∧
    (∀ o ∈ [IrqOrder.frameFirst, .commFirst, .any],
      let s := { (base { Config.confE with irqOrder := o }).setEp 0
          ⟨true, .control, true, true, false, false, [], [], []⟩ with irq.pendSof := true }
      commReq s = true ∧ frameReq s = true ∧ s.conf.irqOrder = o) ∧
    (commReq State.reset = false ∧ frameReq State.reset = false) := by decide

/-- F1; F2 with and without the flag; F3 and F4 without a serial-like collaborator, and with one behind a HID-like one;
F3 with an empty bank and with a byte; F4 with nothing buffered, unconfigured, with two bytes, and with the last byte of
a packet, alone and with a queued packet. -/
theorem witness_FrameHandlerSteps :
    ({ base Config.confE with ft.pc := .f1 } : State).ft.pc = .f1 ∧
    (let s := { base Config.confE with ft := ⟨.f2, true, true, 0⟩ }
     s.ft.pc = .f2 ∧ s.ft.eor = true) ∧
    (let s := { base Config.confE with ft := ⟨.f2, false, true, 0⟩ }
     s.ft.pc = .f2 ∧ s.ft.eor = false) ∧
    (∀ c ∈ confH.collabs, c.kind = .hidLike) ∧
    (∃ c, confTwoHid.collabs = [⟨.hidLike, [1], 1⟩] ++ c :: [⟨.hidLike, [3], 1⟩] ∧ c.kind = .serialLike 3 2) ∧
    (let s := { confd confTwoHid with ft.pc := .f3 }
     (3 : EpIdx).toNat < s.conf.nEp ∧ (3 : EpIdx) ≠ 0 ∧ (s.ep 3).en = true ∧ (s.ep 3).kind.sends = true ∧ (s.ep 3).data = []) ∧
    (let s := { withData 3 [1] (confd confTwoHid) with ft.pc := .f3 }
     (s.ep 3).data ≠ [] ∧ (s.ep 3).inRdy = true) ∧
    (let s := { confd confTwoHid with ft.pc := .f4 }
     (2 : EpIdx).toNat < s.conf.nEp ∧ (2 : EpIdx) ≠ 0 ∧ (s.ep 2).en = true ∧ (s.ep 2).kind = .bulkOut ∧ (s.ep 2).data = []) ∧
    (let s := { received [1, 2] (confd confS) with ft.pc := .f4, dev.cfg := 0 }
     (s.ep 2).data ≠ [] ∧ s.dev.cfg = 0) ∧
    (let s := { received [1, 2] (confd confS) with ft.pc := .f4 }
     (s.ep 2).data = 1 :: [2] ∧ s.dev.cfg ≠ 0) ∧
    (let s := { received [1] (confd confS) with ft.pc := .f4 }
     (s.ep 2).data = 1 :: [] ∧ (s.ep 2).outRdy = true ∧ (s.ep 2).outQ = []) ∧
    (let s := (confd confS).setEp 2 ⟨true, .bulkOut, false, false, true, false, [1], [], [[2]]⟩
     (s.ep 2).data = 1 :: [] ∧ (s.ep 2).outRdy = true ∧ (s.ep 2).outQ = [2] :: []) :=
  ⟨by decide, by decide, by decide, by decide, ⟨⟨.serialLike 3 2, [2], 1⟩, rfl, rfl⟩, by decide, by decide, by decide,
    by decide, by decide, by decide, by decide⟩

/-- Each move with its precondition met, and at each way it fails. -/
theorem witness_EnvironmentMoves :
    (((base Config.confE).ep 0).en = true ∧ (base Config.confE).ct.pc = .idle) ∧
    ({ base Config.confE with ct.pc := .s5 } : State).ct.pc ≠ .idle ∧
    (State.reset.ep 0).en = false ∧
    (((base Config.confE).setEp 3 ⟨true, .bulkIn, false, false, false, false, [], [[1], [2]], []⟩).ep 3).inQ = [1] :: [[2]] ∧
    ((base Config.confE).ep 3).inQ = [] ∧
    (let s := confd Config.confE
     (2 : EpIdx) ≠ 0 ∧ (s.ep 2).en = true ∧ (s.ep 2).kind = .bulkOut ∧ (s.ep 2).stall = false ∧
       (List.replicate 64 (0 : Byte)).length ≤ 64 ∧ (s.ep 2).outRdy = false) ∧
    (let s := received [1] (confd Config.confE)
     (s.ep 2).outRdy = true ∧ (s.ep 2).outQ = []) ∧
    (let s := (confd Config.confE).setEp 2 ⟨true, .bulkOut, false, false, true, false, [1], [], [[2]]⟩
     (s.ep 2).outRdy = true ∧ (s.ep 2).outQ ≠ []) ∧
    (let s := base Config.confE
     s.controlOn ∧ (s.ep 0).stall = false ∧ (s.ep 0).outRdy = false ∧ (s.ep 0).setup = false ∧ (s.ep 0).data = []) ∧
    ((withData 0 [1] (base Config.confE)).ep 0).data ≠ [] ∧
    (((confd Config.confE).ep 3).kind.sends = true ∧ 64 < (List.replicate 65 (0 : Byte)).length) ∧
    (let s := confd Config.confE
     s.power.attachEn = true ∧ s.ct.pc = .idle ∧ s.be.pc = .idle) ∧
    ({ confd Config.confE with be.pc := .sndLoop } : State).be.pc ≠ .idle ∧ State.reset.power.attachEn = false := by decide

end Sys2Proof.Tests
end

section
/-! PROOFS. The scope: what a step writes to `RES` (R12, R125), and the state after reset (R341, R342). -/

namespace Sys2Proof.Machine

/-! ## The writers of `RES` -/

theorem EndpointOk.cnt_le {e : EpIdx} {p : Endpoint} (h : EndpointOk e p) : p.cnt ≤ 64 := by
  have hd : p.data.length ≤ 64 := h.dataBound
  simp only [Endpoint.cnt]; split <;> omega

theorem resultOk_sentinel : resultOk Config.failResult := .inl rfl

/-- AVAILABLE's result: a byte count within the bank (R46, R253). -/
theorem EndpointOk.resultOk_cnt {e : EpIdx} {p : Endpoint} (h : EndpointOk e p) :
    resultOk (BitVec.ofNat 16 p.cnt) := by
  have hc := h.cnt_le
  right
  rw [BitVec.toNat_ofNat, Nat.mod_eq_of_lt (by omega)]
  omega

/-- RECV's result: `RCV_N` has 7 bits (R32, R250). -/
theorem resultOk_setWidth (n : BitVec 7) : resultOk (n.setWidth 16) := by
  right
  have hn := n.isLt
  rw [BitVec.toNat_setWidth, Nat.mod_eq_of_lt (by omega)]
  omega

@[simp] theorem atStep_port (s : State) : (atStep s).port = s.port := by
  simp only [atStep]; repeat' split
  all_goals rfl

@[simp] theorem enterHandler_port (src : IrqSource) (s : State) : (enterHandler src s).port = s.port := by
  cases src <;> rfl

theorem flushCrit_port (e : EpIdx) (s : State) : (flushCrit e s).port = s.port := by
  obtain ⟨⟨v, g, hv⟩, -⟩ := flushCrit_eps e s
  rw [hv]

/-- The bulk engine writes `RES` where a SEND times out or is done, and where a RECV ends (R244, R245, R250). -/
theorem beStep_res {s t : State} (htotal : s.be.pc = .sndDone → s.be.sndTotal.toNat < 32768)
    (h : beStep s = .next t) : t.port.res = s.port.res ∨ resultOk t.port.res := by
  cases hpc : s.be.pc <;> simp only [beStep, hpc] at h
  case idle => cases h; exact .inl rfl
  case sndLoop => cases h; simp only [sndLoop]; split <;> exact .inl rfl
  case sndSpace =>
    simp only [sndSpace, spaceCrit_eq] at h
    repeat' split at h
    all_goals cases h
    all_goals exact .inl rfl
  case sndWait =>
    cases h
    simp only [sndWait]; split
    · exact .inr resultOk_sentinel
    · exact .inl rfl
  case sndChunk =>
    simp only [sndChunk] at h
    split at h
    · rename_i u hu
      obtain ⟨⟨v, g, rfl⟩, -⟩ := chunkCrit_eps hu
      cases h; exact .inl rfl
    · cases h; exact .inl rfl
    · cases h
  case sndArm => cases h; exact .inl rfl
  case sndDone => cases h; exact .inr (.inr (htotal hpc))
  case rcvCrit =>
    simp only [rcvCritStep, recvCrit_eq] at h
    split at h <;> cases h
    exact .inl rfl
  case rcvArm => cases h; exact .inr (resultOk_setWidth s.be.rcvN)

/-- The issue of a command writes `RES` where SEND or RECV fails its check, and for AVAILABLE (R244, R250, R253). -/
theorem exec_cmd_res {i : Instr} {s t : State} (hf : i.format = .cmd) (hs : endpointsOk s) (h : exec i s = .next t) :
    t.port.res = s.port.res ∨ resultOk t.port.res := by
  cases i <;> simp only [Instr.format, reduceCtorEq] at hf <;> simp only [exec] at h
  case attach =>
    simp only [execAttach] at h
    repeat' split at h
    all_goals cases h
    exact .inl rfl
  case send =>
    simp only [execSend] at h
    repeat' split at h
    all_goals cases h
    · exact .inr resultOk_sentinel
    · exact .inl rfl
  case recv =>
    simp only [execRecv] at h
    repeat' split at h
    all_goals cases h
    · exact .inr resultOk_sentinel
    · exact .inr resultOk_sentinel
    · exact .inl rfl
  case available e f =>
    simp only [execAvailable, countCrit_eq] at h
    repeat' split at h
    all_goals cases h
    exact .inr (hs e).resultOk_cnt
  case flush e f =>
    simp only [execFlush] at h
    repeat' split at h
    all_goals cases h
    exact .inl (by rw [flushCrit_port])

/-- Settles O17: of the agents that can move, only the bulk engine and the issue of a command write `RES`. -/
theorem resultStaysCountOrSentinel : Obligations.ResultStaysCountOrSentinel := by
  intro s t hends hsend h
  obtain ⟨rest, hcase⟩ := step_frames h
  cases hcase with
  | held u more isHeld run frame bounds eq => subst eq; exact .inl (congrArg Port.res frame.port)
  | stays eq => subst eq; exact .inl rfl
  | control isr free runs move frame => exact .inl (congrArg Port.res frame.port)
  | tick isr free other move frame => exact .inl (congrArg Port.res frame.port)
  | entry src n noIsr enabled request eq => subst eq; exact .inl (by rw [enterHandler_port])
  | waited noIsr isWaiting eq => subst eq; exact .inl rfl
  | bulk noIsr noWait runs move frame =>
    have htotal : s.be.pc = .sndDone → s.be.sndTotal.toNat < 32768 := fun hpc => hsend.total (by rw [hpc]; rfl)
    exact beStep_res (s := s.afterEntry rest) htotal move
  | attach noIsr noWait other eq => subst eq; exact .inl (by rw [atStep_port])
  | env m entry move frame => exact .inl (congrArg Port.res frame.port)
  | operation i kind free allowed word move frame => exact .inl (congrArg Port.res frame.port)
  | command i kind noIsr move frame => exact exec_cmd_res (s := s.afterEntry rest) kind hends move
  | enable noIsr v eq => subst eq; exact .inl rfl
  | store noIsr a b eq => subst eq; exact .inl rfl
  | peek noIsr r eq => subst eq; exact .inl rfl
  | port noIsr notBusy e p l eq => subst eq; exact .inl rfl

/-! ## The state after reset -/

theorem nEp_pos_of_wf {c : Conf} (h : c.wf = true) : 1 ≤ c.nEp := by
  simp only [Conf.wf, Bool.and_eq_true, decide_eq_true_eq] at h
  obtain ⟨⟨⟨⟨hpos, -⟩, -⟩, -⟩, -⟩ := h
  exact hpos

@[simp] theorem ep_resetWith (c : Conf) (e : EpIdx) : (State.resetWith c).ep e = Endpoint.off := by
  simp [State.ep, State.resetWith]

theorem endpointsOk_resetWith (c : Conf) : endpointsOk (State.resetWith c) := fun e => by
  rw [ep_resetWith]; exact EndpointOk.off e

theorem handlersOk_of_idle {s : State} (hisr : s.irq.inIsr = false) (hct : s.ct.pc = .idle) (hft : s.ft.pc = .idle) :
    handlersOk s := by
  simp [handlersOk, hisr, hct, hft]

/-- SEND's accounts ask for nothing while the bulk engine is at IDLE. -/
theorem sendOk_of_idle {s : State} (h : s.be.pc = .idle) : SendOk s := by
  constructor <;> simp [h, BePoint.sending]

/-- Nothing waits to be done while neither the control handler nor a held word has anything left. -/
theorem pendingOk_of_empty {s : State} (hpc : s.ct.pc = .idle) (htodo : s.ct.todo = []) (hheld : s.io.held = []) :
    PendingOk s where
  context := fun h => absurd hpc h
  heldContext := fun h => absurd hheld h
  heldKind := by simp [hheld]
  address := by simp [htodo]

/-- Settles O9, one invariant after the other. -/
theorem resetMeetsTheInvariants : Obligations.ResetMeetsTheInvariants := by
  intro c p crit be port buf result measured nifTotal eor sof tmp hc hbe hbuf s
  have hpos : 1 ≤ c.nEp := nEp_pos_of_wf hc
  have hsel : SelectorOk s := ⟨hpos, hpos⟩
  have hpulses : PulsesOk s := by constructor <;> simp [s, State.resetWith]
  have hhandlers : handlersOk s := handlersOk_of_idle rfl rfl rfl
  have hattach : attachOk s := ⟨rfl, rfl, rfl, rfl, rfl, rfl⟩
  have hlatch : latchOk s := fun h => nomatch h
  exact ⟨hbuf, endpointsOk_resetWith c, hsel, hpulses, hhandlers, hattach, sendOk_of_idle hbe, hlatch,
    pendingOk_of_empty rfl rfl rfl⟩

end Sys2Proof.Machine
end

section
/-! PROOFS. What accesses to the endpoints make of `SEL`, of the transmit log and of the device registers, which the
frame `Outside` leaves open (R58, R63, R185), and where a sequence of them can hold (R11). -/

namespace Sys2Proof.Machine

/-! ## The relation -/

/-- The transmit log only grows (R63). -/
def LogGrows (s t : State) : Prop := ∀ e : EpIdx, s.txlogOf e <+: t.txlogOf e

theorem LogGrows.of_eq {s t : State} (h : t.ghost.txlog = s.ghost.txlog) : LogGrows s t := fun e => by
  simp only [State.txlogOf, h]; exact List.prefix_refl _

theorem LogGrows.trans {s t u : State} (h : LogGrows s t) (k : LogGrows t u) : LogGrows s u :=
  fun e => (h e).trans (k e)

theorem logGrows_commitIn (e : EpIdx) (s : State) : LogGrows s (commitIn e s) := by
  intro f
  simp only [commitIn]
  split
  · rw [State.txlogOf_logTx]
    split
    · subst_vars; exact List.prefix_append _ _
    · exact List.prefix_refl _
  · exact List.prefix_refl _

/-- From `s` to `t` the selector stays legal, the transmit log only grows, and of the device registers the address
alone may be written, with a value of `A`. -/
structure Access (A : Set (BitVec 7)) (s t : State) : Prop where
  sel : SelectorOk s → SelectorOk t
  txlog : LogGrows s t
  dev : t.dev = s.dev ∨ ∃ a ∈ A, t.dev = { s.dev with addr := a, addrEn := true }

theorem SelectorOk.congr {s t : State} (h : SelectorOk s) (hconf : t.conf = s.conf) (hsel : t.sel = s.sel) :
    SelectorOk t :=
  ⟨by rw [hconf]; exact h.some, by rw [hconf, hsel]; exact h.sel⟩

theorem Access.of_same {A : Set (BitVec 7)} {s t : State} (hconf : t.conf = s.conf) (hsel : t.sel = s.sel)
    (hlog : t.ghost.txlog = s.ghost.txlog) (hdev : t.dev = s.dev) : Access A s t :=
  ⟨fun h => h.congr hconf hsel, LogGrows.of_eq hlog, .inl hdev⟩

theorem Access.refl {A : Set (BitVec 7)} (s : State) : Access A s s := .of_same rfl rfl rfl rfl

theorem Access.trans {A : Set (BitVec 7)} {s t u : State} (h : Access A s t) (k : Access A t u) : Access A s u where
  sel := k.sel ∘ h.sel
  txlog := h.txlog.trans k.txlog
  dev := by
    rcases k.dev with hk | ⟨b, hb, hk⟩ <;> rw [hk]
    · exact h.dev
    · refine .inr ⟨b, hb, ?_⟩
      rcases h.dev with hh | ⟨a, -, hh⟩ <;> rw [hh]

theorem Access.mono {A B : Set (BitVec 7)} {s t : State} (h : Access A s t) (hAB : A ⊆ B) : Access B s t :=
  { h with dev := h.dev.imp_right fun ⟨a, ha, hd⟩ => ⟨a, hAB ha, hd⟩ }

/-- Where no address may be written, the device registers stand still. -/
theorem Access.dev_eq {s t : State} (h : Access ∅ s t) : t.dev = s.dev :=
  h.dev.resolve_right fun ⟨_, ha, _⟩ => ha

/-! ## The operations -/

theorem access_setEp (s : State) (e : EpIdx) (p : Endpoint) : Access ∅ s (s.setEp e p) := .of_same rfl rfl rfl rfl

theorem access_setRet (s : State) (r : Ret) : Access ∅ s (s.setRet r) := .of_same rfl rfl rfl rfl

theorem access_bumpCursor (s : State) : Access ∅ s (bumpCursor s) := .of_same rfl rfl rfl rfl

/-- A selection of an endpoint that exists (R141). -/
theorem access_setSel {s : State} {i : EpIdx} (h : i.toNat < s.conf.nEp) : Access ∅ s (s.setSel i) :=
  ⟨fun hs => ⟨hs.some, h⟩, LogGrows.of_eq rfl, .inl rfl⟩

/-- A selection of endpoint 0, which exists in every configuration (R7). -/
theorem access_setSel_zero (s : State) : Access ∅ s (s.setSel 0) :=
  ⟨fun hs => ⟨hs.some, hs.some⟩, LogGrows.of_eq rfl, .inl rfl⟩

theorem access_commitIn (e : EpIdx) (s : State) : Access ∅ s (commitIn e s) where
  sel := fun h => by simp only [commitIn]; split <;> exact h.congr rfl rfl
  txlog := logGrows_commitIn e s
  dev := .inl (by simp only [commitIn]; split <;> rfl)

theorem access_popByte (s : State) : Access ∅ s (popByte s).2 := by
  simp only [popByte]; split <;> exact .of_same rfl rfl rfl rfl

theorem access_popBytes (n : Nat) : ∀ s : State, Access ∅ s (popBytes n s).2 := by
  induction n with
  | zero => exact Access.refl
  | succ n ih => exact fun s => (access_popByte s).trans (ih _)

theorem access_of_eq {s t : State} (h : t = s) : Access ∅ s t := by subst h; exact Access.refl _

theorem access_write8Op (b : Byte) (s : State) : MicroOut.Keeps (Access ∅) s (write8Op b s) := by
  intro t h
  obtain ⟨v, rfl⟩ := write8Op_eps h
  exact .of_same rfl rfl rfl rfl

theorem access_ackInOp (s : State) : MicroOut.Keeps (Access ∅) s (ackInOp s) := by
  simp only [ackInOp]; split
  · exact MicroOut.keeps_refused
  · exact MicroOut.keeps_ok (access_commitIn _ _)

theorem access_readNOp (n : Nat) (s : State) : MicroOut.Keeps (Access ∅) s (readNOp n s) := by
  simp only [readNOp]; repeat' split
  · exact MicroOut.keeps_ok (access_setRet _ _)
  · exact MicroOut.keeps_refused
  · exact MicroOut.keeps_ok ((access_popBytes _ _).trans (access_setRet _ _))

theorem access_transmitOp (b : Byte) (s : State) : MicroOut.Keeps (Access ∅) s (transmitOp b s) := by
  refine MicroOut.keeps_bind (R := Access ∅) Access.trans (fun t h => access_of_eq (waitInOp_eq h)) fun t _ => ?_
  refine MicroOut.keeps_bind (R := Access ∅) Access.trans (access_write8Op b t) fun u _ => ?_
  split
  · exact access_ackInOp u
  · exact MicroOut.keeps_ok (Access.refl u)

theorem access_emit8Op (b : Byte) (s : State) : MicroOut.Keeps (Access ∅) s (emit8Op b s) := by
  simp only [emit8Op]; repeat' split
  · exact MicroOut.keeps_refused
  · exact MicroOut.keeps_refused
  · exact MicroOut.keeps_bind (R := Access ∅) Access.trans (access_transmitOp b s) fun t _ =>
      MicroOut.keeps_ok (access_bumpCursor t)
  · exact MicroOut.keeps_ok (access_bumpCursor s)

theorem access_selectOp (i : EpIdx) (s : State) : MicroOut.Keeps (Access ∅) s (selectOp i s) := by
  simp only [selectOp]; split
  · exact MicroOut.keeps_ok (access_setSel ‹_›)
  · exact MicroOut.keeps_refused

theorem access_envOut (e : EpIdx) (p : Packet) (s : State) : Access ∅ s (envOut e p s) := by
  simp only [envOut]; repeat' split
  · exact Access.refl s
  · exact access_setEp _ _ _
  · exact access_setEp _ _ _

/-- The access of one micro-operation: the address it may write is its own. -/
theorem access_microStep (m : Micro) (s : State) :
    MicroOut.Keeps (Access {a | m = .setAddress a}) s (microStep m s) := by
  have plain : ∀ {o}, MicroOut.Keeps (Access ∅) s o → MicroOut.Keeps (Access {a | m = .setAddress a}) s o :=
    fun h t ht => (h t ht).mono (Set.empty_subset _)
  cases m with
  | emit8 b => exact plain (access_emit8Op b s)
  | waitIn => exact plain fun t h => access_of_eq (waitInOp_eq h)
  | waitOut => exact plain fun t h => access_of_eq (waitOutOp_eq h)
  | readN n =>
    simp only [microStep]; split
    · exact plain (access_readNOp _ s)
    · exact MicroOut.keeps_refused
  | clearOut =>
    simp only [microStep, clearOutOp]; split
    · exact MicroOut.keeps_refused
    · exact plain (MicroOut.keeps_ok (access_setEp _ _ _))
  | select i => exact plain (access_selectOp i s)
  | rawWrite b => exact MicroOut.keeps_refused
  | setAddress a => exact MicroOut.keeps_ok ⟨fun h => h.congr rfl rfl, LogGrows.of_eq rfl, .inr ⟨a, rfl, rfl⟩⟩
  | callReturn =>
    simp only [microStep]; split
    · exact MicroOut.keeps_ok (Access.refl s)
    · exact MicroOut.keeps_refused
  | hostOut e p => exact plain (MicroOut.keeps_ok (access_envOut e p s))

/-! ## Sequences -/

/-- The access of a sequence: the addresses it may write are those it names. -/
theorem access_runMicros (ms : List Micro) (s : State) :
    (∀ t, runMicros ms s = .finished t → Access {a | .setAddress a ∈ ms} s t) ∧
    (∀ rest t, runMicros ms s = .held rest t → Access {a | .setAddress a ∈ ms} s t ∧ rest <:+ ms) := by
  refine runMicros_keeps (R := Access {a | .setAddress a ∈ ms}) Access.refl Access.trans (fun m hm u t ht => ?_) s
  refine (access_microStep m u t ht).mono fun a ha => ?_
  obtain rfl : m = .setAddress a := ha
  exact hm

/-- Only emissions and waits hold (R11, R36). -/
theorem microStep_hold {m : Micro} {s : State} (h : microStep m s = .hold) : m.canHold = true := by
  cases m with
  | emit8 b => rfl
  | waitIn => rfl
  | waitOut => rfl
  | readN n => simp only [microStep, readNOp] at h; repeat' split at h
               all_goals cases h
  | clearOut => simp only [microStep, clearOutOp] at h; split at h <;> cases h
  | select i => simp only [microStep, selectOp] at h; split at h <;> cases h
  | rawWrite b => cases h
  | setAddress a => cases h
  | callReturn => simp only [microStep] at h; split at h <;> cases h
  | hostOut e p => cases h

/-- A sequence holds at an operation that can hold. -/
theorem runMicros_held_head {ms rest : List Micro} {s t : State} (h : runMicros ms s = .held rest t) :
    ∃ m more, rest = m :: more ∧ m.canHold = true := by
  induction ms generalizing s with
  | nil => cases h
  | cons m ms ih =>
    simp only [runMicros] at h
    split at h
    · exact ih h
    · cases h; exact ⟨m, ms, rfl, microStep_hold ‹_›⟩
    · cases h

end Sys2Proof.Machine
end

section
/-! PROOFS. What a request performed at S4, and every other step of the control handler, makes of the fields that the
frame of the handler leaves open: `SEL`, the transmit log, the device registers, `SP` and what waits to be done. -/

namespace Sys2Proof.Machine

/-! ## Running the micro-operations of a request -/

/-- What the micro-operations `ms` of a request, started at `u`, leave: they end at S5, or hold with the rest to do. -/
structure Ran (ms : List Micro) (u t : State) : Prop where
  latch : t.latch = u.latch
  composite : t.dev.composite = u.dev.composite
  cfg : t.dev.cfg = u.dev.cfg
  access : Access {a | .setAddress a ∈ ms} u t
  todo : t.ct.todo = [] ∨
    ∃ m more, t.ct.todo = m :: more ∧ t.ct.todo <:+ ms ∧ m.canHold = true ∧ t.ct.pc = holdPoint t.ct.todo

theorem runRequest_ran {ms : List Micro} {res : CtResult} {u t : State} (h : runRequest ms res u = .next t) :
    Ran ms u t := by
  rcases runRequest_cases h with ⟨v, hv, rfl⟩ | ⟨rest, v, hv, rfl⟩
  · have ho := (outside_runMicros ms u).1 v hv
    have ha := (access_runMicros ms u).1 v hv
    exact ⟨ho.latch, ho.composite, ho.cfg, ha.trans (.of_same rfl rfl rfl rfl), .inl rfl⟩
  · have ho := (outside_runMicros ms u).2 rest v hv
    obtain ⟨ha, hsuffix⟩ := (access_runMicros ms u).2 rest v hv
    obtain ⟨m, more, rfl, hm⟩ := runMicros_held_head hv
    exact ⟨ho.latch, ho.composite, ho.cfg, ha.trans (.of_same rfl rfl rfl rfl), .inr ⟨m, more, rfl, hsuffix, hm, rfl⟩⟩

/-- A SET_ADDRESS that holds, holds at its wait: what is left is the whole of it. -/
theorem suffix_of_setAddress {a : BitVec 7} {m : Micro} {more : List Micro} (hm : m.canHold = true)
    (h : m :: more <:+ [.waitIn, .setAddress a]) : m :: more = [.waitIn, .setAddress a] := by
  rcases List.suffix_cons_iff.1 h with h | h
  · exact h
  · rcases List.suffix_cons_iff.1 h with h | h
    · cases h; cases hm
    · simp at h

/-- What waits after a request ran is the write of the address behind its wait (R185), where it names one at all. -/
theorem Ran.address {ms : List Micro} {u t : State} (h : Ran ms u t) {a : BitVec 7} (hms : ms = [.waitIn, .setAddress a])
    (hb : ∃ b, Micro.setAddress b ∈ t.ct.todo) :
    t.ct.pc = .s4SetaddrWait ∧ t.ct.todo = [.waitIn, .setAddress a] := by
  obtain ⟨b, hb⟩ := hb
  rcases h.todo with htodo | ⟨m, more, htodo, hsuffix, hm, hpc⟩
  · simp [htodo] at hb
  · have hall : t.ct.todo = [.waitIn, .setAddress a] := by
      rw [htodo, hms] at hsuffix
      rw [htodo]; exact suffix_of_setAddress hm hsuffix
    rw [hall] at hpc
    exact ⟨hpc, hall⟩

theorem Ran.mem_of_todo {ms : List Micro} {u t : State} (h : Ran ms u t) {m : Micro} (hm : m ∈ t.ct.todo) : m ∈ ms := by
  rcases h.todo with htodo | ⟨_, _, _, hsuffix, _⟩
  · simp [htodo] at hm
  · exact hsuffix.subset hm

/-! ## Where the micro-operations of a request start -/

/-- `ms` writes no address. -/
abbrev NoAddress (ms : List Micro) : Prop := ∀ a, Micro.setAddress a ∉ ms

theorem noAddress_nil : NoAddress [] := fun _ => List.not_mem_nil

theorem noAddress_emits (bs : List Byte) : NoAddress (bs.map .emit8) := by
  simp [NoAddress]

theorem noAddress_append {ms ns : List Micro} (hm : NoAddress ms) (hn : NoAddress ns) : NoAddress (ms ++ ns) :=
  fun a h => (List.mem_append.1 h).elim (hm a) (hn a)

/-- A collaborator never writes the address (R192). -/
theorem noAddress_answerMicros (x : CollabAnswer) : NoAddress (answerMicros x) := by
  intro a h
  simp only [answerMicros, List.mem_append, List.mem_flatMap, List.mem_singleton, reduceCtorEq, or_false] at h
  obtain ⟨op, -, h⟩ := h
  cases op <;> simp [collabMicros] at h

/-- The micro-operations `ms` of the request `i` start at `u`, which is `s` but for the cursor, CFG and COMPOSITE, the
endpoints that SET_CONFIGURATION initialises, the working registers, the call log and the oracle's answers. -/
structure RequestStart (i : Instr) (ms : List Micro) (s u : State) : Prop where
  conf : u.conf = s.conf
  sel : u.sel = s.sel
  latch : u.latch = s.latch
  txlog : u.ghost.txlog = s.ghost.txlog
  addr : u.dev.addr = s.dev.addr
  addrEn : u.dev.addrEn = s.dev.addrEn
  composite : s.dev.composite = true → u.dev.composite = true
  cfg : u.dev.cfg = s.dev.cfg ∨ ∃ r : Req, i = .setConfiguration r ∧ r.recipient = 0 ∧ u.dev.cfg = r.wValueL
  address : NoAddress ms ∨ ∃ r : Req, i = .setAddress r ∧ ms = [.waitIn, .setAddress (r.wValueL.extractLsb' 0 7)]

/-- `u` is `s` but for the cursor, the working registers, the call log and the oracle's answers. -/
def DrawnFrom (s u : State) : Prop :=
  ∃ c k l a n, u = { s with cursor := c, ct := k, ghost.calls := l, io.answers := a, io.draws := n }

theorem DrawnFrom.refl (s : State) : DrawnFrom s s := ⟨_, _, _, _, _, rfl⟩

theorem DrawnFrom.trans {s t u : State} (h : DrawnFrom s t) (k : DrawnFrom t u) : DrawnFrom s u := by
  obtain ⟨c, x, l, a, n, rfl⟩ := h
  obtain ⟨c, x, l, a, n, rfl⟩ := k
  exact ⟨_, _, _, _, _, rfl⟩

theorem drawnFrom_nextAnswer (s : State) : DrawnFrom s (nextAnswer s).2 := by
  simp only [nextAnswer]; split <;> exact ⟨_, _, _, _, _, rfl⟩

theorem drawnFrom_logCall (s : State) (c : CollabCall) : DrawnFrom s (s.logCall c) := ⟨_, _, _, _, _, rfl⟩

theorem drawnFrom_curInit (s : State) (n : Word16) : DrawnFrom s (curInit n s) := ⟨_, _, _, _, _, rfl⟩

theorem offerDescriptor_drawn (p : SetupPacket) : ∀ (cs : List Collab) (k : Nat) (s : State),
    DrawnFrom s (offerDescriptor p cs k s).2.2 ∧ NoAddress (offerDescriptor p cs k s).1 := by
  intro cs
  induction cs with
  | nil => exact fun k s => ⟨DrawnFrom.refl s, noAddress_nil⟩
  | cons c cs ih =>
    intro k s
    have hn := (drawnFrom_logCall s (.getDescriptor k p)).trans (drawnFrom_nextAnswer _)
    simp only [offerDescriptor]
    repeat' split
    · exact ih _ _
    · exact ⟨hn, noAddress_answerMicros _⟩
    · exact ⟨hn.trans (ih _ _).1, noAddress_append (noAddress_answerMicros _) (ih _ _).2⟩

theorem DrawnFrom.start {i : Instr} {ms : List Micro} {s u : State} (h : DrawnFrom s u) (hms : NoAddress ms) :
    RequestStart i ms s u := by
  obtain ⟨c, k, l, a, n, rfl⟩ := h
  exact ⟨rfl, rfl, rfl, rfl, rfl, rfl, id, .inl rfl, .inl hms⟩

/-- With limit 0 an emission is refused, or only counts (R175, R177). -/
theorem emit8_counting (b : Byte) {s : State} (hlim : s.cursor.lim = 0) :
    (∃ r, microStep (.emit8 b) s = .refused r) ∨ microStep (.emit8 b) s = .ok (bumpCursor s) := by
  by_cases hsel : s.sel = 0
  · by_cases hpos : s.cursor.pos = 0xFFFF
    · exact .inl ⟨.cursorOverflow, by simp [microStep, emit8Op, hsel, hpos]⟩
    · exact .inr (emit8Op_counts b s hsel hpos (by simp [hlim]))
  · exact .inl ⟨.emitOffControl, if_pos hsel⟩

/-- Pass 1 of DESC_CONFIG never holds, and writes nothing but the cursor (R216). -/
theorem runMicros_emits_counting {bs : List Byte} : ∀ {s : State}, s.cursor.lim = 0 →
    (∀ t, runMicros (bs.map .emit8) s = .finished t → ∃ c, t = { s with cursor := c }) ∧
    (∀ rest t, runMicros (bs.map .emit8) s ≠ .held rest t) := by
  induction bs with
  | nil =>
    intro s _
    simp only [List.map_nil, runMicros_nil]
    exact ⟨fun t h => by cases h; exact ⟨s.cursor, rfl⟩, fun _ _ h => by cases h⟩
  | cons b bs ih =>
    intro s hlim
    rcases emit8_counting b hlim with ⟨r, hr⟩ | hok
    · rw [List.map_cons, runMicros_cons_refused hr]
      exact ⟨fun _ h => (by cases h), fun _ _ h => (by cases h)⟩
    · rw [List.map_cons, runMicros_cons_ok hok]
      obtain ⟨hfin, hheld⟩ := ih (s := bumpCursor s) hlim
      refine ⟨fun t h => ?_, hheld⟩
      obtain ⟨c, rfl⟩ := hfin t h
      exact ⟨c, rfl⟩

/-! ## Requests -/

/-- `i` comes down to micro-operations run from a start. -/
def RunsFrom (i : Instr) (s t : State) : Prop := ∃ ms res u, RequestStart i ms s u ∧ runRequest ms res u = .next t

theorem RunsFrom.of_drawn {i : Instr} {ms : List Micro} {res : CtResult} {s u t : State}
    (h : runRequest ms res u = .next t) (hu : DrawnFrom s u) (hms : NoAddress ms) : RunsFrom i s t :=
  ⟨ms, res, u, hu.start hms, h⟩

theorem descConfig_runsFrom {i : Instr} {r : Req} {s t : State} (h : descConfig r s = .next t) : RunsFrom i s t := by
  simp only [descConfig] at h
  obtain ⟨hfin, hheld⟩ := runMicros_emits_counting (bs := cfgBody s.conf.collabs) (s := curInit 0 s) rfl
  split at h
  · rename_i s1 h1
    obtain ⟨c, rfl⟩ := hfin s1 h1
    simp only [configPass2] at h
    split at h
    · cases h
    · exact .of_drawn h ⟨_, _, _, _, _, rfl⟩ (noAddress_emits _)
  · exact absurd ‹_› (hheld _ _)
  · cases h

theorem descDevice_runsFrom {i : Instr} {r : Req} {s t : State} (h : descDevice r s = .next t) : RunsFrom i s t := by
  refine ⟨_, _, _, ?_, h⟩
  split
  · exact ⟨rfl, rfl, rfl, rfl, rfl, rfl, fun _ => rfl, .inl rfl, .inl (noAddress_emits _)⟩
  · exact (DrawnFrom.refl s).start (noAddress_emits _)

theorem descString_runsFrom {i : Instr} {r : Req} {s t : State} (h : descString r s = .next t) : RunsFrom i s t := by
  simp only [descString] at h
  split at h
  · exact .of_drawn h (.refl s) (noAddress_emits _)
  · exact .of_drawn h (.refl s) noAddress_nil

theorem descOther_runsFrom {i : Instr} {r : Req} {s t : State} (h : descOther r s = .next t) : RunsFrom i s t :=
  have hd := offerDescriptor_drawn (r.packet 0 6) s.conf.collabs 0 s
  .of_drawn h hd.1 hd.2

/-- Every request comes down to micro-operations run from a start (R180 to R193). -/
theorem exec_request_runsFrom {i : Instr} {s t : State} (hf : i.format = .setup8) (h : exec i s = .next t) :
    RunsFrom i s t := by
  have here : ∀ {ms res}, runRequest ms res s = .next t → NoAddress ms → RunsFrom i s t :=
    fun h hms => .of_drawn h (.refl s) hms
  cases i <;> simp only [Instr.format, reduceCtorEq] at hf <;> simp only [exec] at h
  case getStatus => exact here h (noAddress_emits [0, 0])
  case setAddress r =>
    exact ⟨_, _, s, ⟨rfl, rfl, rfl, rfl, rfl, rfl, id, .inl rfl, .inr ⟨r, rfl, rfl⟩⟩, h⟩
  case getDescriptor =>
    simp only [execGetDescriptor] at h; repeat' split at h
    · exact descConfig_runsFrom h
    · exact descDevice_runsFrom h
    · exact descString_runsFrom h
    · exact descOther_runsFrom h
  case getDescriptorDevice => exact descDevice_runsFrom h
  case getDescriptorConfiguration => exact descConfig_runsFrom h
  case getDescriptorString => exact descString_runsFrom h
  case getDescriptorOther => exact descOther_runsFrom h
  case setDescriptor => exact here h noAddress_nil
  case getConfiguration => exact here h (noAddress_emits [_])
  case setConfiguration r =>
    simp only [execSetConfiguration] at h; split at h
    · refine ⟨_, _, _, ?_, h⟩
      rw [initAllEndpoints_eq s]
      exact ⟨rfl, rfl, rfl, rfl, rfl, rfl, id, .inr ⟨r, rfl, ‹_›, rfl⟩, .inl noAddress_nil⟩
    · exact here h noAddress_nil
  case standardUnlisted => exact here h noAddress_nil
  case classRequest b r =>
    simp only [execClassRequest] at h; split at h
    · exact .of_drawn h (drawnFrom_curInit s _) noAddress_nil
    · exact .of_drawn h (((drawnFrom_curInit s _).trans (drawnFrom_logCall _ _)).trans (drawnFrom_nextAnswer _))
        (noAddress_answerMicros _)
  case kindVendor => exact here h noAddress_nil
  case kindReserved => exact here h noAddress_nil

/-- What a request performed at S4 leaves, in the fields its frame leaves open. -/
structure RequestEffect (i : Instr) (s t : State) : Prop where
  latch : t.latch = s.latch
  sel : SelectorOk s → SelectorOk t
  txlog : LogGrows s t
  composite : s.dev.composite = true → t.dev.composite = true
  cfg : t.dev.cfg = s.dev.cfg ∨ ∃ r : Req, i = .setConfiguration r ∧ r.recipient = 0 ∧ t.dev.cfg = r.wValueL
  addr : t.dev.addr = s.dev.addr ∧ t.dev.addrEn = s.dev.addrEn ∨
    ∃ r : Req, i = .setAddress r ∧ t.dev.addr = r.wValueL.extractLsb' 0 7 ∧ t.dev.addrEn = true
  todo : ∀ a, .setAddress a ∈ t.ct.todo → t.ct.pc = .s4SetaddrWait ∧ t.ct.todo = [.waitIn, .setAddress a] ∧
    ∃ r : Req, i = .setAddress r ∧ a = r.wValueL.extractLsb' 0 7

theorem exec_request_effect {i : Instr} {s t : State} (hf : i.format = .setup8) (h : exec i s = .next t) :
    RequestEffect i s t := by
  obtain ⟨ms, res, u, hu, hrun⟩ := exec_request_runsFrom hf h
  have hr := runRequest_ran hrun
  refine ⟨hr.latch.trans hu.latch, fun k => hr.access.sel (k.congr hu.conf hu.sel),
    (LogGrows.of_eq hu.txlog).trans hr.access.txlog, fun k => hr.composite.trans (hu.composite k), ?_, ?_, fun a ha => ?_⟩
  · rw [hr.cfg]; exact hu.cfg
  · rcases hr.access.dev with hd | ⟨a, ha, hd⟩ <;> rw [hd]
    · exact .inl ⟨hu.addr, hu.addrEn⟩
    · rcases hu.address with hno | ⟨r, hi, rfl⟩
      · exact absurd ha (hno a)
      · have hmem : Micro.setAddress a ∈ [.waitIn, .setAddress (r.wValueL.extractLsb' 0 7)] := ha
        exact .inr ⟨r, hi, by simpa using hmem, rfl⟩
  · rcases hu.address with hno | ⟨r, hi, hms⟩
    · exact absurd (hr.mem_of_todo ha) (hno a)
    · obtain ⟨hpc, htodo⟩ := hr.address hms ⟨a, ha⟩
      obtain rfl : a = r.wValueL.extractLsb' 0 7 := by simpa [htodo] using ha
      exact ⟨hpc, htodo, r, hi, rfl⟩

/-! ## The steps of the control handler -/

/-- A step of the control handler, by its program point (R170). -/
inductive ControlCase (s t : State) : Prop
  /-- S1, S3, S3.wait and S5: accesses to endpoint 0, then the next point, which reads `SP` only if this one does -/
  | walk (u : State) (p : CtPoint) (access : Access ∅ s u) (outside : Outside s u) (wait : s.ct.pc ≠ .s4SetaddrWait)
      (reads : p.readsLatch = true → s.ct.pc.readsLatch = true) (eq : t = { u with ct.pc := p })
  /-- S2 -/
  | parse (u : State) (p : SetupPacket) (c : Cursor) (point : s.ct.pc = .s2) (access : Access ∅ s u)
      (outside : Outside s u) (eq : t = { u with latch := ⟨p, true⟩, cursor := c, ct.pc := .s3 })
  /-- S4 -/
  | dispatch (point : s.ct.pc = .s4) (move : exec (decodeSetup s.latch.packet) s = .next t)
  /-- the holds of S4 -/
  | resume (reads : s.ct.pc.readsLatch = true) (move : runRequest s.ct.todo s.ct.result s = .next t)
  /-- the return -/
  | leave (point : s.ct.pc = .exit) (eq : t = leaveHandler .comm s)

/-- ACK_IN is refused, or commits the bank (R153, R157). -/
theorem ackInOp_cases (s : State) : (∃ r, ackInOp s = .refused r) ∨ ackInOp s = .ok (commitIn s.sel s) := by
  simp only [ackInOp]
  cases controlRefusal s with
  | none => exact .inr rfl
  | some r => exact .inl ⟨r, rfl⟩

/-- A point past S2 that commits the bank and moves on: S3 without a data stage, S5 after `ok`. -/
theorem commit_case {s : State} (p : CtPoint) (hwait : s.ct.pc ≠ .s4SetaddrWait) (hreads : s.ct.pc.readsLatch = true) :
    ControlCase s { commitIn s.sel s with ct.pc := p } :=
  .walk _ p (access_commitIn _ _) (outside_commitIn _ _) hwait (fun _ => hreads) rfl

theorem ctWaitIn_case {s t : State} (hpc : s.ct.pc = .s3 ∨ s.ct.pc = .s3Wait) (h : ctWaitIn s = .next t) :
    ControlCase s t := by
  have hreads : s.ct.pc.readsLatch = true := by rcases hpc with hpc | hpc <;> rw [hpc] <;> rfl
  have hwait : s.ct.pc ≠ .s4SetaddrWait := by rcases hpc with hpc | hpc <;> rw [hpc] <;> decide
  simp only [ctWaitIn] at h
  split at h
  · cases h; rename_i u hu; rw [waitInOp_eq hu]
    exact .walk s _ (Access.refl s) (Outside.refl s) hwait (fun _ => hreads) rfl
  · cases h; exact .walk s _ (Access.refl s) (Outside.refl s) hwait (fun _ => hreads) rfl
  · cases h

theorem ctParse_case {s t : State} (hpc : s.ct.pc = .s2) (h : ctParse s = .next t) : ControlCase s t := by
  have ha := access_popBytes Config.setupLen s
  have ho := outside_popBytes Config.setupLen s
  simp only [ctParse] at h
  revert h ha ho
  generalize popBytes Config.setupLen s = r
  intro h ha ho
  split at h
  · cases h
  · split at h
    · rename_i u hu
      cases h
      rw [clearSetupOp_cases hu]
      exact .parse _ _ _ hpc (ha.trans (access_setEp _ _ _)) (ho.trans (outside_setEp _ _ _)) rfl
    · rename_i hh; simp only [clearSetupOp] at hh; split at hh <;> cases hh
    · cases h

theorem ctStep_case {s t : State} (hruns : s.ct.pc ≠ .idle) (h : ctStep s = .next t) : ControlCase s t := by
  cases hpc : s.ct.pc <;> simp only [ctStep, hpc] at h
  case idle => exact absurd hpc hruns
  case s1 =>
    cases h
    have hreads : ∀ b : Bool, (if b then CtPoint.s2 else .exit).readsLatch = false := fun b => by cases b <;> rfl
    exact .walk (s.setSel 0) (if (s.ep 0).setupFlag then .s2 else .exit) (access_setSel_zero s) (outside_setSel s 0)
      (by simp [hpc]) (fun hr => by simp [hreads] at hr) rfl
  case s2 => exact ctParse_case hpc h
  case s3 =>
    simp only [withLatch, ctArm, armOutStageOp] at h
    split at h
    · split at h
      · exact ctWaitIn_case (.inl hpc) h
      · rcases ackInOp_cases s with ⟨r, hr⟩ | hok
        · simp only [hr] at h; cases h
        · simp only [hok] at h; cases h
          exact commit_case .s4 (by simp [hpc]) (by rw [hpc]; rfl)
    · cases h
  case s3Wait => exact ctWaitIn_case (.inr hpc) h
  case s4 =>
    simp only [withLatch, ctDispatch] at h
    split at h
    · exact .dispatch hpc h
    · cases h
  case s4EmitWait => exact .resume (by rw [hpc]; rfl) h
  case s4SetaddrWait => exact .resume (by rw [hpc]; rfl) h
  case s4CallWait => exact .resume (by rw [hpc]; rfl) h
  case s5 =>
    simp only [ctComplete] at h
    split at h
    · rcases ackInOp_cases s with ⟨r, hr⟩ | hok
      · simp only [hr] at h; cases h
      · simp only [hok] at h; cases h
        exact commit_case .exit (by simp [hpc]) (by rw [hpc]; rfl)
    · cases h
      exact .walk _ _ (access_setEp s _ _) (outside_setEp s _ _) (by simp [hpc]) (fun _ => by rw [hpc]; rfl) rfl
  case exit => cases h; exact .leave hpc rfl

end Sys2Proof.Machine
end

section
/-! PROOFS. What every other agent makes of the fields that its frame leaves open: the raw micro-operations, the bulk
engine, the commands, the frame handler, the attach sequence, the environment. -/

namespace Sys2Proof.Machine

/-! ## Single registers of the frames -/

theorem ControlFrame.ie {s t : State} (h : ControlFrame s t) : t.irq.ie = s.irq.ie := by rw [h.irq]
theorem ControlFrame.ienEor {s t : State} (h : ControlFrame s t) : t.irq.ienEor = s.irq.ienEor := by rw [h.irq]
theorem ControlFrame.ienSof {s t : State} (h : ControlFrame s t) : t.irq.ienSof = s.irq.ienSof := by rw [h.irq]
theorem ControlFrame.ienSetup0 {s t : State} (h : ControlFrame s t) : t.irq.ienSetup0 = s.irq.ienSetup0 := by rw [h.irq]

theorem UopFrame.inIsr {s t : State} (h : UopFrame s t) : t.irq.inIsr = s.irq.inIsr := by rw [h.irq]
theorem UopFrame.ienEor {s t : State} (h : UopFrame s t) : t.irq.ienEor = s.irq.ienEor := by rw [h.irq]
theorem UopFrame.ienSof {s t : State} (h : UopFrame s t) : t.irq.ienSof = s.irq.ienSof := by rw [h.irq]
theorem UopFrame.ienSetup0 {s t : State} (h : UopFrame s t) : t.irq.ienSetup0 = s.irq.ienSetup0 := by rw [h.irq]
theorem UopFrame.composite {s t : State} (h : UopFrame s t) : t.dev.composite = s.dev.composite := by rw [h.dev]
theorem UopFrame.cfg {s t : State} (h : UopFrame s t) : t.dev.cfg = s.dev.cfg := by rw [h.dev]

theorem EnvFrame.ie {s t : State} (h : EnvFrame s t) : t.irq.ie = s.irq.ie := by rw [h.irq]
theorem EnvFrame.inIsr {s t : State} (h : EnvFrame s t) : t.irq.inIsr = s.irq.inIsr := by rw [h.irq]
theorem EnvFrame.ienEor {s t : State} (h : EnvFrame s t) : t.irq.ienEor = s.irq.ienEor := by rw [h.irq]
theorem EnvFrame.ienSof {s t : State} (h : EnvFrame s t) : t.irq.ienSof = s.irq.ienSof := by rw [h.irq]
theorem EnvFrame.ienSetup0 {s t : State} (h : EnvFrame s t) : t.irq.ienSetup0 = s.irq.ienSetup0 := by rw [h.irq]

/-! ## The pulses (R28, R29) -/

theorem PulsesOk.congr {s t : State} (h : PulsesOk s) (hp : t.pulse = s.pulse) : PulsesOk t where
  tx := by rw [hp]; exact h.tx
  rx := by rw [hp]; exact h.rx
  ledTx := by rw [hp]; exact h.ledTx
  ledRx := by rw [hp]; exact h.ledRx

theorem pulsesOk_armTx {s : State} (h : PulsesOk s) : PulsesOk (armTx s) where
  tx := Nat.le_refl 100
  rx := h.rx
  ledTx := fun _ => (by decide : (100 : Byte) ≠ 0)
  ledRx := h.ledRx

theorem pulsesOk_armRx {s : State} (h : PulsesOk s) : PulsesOk (armRx s) where
  tx := h.tx
  rx := Nat.le_refl 100
  ledTx := h.ledTx
  ledRx := fun _ => (by decide : (100 : Byte) ≠ 0)

/-- A timer that counts down stays within its range (R275). -/
theorem tickDown_le {v : Byte} (h : v.toNat ≤ 100) : (if v = 0 then 0 else v - 1).toNat ≤ 100 := by
  split
  · decide
  · bv_omega

/-- An indicator that stays lit at a tick has a timer that does not run out there (R275). -/
theorem tickDown_ne_zero {v : Byte} {led : Bool} (h : led = true → v ≠ 0)
    (hlit : (if v = 1 then false else led) = true) : (if v = 0 then 0 else v - 1) ≠ 0 := by
  split at hlit
  · cases hlit
  · rw [if_neg (h hlit)]; bv_omega

theorem pulsesOk_tickTimers {s : State} (h : PulsesOk s) : PulsesOk (tickTimers s) where
  tx := tickDown_le h.tx
  rx := tickDown_le h.rx
  ledTx := tickDown_ne_zero h.ledTx
  ledRx := tickDown_ne_zero h.ledRx

/-! ## Raw micro-operations -/

/-- What the raw micro-operation `i` leaves, in the fields `UopFrame` leaves open. -/
structure UopEffect (i : Instr) (s t : State) : Prop where
  access : Access ∅ s t
  pulses : PulsesOk s → PulsesOk t
  irq : i ≠ .critEnter → i ≠ .critExit → t.irq = s.irq
  /-- a word is held for a handler only (log 8): in one, or by an operation the bulk engine may not issue -/
  held : t.io.held = s.io.held ∨
    (s.irq.inIsr = true ∨ mayIssue .bulk i = false) ∧ ∀ m ∈ t.io.held, m.canHold = true

theorem UopEffect.of_outside {i : Instr} {s t : State} (ho : Outside s t) (ha : Access ∅ s t) : UopEffect i s t :=
  ⟨ha, fun h => h.congr ho.pulse, fun _ _ => ho.irq, .inl ho.held⟩

theorem uopEffect_setRet {i : Instr} {s : State} (r : Ret) : UopEffect i s (s.setRet r) :=
  .of_outside (outside_setRet s r) (access_setRet s r)

theorem uopEffect_setEp {i : Instr} {s : State} (e : EpIdx) (p : Endpoint) : UopEffect i s (s.setEp e p) :=
  .of_outside (outside_setEp s e p) (access_setEp s e p)

theorem uopEffect_direct {i : Instr} {m : MicroOut} {s t : State} (h : direct m s = .next t)
    (ho : MicroOut.Keeps Outside s m) (ha : MicroOut.Keeps (Access ∅) s m) : UopEffect i s t := by
  cases m with
  | ok u => cases h; exact .of_outside (ho _ rfl) (ha _ rfl)
  | hold => cases h; exact .of_outside (Outside.refl s) (Access.refl s)
  | refused r => cases h

theorem access_runMicros_noAddress {ms : List Micro} (hms : NoAddress ms) (s : State) :
    (∀ t, runMicros ms s = .finished t → Access ∅ s t) ∧ (∀ rest t, runMicros ms s = .held rest t → Access ∅ s t) := by
  have hsub : {a | Micro.setAddress a ∈ ms} ⊆ ∅ := fun a ha => hms a ha
  have h := access_runMicros ms s
  exact ⟨fun t ht => (h.1 t ht).mono hsub, fun rest t ht => (h.2 rest t ht).1.mono hsub⟩

/-- Emissions, which the control handler alone may issue (R34). -/
theorem uopEffect_emits {i : Instr} {bs : List Byte} {s t : State} (hi : mayIssue .bulk i = false)
    (h : issue (bs.map .emit8) s = .next t) : UopEffect i s t := by
  obtain ⟨hfin, hheld⟩ := access_runMicros_noAddress (noAddress_emits bs) s
  rcases issue_cases h with hr | ⟨rest, u, hr, rfl⟩
  · exact .of_outside ((outside_runMicros _ s).1 t hr) (hfin t hr)
  · have ho := (outside_runMicros _ s).2 rest u hr
    have hsuffix := ((access_runMicros _ s).2 rest u hr).2
    refine ⟨(hheld rest u hr).trans (.of_same rfl rfl rfl rfl), fun h => h.congr ho.pulse, fun _ _ => ho.irq,
      .inr ⟨.inr hi, fun m hm => ?_⟩⟩
    obtain ⟨b, -, rfl⟩ := List.mem_map.1 (hsuffix.subset hm)
    rfl

/-- One micro-operation that cannot hold. -/
theorem uopEffect_single {i : Instr} {m : Micro} {s t : State} (hm : m.canHold = false) (hms : NoAddress [m])
    (h : issue [m] s = .next t) : UopEffect i s t := by
  rcases issue_cases h with hr | ⟨rest, u, hr, rfl⟩
  · exact .of_outside ((outside_runMicros _ s).1 t hr) ((access_runMicros_noAddress hms s).1 t hr)
  · obtain ⟨n, more, rfl, hn⟩ := runMicros_held_head hr
    have hmem := ((access_runMicros _ s).2 _ u hr).2.subset (List.mem_cons_self ..)
    rw [List.mem_singleton.1 hmem, hm] at hn
    cases hn

theorem uopEffect_issueWait {i : Instr} {w : Wait} {s t : State} (h : issueWait w s = .next t) : UopEffect i s t := by
  rcases issueWait_cases h with rfl | rfl
  · exact .of_outside (Outside.refl _) (Access.refl _)
  · cases hisr : s.irq.inIsr with
    | true =>
      rw [holdAt_inIsr hisr]
      refine ⟨.of_same rfl rfl rfl rfl, fun h => h.congr rfl, fun _ _ => rfl, .inr ⟨.inl hisr, fun m hm => ?_⟩⟩
      rw [List.mem_singleton.1 hm]
      cases w <;> rfl
    | false =>
      rw [holdAt_mainline hisr]
      exact ⟨.of_same rfl rfl rfl rfl, fun h => h.congr rfl, fun _ _ => rfl, .inl rfl⟩

theorem critEnter_access (s : State) : Access ∅ s (critEnter s) := by
  simp only [critEnter, State.setCritCtx]; split <;> exact .of_same rfl rfl rfl rfl

theorem critEnter_pulse (s : State) : (critEnter s).pulse = s.pulse := by
  simp only [critEnter, State.setCritCtx]; split <;> rfl

theorem critExit_pulse (s : State) : (critExit s).pulse = s.pulse := by
  simp only [critExit, State.setCritCtx]; split <;> rfl

theorem critExit_io (s : State) : (critExit s).io = s.io := by
  simp only [critExit, State.setCritCtx]; split <;> rfl

theorem critExit_ghost (s : State) : (critExit s).ghost = s.ghost := by
  simp only [critExit, State.setCritCtx]; split <;> rfl

/-- A CRIT_EXIT to a selector that exists (R58, R161; log 21). -/
theorem critExit_access {s : State} (h : s.critCtx.snap.sel.toNat < s.conf.nEp) : Access ∅ s (critExit s) := by
  have hconf : (critExit s).conf = s.conf := by simp only [critExit, State.setCritCtx]; split <;> rfl
  refine ⟨fun hs => ⟨by rw [hconf]; exact hs.some, by rw [hconf]; exact h⟩, .of_eq ?_, .inl ?_⟩
  · rw [critExit_ghost]
  · simp only [critExit, State.setCritCtx]; split <;> rfl

theorem uopEffect_exec {i : Instr} {s t : State} (hf : i.format = .uop) (h : exec i s = .next t) : UopEffect i s t := by
  cases i <;> simp only [Instr.format, reduceCtorEq] at hf <;> simp only [exec] at h
  case select => exact uopEffect_single rfl (by simp [NoAddress]) h
  case testSetup => cases h; exact uopEffect_setRet _
  case waitIn => exact uopEffect_issueWait h
  case waitOut => exact uopEffect_issueWait h
  case read8 =>
    simp only [execRead8] at h; split at h <;> cases h
    exact .of_outside ((outside_popByte s).trans (outside_setRet _ _)) ((access_popByte s).trans (access_setRet _ _))
  case readN => exact uopEffect_single rfl (by simp [NoAddress]) h
  case write8 b => exact uopEffect_direct h (outside_write8Op b s) (access_write8Op b s)
  case byteCount => cases h; exact uopEffect_setRet _
  case rwAllowed => simp only [execRwAllowed] at h; split at h <;> cases h; exact uopEffect_setRet _
  case sendSpace e =>
    simp only [execSendSpace, spaceCrit_eq] at h
    repeat' split at h
    all_goals cases h
    exact uopEffect_setRet _
  case stall => cases h; exact uopEffect_setEp _ _
  case clearSetup => simp only [execClearSetup, clearSetupOp] at h; split at h <;> cases h; exact uopEffect_setEp _ _
  case ackIn => exact uopEffect_direct h (outside_ackInOp s) (access_ackInOp s)
  case clearOut => simp only [execClearOut, clearOutOp] at h; split at h <;> cases h; exact uopEffect_setEp _ _
  case releaseRx => simp only [execReleaseRx] at h; split at h <;> cases h; exact uopEffect_setEp _ _
  case releaseTx =>
    simp only [execReleaseTx] at h; split at h <;> cases h
    exact .of_outside (outside_commitIn _ s) (access_commitIn _ s)
  case initEp => simp only [execInitEp] at h; split at h <;> cases h; exact uopEffect_setEp _ _
  case critEnter =>
    cases h
    exact ⟨critEnter_access s, fun h => h.congr (critEnter_pulse s), fun hne => absurd rfl hne,
      .inl (by rw [critEnter_io])⟩
  case critExit =>
    simp only [execCritExit] at h; split at h
    · rename_i hsel
      cases h
      exact ⟨critExit_access (by simpa [validEp] using hsel), fun h => h.congr (critExit_pulse s),
        fun _ hne => absurd rfl hne, .inl (by rw [critExit_io])⟩
    · cases h
  case curInit => cases h; exact ⟨.of_same rfl rfl rfl rfl, fun h => h.congr rfl, fun _ _ => rfl, .inl rfl⟩
  case emit8 b => exact uopEffect_emits (bs := [b]) rfl h
  case emitN => exact uopEffect_emits rfl h
  case armTx => cases h; exact ⟨.of_same rfl rfl rfl rfl, pulsesOk_armTx, fun _ _ => rfl, .inl rfl⟩
  case armRx => cases h; exact ⟨.of_same rfl rfl rfl rfl, pulsesOk_armRx, fun _ _ => rfl, .inl rfl⟩
  case armOutStage => exact uopEffect_direct h (outside_ackInOp s) (access_ackInOp s)

/-! ## The bulk engine -/

theorem access_writeBytes (bs : List Byte) : ∀ s : State, MicroOut.Keeps (Access ∅) s (writeBytes bs s) := by
  induction bs with
  | nil => exact fun s => MicroOut.keeps_ok (Access.refl s)
  | cons b bs ih =>
    exact fun s => MicroOut.keeps_bind (R := Access ∅) Access.trans (access_write8Op b s) fun t _ => ih t

theorem logGrows_chunkCrit {e : EpIdx} {bs : List Byte} {last : Bool} {s t : State}
    (h : chunkCrit e bs last s = .ok t) : LogGrows s t := by
  simp only [chunkCrit, chunkSelected] at h
  have henter : LogGrows s ((critEnter s).setSel e) := .of_eq (by rw [State.setSel_ghost, critEnter_ghost])
  have hexit : ∀ u : State, LogGrows u (critExit u) := fun u => .of_eq (by rw [critExit_ghost])
  cases hw : writeBytes bs ((critEnter s).setSel e) with
  | hold => rw [hw] at h; cases h
  | refused r => rw [hw] at h; cases h
  | ok u =>
    rw [hw] at h
    have hu := henter.trans (access_writeBytes bs _ u hw).txlog
    simp only [MicroOut.bind] at h
    cases h
    split
    · exact (hu.trans (logGrows_commitIn _ _)).trans (hexit _)
    · exact hu.trans (hexit _)

theorem logGrows_flushCrit (e : EpIdx) (s : State) : LogGrows s (flushCrit e s) := by
  rw [flushCrit_eq]; split
  · exact logGrows_commitIn e s
  · exact .of_eq rfl

/-- The bulk engine logs a packet where a chunk commits a bank, and writes the pulses at SND.arm and RCV.arm. -/
theorem beStep_effect {s t : State} (h : beStep s = .next t) : LogGrows s t ∧ (PulsesOk s → PulsesOk t) := by
  have plain : ∀ {u : State}, u.ghost.txlog = s.ghost.txlog → u.pulse = s.pulse →
      LogGrows s u ∧ (PulsesOk s → PulsesOk u) := fun hl hp => ⟨.of_eq hl, fun h => h.congr hp⟩
  cases hpc : s.be.pc <;> simp only [beStep, hpc] at h
  case idle => cases h; exact plain rfl rfl
  case sndLoop => cases h; simp only [sndLoop]; split <;> exact plain rfl rfl
  case sndSpace =>
    simp only [sndSpace, spaceCrit_eq] at h
    repeat' split at h
    all_goals cases h
    all_goals exact plain rfl rfl
  case sndWait => cases h; simp only [sndWait]; split <;> exact plain rfl rfl
  case sndChunk =>
    simp only [sndChunk] at h
    split at h
    · rename_i u hu
      have hlog := logGrows_chunkCrit hu
      obtain ⟨⟨v, g, rfl⟩, -⟩ := chunkCrit_eps hu
      cases h
      exact ⟨hlog, fun h => h.congr rfl⟩
    · cases h; exact plain rfl rfl
    · cases h
  case sndArm => cases h; exact ⟨.of_eq rfl, fun h => (pulsesOk_armTx h).congr rfl⟩
  case sndDone => cases h; exact plain rfl rfl
  case rcvCrit =>
    simp only [rcvCritStep, recvCrit_eq] at h
    split at h <;> cases h
    exact plain rfl rfl
  case rcvArm =>
    cases h
    simp only [rcvArm]; split
    · exact ⟨.of_eq rfl, fun h => (pulsesOk_armRx h).congr rfl⟩
    · exact plain rfl rfl

/-! ## Commands -/

/-- Of the commands FLUSH alone logs a packet when it is issued (R254). -/
theorem logGrows_exec_cmd {i : Instr} {s t : State} (hf : i.format = .cmd) (h : exec i s = .next t) : LogGrows s t := by
  cases i <;> simp only [Instr.format, reduceCtorEq] at hf <;> simp only [exec] at h
  case attach =>
    simp only [execAttach] at h
    repeat' split at h
    all_goals cases h
    exact .of_eq rfl
  case send =>
    simp only [execSend] at h
    repeat' split at h
    all_goals cases h
    all_goals exact .of_eq rfl
  case recv =>
    simp only [execRecv] at h
    repeat' split at h
    all_goals cases h
    all_goals exact .of_eq rfl
  case available =>
    simp only [execAvailable, countCrit_eq] at h
    repeat' split at h
    all_goals cases h
    exact .of_eq rfl
  case flush e f =>
    simp only [execFlush] at h
    repeat' split at h
    all_goals cases h
    exact logGrows_flushCrit e { s with port.op := 0x04, port.epf := epfOf e f }

/-! ## The frame handler -/

/-- What a step of the frame handler leaves, in the fields `TickFrame` leaves open. -/
structure TickEffect (s t : State) : Prop where
  /-- the handler is at IDLE before its entry and after its return only -/
  point : s.ft.pc = .idle ∨ t.ft.pc = .idle ∧ t.irq.inIsr = false ∨ t.ft.pc ≠ .idle ∧ t.irq.inIsr = s.irq.inIsr
  txlog : LogGrows s t
  rxSink : s.ghost.rxSink <+: t.ghost.rxSink
  ienSetup0 : s.irq.ienSetup0 = true → t.irq.ienSetup0 = true
  cfg : t.dev.cfg = s.dev.cfg ∨ s.ft.pc = .f2 ∧ s.ft.eor = true ∧ t.dev.cfg = 0
  pulses : PulsesOk s → PulsesOk t

/-- A step that goes to the point `p` and touches none of what `TickEffect` speaks of, but perhaps the log. -/
theorem TickEffect.moves {s u : State} {p : FtPoint} (hp : p ≠ .idle) (hlog : LogGrows s u)
    (hsink : u.ghost.rxSink = s.ghost.rxSink) (hirq : u.irq = s.irq) (hdev : u.dev = s.dev) (hpulse : u.pulse = s.pulse) :
    TickEffect s { u with ft.pc := p } where
  point := .inr (.inr ⟨hp, congrArg Irq.inIsr hirq⟩)
  txlog := hlog
  rxSink := by rw [← hsink]
  ienSetup0 := fun h => by rw [← hirq] at h; exact h
  cfg := .inl (congrArg Dev.cfg hdev)
  pulses := fun h => h.congr hpulse

theorem frameReset_effect (s : State) (hpc : s.ft.pc = .f2) : TickEffect s (frameReset s) := by
  have hp : ∀ b : Bool, (if b then FtPoint.f3 else .exit) ≠ .idle := fun b => by cases b <;> decide
  simp only [frameReset]
  split
  · exact ⟨.inr (.inr ⟨hp _, rfl⟩), .of_eq rfl, List.prefix_refl _, fun _ => rfl, .inr ⟨hpc, ‹_›, rfl⟩,
      fun h => h.congr rfl⟩
  · exact .moves (hp _) (.of_eq rfl) rfl rfl rfl rfl

theorem tickFlush_effect {s t : State} (h : tickFlush s = .next t) : TickEffect s t := by
  simp only [tickFlush] at h
  repeat' split at h
  all_goals cases h
  · exact .moves (by decide) (.of_eq rfl) rfl rfl rfl rfl
  · rename_i tx _ _ _ _ _
    have hlog := logGrows_flushCrit tx s
    obtain ⟨⟨v, g, hv⟩, -⟩ := flushCrit_eps tx s
    rw [hv] at hlog ⊢
    exact .moves (by decide) hlog rfl rfl rfl rfl

theorem tickPull_effect {s t : State} (hpc : s.ft.pc = .f4) (h : tickPull s = .next t) : TickEffect s t := by
  have hne : s.ft.pc ≠ .idle := by simp [hpc]
  simp only [tickPull, countCrit_eq, recvCrit_eq] at h
  repeat' split at h
  all_goals cases h
  · exact .moves (by decide) (.of_eq rfl) rfl rfl rfl rfl
  · exact .moves (by decide) (.of_eq rfl) rfl rfl rfl rfl
  · exact .moves hne (.of_eq rfl) rfl rfl rfl rfl
  · exact ⟨.inr (.inr ⟨hne, rfl⟩), .of_eq rfl, List.prefix_append _ _, id, .inl rfl,
      fun h => (pulsesOk_armRx h).congr rfl⟩

theorem ftStep_effect {s t : State} (h : ftStep s = .next t) : TickEffect s t := by
  cases hpc : s.ft.pc <;> simp only [ftStep, hpc] at h
  case idle => cases h; exact ⟨.inl hpc, .of_eq rfl, List.prefix_refl _, id, .inl rfl, id⟩
  case f1 =>
    cases h
    exact ⟨.inr (.inr ⟨nofun, rfl⟩), .of_eq rfl, List.prefix_refl _, id, .inl rfl, fun h => h.congr rfl⟩
  case f2 => cases h; exact frameReset_effect s hpc
  case f3 => exact tickFlush_effect h
  case f4 => exact tickPull_effect hpc h
  case f5 =>
    cases h
    exact ⟨.inr (.inr ⟨nofun, rfl⟩), .of_eq rfl, List.prefix_refl _, id, .inl rfl,
      fun h => (pulsesOk_tickTimers h).congr rfl⟩
  case exit =>
    cases h
    exact ⟨.inr (.inl ⟨rfl, rfl⟩), .of_eq rfl, List.prefix_refl _, id, .inl rfl, fun h => h.congr rfl⟩

/-! ## The attach sequence -/

/-- `t` differs from `s` at most where the attach sequence writes; no bit is cleared but the indicators (R281). -/
structure AttachFrame (s t : State) : Prop where
  eq : t = { s with irq.ienEor := t.irq.ienEor, irq.ienSof := t.irq.ienSof, power := t.power, pulse := t.pulse }
  ienEor : s.irq.ienEor = true → t.irq.ienEor = true
  ienSof : s.irq.ienSof = true → t.irq.ienSof = true
  pwr : t.power.pwr = s.power.pwr
  clkEn : s.power.clkEn = true → t.power.clkEn = true
  pllEn : s.power.pllEn = true → t.power.pllEn = true
  attachEn : s.power.attachEn = true → t.power.attachEn = true
  pllLock : t.power.pllLock = s.power.pllLock
  pulses : PulsesOk s → PulsesOk t

theorem attachFrame_atStep (s : State) : AttachFrame s (atStep s) := by
  have same : AttachFrame s s := ⟨rfl, id, id, rfl, id, id, id, rfl, id⟩
  cases hpc : s.power.pc <;> simp only [atStep, hpc]
  case idle => exact same
  case a2 => exact ⟨rfl, id, id, rfl, fun _ => rfl, fun _ => rfl, id, rfl, fun h => h.congr rfl⟩
  case a2Wait =>
    split
    · exact ⟨rfl, id, id, rfl, id, id, id, rfl, fun h => h.congr rfl⟩
    · exact same
  case a3 => exact ⟨rfl, fun _ => rfl, fun _ => rfl, rfl, id, id, id, rfl, fun h => h.congr rfl⟩
  case a4 => exact ⟨rfl, id, id, rfl, id, id, fun _ => rfl, rfl, fun h => h.congr rfl⟩
  case a5 => exact ⟨rfl, id, id, rfl, id, id, id, rfl, fun h => ⟨h.tx, h.rx, nofun, nofun⟩⟩

/-! ## The environment -/

/-- Of the environment's moves the end of a bus reset alone writes a device register, the address (R87). -/
theorem envMove_dev {m : EnvMove} {s t : State} (h : envMove m s = .next t) :
    t.dev = s.dev ∨ m = .eor ∧ t.dev.addr = 0 ∧ t.dev.addrEn = false := by
  cases m <;> simp only [envMove] at h
  case setup =>
    simp only [envSetup] at h
    repeat' split at h
    all_goals cases h
    all_goals exact .inl rfl
  case inTaken => cases h; simp only [envInTaken]; split <;> exact .inl rfl
  case out e p => cases h; exact .inl (access_envOut e p s).dev_eq
  case eor =>
    simp only [envEor] at h
    repeat' split at h
    all_goals cases h
    · exact .inl rfl
    · exact .inr ⟨rfl, rfl, rfl⟩
  case sof => cases h; simp only [envSof]; split <;> exact .inl rfl
  case pllLock => cases h; simp only [envPllLock]; split <;> exact .inl rfl
  case spur => cases h; exact .inl rfl

end Sys2Proof.Machine
end

section
/-! PROOFS. The invariants of every step, one case for each agent that can move (`StepCase`): endpoints, selector,
pulses, handlers, attach sequence, SEND's accounts, `SP`. -/

namespace Sys2Proof.Machine

/-! ## Endpoints and the selector -/

/-- Settles O11: the frame of every agent carries the bounds of the endpoints. -/
theorem endpointsStayInBounds : Obligations.EndpointsStayInBounds := by
  intro s t hs h
  obtain ⟨rest, hcase⟩ := step_frames h
  have hs : endpointsOk (s.afterEntry rest) := hs
  cases hcase with
  | stays eq | waited _ _ eq | enable _ _ eq | store _ _ _ eq | peek _ _ eq | port _ _ _ _ _ eq =>
    subst eq; exact hs
  | held u more isHeld run frame bounds eq => subst eq; exact bounds hs
  | control isr free runs move frame => exact frame.bounds hs
  | tick isr free other move frame => exact frame.bounds hs
  | entry src n noIsr enabled request eq => subst eq; cases src <;> exact hs
  | bulk noIsr noWait runs move frame => exact frame.bounds hs
  | attach noIsr noWait other eq => rw [eq, (attachFrame_atStep _).eq]; exact hs
  | env m entry move frame => exact frame.bounds hs
  | operation i kind free allowed word move frame => exact frame.bounds hs
  | command i kind noIsr move frame => exact frame.bounds hs

/-- The access of held micro-operations: an address only if they name one. -/
theorem access_of_held {ms more : List Micro} {s u : State}
    (run : runMicros ms s = .finished u ∧ more = [] ∨ runMicros ms s = .held more u) :
    Access {a | .setAddress a ∈ ms} s { u with io.held := more } := by
  have ha : Access {a | .setAddress a ∈ ms} s u := by
    rcases run with ⟨hrun, -⟩ | hrun
    · exact (access_runMicros ms s).1 u hrun
    · exact ((access_runMicros ms s).2 more u hrun).1
  exact ha.trans (.of_same rfl rfl rfl rfl)

/-- A step of the control handler selects endpoint 0, or what a collaborator selects, and only adds to the log. -/
theorem ctStep_access {s t : State} (hruns : s.ct.pc ≠ .idle) (h : ctStep s = .next t) :
    (SelectorOk s → SelectorOk t) ∧ LogGrows s t := by
  cases ctStep_case hruns h with
  | walk u p access outside wait reads eq =>
    subst eq
    have ha := access.trans (.of_same (t := { u with ct.pc := p }) rfl rfl rfl rfl)
    exact ⟨ha.sel, ha.txlog⟩
  | parse u p c point access outside eq =>
    subst eq
    have ha := access.trans (.of_same (t := { u with latch := ⟨p, true⟩, cursor := c, ct.pc := .s3 }) rfl rfl rfl rfl)
    exact ⟨ha.sel, ha.txlog⟩
  | dispatch point move =>
    have he := exec_request_effect (format_decodeSetup _) move
    exact ⟨he.sel, he.txlog⟩
  | resume reads move =>
    have hr := runRequest_ran move
    exact ⟨hr.access.sel, hr.access.txlog⟩
  | leave point eq => subst eq; exact ⟨fun k => k.congr rfl rfl, .of_eq rfl⟩

/-- Settles O12: `SEL` is written by SELECT, by S1 and by CRIT_EXIT, each with an endpoint that exists. -/
theorem selectorStaysLegal : Obligations.SelectorStaysLegal := by
  intro s t hs h
  obtain ⟨rest, hcase⟩ := step_frames h
  have hs : SelectorOk (s.afterEntry rest) := hs.congr rfl rfl
  cases hcase with
  | stays eq | waited _ _ eq | enable _ _ eq | store _ _ _ eq | peek _ _ eq | port _ _ _ _ _ eq =>
    subst eq; exact hs.congr rfl rfl
  | held u more isHeld run frame bounds eq => subst eq; exact (access_of_held run).sel hs
  | control isr free runs move frame => exact (ctStep_access (s := s.afterEntry rest) runs move).1 hs
  | tick isr free other move frame => exact hs.congr frame.conf frame.sel
  | entry src n noIsr enabled request eq => subst eq; cases src <;> exact hs.congr rfl rfl
  | bulk noIsr noWait runs move frame => exact hs.congr frame.conf frame.sel
  | attach noIsr noWait other eq => rw [eq, (attachFrame_atStep _).eq]; exact hs.congr rfl rfl
  | env m entry move frame => exact hs.congr frame.conf frame.sel
  | operation i kind free allowed word move frame => exact (uopEffect_exec kind move).access.sel hs
  | command i kind noIsr move frame => exact hs.congr frame.conf frame.sel

/-! ## Pulses -/

/-- Settles O13: the timers are armed at 100 and count down, and an indicator goes out with its timer. -/
theorem pulsesStayInRange : Obligations.PulsesStayInRange := by
  intro s t hs h
  obtain ⟨rest, hcase⟩ := step_frames h
  have hs : PulsesOk (s.afterEntry rest) := hs.congr rfl
  cases hcase with
  | stays eq | waited _ _ eq | enable _ _ eq | store _ _ _ eq | peek _ _ eq | port _ _ _ _ _ eq =>
    subst eq; exact hs.congr rfl
  | held u more isHeld run frame bounds eq => subst eq; exact hs.congr frame.pulse
  | control isr free runs move frame => exact hs.congr frame.pulse
  | tick isr free other move frame => exact (ftStep_effect move).pulses hs
  | entry src n noIsr enabled request eq => subst eq; cases src <;> exact hs.congr rfl
  | bulk noIsr noWait runs move frame => exact (beStep_effect move).2 hs
  | attach noIsr noWait other eq => rw [eq]; exact (attachFrame_atStep _).pulses hs
  | env m entry move frame => exact hs.congr frame.pulse
  | operation i kind free allowed word move frame => exact (uopEffect_exec kind move).pulses hs
  | command i kind noIsr move frame => exact hs.congr frame.pulse

/-! ## The handlers -/

theorem handlersOk.congr {s t : State} (h : handlersOk s) (hisr : t.irq.inIsr = s.irq.inIsr) (hct : t.ct.pc = s.ct.pc)
    (hft : t.ft.pc = s.ft.pc) : handlersOk t := by
  simp only [handlersOk, hisr, hct, hft]; exact h

theorem handlersOk_of_control {s : State} (hisr : s.irq.inIsr = true) (hct : s.ct.pc ≠ .idle) (hft : s.ft.pc = .idle) :
    handlersOk s := by
  simp [handlersOk, hisr, hct, hft]

theorem handlersOk_of_tick {s : State} (hisr : s.irq.inIsr = true) (hct : s.ct.pc = .idle) (hft : s.ft.pc ≠ .idle) :
    handlersOk s := by
  simp [handlersOk, hisr, hct, hft]

/-- Where no handler runs both stand at IDLE. -/
theorem handlersOk.idle {s : State} (h : handlersOk s) (hisr : s.irq.inIsr = false) :
    s.ct.pc = .idle ∧ s.ft.pc = .idle := by
  simpa [handlersOk, hisr] using h.1

/-- The entry of a handler where none runs (R316, R317). -/
theorem handlersOk_enterHandler {s : State} (h : handlersOk s) (hisr : s.irq.inIsr = false) (src : IrqSource) :
    handlersOk (enterHandler src s) := by
  obtain ⟨hct, hft⟩ := h.idle hisr
  cases src with
  | comm => exact handlersOk_of_control rfl (by simp [enterHandler]) hft
  | frame => exact handlersOk_of_tick rfl hct (by simp [enterHandler])

theorem handlersOk_ctStep {s t : State} (h : handlersOk s) (hisr : s.irq.inIsr = true) (hruns : s.ct.pc ≠ .idle)
    (frame : ControlFrame s t) : handlersOk t := by
  have hft : t.ft.pc = .idle := by rw [frame.ft]; exact h.2.resolve_left hruns
  rcases frame.point with ⟨hpc, -⟩ | ⟨-, hct, hout⟩ | ⟨hct, hin⟩
  · exact absurd hpc hruns
  · exact handlersOk_of_idle hout hct hft
  · exact handlersOk_of_control (hin.trans hisr) hct hft

theorem handlersOk_ftStep {s t : State} (h : handlersOk s) (hisr : s.irq.inIsr = true) (hct : s.ct.pc = .idle)
    (frame : TickFrame s t) (effect : TickEffect s t) : handlersOk t := by
  have hct' : t.ct.pc = .idle := by rw [frame.ct]; exact hct
  have hruns : s.ft.pc ≠ .idle := (h.1.1 hisr).resolve_left (not_not_intro hct)
  rcases effect.point with hpc | ⟨hft, hout⟩ | ⟨hft, hin⟩
  · exact absurd hpc hruns
  · exact handlersOk_of_idle hout hct' hft
  · exact handlersOk_of_tick (hin.trans hisr) hct' hft

/-- Settles O14: a handler is entered where none runs, and its return clears `IN_ISR`. -/
theorem oneHandlerAtATime : Obligations.OneHandlerAtATime := by
  intro s t hs h
  obtain ⟨rest, hcase⟩ := step_frames h
  have hs : handlersOk (s.afterEntry rest) := hs
  cases hcase with
  | stays eq | waited _ _ eq | enable _ _ eq | store _ _ _ eq | peek _ _ eq | port _ _ _ _ _ eq =>
    subst eq; exact hs
  | held u more isHeld run frame bounds eq =>
    subst eq
    exact hs.congr (congrArg Irq.inIsr frame.irq) (congrArg Ct.pc frame.ct) (congrArg Ft.pc frame.ft)
  | control isr free runs move frame => exact handlersOk_ctStep hs isr runs frame
  | tick isr free other move frame => exact handlersOk_ftStep hs isr other frame (ftStep_effect move)
  | entry src n noIsr enabled request eq =>
    subst eq
    have hs : handlersOk { s.afterEntry rest with io.draws := n } := hs
    exact handlersOk_enterHandler hs noIsr src
  | bulk noIsr noWait runs move frame =>
    exact hs.congr (congrArg Irq.inIsr frame.irq) (congrArg Ct.pc frame.ct) (congrArg Ft.pc frame.ft)
  | attach noIsr noWait other eq => rw [eq, (attachFrame_atStep _).eq]; exact hs
  | env m entry move frame => exact hs.congr frame.inIsr (congrArg Ct.pc frame.ct) (congrArg Ft.pc frame.ft)
  | operation i kind free allowed word move frame =>
    exact hs.congr frame.inIsr (congrArg Ct.pc frame.ct) (congrArg Ft.pc frame.ft)
  | command i kind noIsr move frame =>
    exact hs.congr (congrArg Irq.inIsr frame.irq) (congrArg Ct.pc frame.ct) (congrArg Ft.pc frame.ft)

/-! ## The attach sequence -/

theorem attachOk.congr {s t : State} (h : attachOk s) (hp : t.power = s.power) (heor : t.irq.ienEor = s.irq.ienEor)
    (hsof : t.irq.ienSof = s.irq.ienSof) : attachOk t := by
  simp only [attachOk, hp, heor, hsof]; exact h

/-- Each step of the attach sequence writes the bits of its point (R281, R282). -/
theorem attachOk_atStep {s : State} (h : attachOk s) : attachOk (atStep s) := by
  cases hpc : s.power.pc <;> simp only [attachOk, hpc] at h <;> simp only [atStep, hpc]
  case idle => simpa only [attachOk, hpc] using h
  case a2Wait =>
    split
    · simp_all [attachOk]
    · simpa only [attachOk, hpc] using h
  all_goals simp_all [attachOk]

/-- ATTACH, accepted while the sequence is at IDLE and no power bit is set (R280, R281: A1). -/
theorem attachOk_attach {s t : State} (h : attachOk s) (hpc : s.power.pc = .idle) (hpwr : s.power.pwr = false)
    (hp : t.power = { s.power with pwr := true, pc := .a2 }) (hirq : t.irq = s.irq) : attachOk t := by
  simp only [attachOk, hpc, hpwr] at h
  simpa [attachOk, hp, hirq] using h

/-- The lock comes only while the PLL is on (R88), where the sequence is past A2. -/
theorem attachOk_pllLock {s t : State} (h : attachOk s) (hpll : s.power.pllEn = true)
    (hp : t.power = { s.power with pllLock := true }) (heor : t.irq.ienEor = s.irq.ienEor)
    (hsof : t.irq.ienSof = s.irq.ienSof) : attachOk t := by
  cases hpc : s.power.pc <;> simp only [attachOk, hpc] at h <;> simp only [attachOk, hp, hpc, heor, hsof]
  case idle =>
    split at h
    · simp [*]
    · simp [hpll] at h
  all_goals simp_all

/-- Settles O15: ATTACH, the attach sequence and the lock write the bits, each where the invariant lets it. -/
theorem attachOrderKept : Obligations.AttachOrderKept := by
  intro s t hs h
  obtain ⟨rest, hcase⟩ := step_frames h
  have hs : attachOk (s.afterEntry rest) := hs
  cases hcase with
  | stays eq | waited _ _ eq | enable _ _ eq | store _ _ _ eq | peek _ _ eq | port _ _ _ _ _ eq =>
    subst eq; exact hs
  | held u more isHeld run frame bounds eq =>
    subst eq
    exact hs.congr frame.power (congrArg Irq.ienEor frame.irq) (congrArg Irq.ienSof frame.irq)
  | control isr free runs move frame => exact hs.congr frame.power frame.ienEor frame.ienSof
  | tick isr free other move frame => exact hs.congr frame.power frame.ienEor frame.ienSof
  | entry src n noIsr enabled request eq => subst eq; cases src <;> exact hs
  | bulk noIsr noWait runs move frame =>
    exact hs.congr frame.power (congrArg Irq.ienEor frame.irq) (congrArg Irq.ienSof frame.irq)
  | attach noIsr noWait other eq => rw [eq]; exact attachOk_atStep hs
  | env m entry move frame =>
    rcases frame.power with hp | ⟨hpll, hp⟩
    · exact hs.congr hp frame.ienEor frame.ienSof
    · exact attachOk_pllLock hs hpll hp frame.ienEor frame.ienSof
  | operation i kind free allowed word move frame => exact hs.congr frame.power frame.ienEor frame.ienSof
  | command i kind noIsr move frame =>
    rcases frame.power with hp | ⟨hpwr, hp, -⟩
    · exact hs.congr hp (congrArg Irq.ienEor frame.irq) (congrArg Irq.ienSof frame.irq)
    · exact attachOk_attach hs frame.idle.2 hpwr hp frame.irq

end Sys2Proof.Machine
end

section
/-! PROOFS. The accounts of SEND (R32, R244, R245, R248), kept by its steps and loaded by its issue, and untouched by
everybody else. -/

namespace Sys2Proof.Machine

theorem SendOk.congr {s t : State} (h : SendOk s) (hb : t.be = s.be) : SendOk t where
  total := by rw [hb]; exact h.total
  account := by rw [hb]; exact h.account
  budget := by rw [hb]; exact h.budget
  chunk := by rw [hb]; exact h.chunk
  space := by rw [hb]; exact h.space
  done := by rw [hb]; exact h.done

/-- Outside a SEND the accounts ask for nothing. -/
theorem sendOk_of_not_sending {s : State} (h : s.be.pc.sending = false) : SendOk s where
  total := by simp [h]
  account := by simp [h]
  budget := by simp [h]
  chunk := fun hpc => by rw [hpc] at h; cases h
  space := fun hpc => by rw [hpc] at h; cases h
  done := fun hpc => by rw [hpc] at h; cases h

/-- The accounts at a point with no chunk in hand. -/
theorem sendOk_between {s : State} (hchunk : s.be.pc ≠ .sndChunk) (htotal : s.be.sndTotal.toNat < 32768)
    (haccount : s.be.sndI.toNat + s.be.sndRem.toNat = s.be.sndTotal.toNat)
    (hbudget : 1 ≤ s.be.sndTmo.toNat ∧ s.be.sndTmo.toNat ≤ 250) (hspace : s.be.pc = .sndSpace → s.be.sndRem ≠ 0)
    (hdone : s.be.pc = .sndDone → s.be.sndRem = 0) : SendOk s where
  total := fun _ => htotal
  account := fun _ => by simpa [chunkInHand, hchunk] using haccount
  budget := fun _ => hbudget
  chunk := fun h => absurd h hchunk
  space := hspace
  done := hdone

theorem SendOk.account_between {s : State} (h : SendOk s) (hsend : s.be.pc.sending = true)
    (hchunk : s.be.pc ≠ .sndChunk) : s.be.sndI.toNat + s.be.sndRem.toNat = s.be.sndTotal.toNat := by
  simpa [chunkInHand, hchunk] using h.account hsend

theorem SendOk.account_chunk {s : State} (h : SendOk s) (hpc : s.be.pc = .sndChunk) :
    s.be.sndI.toNat + s.be.sndN.toNat + s.be.sndRem.toNat = s.be.sndTotal.toNat := by
  simpa [chunkInHand, hpc] using h.account (by rw [hpc]; rfl)

theorem freeSpace_le (p : Endpoint) : p.freeSpace ≤ 64 := by
  simp only [Endpoint.freeSpace]
  split
  · exact Nat.sub_le _ _
  · omega

/-- SND.space: the chunk is the least of the free space and what remains (R244). -/
theorem sendOk_sndSpace {s t : State} (hs : SendOk s) (hpc : s.be.pc = .sndSpace) (h : sndSpace s = .next t) :
    SendOk t := by
  have hsend : s.be.pc.sending = true := by rw [hpc]; rfl
  have htotal := hs.total hsend
  have haccount := hs.account_between hsend (by simp [hpc])
  have hrem : s.be.sndRem.toNat ≠ 0 := fun e => hs.space hpc (BitVec.eq_of_toNat_eq e)
  simp only [sndSpace, spaceCrit_eq] at h
  split at h
  · cases h
  · split at h
    · cases h
      exact sendOk_between nofun htotal haccount (hs.budget hsend) nofun nofun
    · rename_i hfree
      cases h
      have hle := freeSpace_le (s.ep s.be.sndEp)
      generalize hk : min (s.ep s.be.sndEp).freeSpace s.be.sndRem.toNat = k
      have hk1 : 1 ≤ k ∧ k ≤ 64 ∧ k ≤ s.be.sndRem.toNat := by omega
      have hn : (BitVec.ofNat 7 k).toNat = k := by rw [BitVec.toNat_ofNat]; omega
      have hr : (s.be.sndRem - BitVec.ofNat 16 k).toNat = s.be.sndRem.toNat - k := by bv_omega
      refine ⟨fun _ => htotal, fun _ => ?_, fun _ => hs.budget hsend, fun _ => ?_, nofun, nofun⟩
      · simp only [chunkInHand, if_true, hn, hr]; omega
      · simp only [hn]; omega

/-- SND.wait: one observation of the budget less (R245). -/
theorem sendOk_sndWait {s : State} (hs : SendOk s) (hpc : s.be.pc = .sndWait) : SendOk (sndWait s) := by
  have hsend : s.be.pc.sending = true := by rw [hpc]; rfl
  have hbudget := hs.budget hsend
  simp only [sndWait]
  split
  · exact sendOk_of_not_sending rfl
  · rename_i hne
    have htmo : 1 ≤ (s.be.sndTmo - 1).toNat ∧ (s.be.sndTmo - 1).toNat ≤ 250 := by bv_omega
    exact sendOk_between nofun (hs.total hsend) (hs.account_between hsend (by simp [hpc])) htmo nofun nofun

/-- SND.chunk: the chunk in hand is written (R244, R248). -/
theorem sendOk_sndChunk {s t : State} (hs : SendOk s) (hpc : s.be.pc = .sndChunk) (h : sndChunk s = .next t) :
    SendOk t := by
  have hsend : s.be.pc.sending = true := by rw [hpc]; rfl
  have htotal := hs.total hsend
  have haccount := hs.account_chunk hpc
  simp only [sndChunk] at h
  split at h
  · rename_i u hu
    obtain ⟨⟨v, g, rfl⟩, -⟩ := chunkCrit_eps hu
    cases h
    have hi : (s.be.sndI + BitVec.ofNat 16 s.be.sndN.toNat).toNat = s.be.sndI.toNat + s.be.sndN.toNat := by
      have := s.be.sndN.isLt
      bv_omega
    exact sendOk_between nofun htotal (by simp only [hi]; exact haccount) (hs.budget hsend) nofun nofun
  · cases h; exact hs
  · cases h

/-- A step of SEND that moves from a point to another and writes no working register. -/
theorem SendOk.moves {s t : State} (hs : SendOk s) (hsend : s.be.pc.sending = true) (hfrom : s.be.pc ≠ .sndChunk)
    (hbe : t.be = { s.be with pc := t.be.pc }) (hto : t.be.pc ≠ .sndChunk)
    (hspace : t.be.pc = .sndSpace → s.be.sndRem ≠ 0) (hdone : t.be.pc = .sndDone → s.be.sndRem = 0) : SendOk t := by
  refine sendOk_between hto ?_ ?_ ?_ ?_ ?_ <;> rw [hbe]
  · exact hs.total hsend
  · exact hs.account_between hsend hfrom
  · exact hs.budget hsend
  · exact hspace
  · exact hdone

theorem sendOk_beStep {s t : State} (hs : SendOk s) (h : beStep s = .next t) : SendOk t := by
  cases hpc : s.be.pc <;> simp only [beStep, hpc] at h
  case idle => cases h; exact hs
  case sndLoop =>
    cases h
    simp only [sndLoop]
    split
    · exact hs.moves (by rw [hpc]; rfl) (by simp [hpc]) rfl nofun nofun fun _ => ‹_›
    · exact hs.moves (by rw [hpc]; rfl) (by simp [hpc]) rfl nofun (fun _ => ‹_›) nofun
  case sndSpace => exact sendOk_sndSpace hs hpc h
  case sndWait => cases h; exact sendOk_sndWait hs hpc
  case sndChunk => exact sendOk_sndChunk hs hpc h
  case sndArm => cases h; exact hs.moves (by rw [hpc]; rfl) (by simp [hpc]) rfl nofun nofun nofun
  case sndDone => cases h; exact sendOk_of_not_sending rfl
  case rcvCrit =>
    simp only [rcvCritStep, recvCrit_eq] at h
    split at h <;> cases h
    exact sendOk_of_not_sending rfl
  case rcvArm => cases h; exact sendOk_of_not_sending rfl

theorem toNat_lt_of_not_msb {v : Word16} (h : ¬ v.msb = true) : v.toNat < 32768 := by
  simpa [BitVec.msb_eq_decide] using h

/-- SEND loads its working registers with the whole payload left and a full budget (R244, R249). -/
theorem sendOk_exec_cmd {i : Instr} {s t : State} (hf : i.format = .cmd) (hs : SendOk s) (h : exec i s = .next t) :
    SendOk t := by
  cases i <;> simp only [Instr.format, reduceCtorEq] at hf <;> simp only [exec] at h
  case attach =>
    simp only [execAttach] at h
    repeat' split at h
    all_goals cases h
    exact hs.congr rfl
  case send ep rom release zero ptr len =>
    simp only [execSend] at h
    repeat' split at h
    all_goals cases h
    · exact sendOk_of_not_sending rfl
    · have hbudget : 1 ≤ Config.sendTimeout.toNat ∧ Config.sendTimeout.toNat ≤ 250 := by decide
      exact sendOk_between nofun (toNat_lt_of_not_msb ‹¬ len.msb = true›) (by simp) hbudget nofun nofun
  case recv =>
    simp only [execRecv] at h
    repeat' split at h
    all_goals cases h
    all_goals exact sendOk_of_not_sending rfl
  case available =>
    simp only [execAvailable, countCrit_eq] at h
    repeat' split at h
    all_goals cases h
    exact sendOk_of_not_sending rfl
  case flush e f =>
    simp only [execFlush] at h
    repeat' split at h
    all_goals cases h
    obtain ⟨⟨v, g, hv⟩, -⟩ := flushCrit_eps e { s with port.op := 0x04, port.epf := epfOf e f }
    rw [hv]
    exact hs.congr rfl

/-- Settles O16: only the bulk engine and the issue of a command write the working registers of SEND. -/
theorem sendAccountsKept : Obligations.SendAccountsKept := by
  intro s t hs h
  obtain ⟨rest, hcase⟩ := step_frames h
  have hs : SendOk (s.afterEntry rest) := hs.congr rfl
  cases hcase with
  | stays eq | waited _ _ eq | enable _ _ eq | store _ _ _ eq | peek _ _ eq | port _ _ _ _ _ eq =>
    subst eq; exact hs.congr rfl
  | held u more isHeld run frame bounds eq => subst eq; exact hs.congr frame.be
  | control isr free runs move frame => exact hs.congr frame.be
  | tick isr free other move frame => exact hs.congr frame.be
  | entry src n noIsr enabled request eq => subst eq; cases src <;> exact hs.congr rfl
  | bulk noIsr noWait runs move frame => exact sendOk_beStep hs move
  | attach noIsr noWait other eq => rw [eq, (attachFrame_atStep _).eq]; exact hs.congr rfl
  | env m entry move frame => exact hs.congr frame.be
  | operation i kind free allowed word move frame => exact hs.congr frame.be
  | command i kind noIsr move frame => exact sendOk_exec_cmd kind hs move

end Sys2Proof.Machine
end

section
/-! PROOFS. `SP` is read only where it is written (R21, log 22): the invariant, and that a step which meets it takes no
fault. -/

namespace Sys2Proof.Machine

theorem latchOk.congr {s t : State} (h : latchOk s) (hpc : t.ct.pc = s.ct.pc) (hlatch : t.latch = s.latch) :
    latchOk t := by
  simp only [latchOk, hpc, hlatch]; exact h

/-- Where `SP` is written it may be read anywhere. -/
theorem latchOk_of_valid {s : State} (h : s.latch.valid = true) : latchOk s := fun _ => h

theorem latchOk_ctStep {s t : State} (hs : latchOk s) (hruns : s.ct.pc ≠ .idle) (h : ctStep s = .next t) :
    latchOk t := by
  cases ctStep_case hruns h with
  | walk u p access outside wait reads eq =>
    subst eq
    intro hr
    exact (congrArg Latch.valid outside.latch).trans (hs (reads hr))
  | parse u p c point access outside eq => subst eq; exact latchOk_of_valid rfl
  | dispatch point move =>
    have hvalid : s.latch.valid = true := hs (by rw [point]; rfl)
    exact latchOk_of_valid (by rw [(exec_request_effect (format_decodeSetup _) move).latch]; exact hvalid)
  | resume reads move => exact latchOk_of_valid (by rw [(runRequest_ran move).latch]; exact hs reads)
  | leave point eq => subst eq; exact nofun

theorem latchOk_step {s t : State} (hs : latchOk s) (h : step s = .next t) : latchOk t := by
  obtain ⟨rest, hcase⟩ := step_frames h
  have hs : latchOk (s.afterEntry rest) := hs
  cases hcase with
  | stays eq | waited _ _ eq | enable _ _ eq | store _ _ _ eq | peek _ _ eq | port _ _ _ _ _ eq => subst eq; exact hs
  | held u more isHeld run frame bounds eq => subst eq; exact hs.congr (congrArg Ct.pc frame.ct) frame.latch
  | control isr free runs move frame => exact latchOk_ctStep hs runs move
  | tick isr free other move frame => exact hs.congr (congrArg Ct.pc frame.ct) frame.latch
  | entry src n noIsr enabled request eq =>
    subst eq
    cases src with
    | comm => exact nofun
    | frame => exact hs
  | bulk noIsr noWait runs move frame => exact hs.congr (congrArg Ct.pc frame.ct) frame.latch
  | attach noIsr noWait other eq => rw [eq, (attachFrame_atStep _).eq]; exact hs
  | env m entry move frame => exact hs.congr (congrArg Ct.pc frame.ct) frame.latch
  | operation i kind free allowed word move frame => exact hs.congr (congrArg Ct.pc frame.ct) frame.latch
  | command i kind noIsr move frame => exact hs.congr (congrArg Ct.pc frame.ct) frame.latch

/-! ## No fault -/

/-- The outcome is no fault. -/
def NoFault (o : Out) : Prop := ∀ f, o ≠ .fault f

@[simp] theorem noFault_next (s : State) : NoFault (.next s) := nofun

@[simp] theorem noFault_refused (r : Refusal) : NoFault (.refused r) := nofun

theorem noFault_ctWaitIn (s : State) : NoFault (ctWaitIn s) := by
  simp only [ctWaitIn]; split <;> simp

theorem noFault_ctParse (s : State) : NoFault (ctParse s) := by
  simp only [ctParse]
  repeat' split
  all_goals simp

theorem noFault_ctArm (s : State) : NoFault (ctArm s) := by
  simp only [ctArm]
  split
  · exact noFault_ctWaitIn s
  · split <;> simp

theorem noFault_ctComplete (s : State) : NoFault (ctComplete s) := by
  simp only [ctComplete]
  repeat' split
  all_goals simp

/-- A part of the handler that reads `SP`, with `SP` written. -/
theorem withLatch_valid {f : State → Out} {s : State} (h : s.latch.valid = true) : withLatch f s = f s := if_pos h

theorem noFault_ctStep {s : State} (hs : latchOk s) : NoFault (ctStep s) := by
  cases hpc : s.ct.pc <;> simp only [ctStep, hpc]
  case idle => exact noFault_next _
  case s1 => exact noFault_next _
  case s2 => exact noFault_ctParse s
  case s3 => rw [withLatch_valid (hs (by rw [hpc]; rfl))]; exact noFault_ctArm s
  case s3Wait => exact noFault_ctWaitIn s
  case s4 => rw [withLatch_valid (hs (by rw [hpc]; rfl))]; exact exec_no_fault _ s
  case s4EmitWait => exact runRequest_no_fault _ _ s
  case s4SetaddrWait => exact runRequest_no_fault _ _ s
  case s4CallWait => exact runRequest_no_fault _ _ s
  case s5 => exact noFault_ctComplete s
  case exit => exact noFault_next _

theorem noFault_ftStep (s : State) : NoFault (ftStep s) := by
  cases hpc : s.ft.pc <;> simp only [ftStep, hpc]
  case f3 =>
    simp only [tickFlush]
    repeat' split
    all_goals simp
  case f4 =>
    simp only [tickPull]
    repeat' split
    all_goals simp
  all_goals exact noFault_next _

theorem noFault_beStep (s : State) : NoFault (beStep s) := by
  cases hpc : s.be.pc <;> simp only [beStep, hpc]
  case sndSpace =>
    simp only [sndSpace]
    repeat' split
    all_goals simp
  case sndChunk => simp only [sndChunk]; split <;> simp
  case rcvCrit => simp only [rcvCritStep]; split <;> simp
  all_goals exact noFault_next _

theorem noFault_mainStep (s : State) : NoFault (mainStep s) := by
  simp only [mainStep]
  split
  · simp only [resumeWait]; split <;> simp
  · split
    · exact noFault_beStep s
    · exact noFault_next _

theorem noFault_isrStep {s : State} (hs : latchOk s) : NoFault (isrStep s) := by
  simp only [isrStep]
  split
  · exact noFault_ctStep hs
  · exact noFault_ftStep s

theorem noFault_heldStep {s : State} {o : Out} (h : heldStep s = some o) : NoFault o := by
  simp only [heldStep] at h
  repeat' split at h
  all_goals cases h
  all_goals simp

theorem noFault_blockStep {s : State} (hs : latchOk s) (d : Bool) : NoFault (blockStep d s) := by
  simp only [blockStep]
  split
  · exact noFault_heldStep ‹_›
  · split
    · split
      · exact noFault_isrStep hs
      · exact noFault_next s
    · split
      · exact noFault_next _
      · exact noFault_mainStep s

theorem noFault_issueWord {s : State} (hs : latchOk s) (bs : List Byte) (rest : List Input) :
    NoFault (issueWord bs rest s) := by
  simp only [issueWord]
  split
  · exact noFault_refused _
  · simp only [issueDecoded]
    split
    · split
      · exact noFault_blockStep hs _
      · exact exec_no_fault _ _
    · split
      · exact noFault_blockStep hs _
      · split
        · exact exec_no_fault _ _
        · exact noFault_refused _
    · exact exec_no_fault _ _
    · exact noFault_refused _

theorem noFault_envMove (m : EnvMove) (s : State) : NoFault (envMove m s) := by
  cases m <;> simp only [envMove]
  case setup =>
    simp only [envSetup]
    repeat' split
    all_goals simp
  case eor =>
    simp only [envEor]
    repeat' split
    all_goals simp
  all_goals exact noFault_next _

theorem noFault_whenMainline {s : State} (hs : latchOk s) {f : State → Out} (hf : ∀ u, NoFault (f u))
    (rest : List Input) : NoFault (whenMainline f rest s) := by
  simp only [whenMainline]
  split
  · exact noFault_blockStep hs _
  · exact hf _

theorem noFault_peek (n : Nat) (s : State) : NoFault (peek n s) := by
  simp only [peek]
  repeat' split
  all_goals simp

theorem noFault_mainlineWrite {s : State} (hs : latchOk s) (n : Nat) (v : Word16) (rest : List Input) :
    NoFault (mainlineWrite n v rest s) := by
  simp only [mainlineWrite]
  split
  · split
    · exact noFault_issueWord hs _ _
    · exact noFault_refused _
  · split <;> simp
  · split <;> simp
  · split <;> simp
  · exact noFault_refused _

theorem noFault_step {s : State} (hs : latchOk s) : NoFault (step s) := by
  have hafter : ∀ rest, latchOk { s with io.inputs := rest } := fun _ => hs
  simp only [step, advance]
  split
  · exact noFault_blockStep hs _
  · exact noFault_envMove _ _
  · exact noFault_blockStep (hafter _) _
  · exact noFault_issueWord hs _ _
  · exact noFault_whenMainline hs (fun _ => noFault_next _) _
  · exact noFault_whenMainline hs (fun _ => noFault_next _) _
  · exact noFault_whenMainline hs (noFault_peek _) _
  · split
    · exact noFault_blockStep hs _
    · exact noFault_mainlineWrite hs _ _ _

/-- Settles O18: every point past S2 finds `SP` written, so the two points that read it take no fault. -/
theorem noFaultEver : Obligations.NoFaultEver := fun _ hs => ⟨noFault_step hs, fun _ h => latchOk_step hs h⟩

end Sys2Proof.Machine
end

section
/-! PROOFS. Rules about every step: what is never cleared, what only grows, what stands still while a handler runs, and
who writes CFG and the address. -/

namespace Sys2Proof.Machine

/-! ## What is never cleared (R26, R52, R54) -/

/-- COMPOSITE is set by DESC_DEVICE and cleared by nothing (R26, R343). -/
theorem ctStep_composite {s t : State} (hruns : s.ct.pc ≠ .idle) (h : ctStep s = .next t)
    (hs : s.dev.composite = true) : t.dev.composite = true := by
  cases ctStep_case hruns h with
  | walk u p access outside wait reads eq => subst eq; exact outside.composite.trans hs
  | parse u p c point access outside eq => subst eq; exact outside.composite.trans hs
  | dispatch point move => exact (exec_request_effect (format_decodeSetup _) move).composite hs
  | resume reads move => exact (runRequest_ran move).composite.trans hs
  | leave point eq => subst eq; exact hs

theorem step_keeps_composite {s t : State} (h : step s = .next t) (hs : s.dev.composite = true) :
    t.dev.composite = true := by
  obtain ⟨rest, hcase⟩ := step_frames h
  have hs : (s.afterEntry rest).dev.composite = true := hs
  cases hcase with
  | stays eq | waited _ _ eq | enable _ _ eq | store _ _ _ eq | peek _ _ eq | port _ _ _ _ _ eq => subst eq; exact hs
  | held u more isHeld run frame bounds eq => subst eq; exact frame.composite.trans hs
  | control isr free runs move frame => exact ctStep_composite (s := s.afterEntry rest) runs move hs
  | tick isr free other move frame => exact frame.composite.trans hs
  | entry src n noIsr enabled request eq => subst eq; cases src <;> exact hs
  | bulk noIsr noWait runs move frame => exact (congrArg Dev.composite frame.dev).trans hs
  | attach noIsr noWait other eq => rw [eq, (attachFrame_atStep _).eq]; exact hs
  | env m entry move frame => exact frame.composite.trans hs
  | operation i kind free allowed word move frame => exact frame.composite.trans hs
  | command i kind noIsr move frame => exact (congrArg Dev.composite frame.dev).trans hs

/-- No interrupt enable and no power bit of `s` is cleared in `t`. -/
structure KeepsEnables (s t : State) : Prop where
  ienEor : s.irq.ienEor = true → t.irq.ienEor = true
  ienSof : s.irq.ienSof = true → t.irq.ienSof = true
  ienSetup0 : s.irq.ienSetup0 = true → t.irq.ienSetup0 = true
  pwr : s.power.pwr = true → t.power.pwr = true
  clkEn : s.power.clkEn = true → t.power.clkEn = true
  pllEn : s.power.pllEn = true → t.power.pllEn = true
  attachEn : s.power.attachEn = true → t.power.attachEn = true
  pllLock : s.power.pllLock = true → t.power.pllLock = true

/-- Where the enables stay and the power bits stay. -/
theorem KeepsEnables.of_same {s t : State} (heor : t.irq.ienEor = s.irq.ienEor) (hsof : t.irq.ienSof = s.irq.ienSof)
    (hsetup : s.irq.ienSetup0 = true → t.irq.ienSetup0 = true) (hp : t.power = s.power) : KeepsEnables s t :=
  ⟨heor.trans, hsof.trans, hsetup, (congrArg Power.pwr hp).trans, (congrArg Power.clkEn hp).trans,
    (congrArg Power.pllEn hp).trans, (congrArg Power.attachEn hp).trans, (congrArg Power.pllLock hp).trans⟩

theorem step_keepsEnables {s t : State} (h : step s = .next t) : KeepsEnables s t := by
  obtain ⟨rest, hcase⟩ := step_frames h
  cases hcase with
  | stays eq | waited _ _ eq | enable _ _ eq | store _ _ _ eq | peek _ _ eq | port _ _ _ _ _ eq =>
    subst eq; exact .of_same rfl rfl id rfl
  | held u more isHeld run frame bounds eq =>
    subst eq
    exact .of_same (congrArg Irq.ienEor frame.irq) (congrArg Irq.ienSof frame.irq)
      (congrArg Irq.ienSetup0 frame.irq).trans frame.power
  | control isr free runs move frame => exact .of_same frame.ienEor frame.ienSof frame.ienSetup0.trans frame.power
  | tick isr free other move frame => exact .of_same frame.ienEor frame.ienSof (ftStep_effect move).ienSetup0 frame.power
  | entry src n noIsr enabled request eq => subst eq; cases src <;> exact .of_same rfl rfl id rfl
  | bulk noIsr noWait runs move frame =>
    exact .of_same (congrArg Irq.ienEor frame.irq) (congrArg Irq.ienSof frame.irq)
      (congrArg Irq.ienSetup0 frame.irq).trans frame.power
  | attach noIsr noWait other eq =>
    have ha := attachFrame_atStep (s.afterEntry rest)
    rw [eq]
    exact ⟨ha.ienEor, ha.ienSof, fun h => by rw [ha.eq]; exact h, ha.pwr.trans, ha.clkEn, ha.pllEn, ha.attachEn,
      ha.pllLock.trans⟩
  | env m entry move frame =>
    rcases frame.power with hp | ⟨-, hp⟩
    · exact .of_same frame.ienEor frame.ienSof frame.ienSetup0.trans hp
    · exact ⟨frame.ienEor.trans, frame.ienSof.trans, frame.ienSetup0.trans, (congrArg Power.pwr hp).trans,
        (congrArg Power.clkEn hp).trans, (congrArg Power.pllEn hp).trans, (congrArg Power.attachEn hp).trans,
        fun _ => by rw [hp]⟩
  | operation i kind free allowed word move frame =>
    exact .of_same frame.ienEor frame.ienSof frame.ienSetup0.trans frame.power
  | command i kind noIsr move frame =>
    have heor := congrArg Irq.ienEor frame.irq
    have hsof := congrArg Irq.ienSof frame.irq
    have hsetup := congrArg Irq.ienSetup0 frame.irq
    rcases frame.power with hp | ⟨-, hp, -⟩
    · exact .of_same heor hsof hsetup.trans hp
    · exact ⟨heor.trans, hsof.trans, hsetup.trans, fun _ => by rw [hp], (congrArg Power.clkEn hp).trans,
        (congrArg Power.pllEn hp).trans, (congrArg Power.attachEn hp).trans, (congrArg Power.pllLock hp).trans⟩

/-- Settles O19: every writer of these bits sets them. -/
theorem nothingIsTakenBack : Obligations.NothingIsTakenBack := by
  refine ⟨fun s t => step_keeps_composite, fun s t h => ?_⟩
  have k := step_keepsEnables h
  exact ⟨k.ienEor, k.ienSof, k.ienSetup0, k.pwr, k.clkEn, k.pllEn, k.attachEn, k.pllLock⟩

/-! ## The parameters and the histories (R31, R63, R96) -/

theorem step_conf {s t : State} (h : step s = .next t) : t.conf = s.conf := by
  obtain ⟨rest, hcase⟩ := step_frames h
  cases hcase with
  | stays eq | waited _ _ eq | enable _ _ eq | store _ _ _ eq | peek _ _ eq | port _ _ _ _ _ eq => subst eq; rfl
  | held u more isHeld run frame bounds eq => subst eq; exact frame.conf
  | control isr free runs move frame => exact frame.conf
  | tick isr free other move frame => exact frame.conf
  | entry src n noIsr enabled request eq => subst eq; cases src <;> rfl
  | bulk noIsr noWait runs move frame => exact frame.conf
  | attach noIsr noWait other eq => rw [eq, (attachFrame_atStep _).eq]
  | env m entry move frame => exact frame.conf
  | operation i kind free allowed word move frame => exact frame.conf
  | command i kind noIsr move frame => exact frame.conf

theorem step_logGrows {s t : State} (h : step s = .next t) : LogGrows s t := by
  obtain ⟨rest, hcase⟩ := step_frames h
  have hs : LogGrows s (s.afterEntry rest) := .of_eq rfl
  cases hcase with
  | stays eq | waited _ _ eq | enable _ _ eq | store _ _ _ eq | peek _ _ eq | port _ _ _ _ _ eq =>
    subst eq; exact .of_eq rfl
  | held u more isHeld run frame bounds eq => subst eq; exact hs.trans (access_of_held run).txlog
  | control isr free runs move frame => exact hs.trans (ctStep_access (s := s.afterEntry rest) runs move).2
  | tick isr free other move frame => exact hs.trans (ftStep_effect move).txlog
  | entry src n noIsr enabled request eq => subst eq; cases src <;> exact .of_eq rfl
  | bulk noIsr noWait runs move frame => exact hs.trans (beStep_effect move).1
  | attach noIsr noWait other eq => rw [eq, (attachFrame_atStep _).eq]; exact .of_eq rfl
  | env m entry move frame => exact .of_eq (congrArg Ghost.txlog frame.ghost)
  | operation i kind free allowed word move frame => exact hs.trans (uopEffect_exec kind move).access.txlog
  | command i kind noIsr move frame => exact hs.trans (logGrows_exec_cmd kind move)

/-- The sink of the frame handler's pull only grows (R274): nobody else writes it. -/
theorem step_rxSink {s t : State} (h : step s = .next t) : s.ghost.rxSink <+: t.ghost.rxSink := by
  have same : ∀ {u : State}, u.ghost.rxSink = s.ghost.rxSink → s.ghost.rxSink <+: u.ghost.rxSink := fun e => by rw [e]
  obtain ⟨rest, hcase⟩ := step_frames h
  cases hcase with
  | stays eq | waited _ _ eq | enable _ _ eq | store _ _ _ eq | peek _ _ eq | port _ _ _ _ _ eq =>
    subst eq; exact same rfl
  | held u more isHeld run frame bounds eq => subst eq; exact same frame.rxSink
  | control isr free runs move frame => exact same frame.rxSink
  | tick isr free other move frame => exact (ftStep_effect move).rxSink
  | entry src n noIsr enabled request eq => subst eq; cases src <;> exact same rfl
  | bulk noIsr noWait runs move frame => exact same frame.rxSink
  | attach noIsr noWait other eq => rw [eq, (attachFrame_atStep _).eq]
  | env m entry move frame => exact same (congrArg Ghost.rxSink frame.ghost)
  | operation i kind free allowed word move frame => exact same frame.rxSink
  | command i kind noIsr move frame => exact same frame.rxSink

/-- Settles O20: no frame lets the parameters change, and every writer of a history appends. -/
theorem parametersFixedLogsGrow : Obligations.ParametersFixedLogsGrow :=
  fun _ _ h => ⟨step_conf h, step_logGrows h, step_rxSink h⟩

/-! ## While a handler runs (R91, R319) -/

/-- The registers of the mainline: its sequencers and their wait, its port, its buffer. -/
structure MainlineStands (s t : State) : Prop where
  be : t.be = s.be
  port : t.port = s.port
  buf : t.buf = s.buf
  attach : t.power.pc = s.power.pc
  wait : t.io.mainWait = s.io.mainWait

/-- The lock moves no sequencer (R88). -/
theorem EnvFrame.attachPoint {s t : State} (h : EnvFrame s t) : t.power.pc = s.power.pc := by
  rcases h.power with hp | ⟨-, hp⟩ <;> rw [hp]

/-- Settles O22: with `IN_ISR = 1` only a handler, its held words, the environment and a raw micro-operation move. -/
theorem mainlineWaitsForTheHandler : Obligations.MainlineWaitsForTheHandler := by
  intro s t h hisr
  suffices hm : MainlineStands s t ∧ _ from ⟨hm.1.be, hm.1.port, hm.1.buf, hm.1.attach, hm.1.wait, hm.2⟩
  have mainline : s.irq.inIsr = false → False := fun hno => by rw [hisr] at hno; cases hno
  obtain ⟨rest, hcase⟩ := step_frames h
  cases hcase with
  | stays eq => subst eq; exact ⟨⟨rfl, rfl, rfl, rfl, rfl⟩, fun _ => rfl⟩
  | entry _ _ noIsr | waited noIsr | bulk noIsr | attach noIsr | command _ _ noIsr | enable noIsr | store noIsr
  | peek noIsr | port noIsr => exact (mainline noIsr).elim
  | held u more isHeld run frame bounds eq =>
    subst eq
    exact ⟨⟨frame.be, frame.port, frame.buf, congrArg Power.pc frame.power, frame.mainWait⟩,
      fun _ => congrArg Irq.ie frame.irq⟩
  | control isr free runs move frame =>
    exact ⟨⟨frame.be, frame.port, frame.buf, congrArg Power.pc frame.power, frame.mainWait⟩, fun _ => frame.ie⟩
  | tick isr free other move frame =>
    exact ⟨⟨frame.be, frame.port, frame.buf, congrArg Power.pc frame.power, by rw [frame.io]⟩,
      fun _ => frame.ie⟩
  | env m entry move frame =>
    exact ⟨⟨frame.be, frame.port, frame.buf, frame.attachPoint, by rw [frame.io]⟩, fun _ => frame.ie⟩
  | operation i kind free allowed word move frame =>
    refine ⟨⟨frame.be, frame.port, frame.buf, congrArg Power.pc frame.power, frame.mainWait hisr⟩, fun hno => ?_⟩
    obtain ⟨bs, tail, hin, hdec⟩ := word
    have hirq := (uopEffect_exec kind move).irq (fun hi => (hno bs rest tail hin).1 (hi ▸ hdec))
      (fun hi => (hno bs rest tail hin).2 (hi ▸ hdec))
    exact congrArg Irq.ie hirq

/-! ## The writers of CFG (R25) -/

/-- The control handler writes CFG at S4 only, for a SET_CONFIGURATION to the device (R189). -/
theorem ctStep_cfg {s t : State} (hruns : s.ct.pc ≠ .idle) (h : ctStep s = .next t) : t.dev.cfg = s.dev.cfg ∨
    s.ct.pc = .s4 ∧ ∃ r : Req, decodeSetup s.latch.packet = .setConfiguration r ∧ r.recipient = 0 ∧
      t.dev.cfg = r.wValueL := by
  cases ctStep_case hruns h with
  | walk u p access outside wait reads eq => subst eq; exact .inl outside.cfg
  | parse u p c point access outside eq => subst eq; exact .inl outside.cfg
  | dispatch point move => exact (exec_request_effect (format_decodeSetup _) move).cfg.imp_right fun hr => ⟨point, hr⟩
  | resume reads move => exact .inl (runRequest_ran move).cfg
  | leave point eq => subst eq; exact .inl rfl

/-- Settles O23: of the agents, the control handler and the frame handler alone can write CFG. -/
theorem configurationHasTwoWriters : Obligations.ConfigurationHasTwoWriters := by
  intro s t h hne
  obtain ⟨rest, hcase⟩ := step_frames h
  cases hcase with
  | stays eq | waited _ _ eq | enable _ _ eq | store _ _ _ eq | peek _ _ eq | port _ _ _ _ _ eq =>
    subst eq; exact absurd rfl hne
  | held u more isHeld run frame bounds eq => subst eq; exact absurd frame.cfg hne
  | control isr free runs move frame =>
    rcases ctStep_cfg (s := s.afterEntry rest) runs move with hcfg | hcfg
    · exact absurd hcfg hne
    · exact ⟨isr, .inl hcfg⟩
  | tick isr free other move frame =>
    rcases (ftStep_effect move).cfg with hcfg | hcfg
    · exact absurd hcfg hne
    · exact ⟨isr, .inr ⟨other, hcfg⟩⟩
  | entry src n noIsr enabled request eq => subst eq; cases src <;> exact absurd rfl hne
  | bulk noIsr noWait runs move frame => exact absurd (congrArg Dev.cfg frame.dev) hne
  | attach noIsr noWait other eq => rw [eq, (attachFrame_atStep _).eq] at hne; exact absurd rfl hne
  | env m entry move frame => exact absurd frame.cfg hne
  | operation i kind free allowed word move frame => exact absurd frame.cfg hne
  | command i kind noIsr move frame => exact absurd (congrArg Dev.cfg frame.dev) hne

end Sys2Proof.Machine
end

section
/-! PROOFS. The writers of ADDR and ADDR_EN (R27, R87, R185), and what waits to be done (logs 7, 8). -/

namespace Sys2Proof.Machine

theorem PendingOk.congr {s t : State} (h : PendingOk s) (hisr : t.irq.inIsr = s.irq.inIsr) (hct : t.ct = s.ct)
    (hft : t.ft.pc = s.ft.pc) (hheld : t.io.held = s.io.held) (hlatch : t.latch = s.latch) : PendingOk t where
  context := by rw [hct, hisr]; exact h.context
  heldContext := by rw [hct, hft, hisr, hheld]; exact h.heldContext
  heldKind := by rw [hheld]; exact h.heldKind
  address := by rw [hct, hlatch]; exact h.address

/-- With nothing held, only the address is left to ask for. -/
theorem pendingOk_of_free {s : State} (hfree : s.io.held = []) (hcontext : s.ct.pc ≠ .idle → s.irq.inIsr = true)
    (haddress : ∀ a, Micro.setAddress a ∈ s.ct.todo → s.ct.pc = .s4SetaddrWait ∧ s.ct.todo = [.waitIn, .setAddress a] ∧
      ∃ r : Req, decodeSetup s.latch.packet = .setAddress r ∧ a = r.wValueL.extractLsb' 0 7) : PendingOk s where
  context := hcontext
  heldContext := fun h => absurd hfree h
  heldKind := by simp [hfree]
  address := haddress

/-- No write of the address waits but at its hold. -/
theorem PendingOk.noAddress {s : State} (h : PendingOk s) (hpc : s.ct.pc ≠ .s4SetaddrWait) : NoAddress s.ct.todo :=
  fun a ha => hpc (h.address a ha).1

theorem pendingOk_ctStep {s t : State} (h : PendingOk s) (hisr : s.irq.inIsr = true) (hfree : s.io.held = [])
    (hruns : s.ct.pc ≠ .idle) (move : ctStep s = .next t) (frame : ControlFrame s t) : PendingOk t := by
  refine pendingOk_of_free (frame.held.trans hfree) (fun hpc => ?_) (fun a ha => ?_)
  · rcases frame.point with ⟨hidle, -⟩ | ⟨-, hidle, -⟩ | ⟨-, hin⟩
    · exact absurd hidle hruns
    · exact absurd hidle hpc
    · exact hin.trans hisr
  · cases ctStep_case hruns move with
    | walk u p access outside wait reads eq =>
      subst eq
      have ha : Micro.setAddress a ∈ u.ct.todo := ha
      rw [outside.ct] at ha
      exact absurd ha (h.noAddress wait a)
    | parse u p c point access outside eq =>
      subst eq
      have ha : Micro.setAddress a ∈ u.ct.todo := ha
      rw [outside.ct] at ha
      exact absurd ha (h.noAddress (by simp [point]) a)
    | dispatch point move =>
      have he := exec_request_effect (format_decodeSetup _) move
      rw [he.latch]
      exact he.todo a ha
    | resume reads move =>
      have hr := runRequest_ran move
      obtain ⟨-, htodo, hreq⟩ := h.address a (hr.mem_of_todo ha)
      obtain ⟨hpc', htodo'⟩ := hr.address htodo ⟨a, ha⟩
      rw [hr.latch]
      exact ⟨hpc', htodo', hreq⟩
    | leave point eq => subst eq; exact absurd ha (h.noAddress (by simp [point]) a)

/-- A handler that is entered has nothing waiting: none was running (R316, R317). -/
theorem pendingOk_enterHandler {s : State} (h : PendingOk s) (hisr : s.irq.inIsr = false) (src : IrqSource) :
    PendingOk (enterHandler src s) := by
  have hidle : s.ct.pc = .idle := by
    by_contra hpc; rw [h.context hpc] at hisr; cases hisr
  have hfree : s.io.held = [] := by
    by_contra hheld; rw [(h.heldContext hheld).1] at hisr; cases hisr
  have hno := h.noAddress (by simp [hidle])
  cases src with
  | comm => exact pendingOk_of_free hfree (fun _ => rfl) fun a ha => absurd ha (hno a)
  | frame => exact pendingOk_of_free hfree (fun _ => rfl) fun a ha => absurd ha (hno a)

/-- Held micro-operations that go on leave a rest that can hold. -/
theorem pendingOk_held {s u : State} {more : List Micro} (h : PendingOk s) (hheld : s.io.held ≠ [])
    (run : runMicros s.io.held s = .finished u ∧ more = [] ∨ runMicros s.io.held s = .held more u)
    (frame : Outside s u) : PendingOk { u with io.held := more } := by
  obtain ⟨hisr, hruns⟩ := h.heldContext hheld
  have hsub : more ⊆ s.io.held := by
    rcases run with ⟨-, rfl⟩ | hrun
    · exact List.nil_subset _
    · exact ((access_runMicros _ s).2 more u hrun).2.subset
  refine ⟨?_, fun _ => ?_, fun m hm => h.heldKind m (hsub hm), ?_⟩
  · simp only [frame.ct, frame.irq]; exact h.context
  · simp only [frame.ct, frame.ft, frame.irq]; exact ⟨hisr, hruns⟩
  · simp only [frame.ct, frame.latch]; exact h.address

/-- Who may issue, by the sequencer that runs (R57, R321). -/
theorem issuer_cases {w : Issuer} {s : State} (h : issuer s = some w) :
    (w = .control ∧ s.irq.inIsr = true ∧ s.ct.pc ≠ .idle) ∨
    (w = .frame ∧ s.irq.inIsr = true ∧ s.ct.pc = .idle ∧ s.ft.pc ≠ .idle) ∨
    (w = .bulk ∧ s.irq.inIsr = false ∧ s.be.pc ≠ .idle) := by
  simp only [issuer] at h
  split at h
  · rename_i hisr
    split at h
    · cases h; exact .inl ⟨rfl, hisr, ‹_›⟩
    · rename_i hct
      split at h <;> cases h
      exact .inr (.inl ⟨rfl, hisr, Decidable.not_not.1 hct, ‹_›⟩)
  · rename_i hisr
    split at h <;> cases h
    exact .inr (.inr ⟨rfl, Bool.eq_false_iff.2 hisr, ‹_›⟩)

theorem issueAllowed_iff {i : Instr} {s : State} :
    issueAllowed i s = true ↔ ∃ w, issuer s = some w ∧ mayIssue w i = true := by
  simp only [issueAllowed]
  cases issuer s <;> simp

/-- A raw micro-operation that holds is issued in a handler (log 8). -/
theorem pendingOk_operation {i : Instr} {s t : State} (h : PendingOk s) (allowed : issueAllowed i s = true)
    (frame : UopFrame s t) (effect : UopEffect i s t) : PendingOk t := by
  rcases effect.held with hsame | ⟨hby, hkind⟩
  · exact h.congr frame.inIsr frame.ct (congrArg Ft.pc frame.ft) hsame frame.latch
  · obtain ⟨w, hw, hmay⟩ := issueAllowed_iff.1 allowed
    have hruns : s.irq.inIsr = true ∧ (s.ct.pc ≠ .idle ∨ s.ft.pc ≠ .idle) := by
      rcases issuer_cases hw with ⟨-, hisr, hct⟩ | ⟨-, hisr, -, hft⟩ | ⟨rfl, hisr, -⟩
      · exact ⟨hisr, .inl hct⟩
      · exact ⟨hisr, .inr hft⟩
      · rcases hby with hin | hbulk
        · rw [hisr] at hin; cases hin
        · rw [hbulk] at hmay; cases hmay
    refine ⟨fun _ => frame.inIsr.trans hruns.1, fun _ => ⟨frame.inIsr.trans hruns.1, ?_⟩, hkind, ?_⟩
    · rw [frame.ct, frame.ft]; exact hruns.2
    · rw [frame.ct, frame.latch]; exact h.address

theorem pendingOk_step {s t : State} (hs : PendingOk s) (h : step s = .next t) : PendingOk t := by
  obtain ⟨rest, hcase⟩ := step_frames h
  have hs : PendingOk (s.afterEntry rest) := hs.congr rfl rfl rfl rfl rfl
  cases hcase with
  | stays eq | waited _ _ eq | enable _ _ eq | store _ _ _ eq | peek _ _ eq | port _ _ _ _ _ eq =>
    subst eq; exact hs.congr rfl rfl rfl rfl rfl
  | held u more isHeld run frame bounds eq => subst eq; exact pendingOk_held hs isHeld run frame
  | control isr free runs move frame => exact pendingOk_ctStep hs isr free runs move frame
  | tick isr free other move frame =>
    have hidle : t.ct.pc = .idle := by rw [frame.ct]; exact other
    have hno : NoAddress t.ct.todo := by rw [frame.ct]; exact hs.noAddress (by simp [other])
    exact pendingOk_of_free (by rw [frame.io]; exact free) (fun hpc => absurd hidle hpc) fun a ha => absurd ha (hno a)
  | entry src n noIsr enabled request eq =>
    subst eq
    have hs : PendingOk { s.afterEntry rest with io.draws := n } := hs.congr rfl rfl rfl rfl rfl
    exact pendingOk_enterHandler hs noIsr src
  | bulk noIsr noWait runs move frame =>
    exact hs.congr (congrArg Irq.inIsr frame.irq) frame.ct (congrArg Ft.pc frame.ft) (congrArg Io.held frame.io)
      frame.latch
  | attach noIsr noWait other eq => rw [eq, (attachFrame_atStep _).eq]; exact hs.congr rfl rfl rfl rfl rfl
  | env m entry move frame =>
    exact hs.congr frame.inIsr frame.ct (congrArg Ft.pc frame.ft) (congrArg Io.held frame.io) frame.latch
  | operation i kind free allowed word move frame =>
    exact pendingOk_operation hs allowed frame (uopEffect_exec kind move)
  | command i kind noIsr move frame =>
    exact hs.congr (congrArg Irq.inIsr frame.irq) frame.ct (congrArg Ft.pc frame.ft) (congrArg Io.held frame.io)
      frame.latch

/-! ## Who writes the address -/

/-- ADDR and ADDR_EN stand still. -/
def AddressStands (s t : State) : Prop := t.dev.addr = s.dev.addr ∧ t.dev.addrEn = s.dev.addrEn

theorem AddressStands.of_dev {s t : State} (h : t.dev = s.dev) : AddressStands s t := by
  simp [AddressStands, h]

/-- The SET_ADDRESS in `SP` writes the address (R185). -/
def AddressIsSet (s t : State) : Prop :=
  (s.ct.pc = .s4 ∨ s.ct.pc = .s4SetaddrWait) ∧ t.dev.addrEn = true ∧
    ∃ r : Req, decodeSetup s.latch.packet = .setAddress r ∧ t.dev.addr = r.wValueL.extractLsb' 0 7

theorem ctStep_addr {s t : State} (hs : PendingOk s) (hruns : s.ct.pc ≠ .idle) (h : ctStep s = .next t) :
    AddressStands s t ∨ AddressIsSet s t := by
  cases ctStep_case hruns h with
  | walk u p access outside wait reads eq => subst eq; exact .inl (.of_dev access.dev_eq)
  | parse u p c point access outside eq => subst eq; exact .inl (.of_dev access.dev_eq)
  | dispatch point move =>
    refine (exec_request_effect (format_decodeSetup _) move).addr.imp id ?_
    rintro ⟨r, hi, haddr, hen⟩
    exact ⟨.inl point, hen, r, hi, haddr⟩
  | resume reads move =>
    rcases (runRequest_ran move).access.dev with hd | ⟨a, ha, hd⟩
    · exact .inl (.of_dev hd)
    · obtain ⟨hpc, -, r, hi, rfl⟩ := hs.address a ha
      exact .inr ⟨.inr hpc, by rw [hd], r, hi, by rw [hd]⟩
  | leave point eq => subst eq; exact .inl (.of_dev rfl)

theorem step_addr {s t : State} (hs : PendingOk s) (h : step s = .next t) : AddressStands s t ∨
    (∃ rest, s.io.inputs = .env .eor :: rest ∧ t.dev.addr = 0 ∧ t.dev.addrEn = false) ∨
    (s.irq.inIsr = true ∧ AddressIsSet s t) := by
  obtain ⟨rest, hcase⟩ := step_frames h
  have hs : PendingOk (s.afterEntry rest) := hs.congr rfl rfl rfl rfl rfl
  cases hcase with
  | stays eq | waited _ _ eq | enable _ _ eq | store _ _ _ eq | peek _ _ eq | port _ _ _ _ _ eq =>
    subst eq; exact .inl (.of_dev rfl)
  | held u more isHeld run frame bounds eq =>
    subst eq
    have hno : {a | Micro.setAddress a ∈ s.io.held} ⊆ ∅ := fun a ha => nomatch hs.heldKind _ ha
    exact .inl (.of_dev ((access_of_held run).mono hno).dev_eq)
  | control isr free runs move frame =>
    exact (ctStep_addr hs runs move).imp id fun h => .inr ⟨isr, h⟩
  | tick isr free other move frame => exact .inl ⟨frame.addr, frame.addrEn⟩
  | entry src n noIsr enabled request eq => subst eq; cases src <;> exact .inl (.of_dev rfl)
  | bulk noIsr noWait runs move frame => exact .inl (.of_dev frame.dev)
  | attach noIsr noWait other eq => rw [eq, (attachFrame_atStep _).eq]; exact .inl (.of_dev rfl)
  | env m entry move frame =>
    rcases envMove_dev move with hd | ⟨rfl, haddr, hen⟩
    · exact .inl (.of_dev hd)
    · exact .inr (.inl ⟨rest, entry, haddr, hen⟩)
  | operation i kind free allowed word move frame => exact .inl (.of_dev (uopEffect_exec kind move).access.dev_eq)
  | command i kind noIsr move frame => exact .inl (.of_dev frame.dev)

/-- Settles O24: a held word names no address, and what waits at S4 is the address of the request in `SP`. -/
theorem addressHasTwoWriters : Obligations.AddressHasTwoWriters := by
  intro s t hs h
  refine ⟨pendingOk_step hs h, fun hne => ?_⟩
  rcases step_addr hs h with ⟨haddr, hen⟩ | heor | hset
  · exact absurd hne (by simp [haddr, hen])
  · exact .inl heor
  · exact .inr hset

end Sys2Proof.Machine
end

section
/-! PROOFS. What a step runs: the decoded operation, the request in `SP`, the accesses of the mainline (R48, R56, R91,
R180), and what is refused as reserved (R58, R131). -/

namespace Sys2Proof.Machine

/-! ## Reserved encodings -/

/-- `CMD_OP` of 5 to 0x0F, the codes 0x29 to 0x2F and those above 0x33 are no row's (R131). -/
theorem decodeCode_reserved {c : Byte} (bs : List Byte)
    (h : (5 ≤ c.toNat ∧ c.toNat < 0x10) ∨ (0x29 ≤ c.toNat ∧ c.toNat < 0x30) ∨ 0x34 ≤ c.toNat) :
    decodeCode c bs = .error .reservedOpcode := by
  simp only [decodeCode]
  split
  rotate_right
  · rfl
  all_goals omega

theorem operandEpf_reserved {b : Byte} {bs : List Byte} {k : EpIdx → BitVec 3 → List Byte → Decoded}
    (h : b.extractLsb' 3 2 ≠ (0 : BitVec 2)) : operandEpf (b :: bs) k = .error .reservedEpfBits := if_neg h

theorem operandEpf_ok {b : Byte} {bs : List Byte} {k : EpIdx → BitVec 3 → List Byte → Decoded}
    (h : b.extractLsb' 3 2 = (0 : BitVec 2)) :
    operandEpf (b :: bs) k = k (b.extractLsb' 0 3) (b.extractLsb' 5 3) bs := if_pos h

theorem operand16_cons (l h : Byte) (bs : List Byte) (k : Word16 → List Byte → Decoded) :
    operand16 (l :: h :: bs) k = k (le16 l h) bs := rfl

/-- `CMD_EPF[4:3]` not 0 in any command that has it (R123, R131). -/
theorem decodeCode_reservedEpf {c b : Byte} (bs : List Byte) (h1 : 1 ≤ c.toNat) (h4 : c.toNat ≤ 4)
    (hb : b.extractLsb' 3 2 ≠ (0 : BitVec 2)) : decodeCode c (b :: bs) = .error .reservedEpfBits := by
  have hc : c.toNat = 1 ∨ c.toNat = 2 ∨ c.toNat = 3 ∨ c.toNat = 4 := by omega
  rcases hc with hc | hc | hc | hc <;> simp only [decodeCode, hc] <;> exact operandEpf_reserved hb

/-- The sign of a 16-bit operand is that of its high byte (R76). -/
theorem msb_le16 (l h : Byte) : (le16 l h).msb = h.msb := by
  rw [BitVec.msb_eq_getLsbD_last, getLsbD_le16, BitVec.msb_eq_getLsbD_last]
  rfl

theorem typeOfCode_reserved {c : Byte} (h : 5 ≤ c.toNat) : typeOfCode c = none := by
  have hne : ∀ v : Byte, v.toNat < 5 → c ≠ v := fun v hv e => by rw [e] at h; omega
  rw [typeOfCode, if_neg (hne 0 (by decide)), if_neg (hne 1 (by decide)), if_neg (hne 2 (by decide)),
    if_neg (hne 3 (by decide)), if_neg (hne 4 (by decide))]

/-- SEND (R122, R123). -/
theorem decodeCode_send (bs : List Byte) : decodeCode 0x01 bs =
    operandEpf bs fun ep f r => operand16 r fun ptr r => operand16 r fun len r =>
      if len.msb then .error .negativeSendLength
      else .ok (.send ep (f.getLsbD 2) (f.getLsbD 1) (f.getLsbD 0) ptr len, r) := rfl

/-- INIT_EP (R127). -/
theorem decodeCode_initEp (bs : List Byte) : decodeCode 0x20 bs =
    operandEp bs fun e r => operand r fun c r =>
      match typeOfCode c with
      | some t => .ok (.initEp e t, r)
      | none => .error .reservedTypeCode := rfl

theorem operandEp_ok {b : Byte} {bs : List Byte} {k : EpIdx → List Byte → Decoded} (h : b.toNat < 8) :
    operandEp (b :: bs) k = k (b.extractLsb' 0 3) bs := if_pos h

theorem not_busy_of_idle {s : State} (h : s.mainlineIdle) : busy s = false := by
  obtain ⟨hbe, hat⟩ := h
  simp [busy, hbe, hat]

theorem validEp_iff {e : EpIdx} {s : State} : validEp e s = true ↔ e.toNat < s.conf.nEp := by simp [validEp]

theorem validEp_false {e : EpIdx} {s : State} (h : s.conf.nEp ≤ e.toNat) : validEp e s = false := by
  simp [validEp, h]

/-- Settles O4, the decoder first, then the step and the commands. -/
theorem reservedEncodingsRefused : Obligations.ReservedEncodingsRefused := by
  refine ⟨fun c bs h => decodeCode_reserved bs h, fun c b bs h1 h4 hb => decodeCode_reservedEpf bs h1 h4 hb,
    fun b p0 p1 l0 l1 bs hb hl => ?_, fun e c bs he hc => ?_, fun s bs rest x hin hdec => ?_,
    fun s e f rom rel zero ptr len hidle he => ?_⟩
  · have hneg : (le16 l0 l1).msb = true := by rw [msb_le16, BitVec.msb_eq_decide]; simpa using hl
    rw [decodeWord, decodeCode_send, operandEpf_ok hb, operand16_cons, operand16_cons, if_pos hneg]
  · rw [decodeWord, decodeCode_initEp, operandEp_ok he]
    simp only [operand, typeOfCode_reserved hc]
  · simp only [step, advance, hin, issueWord, hdec]
  · have hb := not_busy_of_idle hidle
    have hv := validEp_false (e := e) he
    refine ⟨?_, ?_, ?_, ?_⟩
    · simp [exec, execSend, hb, hv]
    · simp [exec, execRecv, hb, hv]
    · simp [exec, execAvailable, hb, hv]
    · simp [exec, execFlush, hb, hv]

/-! ## The decoded operation -/

/-- An issued word runs its operation where no earlier one is in its way (R34, R91, R312). -/
theorem issueWord_runs {s : State} {bs tail : List Byte} {rest : List Input} {i : Instr}
    (hdec : decodeWord bs = .ok (i, tail)) (hcmd : i.format = .cmd → s.irq.inIsr = false)
    (huop : i.format = .uop → s.io.held = [] ∧ (s.irq.inIsr = true ∨ s.io.mainWait = none) ∧ issueAllowed i s = true) :
    issueWord bs rest s = exec i { s with io.inputs := rest } := by
  simp only [issueWord, hdec, issueDecoded]
  cases hf : i.format with
  | setup8 => exact absurd hf (decodeWord_format hdec)
  | cmd => simp [hcmd hf]
  | uop =>
    obtain ⟨hheld, hwait, hallowed⟩ := huop hf
    have hnot : ¬ issuerHeld s := by
      rintro (h | ⟨hisr, h⟩)
      · exact h hheld
      · rcases hwait with hin | hnone
        · rw [hisr] at hin; cases hin
        · exact h hnone
    simp [hnot, hallowed]
  | evt => rfl

/-- The block's step where a handler runs and nothing is held (R91). -/
theorem blockStep_isr {d : Bool} {s : State} (hheld : s.io.held = []) (hisr : s.irq.inIsr = true) :
    blockStep d s = isrStep s := by
  simp [blockStep, heldStep, hheld, hisr]

/-- At S4 with `SP` written the running handler performs the request (R180). -/
theorem blockStep_dispatch {d : Bool} {s : State} (hpc : s.ct.pc = .s4) (hvalid : s.latch.valid = true)
    (hisr : s.irq.inIsr = true) (hheld : s.io.held = []) : blockStep d s = exec (decodeSetup s.latch.packet) s := by
  rw [blockStep_isr hheld hisr]
  simp [isrStep, ctStep, hpc, withLatch, hvalid, ctDispatch]

/-- The mainline's write of a register where no handler runs. -/
theorem step_regWrite {s : State} {n v : Nat} {rest : List Input} (hin : s.io.inputs = .regWrite n v :: rest)
    (hisr : s.irq.inIsr = false) : step s = mainlineWrite n (BitVec.ofNat 16 v) rest s := by
  simp [step, advance, hin, hisr]

/-- The mainline's read of a register where no handler runs. -/
theorem step_peek {s : State} {n : Nat} {rest : List Input} (hin : s.io.inputs = .peek n :: rest)
    (hisr : s.irq.inIsr = false) : step s = peek n { s with io.inputs := rest } := by
  simp [step, advance, hin, whenMainline, hisr]

theorem peek_readable {s : State} {n : Nat} {v : Word16} (hn : mainlineReadable n = true) (hv : regView n s = some v) :
    peek n s = .next (s.setRet (.word v)) := by
  simp [peek, hn, hv]

theorem peek_refused {s : State} {n : Nat} (hn : mainlineReadable n = false) :
    peek n s = .refused .mainlineRegisterAccess := by
  simp [peek, hn]

/-- The two bits of the LED register (R48). -/
theorem ledBits (tx rx : Bool) : bitAt tx 0 ||| bitAt rx 1 = (if tx then 1 else 0) + (if rx then 2 else 0) := by
  revert tx rx; decide

/-- Settles O6, one part for each kind of entry. -/
theorem stepRunsTheDecodedOperation : Obligations.StepRunsTheDecodedOperation := by
  refine ⟨fun s bs tail rest i hin hdec hcmd huop => ?_, fun s hpc hvalid hisr hheld => ⟨fun hin => ?_, fun rest hin => ?_⟩,
    fun s v op rest i tail hin hisr hop hlt hdec => ?_,
    fun s v w rest hw hisr hidle => ⟨fun hin => ?_, fun hin => ?_, fun hin => ?_⟩,
    fun s n v rest hin hisr hv => ?_, fun s v rest hin hisr => ?_, fun s a b rest hin hisr hm => ?_⟩
  · simp only [step, advance, hin]
    exact issueWord_runs hdec hcmd huop
  · simp only [step, advance, hin]
    exact blockStep_dispatch hpc hvalid hisr hheld
  · simp only [step, advance, hin]
    exact blockStep_dispatch (s := { s with io.inputs := rest }) hpc hvalid hisr hheld
  · have hf : i.format = .cmd := format_decodeCode hlt hdec
    have hrun : issueWord (portBytes op s) rest s = exec i { s with io.inputs := rest } :=
      issueWord_runs hdec (fun _ => hisr) (fun h => by rw [hf] at h; cases h)
    subst hop
    rw [step_regWrite hin hisr]
    simp only [mainlineWrite]
    rw [if_pos hlt, hrun]
  · rw [step_regWrite hin hisr]; simp [mainlineWrite, not_busy_of_idle hidle, hw]
  · rw [step_regWrite hin hisr]; simp [mainlineWrite, not_busy_of_idle hidle, hw]
  · rw [step_regWrite hin hisr]; simp [mainlineWrite, not_busy_of_idle hidle, hw]
  · rw [step_peek hin hisr]
    rcases hv with ⟨rfl, rfl⟩ | ⟨rfl, rfl⟩ | ⟨rfl, rfl⟩ | ⟨rfl, rfl⟩ | ⟨rfl, rfl⟩ | ⟨rfl, rfl⟩
    · exact peek_readable rfl rfl
    · exact peek_readable rfl rfl
    · exact peek_readable rfl (congrArg some (ledBits s.pulse.ledTx s.pulse.ledRx))
    · exact peek_readable rfl rfl
    · exact peek_readable rfl rfl
    · exact peek_readable rfl rfl
  · simp [step, advance, hin, whenMainline, hisr]
  · refine ⟨{ s with io.inputs := rest, buf := s.buf.write a b }, ?_, rfl, fun x => Memory.read_write hm a b x⟩
    simp [step, advance, hin, whenMainline, hisr]

/-! ## S1 to S3 -/

theorem ofBytes_bytes (p : SetupPacket) : SetupPacket.ofBytes p.bytes = p := rfl

/-- Endpoint 0 selected and initialised: the selected endpoint is an enabled control endpoint. -/
theorem State.controlOn.selected {s : State} (h : s.controlOn) (hsel : s.sel = 0) :
    s.cur = s.ep 0 ∧ s.cur.en = true ∧ s.cur.ty = .control := by
  have hcur : s.cur = s.ep 0 := by rw [State.cur, hsel]
  rw [hcur]
  exact ⟨rfl, h.1, by rw [Endpoint.ty, if_pos h.1, h.2]⟩

theorem controlRefusal_control {s : State} (h : s.cur.ty = .control) : controlRefusal s = none := by
  simp [controlRefusal, h]

theorem clearSetupOp_control {s : State} (h : s.cur.ty = .control) :
    clearSetupOp s = .ok (s.setEp s.sel { s.cur with setup := false, outRdy := false }) := by
  simp [clearSetupOp, controlRefusal_control h]

/-- ACK_IN on a control endpoint (R153). -/
theorem ackInOp_control {s : State} (h : s.cur.ty = .control) : ackInOp s = .ok (commitIn s.sel s) := by
  simp [ackInOp, controlRefusal_control h]

theorem waitInOp_control {s : State} (hen : s.cur.en = true) (h : s.cur.ty = .control) :
    waitInOp s = if s.cur.inRdy then .ok s else .hold := by
  simp [waitInOp, h, hen, inCapable, Endpoint.inFlag]

/-- The wait of S3 and S3.wait (R143, R173). -/
theorem ctWaitIn_control {s : State} (hen : s.cur.en = true) (h : s.cur.ty = .control) :
    ctWaitIn s = .next { s with ct.pc := if s.cur.inRdy then .s4 else .s3Wait } := by
  simp only [ctWaitIn, waitInOp_control hen h]
  cases s.cur.inRdy <;> rfl

/-- S2 (R172): the eight bytes of the bank, in order, go to `SP`. -/
theorem ctParse_packet {s : State} {p : SetupPacket} (hen : s.cur.en = true) (h : s.cur.ty = .control)
    (hdata : s.cur.data = p.bytes) :
    ctParse s = .next { s.setEp s.sel { s.cur with data := [], setup := false, outRdy := false } with
      latch := ⟨p, true⟩, cursor := ⟨0, p.wLength⟩, ct.pc := .s3 } := by
  have hread : readRefusal s = none := by simp [readRefusal, hen, h, outCapable]
  have hpop : popBytes Config.setupLen s = (p.bytes, s.setEp s.sel { s.cur with data := [] }) := by
    rw [popBytes_eq _ s (by rw [hdata]; exact Nat.le_refl 8), hdata]
    rfl
  simp only [ctParse, hread, hpop, ofBytes_bytes]
  generalize hq : ({ s.cur with data := [] } : Endpoint) = q
  have hcur : ({ s.setEp s.sel q with latch := ⟨p, true⟩ } : State).cur = q := State.cur_setEp_sel s q
  have hty : q.ty = .control := by rw [← hq]; exact h
  rw [clearSetupOp_control (by rw [hcur]; exact hty), hcur]
  subst hq
  exact congrArg (fun v : State => Host.Outcome.next { v with latch := ⟨p, true⟩, cursor := ⟨0, p.wLength⟩, ct.pc := .s3 })
    (State.setEp_setEp s s.sel _ _)

/-- S1 with a setup packet (R171). -/
theorem ctSelect_setup {s : State} (h : (s.ep 0).setupFlag = true) : ctSelect s = { s with sel := 0, ct.pc := .s2 } := by
  show ({ s with sel := 0, ct.pc := if (s.ep 0).setupFlag then .s2 else .exit } : State) = _
  rw [if_pos h]

/-- The bank of a single-bank endpoint that is free, committed (R150). -/
theorem committed_single {p : Endpoint} (h : p.inQ = []) :
    p.committed 1 = { p with inQ := [p.data], data := [], inRdy := false } := by
  simp [Endpoint.committed, h]

/-- S3 without a data stage (R174): the status packet is the bank as it stands. -/
theorem commitIn_zero {s : State} (hen : (s.ep 0).en = true) (hrdy : (s.ep 0).inRdy = true) (hq : (s.ep 0).inQ = []) :
    commitIn 0 s = (s.setEp 0 { s.ep 0 with inQ := [(s.ep 0).data], data := [], inRdy := false }).logTx 0
      (s.ep 0).data := by
  have hflag : (s.ep 0).inFlag = true := by rw [Endpoint.inFlag, hen, hrdy]; rfl
  rw [commitIn_ready 0 s hflag, show banks 0 = 1 from rfl, committed_single hq]

/-- Settles O27, by the five points. -/
theorem setupPacketIsParsed : Obligations.SetupPacketIsParsed := by
  refine ⟨fun s p hpc hsel hon hdata => ?_, fun s hpc hon hsetup => ?_, fun s hpc hvalid hsel hon hdir => ?_,
    fun s hpc hvalid hsel hon hdir hrdy hq => ?_, fun s hpc hsel hon => ?_⟩
  · obtain ⟨hcur, hen, hty⟩ := hon.selected hsel
    simp only [ctStep, hpc]
    rw [ctParse_packet hen hty (by rw [hcur]; exact hdata), hcur, hsel]
  · have hflag : (s.ep 0).setupFlag = true := by
      rw [Endpoint.setupFlag, Endpoint.ty, if_pos hon.1, hon.2, hsetup]; rfl
    simp only [ctStep, hpc]
    rw [ctSelect_setup hflag]
  · obtain ⟨hcur, hen, hty⟩ := hon.selected hsel
    simp only [ctStep, hpc]
    rw [withLatch_valid hvalid, ctArm, if_pos hdir, ctWaitIn_control hen hty, hcur]
  · obtain ⟨hcur, hen, hty⟩ := hon.selected hsel
    simp only [ctStep, hpc]
    rw [withLatch_valid hvalid, ctArm, if_neg (by simp [hdir]), armOutStageOp, ackInOp_control hty, hsel,
      commitIn_zero hon.1 hrdy hq]
  · obtain ⟨hcur, hen, hty⟩ := hon.selected hsel
    simp only [ctStep, hpc]
    rw [ctWaitIn_control hen hty, hcur]
    split
    · rfl
    · exact congrArg _ (by rw [← hpc])

end Sys2Proof.Machine
end

section
/-! PROOFS. The queries of the free space (R45, R149, R242), INIT_EP (R158), and the misuse a model refuses (R157, R159,
R257, R368). -/

namespace Sys2Proof.Machine

/-! ## The type an operation sees -/

theorem Endpoint.ty_of_en {p : Endpoint} (h : p.en = true) : p.ty = p.kind := by simp [Endpoint.ty, h]

theorem Endpoint.ty_of_off {p : Endpoint} (h : p.en = false) : p.ty = .disabled := by simp [Endpoint.ty, h]

/-- The kinds SEND and FLUSH are for (R257). -/
theorem sends_iff {k : EpType} : k.sends = true ↔ k = .bulkIn ∨ k = .interruptIn := by cases k <;> simp [EpType.sends]

theorem nonControlRefusal_none {p : Endpoint} (h : p.ty ≠ .control) : nonControlRefusal p = none := by
  simp only [nonControlRefusal]
  split
  · exact absurd ‹_› h
  all_goals rfl

theorem nonControlRefusal_control {p : Endpoint} (h : p.ty = .control) :
    nonControlRefusal p = some .wrongEndpointType := by
  simp only [nonControlRefusal, h]

/-! ## RW_ALLOWED and SEND_SPACE -/

/-- `rw_allowed` by type: a sending endpoint below 64 bytes, a receiving one above 0 (R45). -/
theorem rwAllowed_eq {p : Endpoint} (hen : p.en = true) (hk : p.kind ≠ .control) :
    p.rwAllowed = (p.kind.sends && p.inRdy && decide (p.data.length < 64) ||
      p.kind == .bulkOut && p.outRdy && decide (0 < p.data.length)) := by
  rw [Endpoint.rwAllowed, Endpoint.ty_of_en hen]
  cases h : p.kind
  case control => exact absurd h hk
  case disabled => rfl
  case bulkIn => exact (Bool.or_false _).symm
  case bulkOut => rfl
  case interruptIn => exact (Bool.or_false _).symm

theorem rwAllowed_off {p : Endpoint} (h : p.en = false) : p.rwAllowed = false := by
  simp [Endpoint.rwAllowed, Endpoint.ty_of_off h]

theorem freeSpace_off {p : Endpoint} (h : p.en = false) : p.freeSpace = 0 := by
  simp [Endpoint.freeSpace, rwAllowed_off h]

theorem freeSpace_en {p : Endpoint} (h : p.en = true) :
    p.freeSpace = if p.rwAllowed then 64 - p.data.length else 0 := by
  simp [Endpoint.freeSpace, Endpoint.cnt, h, Config.epSize]

theorem exec_rwAllowed {s : State} {e : EpIdx} (hsel : s.sel = e) (h : (s.ep e).ty ≠ .control) :
    exec .rwAllowed s = .next (s.setRet (.bit (s.ep e).rwAllowed)) := by
  subst hsel
  simp only [exec, execRwAllowed, State.cur, nonControlRefusal_none h]

/-- SEND_SPACE leaves `SEL` and `IE` as they were: its critical section restores them (R242). -/
theorem exec_sendSpace {s : State} {e : EpIdx} (he : e.toNat < s.conf.nEp) (h : (s.ep e).ty ≠ .control) :
    exec (.sendSpace e) s = .next (s.setRet (.count (BitVec.ofNat 7 (s.ep e).freeSpace))) := by
  simp only [exec, execSendSpace, validEp_iff.2 he, spaceCrit_eq, nonControlRefusal_none h]
  rfl

theorem exec_rwAllowed_control {s : State} {e : EpIdx} (hsel : s.sel = e) (h : (s.ep e).ty = .control) :
    exec .rwAllowed s = .refused .wrongEndpointType := by
  subst hsel
  simp only [exec, execRwAllowed, State.cur, nonControlRefusal_control h]

theorem exec_sendSpace_control {s : State} {e : EpIdx} (he : e.toNat < s.conf.nEp) (h : (s.ep e).ty = .control) :
    exec (.sendSpace e) s = .refused .wrongEndpointType := by
  simp only [exec, execSendSpace, validEp_iff.2 he, nonControlRefusal_control h]
  rfl

/-- Settles O42, by the type of the endpoint. -/
theorem spaceQueries : Obligations.SpaceQueries := by
  refine ⟨fun s e rw' he hen hk hrw => ?_, fun s e he hen => ?_, fun s e he hen hk => ?_⟩
  · have hty : (s.ep e).ty ≠ .control := by rw [Endpoint.ty_of_en hen]; exact hk
    have hrw : (s.ep e).rwAllowed = rw' := (rwAllowed_eq hen hk).trans hrw.symm
    refine ⟨fun hsel => ?_, ?_⟩
    · rw [exec_rwAllowed hsel hty, hrw]; rfl
    · rw [exec_sendSpace he hty, freeSpace_en hen, hrw]; rfl
  · have hty : (s.ep e).ty ≠ .control := by rw [Endpoint.ty_of_off hen]; decide
    refine ⟨fun hsel => ?_, ?_⟩
    · rw [exec_rwAllowed hsel hty, rwAllowed_off hen]; rfl
    · rw [exec_sendSpace he hty, freeSpace_off hen]; rfl
  · have hty : (s.ep e).ty = .control := (Endpoint.ty_of_en hen).trans hk
    exact ⟨fun hsel => exec_rwAllowed_control hsel hty, exec_sendSpace_control he hty⟩

/-! ## INIT_EP -/

/-- Every field of an initialised endpoint (R158); the type of endpoint 0 is hard-wired (R58, log 16). -/
theorem fresh_fields (e : EpIdx) (t : EpType) : ({ Endpoint.fresh t with kind := hardwiredType e t } : Endpoint) =
    ⟨t != .disabled, if e = 0 ∧ t ≠ .disabled then .control else t, false,
      t == .control || t == .bulkIn || t == .interruptIn, false, false, [], [], []⟩ := by
  have hkind : hardwiredType e t = if e = 0 ∧ t ≠ .disabled then .control else t := by
    simp [hardwiredType]
  have hin : inCapable t = (t == .control || t == .bulkIn || t == .interruptIn) := by cases t <;> rfl
  rw [Endpoint.fresh, hkind, hin]

/-- Settles O47 (`initEndpoint` is the operation's own name). -/
theorem initEndpoint_initialises : Obligations.InitEndpoint := by
  refine ⟨fun s e t he => ?_, fun s e t he => ?_⟩
  · simp only [exec, execInitEp, validEp_iff.2 he, initEndpoint, fresh_fields]
    rfl
  · simp only [exec, execInitEp, validEp_false he]
    rfl

/-! ## The wrong type -/

section
variable {s : State}

theorem exec_waitIn_wrongType (hen : s.cur.en = true) (h : inCapable s.cur.kind = false) :
    exec .waitIn s = .refused .wrongEndpointType := by
  simp [exec, execWaitIn, issueWait, waitOp, waitInOp, Endpoint.ty_of_en, hen, h]

theorem exec_write8_wrongType (b : Byte) (hen : s.cur.en = true) (h : inCapable s.cur.kind = false) :
    exec (.write8 b) s = .refused .wrongEndpointType := by
  simp [exec, execWrite8, direct, write8Op, Endpoint.ty_of_en, hen, h]

theorem exec_waitOut_wrongType (hen : s.cur.en = true) (h : outCapable s.cur.kind = false) :
    exec .waitOut s = .refused .wrongEndpointType := by
  simp [exec, execWaitOut, issueWait, waitOp, waitOutOp, Endpoint.ty_of_en, hen, h]

theorem exec_read8_wrongType (hen : s.cur.en = true) (h : outCapable s.cur.kind = false) :
    exec .read8 s = .refused .wrongEndpointType := by
  simp [exec, execRead8, readRefusal, Endpoint.ty_of_en, hen, h]

theorem controlRefusal_wrongType (hen : s.cur.en = true) (h : s.cur.kind.sends = true ∨ s.cur.kind = .bulkOut) :
    controlRefusal s = some .wrongEndpointType := by
  rw [sends_iff] at h
  rcases h with (h | h) | h <;> simp only [controlRefusal, Endpoint.ty_of_en hen, h]

theorem txRefusal_wrongType {e : EpIdx} (hen : (s.ep e).en = true)
    (h : (s.ep e).kind = .control ∨ (s.ep e).kind = .bulkOut) : txRefusal e s = some .wrongEndpointType := by
  rcases h with h | h <;> simp only [txRefusal, Endpoint.ty_of_en hen, h]

theorem rxRefusal_wrongType {e : EpIdx} (hen : (s.ep e).en = true)
    (h : (s.ep e).kind = .control ∨ (s.ep e).kind.sends = true) : rxRefusal e s = some .wrongEndpointType := by
  rw [sends_iff] at h
  rcases h with h | h | h <;> simp only [rxRefusal, Endpoint.ty_of_en hen, h]

/-! ## Commands -/

theorem exec_flush_refused {e : EpIdx} (f : BitVec 3) (hidle : s.mainlineIdle) (he : e.toNat < s.conf.nEp)
    (h : cmdTxRefusal e s = some .wrongEndpointType) : exec (.flush e f) s = .refused .wrongEndpointType := by
  simp [exec, execFlush, not_busy_of_idle hidle, validEp_iff.2 he, h]

theorem exec_send_refused {e : EpIdx} (rom rel zero : Bool) (ptr : Word16) {len : Word16} (hidle : s.mainlineIdle)
    (he : e.toNat < s.conf.nEp) (hlen : len.msb = false) (h : cmdTxRefusal e s = some .wrongEndpointType) :
    exec (.send e rom rel zero ptr len) s = .refused .wrongEndpointType := by
  simp [exec, execSend, not_busy_of_idle hidle, validEp_iff.2 he, hlen, h]

theorem exec_available_refused {e : EpIdx} (f : BitVec 3) (hidle : s.mainlineIdle) (he : e.toNat < s.conf.nEp)
    (h : cmdAnyRefusal e s = some .wrongEndpointType) : exec (.available e f) s = .refused .wrongEndpointType := by
  simp [exec, execAvailable, not_busy_of_idle hidle, validEp_iff.2 he, h]

theorem exec_recv_refused {e : EpIdx} (f : BitVec 3) (ptr len : Word16) (hidle : s.mainlineIdle)
    (he : e.toNat < s.conf.nEp) (h : cmdRxRefusal e s = some .wrongEndpointType) :
    exec (.recv e f ptr len) s = .refused .wrongEndpointType := by
  simp [exec, execRecv, not_busy_of_idle hidle, validEp_iff.2 he, h]

theorem cmdTxRefusal_wrongType {e : EpIdx} (h : txRefusal e s = some .wrongEndpointType) :
    cmdTxRefusal e s = some .wrongEndpointType := by
  simp only [cmdTxRefusal, h, ite_self]

theorem cmdRxRefusal_wrongType {e : EpIdx} (h : rxRefusal e s = some .wrongEndpointType) :
    cmdRxRefusal e s = some .wrongEndpointType := by
  simp only [cmdRxRefusal, h, ite_self]

theorem cmdAnyRefusal_wrongType {e : EpIdx} (h : nonControlRefusal (s.ep e) = some .wrongEndpointType) :
    cmdAnyRefusal e s = some .wrongEndpointType := by
  simp only [cmdAnyRefusal, h, ite_self]

/-! ## Issuers -/

/-- A raw micro-operation nobody that runs may issue (R34, R57). -/
theorem step_notTheOwner {bs tail : List Byte} {rest : List Input} {i : Instr} (hin : s.io.inputs = .word bs :: rest)
    (hdec : decodeWord bs = .ok (i, tail)) (hf : i.format = .uop) (hheld : ¬ issuerHeld s)
    (h : issueAllowed i s = false) : step s = .refused .notTheOwner := by
  simp only [step, advance, hin, issueWord, hdec, issueDecoded, hf, if_neg hheld, h]
  rfl

theorem not_issuerHeld (hheld : s.io.held = []) (hwait : s.irq.inIsr = true ∨ s.io.mainWait = none) :
    ¬ issuerHeld s := by
  rintro (h | ⟨hisr, h⟩)
  · exact h hheld
  · rcases hwait with hin | hnone
    · rw [hisr] at hin; cases hin
    · exact h hnone

theorem issueAllowed_false {i : Instr} (h : ∀ w, issuer s = some w → mayIssue w i = false) :
    issueAllowed i s = false := by
  rw [Bool.eq_false_iff, ne_eq, issueAllowed_iff]
  rintro ⟨w, hw, hmay⟩
  rw [h w hw] at hmay
  cases hmay

/-- A command register is not written while a command is served (R56, log 34). -/
theorem mainlineWrite_busy {n : Nat} (v : Word16) (rest : List Input) (hn : 0x21 ≤ n ∧ n ≤ 0x23) (hb : busy s = true) :
    mainlineWrite n v rest s = .refused .commandWhileBusy := by
  obtain rfl | rfl | rfl : n = 0x21 ∨ n = 0x22 ∨ n = 0x23 := by omega
  all_goals simp only [mainlineWrite, hb, if_true]

theorem mainlineWrite_foreign {n : Nat} (v : Word16) (rest : List Input) (hn : n < 0x20 ∨ 0x23 < n) :
    mainlineWrite n v rest s = .refused .mainlineRegisterAccess := by
  simp only [mainlineWrite]
  split
  rotate_right
  · rfl
  all_goals omega

theorem mainlineWrite_reservedOp {v : Word16} (rest : List Input) (h : 5 ≤ (lo8 v).toNat) :
    mainlineWrite 0x20 v rest s = .refused .reservedEncoding := by
  simp only [mainlineWrite]
  rw [if_neg (by omega)]

theorem busy_of_not_idle (h : ¬ s.mainlineIdle) : busy s = true := by
  by_contra hb
  exact h (not_busy hb)

/-! ## A disabled endpoint -/

theorem controlRefusal_off (h : s.cur.en = false) : controlRefusal s = none := by
  simp only [controlRefusal, Endpoint.ty_of_off h]

theorem txRefusal_off {e : EpIdx} (h : (s.ep e).en = false) : txRefusal e s = none := by
  simp only [txRefusal, Endpoint.ty_of_off h]

theorem rxRefusal_off {e : EpIdx} (h : (s.ep e).en = false) : rxRefusal e s = none := by
  simp only [rxRefusal, Endpoint.ty_of_off h]

theorem commitIn_off {e : EpIdx} (h : (s.ep e).en = false) : commitIn e s = s :=
  commitIn_noop e s (by rw [Endpoint.inFlag, h]; rfl)

theorem releaseOut_off {e : EpIdx} (h : (s.ep e).en = false) : releaseOut e s = s := by
  have hflag : ¬ (s.ep e).outFlag = true := by simp [Endpoint.outFlag, h]
  rw [releaseOut, Endpoint.released, if_neg hflag, State.setEp_ep]

/-- Every flag of a disabled endpoint reads 0 (R159). -/
theorem epFlagsReg_off {p : Endpoint} (h : p.en = false) : epFlagsReg p = 0 := by
  have hsetup : p.setupFlag = false := by simp [Endpoint.setupFlag, Endpoint.ty_of_off h]
  simp [epFlagsReg, hsetup, Endpoint.inFlag, Endpoint.outFlag, rwAllowed_off h, h, bitAt]

end

end Sys2Proof.Machine
end

section
/-! PROOFS. Misuse is refused (R34, R56, R57, R157, R159, R257, R368). -/

namespace Sys2Proof.Machine

section
variable {s : State}

/-- Each type-bound micro-operation on an enabled endpoint of the wrong type (R157). -/
theorem uop_wrongType_refused (b : Byte) (hen : s.cur.en = true) :
    (inCapable s.cur.kind = false → exec .waitIn s = .refused .wrongEndpointType ∧
      exec (.write8 b) s = .refused .wrongEndpointType) ∧
    (outCapable s.cur.kind = false → exec .waitOut s = .refused .wrongEndpointType ∧
      exec .read8 s = .refused .wrongEndpointType) ∧
    (s.cur.kind.sends = true ∨ s.cur.kind = .bulkOut → exec .ackIn s = .refused .wrongEndpointType ∧
      exec .clearSetup s = .refused .wrongEndpointType ∧ exec .clearOut s = .refused .wrongEndpointType ∧
      exec .armOutStage s = .refused .wrongEndpointType) ∧
    (s.cur.kind = .control ∨ s.cur.kind = .bulkOut → exec .releaseTx s = .refused .wrongEndpointType) ∧
    (s.cur.kind = .control ∨ s.cur.kind.sends = true → exec .releaseRx s = .refused .wrongEndpointType) := by
  refine ⟨fun h => ⟨exec_waitIn_wrongType hen h, exec_write8_wrongType b hen h⟩,
    fun h => ⟨exec_waitOut_wrongType hen h, exec_read8_wrongType hen h⟩, fun h => ?_, fun h => ?_, fun h => ?_⟩
  · have hr := controlRefusal_wrongType hen h
    refine ⟨?_, ?_, ?_, ?_⟩
    · simp only [exec, execAckIn, ackInOp, hr, direct]
    · simp only [exec, execClearSetup, clearSetupOp, hr, direct]
    · simp only [exec, execClearOut, clearOutOp, hr, direct]
    · simp only [exec, execArmOutStage, armOutStageOp, ackInOp, hr, direct]
  · simp only [exec, execReleaseTx, txRefusal_wrongType hen h]
  · simp only [exec, execReleaseRx, rxRefusal_wrongType hen h]

/-- Each bulk command on an enabled endpoint of the wrong type (R257). -/
theorem command_wrongType_refused {e : EpIdx} (f : BitVec 3) (rom rel zero : Bool) (ptr len : Word16)
    (hidle : s.mainlineIdle) (he : e.toNat < s.conf.nEp) (hen : (s.ep e).en = true) :
    ((s.ep e).kind = .control ∨ (s.ep e).kind = .bulkOut →
      exec (.flush e f) s = .refused .wrongEndpointType ∧
      (len.msb = false → exec (.send e rom rel zero ptr len) s = .refused .wrongEndpointType)) ∧
    ((s.ep e).kind = .control → exec (.available e f) s = .refused .wrongEndpointType) ∧
    ((s.ep e).kind = .control ∨ (s.ep e).kind.sends = true →
      exec (.recv e f ptr len) s = .refused .wrongEndpointType) := by
  refine ⟨fun h => ?_, fun h => ?_, fun h => ?_⟩
  · have hr := cmdTxRefusal_wrongType (txRefusal_wrongType hen h)
    exact ⟨exec_flush_refused f hidle he hr, fun hlen => exec_send_refused rom rel zero ptr hidle he hlen hr⟩
  · have hr := nonControlRefusal_control ((Endpoint.ty_of_en hen).trans h)
    exact exec_available_refused f hidle he (cmdAnyRefusal_wrongType hr)
  · exact exec_recv_refused f ptr len hidle he (cmdRxRefusal_wrongType (rxRefusal_wrongType hen h))

/-- The queries, waits, accesses, commits and releases on a disabled endpoint (R153 to R156, R159; log 17). -/
theorem disabled_endpoint (b : Byte) (hen : s.cur.en = false) :
    exec .byteCount s = .next { s with io.ret := .count 0 } ∧
    exec .testSetup s = .next { s with io.ret := .bit false } ∧
    exec .rwAllowed s = .next { s with io.ret := .bit false } ∧
    regView 0x01 s = some 0 ∧
    exec .waitIn s = .refused .disabledEndpoint ∧ exec .waitOut s = .refused .disabledEndpoint ∧
    exec .read8 s = .refused .disabledEndpoint ∧ exec (.write8 b) s = .refused .disabledEndpoint ∧
    exec .ackIn s = .next s ∧ exec .armOutStage s = .next s ∧ exec .releaseTx s = .next s ∧
    exec .clearOut s = .next s ∧ exec .releaseRx s = .next s := by
  have hty : s.cur.ty ≠ .control := by rw [Endpoint.ty_of_off hen]; decide
  have hcontrol := controlRefusal_off hen
  have hcommit : commitIn s.sel s = s := commitIn_off hen
  have hrelease : releaseOut s.sel s = s := releaseOut_off hen
  refine ⟨?_, ?_, ?_, ?_, ?_, ?_, ?_, ?_, ?_, ?_, ?_, ?_, ?_⟩
  · simp only [exec, execByteCount, Endpoint.cnt, hen]; rfl
  · simp only [exec, execTestSetup, Endpoint.setupFlag, Endpoint.ty_of_off hen]; rfl
  · rw [exec_rwAllowed rfl hty, rwAllowed_off (p := s.ep s.sel) hen]; rfl
  · exact congrArg some (epFlagsReg_off hen)
  · simp [exec, execWaitIn, issueWait, waitOp, waitInOp, hen]
  · simp [exec, execWaitOut, issueWait, waitOp, waitOutOp, hen]
  · simp [exec, execRead8, readRefusal, hen]
  · simp [exec, execWrite8, direct, write8Op, hen]
  · simp only [exec, execAckIn, ackInOp, hcontrol, direct, hcommit]
  · simp only [exec, execArmOutStage, armOutStageOp, ackInOp, hcontrol, direct, hcommit]
  · simp only [exec, execReleaseTx, txRefusal_off hen, hcommit]
  · simp only [exec, execClearOut, clearOutOp, hcontrol, direct, hrelease]
  · simp only [exec, execReleaseRx, rxRefusal_off hen, hrelease]

end

/-- Settles O49, one part for each kind of misuse. -/
theorem misuseIsRefused : Obligations.MisuseIsRefused := by
  refine ⟨fun s b hen => uop_wrongType_refused b hen,
    fun s e f rom rel zero ptr len hidle he hen => command_wrongType_refused f rom rel zero ptr len hidle he hen,
    fun s f rom rel zero ptr len hidle hn => ?_,
    fun s bs tail rest i hin hdec hf hheld hwait hforeign => ?_,
    fun s n v rest hisr => ⟨fun hin hn => ?_, fun hin hn => ?_, fun hin hop => ?_, fun hin h1 h3 hbusy => ?_⟩,
    fun s b hsel hpos => ?_, fun s b hsel => ?_, fun s b hen => disabled_endpoint b hen⟩
  · exact ⟨exec_flush_refused f hidle hn rfl, exec_available_refused f hidle hn rfl,
      exec_recv_refused f ptr len hidle hn rfl, fun hlen => exec_send_refused rom rel zero ptr hidle hn hlen rfl⟩
  · refine step_notTheOwner hin hdec hf (not_issuerHeld hheld hwait) (issueAllowed_false fun w hw => ?_)
    rcases issuer_cases hw with ⟨rfl, hisr, hct⟩ | ⟨rfl, hisr, hct, hft⟩ | ⟨rfl, hisr, hbe⟩
    · obtain rfl | rfl : i = .armTx ∨ i = .armRx := by simpa [hisr, hct] using hforeign
      all_goals rfl
    · obtain (⟨n, rfl⟩ | ⟨b, rfl⟩ | ⟨bs, rfl⟩) | rfl :
          ((∃ n, i = .curInit n) ∨ (∃ b, i = .emit8 b) ∨ ∃ bs, i = .emitN bs) ∨ i = .armTx := by
        simpa [hisr, hct, hft] using hforeign
      all_goals rfl
    · obtain (⟨n, rfl⟩ | ⟨b, rfl⟩ | ⟨bs, rfl⟩) | ⟨e, k, rfl⟩ :
          ((∃ n, i = .curInit n) ∨ (∃ b, i = .emit8 b) ∨ ∃ bs, i = .emitN bs) ∨ ∃ e k, i = .initEp e k := by
        simpa [hisr, hbe] using hforeign
      all_goals rfl
  · rw [step_peek hin hisr]
    exact peek_refused (by simp [mainlineReadable, hn])
  · rw [step_regWrite hin hisr, mainlineWrite_foreign _ rest hn]
  · rw [step_regWrite hin hisr, mainlineWrite_reservedOp rest hop]
  · rw [step_regWrite hin hisr, mainlineWrite_busy _ rest ⟨h1, h3⟩ (busy_of_not_idle hbusy)]
  · simp [exec, execEmit8, issue, runMicros, microStep, emit8Op, hsel, hpos]
  · have hm : microStep (.emit8 b) s = .refused .emitOffControl := if_pos hsel
    simp only [exec, execEmit8, issue, runMicros_cons_refused hm]

end Sys2Proof.Machine
end

section
/-! PROOFS. SEND.check (R244, R249; logs 3, 20), and a SEND of length 0 (R249). -/

namespace Sys2Proof.Machine

/-- The port after the words of a SEND (R56, R122, R123). -/
def sendPort (s : State) (e : EpIdx) (flags : BitVec 3) (ptr len : Word16) : Port :=
  { s.port with op := 0x01, epf := epfOf e flags, ptr := ptr, len := len }

theorem zeroFlag_flagsOf (rom rel zero : Bool) : zeroFlag (flagsOf rom rel zero) = zero := by
  revert rom rel zero; decide

theorem romFlag_flagsOf (rom rel zero : Bool) : romFlag (flagsOf rom rel zero) = rom := by
  revert rom rel zero; decide

/-- The range of a SEND's payload (R70, R75, R368). -/
theorem sendInRange_eq (rom rel zero : Bool) (ptr len : Word16) (s : State) :
    sendInRange (flagsOf rom rel zero) ptr len s =
      (zero || inSpace (if rom then s.conf.romEnd else s.conf.bufEnd) ptr.toNat len.toNat) := by
  simp only [sendInRange, zeroFlag_flagsOf, romFlag_flagsOf]
  cases zero <;> cases rom <;> rfl

theorem inSpace_iff {lim : Option Nat} {a n : Nat} : inSpace lim a n = true ↔ ∀ k, lim = some k → n = 0 ∨ a + n ≤ k := by
  cases lim <;> simp [inSpace]

theorem txRefusal_none {s : State} {e : EpIdx}
    (h : (s.ep e).en = false ∨ (s.ep e).kind.sends = true ∨ (s.ep e).kind = .disabled) : txRefusal e s = none := by
  cases hen : (s.ep e).en with
  | false => exact txRefusal_off hen
  | true =>
    rw [hen, sends_iff] at h
    rcases h with h | (h | h) | h
    · cases h
    all_goals simp only [txRefusal, Endpoint.ty_of_en hen, h]

section
variable {s : State} {e : EpIdx} {rom rel zero : Bool} {ptr len : Word16}

/-- SEND past what R56, R131, R249 and R257 refuse: the range, then CFG (log 20). -/
theorem exec_send_checked (hidle : s.mainlineIdle) (he : e.toNat < s.conf.nEp) (h0 : e ≠ 0) (hlen : len.msb = false)
    (htx : txRefusal e s = none) : exec (.send e rom rel zero ptr len) s =
      if !sendInRange (flagsOf rom rel zero) ptr len s then .refused .rangeOutsideMemory
      else if s.dev.cfg = 0 then
        .next (failResult .eNotConfigured { s with port := sendPort s e (flagsOf rom rel zero) ptr len })
      else .next { s with
        port := sendPort s e (flagsOf rom rel zero) ptr len
        be.pc := .sndLoop, be.sndEp := e, be.sndFlags := flagsOf rom rel zero, be.sndPtr := ptr
        be.sndTotal := len, be.sndRem := len, be.sndTmo := Config.sendTimeout, be.sndI := 0 } := by
  have hcmd : cmdTxRefusal e s = none := by rw [cmdTxRefusal, if_neg h0, htx]
  simp only [exec, execSend, not_busy_of_idle hidle, validEp_iff.2 he, hlen, hcmd]
  rfl

/-- A SEND accepted with CFG not 0 loads the working registers (R32, R244). -/
theorem exec_send_accepted (hidle : s.mainlineIdle) (he : e.toNat < s.conf.nEp) (h0 : e ≠ 0) (hlen : len.msb = false)
    (htx : txRefusal e s = none) (hrange : sendInRange (flagsOf rom rel zero) ptr len s = true)
    (hcfg : s.dev.cfg ≠ 0) : exec (.send e rom rel zero ptr len) s = .next { s with
      port := sendPort s e (flagsOf rom rel zero) ptr len
      be.pc := .sndLoop, be.sndEp := e, be.sndFlags := flagsOf rom rel zero, be.sndPtr := ptr
      be.sndTotal := len, be.sndRem := len, be.sndTmo := Config.sendTimeout, be.sndI := 0 } := by
  rw [exec_send_checked hidle he h0 hlen htx, hrange, if_neg hcfg]
  rfl

theorem exec_send_busy (h : ¬ s.mainlineIdle) : exec (.send e rom rel zero ptr len) s = .refused .commandWhileBusy := by
  simp only [exec, execSend, busy_of_not_idle h, if_true]

end

/-- A command that fails while the bulk engine is at IDLE leaves it there. -/
theorem failResult_idle {s : State} (c : Cause) (h : s.be.pc = .idle) :
    failResult c s = { s with port.res := Config.failResult, ghost.bulkFail := some c } := by
  rw [failResult, ← h]

theorem MainlineAlone.congr {s t : State} (h : MainlineAlone s) (hirq : t.irq = s.irq) (hio : t.io = s.io) :
    MainlineAlone t :=
  ⟨by rw [hirq, h.noIsr], by rw [hirq, h.noIe], by rw [hio, h.noHeld], by rw [hio, h.noWait], by rw [hio, h.noInputs]⟩

/-- With the mainline alone the bulk engine takes the step (R91). -/
theorem step_mainlineAlone {s : State} (h : MainlineAlone s) (hbe : s.be.pc ≠ .idle) : step s = beStep s := by
  simp [step, advance, h.noInputs, blockStep, heldStep, h.noHeld, h.noIsr, pickIrq, canDeliver, h.noIe, mainStep,
    h.noWait, hbe]

/-- A SEND with nothing left at SND.loop is done two steps later (R244, R249). -/
theorem run_send_empty {s : State} (h : MainlineAlone s) (hpc : s.be.pc = .sndLoop) (hrem : s.be.sndRem = 0) :
    Host.Core.run Sys2Proof.core 2 s = .next (okResult s.be.sndTotal s) := by
  have h1 : step s = .next { s with be.pc := .sndDone } := by
    rw [step_mainlineAlone h (by simp [hpc])]
    simp only [beStep, hpc, sndLoop, if_pos hrem]
  have h2 : step { s with be.pc := .sndDone } = .next (okResult s.be.sndTotal s) :=
    step_mainlineAlone (h.congr rfl rfl) (show BePoint.sndDone ≠ .idle by decide)
  have e1 : Sys2Proof.core.step s = .next { s with be.pc := .sndDone } := h1
  have e2 : Sys2Proof.core.step { s with be.pc := .sndDone } = .next (okResult s.be.sndTotal s) := h2
  simp only [Host.Core.run, e1, e2]

/-- Settles O51: the checks in their order, then the two steps of an empty SEND. -/
theorem sendIsChecked : Obligations.SendIsChecked := by
  refine ⟨fun s e rom rel zero ptr len p hp => ⟨exec_send_busy, fun hidle he h0 hlen htype => ?_⟩,
    fun s e rom rel zero ptr halone hidle hcfg he h0 htype => ?_⟩
  · have htx := txRefusal_none htype
    have hport : p = sendPort s e (flagsOf rom rel zero) ptr len := hp
    refine ⟨fun k hzero hlim hpos hk => ?_, fun hin => ?_⟩
    · have hrange : sendInRange (flagsOf rom rel zero) ptr len s = false := by
        rw [Bool.eq_false_iff, ne_eq, sendInRange_eq, hzero, Bool.false_or, inSpace_iff]
        intro h
        rcases h k hlim with h | h <;> omega
      rw [exec_send_checked hidle he h0 hlen htx, hrange]
      rfl
    · have hrange : sendInRange (flagsOf rom rel zero) ptr len s = true := by
        rw [sendInRange_eq, Bool.or_eq_true, inSpace_iff]
        exact hin.imp_right fun h k hk => (h k hk).imp_left fun h => by rw [h]; rfl
      refine ⟨fun hcfg => ?_, fun hcfg => ?_⟩
      · rw [exec_send_checked hidle he h0 hlen htx, hrange, if_pos hcfg, hport]
        exact congrArg Host.Outcome.next
          (failResult_idle (s := { s with port := sendPort s e (flagsOf rom rel zero) ptr len }) _ hidle.1)
      · rw [exec_send_accepted hidle he h0 hlen htx hrange hcfg, hport]
        rfl
  · have hrange : sendInRange (flagsOf rom rel zero) ptr 0 s = true := by
      rw [sendInRange_eq, Bool.or_eq_true, inSpace_iff]
      exact .inr fun _ _ => .inl rfl
    have htx := txRefusal_none (htype.imp_right .inl)
    have hacc := exec_send_accepted (rom := rom) (rel := rel) (zero := zero) hidle he h0 (by decide) htx hrange hcfg
    exact ⟨_, _, hacc, run_send_empty (halone.congr rfl rfl) rfl rfl, rfl, rfl, rfl, rfl, rfl⟩

end Sys2Proof.Machine
end

section
/-! PROOFS. The writers of `BUF` (R70, R72, R250), and its canonical form kept (log 2). -/

namespace Sys2Proof.Machine

theorem memoryOk.congr {s t : State} (h : memoryOk s) (hbuf : t.buf = s.buf) : memoryOk t := by
  rw [memoryOk, hbuf]; exact h

/-- Of the bulk engine's steps RCV.crit alone writes `BUF`: the bytes it took, from `CMD_PTR` upward (R250). -/
theorem beStep_buf {s t : State} (h : beStep s = .next t) :
    t.buf = s.buf ∨ ∃ bs, t.buf = s.buf.writeList s.port.ptr.toNat bs := by
  cases hpc : s.be.pc <;> simp only [beStep, hpc] at h
  case idle => cases h; exact .inl rfl
  case sndLoop => cases h; simp only [sndLoop]; split <;> exact .inl rfl
  case sndSpace =>
    simp only [sndSpace, spaceCrit_eq] at h
    repeat' split at h
    all_goals cases h
    all_goals exact .inl rfl
  case sndWait => cases h; simp only [sndWait]; split <;> exact .inl rfl
  case sndChunk =>
    simp only [sndChunk] at h
    split at h
    · rename_i u hu
      obtain ⟨⟨v, g, rfl⟩, -⟩ := chunkCrit_eps hu
      cases h; exact .inl rfl
    · cases h; exact .inl rfl
    · cases h
  case sndArm => cases h; exact .inl rfl
  case sndDone => cases h; exact .inl rfl
  case rcvCrit =>
    simp only [rcvCritStep, recvCrit_eq] at h
    split at h <;> cases h
    exact .inr ⟨_, rfl⟩
  case rcvArm => cases h; simp only [rcvArm]; split <;> exact .inl rfl

/-- Settles O10: `BUF` is written by RCV.crit and by the mainline's own store, and a write keeps the form. -/
theorem memoryStaysCanonical : Obligations.MemoryStaysCanonical := by
  intro s t hs h
  obtain ⟨rest, hcase⟩ := step_frames h
  have hs : memoryOk (s.afterEntry rest) := hs
  cases hcase with
  | stays eq | waited _ _ eq | enable _ _ eq | peek _ _ eq | port _ _ _ _ _ eq => subst eq; exact hs
  | store noIsr a b eq => subst eq; exact Memory.wf_write hs a b
  | bulk noIsr noWait runs move frame =>
    rcases beStep_buf move with hbuf | ⟨bs, hbuf⟩
    · exact hs.congr hbuf
    · rw [memoryOk, hbuf]; exact Memory.wf_writeList hs _
  | held u more isHeld run frame bounds eq => subst eq; exact hs.congr frame.buf
  | control isr free runs move frame => exact hs.congr frame.buf
  | tick isr free other move frame => exact hs.congr frame.buf
  | entry src n noIsr enabled request eq => subst eq; cases src <;> exact hs
  | attach noIsr noWait other eq => rw [eq, (attachFrame_atStep _).eq]; exact hs
  | env m entry move frame => exact hs.congr frame.buf
  | operation i kind free allowed word move frame => exact hs.congr frame.buf
  | command i kind noIsr move frame => exact hs.congr frame.buf

end Sys2Proof.Machine
end

section
/-! PROOFS. The environment's moves (R85 to R88). -/

namespace Sys2Proof.Machine

/-! ## ENV_SETUP -/

/-- The endpoint 0 the host's setup packet leaves (R85). -/
def Endpoint.setUp (q : Endpoint) (p : SetupPacket) : Endpoint :=
  { q with data := p.bytes, setup := true, inQ := [], inRdy := true, outQ := [], stall := false }

theorem envSetup_arrives {p : SetupPacket} {s : State} (hen : (s.ep 0).en = true) (hct : s.ct.pc = .idle) :
    envSetup p s = .next (s.setEp 0 ((s.ep 0).setUp p)) := by
  rw [envSetup, if_neg (by rw [hen]; decide), if_neg (not_not_intro hct)]
  rfl

/-! ## ENV_OUT -/

/-- The precondition of ENV_OUT (R86). -/
theorem outEnabled_iff {e : EpIdx} {p : Packet} {s : State} : outEnabled e p s = true ↔
    p.length ≤ 64 ∧ (s.ep e).en = true ∧ outCapable (s.ep e).kind = true ∧ (s.ep e).stall = false ∧
    ((s.ep e).outRdy = false ∨ (s.ep e).outQ.length < banks e - 1) ∧
    (e = 0 → (s.ep e).setup = false ∧ (s.ep e).data = []) := by
  have hzero : (e ≠ 0 ∨ (s.ep e).setup = false ∧ (s.ep e).data = []) ↔
      (e = 0 → (s.ep e).setup = false ∧ (s.ep e).data = []) := by tauto
  have hty : (s.ep e).en = true → (s.ep e).ty = (s.ep e).kind := Endpoint.ty_of_en
  simp only [outEnabled, Bool.and_eq_true, Bool.or_eq_true, Bool.not_eq_true', decide_eq_true_eq, bne_iff_ne,
    List.isEmpty_iff, hzero]
  constructor
  · rintro ⟨⟨⟨⟨⟨hl, hen⟩, hk⟩, hst⟩, hr⟩, hz⟩
    exact ⟨hl, hen, hty hen ▸ hk, hst, hr, hz⟩
  · rintro ⟨hl, hen, hk, hst, hr, hz⟩
    exact ⟨⟨⟨⟨⟨hl, hen⟩, (hty hen).symm ▸ hk⟩, hst⟩, hr⟩, hz⟩

/-- An ENV_OUT that cannot happen changes nothing (log 5). -/
theorem envOut_stays {e : EpIdx} {p : Packet} {s : State} (h : ¬ outEnabled e p s = true) : envOut e p s = s := by
  simp only [envOut, h]; rfl

/-- ENV_OUT on an empty bank fills it (R86). -/
theorem envOut_fills {e : EpIdx} {p : Packet} {s : State} (h : outEnabled e p s = true)
    (hrdy : (s.ep e).outRdy = false) : envOut e p s = s.setEp e { s.ep e with data := p, outRdy := true } := by
  simp [envOut, h, hrdy]

/-- ENV_OUT behind a packet not yet read queues its own (R86). -/
theorem envOut_queues {e : EpIdx} {p : Packet} {s : State} (h : outEnabled e p s = true)
    (hrdy : (s.ep e).outRdy = true) : envOut e p s = s.setEp e { s.ep e with outQ := (s.ep e).outQ ++ [p] } := by
  simp [envOut, h, hrdy]

/-- A kind SEND is for receives nothing (R30). -/
theorem outCapable_of_sends {k : EpType} (h : k.sends = true) : outCapable k = false := by
  rcases sends_iff.1 h with rfl | rfl <;> rfl

/-- The second bank of an endpoint from 1 (R55). -/
theorem banks_of_ne {e : EpIdx} (h : e ≠ 0) : banks e = 2 := if_neg h

/-- A receiving endpoint from 1 with no packet waiting behind the current one takes a packet (R55, R86). -/
theorem outEnabled_bulkOut_iff {e : EpIdx} {p : Packet} {s : State} (he : e ≠ 0) (hen : (s.ep e).en = true)
    (hk : (s.ep e).kind = .bulkOut) (hst : (s.ep e).stall = false) (hl : p.length ≤ 64) :
    outEnabled e p s = true ↔ (s.ep e).outRdy = false ∨ (s.ep e).outQ = [] := by
  have hcap : outCapable (s.ep e).kind = true := by rw [hk]; rfl
  have hone : (s.ep e).outQ.length < 2 - 1 ↔ (s.ep e).outQ = [] := by simp
  simp only [outEnabled_iff, hl, hen, hcap, hst, he, banks_of_ne he, hone, true_and, false_implies, and_true]

/-- The single bank of endpoint 0 takes no packet while it holds anything (R86, log 38). -/
theorem not_outEnabled_zero {p : Packet} {s : State}
    (h : (s.ep 0).outRdy = true ∨ (s.ep 0).setup = true ∨ (s.ep 0).data ≠ []) : ¬ outEnabled 0 p s = true := by
  intro hok
  obtain ⟨-, -, -, -, hrdy, hfree⟩ := outEnabled_iff.1 hok
  have hone : ¬ (s.ep 0).outQ.length < banks 0 - 1 := Nat.not_lt_zero _
  rcases h with h | h | h
  · rw [hrdy.resolve_right hone] at h; cases h
  · rw [(hfree rfl).1] at h; cases h
  · exact h (hfree rfl).2

/-- What a host cannot send to: a disabled, a stalled, a sending endpoint; nor more than 64 bytes (R86). -/
theorem not_outEnabled_off {e : EpIdx} {p : Packet} {s : State}
    (h : (s.ep e).en = false ∨ (s.ep e).stall = true ∨ (s.ep e).kind.sends = true ∨ 64 < p.length) :
    ¬ outEnabled e p s = true := by
  intro hok
  obtain ⟨hl, hen, hcap, hst, -, -⟩ := outEnabled_iff.1 hok
  rcases h with h | h | h | h
  · rw [hen] at h; cases h
  · rw [hst] at h; cases h
  · rw [outCapable_of_sends h] at hcap; cases hcap
  · omega

/-! ## ENV_EOR -/

/-- The end of a bus reset switches off the listed endpoints and no other. -/
theorem ep_foldl_off (l : List Nat) (e : EpIdx) : ∀ s : State,
    (l.foldl (fun s e => s.setEp (BitVec.ofNat 3 e) Endpoint.off) s).ep e =
      if e ∈ l.map (BitVec.ofNat 3) then Endpoint.off else s.ep e := by
  induction l with
  | nil => intro s; rfl
  | cons k l ih =>
    intro s
    rw [List.foldl_cons, ih, State.ep_setEp, List.map_cons]
    by_cases hl : e ∈ l.map (BitVec.ofNat 3)
    · rw [if_pos hl, if_pos (List.mem_cons_of_mem _ hl)]
    · simp only [List.mem_cons, hl, or_false, if_false]

/-- Every endpoint from 1 is switched off (R87). -/
theorem ep_clearEndpoints (s : State) (e : EpIdx) :
    (clearEndpoints s).ep e = if e = 0 then s.ep 0 else Endpoint.off := by
  have hmem : ∀ e : EpIdx, e ∈ [1, 2, 3, 4, 5, 6, 7].map (BitVec.ofNat 3) ↔ e ≠ 0 := by decide
  rw [clearEndpoints, ep_foldl_off]
  by_cases he : e = 0
  · rw [if_pos he, if_neg (by rw [hmem]; exact not_not_intro he), he]
  · rw [if_neg he, if_pos ((hmem e).2 he)]

theorem envEor_resets {s : State} (hat : s.power.attachEn = true) (hct : s.ct.pc = .idle) (hbe : s.be.pc = .idle) :
    envEor s = .next { clearEndpoints s with irq.pendEor := true, dev.addr := 0, dev.addrEn := false } := by
  simp [envEor, hat, hct, hbe]

/-- Settles O60, one part for each move. -/
theorem environmentMoves : Obligations.EnvironmentMoves := by
  refine ⟨fun s p => ⟨envSetup_arrives, fun hen hpc => ?_, fun hen => ?_⟩,
    fun s e => ⟨fun q qs hq => ?_, fun hq => ?_⟩, fun s e p he hen hk hst hl => ?_,
    fun s p hon hst hl => ⟨fun hrdy hset hdata => ?_, fun hfull => congrArg _ (envOut_stays (not_outEnabled_zero hfull))⟩,
    fun s e p hoff => congrArg _ (envOut_stays (not_outEnabled_off hoff)),
    fun s => ⟨fun hat hct hbe => ?_, fun hat hbusy => ?_, fun hat => ?_⟩, fun s => ⟨rfl, rfl, rfl⟩⟩
  · rw [envMove, envSetup, if_neg (by rw [hen]; decide), if_pos hpc]
  · rw [envMove, envSetup, if_pos (by rw [hen]; decide)]
  · simp only [envMove, envInTaken, hq]
  · simp only [envMove, envInTaken, hq]
  · have hiff := outEnabled_bulkOut_iff he hen hk hst hl
    refine ⟨fun hrdy => ?_, fun hrdy hq => ?_, fun hrdy hq => ?_⟩
    · exact congrArg _ (envOut_fills (hiff.2 (.inl hrdy)) hrdy)
    · rw [envMove, envOut_queues (hiff.2 (.inr hq)) hrdy, hq]; rfl
    · exact congrArg _ (envOut_stays (by rw [hiff]; simp [hrdy, hq]))
  · have hcap : outCapable (s.ep 0).kind = true := by rw [hon.2]; rfl
    exact congrArg _ (envOut_fills (outEnabled_iff.2 ⟨hl, hon.1, hcap, hst, .inl hrdy, fun _ => ⟨hset, hdata⟩⟩) hrdy)
  · refine ⟨_, envEor_resets hat hct hbe, fun e => ep_clearEndpoints s e, ?_⟩
    rw [clearEndpoints_eq]
  · simp [envMove, envEor, hat, hbusy]
  · simp [envMove, envEor, hat]

end Sys2Proof.Machine
end

section
/-! PROOFS. Emission through the cursor while it fits (R175, R177, R179): what was emitted, one byte after the other. -/

namespace Sys2Proof.Machine

@[simp] theorem State.emitted_sel (s : State) (bs : List Byte) : (s.emitted bs).sel = s.sel := rfl

@[simp] theorem State.emitted_cursor (s : State) (bs : List Byte) :
    (s.emitted bs).cursor = ⟨s.cursor.pos + BitVec.ofNat 16 bs.length, s.cursor.lim⟩ := rfl

theorem State.emitted_ep_zero (s : State) (bs : List Byte) :
    (s.emitted bs).ep 0 = { s.ep 0 with data := (s.ep 0).data ++ s.sentPart bs } := State.ep_setEp_same s 0 _

theorem State.emitted_nil (s : State) : s.emitted [] = s := by
  have hep : ({ s.ep 0 with data := (s.ep 0).data ++ s.sentPart [] } : Endpoint) = s.ep 0 := by simp [State.sentPart]
  have hpos : s.cursor.pos + BitVec.ofNat 16 ([] : List Byte).length = s.cursor.pos := BitVec.add_zero _
  rw [State.emitted, hep, hpos, State.setEp_ep]

/-- The position after an emission that does not pass 65535 (R175). -/
theorem State.emitted_pos {s : State} {bs : List Byte} (h : s.cursor.pos.toNat + bs.length ≤ 65535) :
    (s.emitted bs).cursor.pos.toNat = s.cursor.pos.toNat + bs.length := by
  rw [State.emitted_cursor]; bv_omega

/-- What the cursor lets through of two emissions in a row (R179). -/
theorem State.sentPart_append {s : State} {as : List Byte} (bs : List Byte)
    (h : s.cursor.pos.toNat + as.length ≤ 65535) :
    s.sentPart (as ++ bs) = s.sentPart as ++ (s.emitted as).sentPart bs := by
  rw [State.sentPart, State.sentPart, State.sentPart, State.emitted_pos h, List.take_append, Nat.sub_sub]
  rfl

/-- Two emissions in a row are one (R178). -/
theorem State.emitted_append {s : State} {as : List Byte} (bs : List Byte)
    (h : s.cursor.pos.toNat + as.length ≤ 65535) : (s.emitted as).emitted bs = s.emitted (as ++ bs) := by
  have hep : ({ (s.emitted as).ep 0 with
      data := ((s.emitted as).ep 0).data ++ (s.emitted as).sentPart bs } : Endpoint) =
      { s.ep 0 with data := (s.ep 0).data ++ s.sentPart (as ++ bs) } := by
    rw [State.emitted_ep_zero, State.sentPart_append bs h, List.append_assoc]
  have hpos : (s.emitted as).cursor.pos + BitVec.ofNat 16 bs.length =
      s.cursor.pos + BitVec.ofNat 16 (as ++ bs).length := by
    rw [State.emitted_cursor, List.length_append, BitVec.ofNat_add, BitVec.add_assoc]
  rw [State.emitted, hep, hpos]
  exact congrArg (fun u : State => { u with cursor.pos := s.cursor.pos + BitVec.ofNat 16 (as ++ bs).length })
    (State.setEp_setEp s 0 _ _)

/-- The first part of what fits. -/
theorem EmitFits.left {s : State} {as bs : List Byte} (h : EmitFits s (as ++ bs)) : EmitFits s as := by
  have hcount := h.count
  rw [List.length_append] at hcount
  have hsent := State.sentPart_append (s := s) (as := as) bs (by omega)
  refine ⟨h.sel, by omega, fun hne => ?_⟩
  obtain ⟨hon, hrdy, hroom⟩ := h.bank (by rw [hsent]; exact List.append_ne_nil_of_left_ne_nil hne _)
  rw [hsent, List.length_append] at hroom
  exact ⟨hon, hrdy, by omega⟩

/-- What fits behind an emission that fits. -/
theorem EmitFits.emitted {s : State} {as bs : List Byte} (h : EmitFits s (as ++ bs)) : EmitFits (s.emitted as) bs := by
  have hlen : as.length + bs.length = (as ++ bs).length := List.length_append.symm
  have hcount := h.count
  have hpos : s.cursor.pos.toNat + as.length ≤ 65535 := by omega
  have hsent := State.sentPart_append bs hpos
  refine ⟨h.sel, by rw [State.emitted_pos hpos]; omega, fun hne => ?_⟩
  obtain ⟨hon, hrdy, hroom⟩ := h.bank (by rw [hsent]; exact List.append_ne_nil_of_right_ne_nil _ hne)
  rw [hsent, List.length_append] at hroom
  rw [State.controlOn, State.emitted_ep_zero, List.length_append]
  exact ⟨hon, hrdy, by omega⟩

/-- One byte that fits is emitted (R177). -/
theorem emit8Op_emitted {b : Byte} {s : State} (h : EmitFits s [b]) : emit8Op b s = .ok (s.emitted [b]) := by
  have hcur : s.cur = s.ep 0 := by rw [State.cur, h.sel]
  have hcount : s.cursor.pos.toNat + 1 ≤ 65535 := h.count
  by_cases hlt : s.cursor.pos.toNat < s.cursor.lim.toNat
  · have hsent : s.sentPart [b] = [b] := List.take_of_length_le (Nat.sub_pos_of_lt hlt)
    obtain ⟨hon, hrdy, hroom⟩ := h.bank (by rw [hsent]; exact List.cons_ne_nil _ _)
    have hroomy : Roomy s := ⟨by rw [hcur]; exact hon.1, by rw [hcur, hon.2]; rfl, by rw [hcur]; exact hrdy⟩
    rw [hsent] at hroom
    rw [emit8Op_writes b s h.sel hlt hroomy (by rw [hcur]; exact hroom), State.emitted, hsent, hcur, h.sel]
    rfl
  · have hsent : s.sentPart [b] = [] := by
      rw [State.sentPart, Nat.sub_eq_zero_of_le (Nat.le_of_not_lt hlt), List.take_zero]
    have hne : s.cursor.pos ≠ 0xFFFF := fun e => by rw [e] at hcount; exact absurd hcount (by decide)
    have hep : ({ s.ep 0 with data := (s.ep 0).data ++ [] } : Endpoint) = s.ep 0 := by simp
    rw [emit8Op_counts b s h.sel hne (Nat.le_of_not_lt hlt), State.emitted, hsent, hep, State.setEp_ep]
    rfl

/-- Emissions that fit run to their end, whatever follows (R178, R179). -/
theorem runMicros_emits {bs : List Byte} (ms : List Micro) : ∀ {s : State}, EmitFits s bs →
    runMicros (bs.map .emit8 ++ ms) s = runMicros ms (s.emitted bs) := by
  induction bs with
  | nil => intro s _; rw [State.emitted_nil]; rfl
  | cons b bs ih =>
    intro s h
    have h : EmitFits s ([b] ++ bs) := h
    have hok : microStep (.emit8 b) s = .ok (s.emitted [b]) := emit8Op_emitted h.left
    rw [List.map_cons, List.cons_append, runMicros_cons_ok hok, ih h.emitted, State.emitted_append bs h.left.count]
    rfl

/-- A request whose micro-operations run to their end (R180). -/
theorem runRequest_finished {ms : List Micro} {res : CtResult} {s t : State} (h : runMicros ms s = .finished t) :
    runRequest ms res s = .next (t.answered res) := by
  simp only [runRequest, h]; rfl

theorem runRequest_refused {ms : List Micro} {res : CtResult} {s : State} {x : Refusal}
    (h : runMicros ms s = .refused x) : runRequest ms res s = .refused x := by
  simp only [runRequest, h]

end Sys2Proof.Machine
end

section
/-! PROOFS. Class requests (R192): the owner of the interface, and its answer performed on endpoint 0. -/

namespace Sys2Proof.Machine

/-! ## The owner -/

/-- Past the last run of indices nobody owns an interface. -/
theorem ownerFrom_none {i : Nat} {cs : List Collab} : ∀ (k base : Nat),
    base + (cs.map fun c => c.nif.toNat).sum ≤ i → ownerFrom i cs k base = none := by
  induction cs with
  | nil => intro k base _; rfl
  | cons c cs ih =>
    intro k base h
    rw [List.map_cons, List.sum_cons] at h
    rw [ownerFrom, if_neg (by omega), ih _ _ (by omega)]

/-- The owner is the collaborator whose run of `NIF` indices holds the interface. -/
theorem ownerFrom_some {i : Nat} {before : List Collab} {c : Collab} (after : List Collab) : ∀ (k base : Nat),
    base + (before.map fun c => c.nif.toNat).sum ≤ i →
    i < base + (before.map fun c => c.nif.toNat).sum + c.nif.toNat →
    ownerFrom i (before ++ c :: after) k base = some (k + before.length, c) := by
  induction before with
  | nil => intro k base hlo hhi; exact if_pos ⟨hlo, hhi⟩
  | cons d before ih =>
    intro k base hlo hhi
    rw [List.map_cons, List.sum_cons] at hlo hhi
    rw [List.cons_append, ownerFrom, if_neg (by omega), ih _ _ (by omega) (by omega), List.length_cons]
    congr 2
    omega

/-! ## The request -/

/-- An interface nobody owns: a success without a call. -/
theorem exec_classRequest_unowned {s : State} (b : Byte) {r : Req}
    (h : (s.conf.collabs.map fun c => c.nif.toNat).sum ≤ (lo8 r.wIndex).toNat) :
    exec (.classRequest b r) s = .next ({ s with cursor := ⟨0, r.wLength⟩ }.answered .ok) := by
  have howner : owner (lo8 r.wIndex).toNat s.conf.collabs = none := ownerFrom_none 0 0 (by omega)
  simp only [exec, execClassRequest, howner]
  exact runRequest_finished rfl

/-- The call of the owner: logged with `SP`, answered by the schedule's next answer (log 9). -/
theorem exec_classRequest_owned {s : State} (b : Byte) {r : Req} {before after : List Collab} {c : Collab}
    {a : CollabAnswer} {as : List CollabAnswer} (hcs : s.conf.collabs = before ++ c :: after)
    (hlo : (before.map fun c => c.nif.toNat).sum ≤ (lo8 r.wIndex).toNat)
    (hhi : (lo8 r.wIndex).toNat < (before.map fun c => c.nif.toNat).sum + c.nif.toNat) (ha : s.io.answers = a :: as) :
    exec (.classRequest b r) s = runRequest (answerMicros a) (if a.ok then .ok else .fail .fClass)
      { s with cursor := ⟨0, r.wLength⟩, io.answers := as,
               ghost.calls := s.ghost.calls ++ [CollabCall.setup before.length (r.packet 1 b)] } := by
  have howner : owner (lo8 r.wIndex).toNat s.conf.collabs = some (before.length, c) := by
    rw [owner, hcs, ownerFrom_some after 0 0 (by omega) (by omega), Nat.zero_add]
  have hnext : nextAnswer ((curInit r.wLength s).logCall (.setup before.length (r.packet 1 b))) =
      (a, { (curInit r.wLength s).logCall (.setup before.length (r.packet 1 b)) with io.answers := as }) := by
    simp only [nextAnswer, State.logCall_io, curInit_io, ha]
  simp only [exec, execClassRequest, howner, hnext]
  rfl

/-! ## Answers -/

/-- The return of a call with endpoint 0 selected ends the request (R192, R353). -/
theorem runMicros_callReturn {t : State} (hsel : t.sel = 0) : runMicros [.callReturn] t = .finished t := by
  have hok : microStep .callReturn t = .ok t := if_pos hsel
  rw [runMicros_cons_ok hok, runMicros_nil]

theorem waitOutOp_control {s : State} (hen : s.cur.en = true) (h : s.cur.ty = .control) :
    waitOutOp s = if s.cur.outRdy then .ok s else .hold := by
  simp [waitOutOp, h, hen, outCapable, Endpoint.outFlag]

theorem readRefusal_control {s : State} (hen : s.cur.en = true) (h : s.cur.ty = .control) : readRefusal s = none := by
  simp [readRefusal, h, hen, outCapable]

section
variable {t : State} {q : Endpoint} {res : CtResult}

/-- An answer that emits what fits (R179). -/
theorem runRequest_callEmit {bs : List Byte} (h : EmitFits t bs) :
    runRequest (bs.map .emit8 ++ [.callReturn]) res t = .next ((t.emitted bs).answered res) :=
  runRequest_finished (by rw [runMicros_emits _ h, runMicros_callReturn (t := t.emitted bs) h.sel])

/-- A control endpoint whose bank holds the one packet the host sent. -/
structure Endpoint.HoldsOut (q : Endpoint) : Prop where
  en : q.en = true
  kind : q.kind = .control
  outRdy : q.outRdy = true
  outQ : q.outQ = []

/-! Each operation of an answer, on a state whose endpoint 0 is `q`. -/

theorem cur_setEp_zero (hsel : t.sel = 0) : (t.setEp 0 q).cur = q := by
  rw [State.cur, State.setEp_sel, hsel, State.ep_setEp_same]

theorem ty_setEp_zero (hsel : t.sel = 0) (hen : q.en = true) (hk : q.kind = .control) :
    (t.setEp 0 q).cur.ty = .control := by
  rw [cur_setEp_zero hsel, Endpoint.ty_of_en hen, hk]

/-- WAIT_OUT with the packet there (R144). -/
theorem microStep_waitOut_zero (hsel : t.sel = 0) (hq : q.HoldsOut) :
    microStep .waitOut (t.setEp 0 q) = .ok (t.setEp 0 q) := by
  have hcur : (t.setEp 0 q).cur = q := cur_setEp_zero hsel
  rw [microStep, waitOutOp_control (by rw [hcur]; exact hq.en) (ty_setEp_zero hsel hq.en hq.kind), hcur,
    if_pos hq.outRdy]

/-- READ_N of what the bank holds (R146). -/
theorem microStep_readN_zero {n : Byte} (hsel : t.sel = 0) (hq : q.HoldsOut) (hn : n.toNat ≤ q.data.length)
    (h64 : n.toNat ≤ 64) : microStep (.readN n) (t.setEp 0 q) =
      .ok ((t.setRet (.bytes (q.data.take n.toNat))).setEp 0 { q with data := q.data.drop n.toNat }) := by
  have hcur : (t.setEp 0 q).cur = q := cur_setEp_zero hsel
  have hread : readRefusal (t.setEp 0 q) = none :=
    readRefusal_control (by rw [hcur]; exact hq.en) (ty_setEp_zero hsel hq.en hq.kind)
  have hpop : popBytes n.toNat (t.setEp 0 q) =
      (q.data.take n.toNat, t.setEp 0 { q with data := q.data.drop n.toNat }) := by
    rw [popBytes_eq _ _ (by rw [hcur]; exact hn), hcur, State.setEp_sel, hsel, State.setEp_setEp]
  by_cases h0 : n.toNat = 0
  · rw [h0, List.take_zero, List.drop_zero]
    simp only [microStep, readNOp, h0, Nat.zero_le, if_true]
    rfl
  · simp only [microStep, if_pos (show n.toNat ≤ Config.epSize from h64), readNOp, if_neg h0, hread, hpop]
    rfl

/-- CLEAR_OUT of the one packet (R154). -/
theorem microStep_clearOut_zero (hsel : t.sel = 0) (hq : q.HoldsOut) :
    microStep .clearOut (t.setEp 0 q) = .ok (t.setEp 0 { q with outRdy := false, data := [] }) := by
  have hcontrol : controlRefusal (t.setEp 0 q) = none :=
    controlRefusal_control (ty_setEp_zero hsel hq.en hq.kind)
  have hreleased : q.released = { q with outRdy := false, data := [] } := by
    simp [Endpoint.released, Endpoint.outFlag, hq.en, hq.outRdy, hq.outQ]
  simp only [microStep, clearOutOp, hcontrol, releaseOut, State.setEp_sel, hsel, State.ep_setEp_same, hreleased,
    State.setEp_setEp]

/-- The host's packet comes to an empty bank (R86). -/
theorem microStep_hostOut_zero {p : Packet} (hen : q.en = true) (hk : q.kind = .control) (hset : q.setup = false)
    (hst : q.stall = false) (hrdy : q.outRdy = false) (hdata : q.data = []) (hlen : p.length ≤ 64) :
    microStep (.hostOut 0 p) (t.setEp 0 q) = .ok (t.setEp 0 { q with data := p, outRdy := true }) := by
  have hok : outEnabled 0 p (t.setEp 0 q) = true := by
    rw [outEnabled_iff, State.ep_setEp_same]
    exact ⟨hlen, hen, by rw [hk]; rfl, hst, .inl hrdy, fun _ => ⟨hset, hdata⟩⟩
  rw [microStep, envOut_fills hok (by rw [State.ep_setEp_same]; exact hrdy), State.ep_setEp_same, State.setEp_setEp]

theorem State.emitted_setEp_zero (bs : List Byte) : (t.setEp 0 q).emitted bs =
    { t.setEp 0 { q with data := q.data ++ t.sentPart bs } with
      cursor := ⟨t.cursor.pos + BitVec.ofNat 16 bs.length, t.cursor.lim⟩ } := by
  rw [State.emitted, State.ep_setEp_same, State.setEp_setEp]
  rfl

/-! The answers. -/

/-- A wait for an OUT packet that is not there holds inside the call (R356). -/
theorem runRequest_waitOut_holds (more : List Micro) (hsel : t.sel = 0) (hon : t.controlOn)
    (hrdy : (t.ep 0).outRdy = false) : runRequest (.waitOut :: more) res t =
      .next { t with ct.pc := .s4CallWait, ct.todo := .waitOut :: more, ct.result := res } := by
  obtain ⟨hcur, hen, hty⟩ := hon.selected hsel
  have hhold : microStep .waitOut t = .hold := by
    rw [microStep, waitOutOp_control hen hty, hcur, hrdy]; rfl
  simp only [runRequest, runMicros_cons_hold hhold, holdPoint]

/-- An answer that waits for the OUT packet, reads its first bytes and releases it. -/
theorem runMicros_callRead {n : Byte} (hsel : t.sel = 0) (hq : q.HoldsOut) (hn : n.toNat ≤ q.data.length)
    (h64 : n.toNat ≤ 64) : runMicros [.waitOut, .readN n, .clearOut, .callReturn] (t.setEp 0 q) =
      .finished ((t.setRet (.bytes (q.data.take n.toNat))).setEp 0 { q with outRdy := false, data := [] }) :=
  calc runMicros [.waitOut, .readN n, .clearOut, .callReturn] (t.setEp 0 q)
    _ = runMicros [.readN n, .clearOut, .callReturn] (t.setEp 0 q) :=
      runMicros_cons_ok (microStep_waitOut_zero hsel hq)
    _ = runMicros [.clearOut, .callReturn]
          ((t.setRet (.bytes (q.data.take n.toNat))).setEp 0 { q with data := q.data.drop n.toNat }) :=
      runMicros_cons_ok (microStep_readN_zero hsel hq hn h64)
    _ = runMicros [.callReturn]
          ((t.setRet (.bytes (q.data.take n.toNat))).setEp 0 { q with outRdy := false, data := [] }) :=
      runMicros_cons_ok (microStep_clearOut_zero (q := { q with data := q.data.drop n.toNat }) hsel { hq with })
    _ = _ := runMicros_callReturn hsel

/-- An answer that releases the OUT packet and emits, the host's next packet falling in between: its bytes stand in
front of the emitted ones (R86, R93; log 7). -/
theorem runMicros_callHostOut {p : Packet} {bs : List Byte} {n : Word16} (hsel : t.sel = 0) (hq : q.HoldsOut)
    (hset : q.setup = false) (hst : q.stall = false) (hin : q.inRdy = true) (hcursor : t.cursor = ⟨0, n⟩)
    (hlen : p.length + bs.length < 64) :
    runMicros (.clearOut :: .hostOut 0 p :: (bs.map .emit8 ++ [.callReturn])) (t.setEp 0 q) =
      .finished { t.setEp 0 { q with data := p ++ bs.take n.toNat } with
        cursor := ⟨BitVec.ofNat 16 bs.length, n⟩ } := by
  have hrdy : ({ q with data := p, outRdy := true } : Endpoint) = { q with data := p } := by rw [← hq.outRdy]
  have hsent : t.sentPart bs = bs.take n.toNat := by rw [State.sentPart, hcursor]; rfl
  have hfits : EmitFits (t.setEp 0 { q with data := p }) bs := by
    have hpart : (t.sentPart bs).length ≤ bs.length := List.length_take_le' _ _
    refine ⟨hsel, by rw [State.setEp_cursor, hcursor]; show 0 + bs.length ≤ 65535; omega, fun _ => ?_⟩
    rw [State.controlOn, State.ep_setEp_same]
    exact ⟨⟨hq.en, hq.kind⟩, hin, show p.length + (t.sentPart bs).length < 64 by omega⟩
  calc runMicros (.clearOut :: .hostOut 0 p :: (bs.map .emit8 ++ [.callReturn])) (t.setEp 0 q)
    _ = runMicros (.hostOut 0 p :: (bs.map .emit8 ++ [.callReturn]))
          (t.setEp 0 { q with outRdy := false, data := [] }) :=
      runMicros_cons_ok (microStep_clearOut_zero hsel hq)
    _ = runMicros (bs.map .emit8 ++ [.callReturn]) (t.setEp 0 { q with data := p, outRdy := true }) :=
      runMicros_cons_ok (microStep_hostOut_zero (q := { q with outRdy := false, data := [] }) hq.en hq.kind hset hst
        rfl rfl (by omega))
    _ = runMicros [.callReturn] ((t.setEp 0 { q with data := p }).emitted bs) := by
      rw [hrdy, runMicros_emits _ hfits]
    _ = .finished ((t.setEp 0 { q with data := p }).emitted bs) := runMicros_callReturn hsel
    _ = _ := by
      have hzero : (0 : Word16) + BitVec.ofNat 16 bs.length = BitVec.ofNat 16 bs.length := BitVec.zero_add _
      rw [State.emitted_setEp_zero, hsent, hcursor, hzero]

/-- A call that returns with another endpoint selected, or selects one that does not exist (R141, R353, U13). -/
theorem runMicros_callSelect {i : EpIdx} (hi : i ≠ 0) : runMicros [.select i, .callReturn] t =
    .refused (if i.toNat < t.conf.nEp then .collabLeftSelector else .reservedEndpoint) := by
  by_cases hlt : i.toNat < t.conf.nEp
  · have hsel : microStep (.select i) t = .ok (t.setSel i) := if_pos hlt
    have hret : microStep .callReturn (t.setSel i) = .refused .collabLeftSelector := if_neg hi
    rw [runMicros_cons_ok hsel, runMicros_cons_refused hret, if_pos hlt]
  · have hsel : microStep (.select i) t = .refused .reservedEndpoint := if_neg hlt
    rw [runMicros_cons_refused hsel, if_neg hlt]

end

/-- Settles O34: the owner by the runs of NIF, then the answers one by one. -/
theorem classRequestsReachTheOwner : Obligations.ClassRequestsReachTheOwner := by
  refine ⟨fun s b r h => exec_classRequest_unowned b h, ?_⟩
  rintro s t b r before after c ⟨ops, ok⟩ as res hcs hlo hhi ha hres ht
  rw [show exec (.classRequest b r) s = runRequest (answerMicros ⟨ops, ok⟩) res t by
    rw [exec_classRequest_owned b hcs hlo hhi ha, hres, ht]]
  have hsel : t.sel = s.sel := by rw [ht]
  have hep : t.ep 0 = s.ep 0 := by rw [ht]; rfl
  have hcursor : t.cursor = ⟨0, r.wLength⟩ := by rw [ht]
  have hconf : t.conf = s.conf := by rw [ht]
  rw [State.controlOn, ← hsel, ← hep, ← hconf]
  refine ⟨rfl, fun h0 hops => ?_, fun bs hops hfits => ?_, fun more hops h0 hon hrdy => ?_,
    fun n hops h0 hon hrdy hq hn h64 => ?_, fun p bs hops h0 hon hrdy hq hset hst hin hlen => ?_,
    fun i hi hops => ?_, fun x hops => ?_⟩
  all_goals obtain rfl : ops = _ := hops
  · exact runRequest_finished (runMicros_callReturn h0)
  · rw [show answerMicros ⟨[.emit bs], ok⟩ = bs.map .emit8 ++ [.callReturn] by simp [answerMicros, collabMicros]]
    exact runRequest_callEmit hfits
  · rw [show answerMicros ⟨.waitOut :: more, ok⟩ = .waitOut :: answerMicros ⟨more, ok⟩ from rfl]
    exact ⟨_, runRequest_waitOut_holds _ h0 hon hrdy, rfl, runRequest_waitOut_holds _ h0 hon hrdy⟩
  · have hrun := runMicros_callRead h0 ⟨hon.1, hon.2, hrdy, hq⟩ hn h64
    rw [State.setEp_ep] at hrun
    exact runRequest_finished hrun
  · have hrun := runMicros_callHostOut h0 ⟨hon.1, hon.2, hrdy, hq⟩ hset hst hin hcursor hlen
    rw [State.setEp_ep] at hrun
    rw [show answerMicros ⟨[.clearOut, .hostOut 0 p, .emit bs], ok⟩ =
      .clearOut :: .hostOut 0 p :: (bs.map .emit8 ++ [.callReturn]) by simp [answerMicros, collabMicros]]
    exact runRequest_finished hrun
  · exact runRequest_refused (runMicros_callSelect hi)
  · exact runRequest_refused (runMicros_cons_refused rfl)

end Sys2Proof.Machine
end

section
/-! PROOFS. A whole GET_STATUS transfer (R85, R170 to R173, R184, R194, R316, R318), one lemma for each of its steps. -/

namespace Sys2Proof.Machine

/-! ## Single steps of a run -/

theorem run_succ {s t : State} (h : step s = .next t) (n : Nat) :
    Host.Core.run Sys2Proof.core (n + 1) s = Host.Core.run Sys2Proof.core n t := by
  have hcore : Sys2Proof.core.step s = .next t := h
  simp only [Host.Core.run, hcore]

/-- A move of the environment takes its entry of the schedule. -/
theorem step_env {s : State} {m : EnvMove} {rest : List Input} (hin : s.io.inputs = .env m :: rest) :
    step s = envMove m { s with io.inputs := rest } := by
  simp only [step, advance, hin]

/-- With the communication interrupt alone requested, its handler is entered (R314, R316). -/
theorem step_comm {s : State} (hin : s.io.inputs = []) (hheld : s.io.held = []) (hie : s.irq.ie = true)
    (hisr : s.irq.inIsr = false) (hcomm : commReq s = true) (hframe : frameReq s = false) :
    step s = .next (enterHandler .comm s) := by
  have hpick : pickIrq s = some (.comm, s) := by simp [pickIrq, canDeliver, hie, hisr, hcomm, hframe]
  simp [step, advance, hin, blockStep, heldStep, hheld, hisr, hpick]

/-- While the control handler runs, with nothing held and nothing scheduled, it takes the step (R91). -/
theorem step_control {s : State} (hin : s.io.inputs = []) (hheld : s.io.held = []) (hisr : s.irq.inIsr = true)
    (hruns : s.ct.pc ≠ .idle) : step s = ctStep s := by
  simp only [step, advance, hin]
  rw [blockStep_isr hheld hisr, isrStep, if_pos hruns]

/-! ## The control handler on a state of its own -/

/-- `s` while the control handler runs with endpoint 0 selected and nothing scheduled: endpoint 0 is `q`, `SP` is `l`, the
cursor `c`, and `k` are the handler's registers. -/
def State.inControl (s : State) (q : Endpoint) (l : Latch) (c : Cursor) (k : Ct) : State :=
  { s.setEp 0 q with
    latch := l, cursor := c, sel := 0, irq.inIsr := true, irq.spurComm := false, ct := k, io.inputs := [] }

section
variable {s : State} {q : Endpoint} {l : Latch} {c : Cursor} {k : Ct} {p : SetupPacket}

theorem State.inControl_ep_zero : (s.inControl q l c k).ep 0 = q := State.ep_setEp_same s 0 q

/-- Endpoint 0, selected, is an enabled control endpoint where `q` is one. -/
theorem inControl_selected (hen : q.en = true) (hk : q.kind = .control) :
    (s.inControl q l c k).cur = q ∧ (s.inControl q l c k).cur.en = true ∧ (s.inControl q l c k).cur.ty = .control := by
  have hon : (s.inControl q l c k).controlOn := by rw [State.controlOn, State.inControl_ep_zero]; exact ⟨hen, hk⟩
  have h := hon.selected rfl
  rw [State.inControl_ep_zero] at h
  exact h

theorem step_inControl (hheld : s.io.held = []) (hruns : k.pc ≠ .idle) :
    step (s.inControl q l c k) = ctStep (s.inControl q l c k) :=
  step_control rfl hheld rfl hruns

@[simp] theorem State.inControl_setEp (q' : Endpoint) : (s.inControl q l c k).setEp 0 q' = s.inControl q' l c k :=
  congrArg (fun v : Vector Endpoint 8 => ({ s.inControl q l c k with eps := v } : State))
    (congrArg State.eps (State.setEp_setEp s 0 q q'))

/-- S2: the packet goes to `SP` (R172). -/
theorem step_parses (hheld : s.io.held = []) (hpc : k.pc = .s2) (hen : q.en = true) (hk : q.kind = .control)
    (hdata : q.data = p.bytes) : step (s.inControl q l c k) =
      .next (s.inControl { q with data := [], setup := false, outRdy := false } ⟨p, true⟩ ⟨0, p.wLength⟩
        { k with pc := .s3 }) := by
  obtain ⟨hcur, hcen, hty⟩ := inControl_selected (s := s) (l := l) (c := c) (k := k) hen hk
  have hparse := ctParse_packet hcen hty (by rw [hcur]; exact hdata)
  rw [hcur, show (s.inControl q l c k).sel = 0 from rfl, State.inControl_setEp] at hparse
  rw [step_inControl hheld (by rw [hpc]; decide), ctStep, show (s.inControl q l c k).ct.pc = .s2 from hpc]
  exact hparse

/-- S3 with direction in: the bank is free (R173). -/
theorem step_arms_in (hheld : s.io.held = []) (hpc : k.pc = .s3) (hen : q.en = true) (hk : q.kind = .control)
    (hrdy : q.inRdy = true) (hdir : p.dir = true) : step (s.inControl q ⟨p, true⟩ c k) =
      .next (s.inControl q ⟨p, true⟩ c { k with pc := .s4 }) := by
  obtain ⟨hcur, hcen, hty⟩ := inControl_selected (s := s) (l := ⟨p, true⟩) (c := c) (k := k) hen hk
  have harm : ctArm (s.inControl q ⟨p, true⟩ c k) = ctWaitIn (s.inControl q ⟨p, true⟩ c k) := if_pos hdir
  rw [step_inControl hheld (by rw [hpc]; decide), ctStep, show (s.inControl q ⟨p, true⟩ c k).ct.pc = .s3 from hpc]
  simp only
  rw [withLatch_valid rfl, harm, ctWaitIn_control hcen hty, hcur, if_pos hrdy]
  rfl

theorem decodeSetup_getStatus (hkind : p.kind = 0) (hreq : p.bRequest = 0) : decodeSetup p = .getStatus p.req := by
  simp only [decodeSetup, hkind, decodeStandard, hreq, if_true]

/-- S4 with a GET_STATUS and an empty bank (R184). -/
theorem step_answers_getStatus (hheld : s.io.held = []) (hpc : k.pc = .s4) (hen : q.en = true) (hk : q.kind = .control)
    (hrdy : q.inRdy = true) (hdata : q.data = []) (hkind : p.kind = 0) (hreq : p.bRequest = 0) :
    step (s.inControl q ⟨p, true⟩ ⟨0, p.wLength⟩ k) =
      .next (s.inControl { q with data := List.replicate (min 2 p.wLength.toNat) 0 } ⟨p, true⟩ ⟨2, p.wLength⟩
        { k with pc := .s5, todo := [], result := .ok }) := by
  generalize hu : s.inControl q ⟨p, true⟩ ⟨0, p.wLength⟩ k = u
  have hep : u.ep 0 = q := by rw [← hu, State.inControl_ep_zero]
  have hsent : u.sentPart [0, 0] = List.replicate (min 2 p.wLength.toNat) 0 := by
    have htake : u.sentPart [0, 0] = (List.replicate 2 0).take p.wLength.toNat := by rw [← hu]; rfl
    rw [htake, List.take_replicate, min_comm]
  have hfits : EmitFits u [0, 0] := by
    refine ⟨by rw [← hu]; rfl, by rw [← hu]; show 0 + 2 ≤ 65535; omega, fun _ => ?_⟩
    rw [State.controlOn, hep, hsent, hdata, List.length_replicate]
    exact ⟨⟨hen, hk⟩, hrdy, by rw [List.length_nil]; omega⟩
  have hrun : runMicros [.emit8 0, .emit8 0] u = .finished (u.emitted [0, 0]) := runMicros_emits [] hfits
  have hemit : u.emitted [0, 0] =
      s.inControl { q with data := List.replicate (min 2 p.wLength.toNat) 0 } ⟨p, true⟩ ⟨2, p.wLength⟩ k := by
    rw [State.emitted, hep, hsent, hdata, ← hu, State.inControl_setEp]
    rfl
  have hdispatch : ctDispatch u = runRequest [.emit8 0, .emit8 0] .ok u := by
    rw [ctDispatch, show u.latch.packet = p by rw [← hu]; rfl, decodeSetup_getStatus hkind hreq]
    rfl
  rw [← hu, step_inControl hheld (by rw [hpc]; decide), hu, ctStep, show u.ct.pc = .s4 by rw [← hu]; exact hpc]
  simp only
  rw [withLatch_valid (by rw [← hu]; rfl), hdispatch, runRequest_finished hrun, hemit]
  rfl

/-- S5 after `ok`: the bank is committed as one packet (R194). -/
theorem step_commits_answer (hheld : s.io.held = []) (hpc : k.pc = .s5) (hres : k.result = .ok) (hen : q.en = true)
    (hk : q.kind = .control) (hrdy : q.inRdy = true) (hq : q.inQ = []) : step (s.inControl q l c k) =
      .next ((s.logTx 0 q.data).inControl { q with inQ := [q.data], data := [], inRdy := false } l c
        { k with pc := .exit }) := by
  have hty := (inControl_selected (s := s) (l := l) (c := c) (k := k) hen hk).2.2
  have hep : (s.inControl q l c k).ep 0 = q := State.inControl_ep_zero
  have hcommit := commitIn_zero (s := s.inControl q l c k) (by rw [hep]; exact hen) (by rw [hep]; exact hrdy)
    (by rw [hep]; exact hq)
  rw [hep, State.inControl_setEp] at hcommit
  rw [step_inControl hheld (by rw [hpc]; decide), ctStep, show (s.inControl q l c k).ct.pc = .s5 from hpc]
  simp only [ctComplete, show (s.inControl q l c k).ct.result = .ok from hres, ackInOp_control hty,
    show (s.inControl q l c k).sel = 0 from rfl, hcommit]
  rfl

/-- The return (R318). -/
theorem step_returns (hheld : s.io.held = []) (hpc : k.pc = .exit) :
    step (s.inControl q l c k) = .next (leaveHandler .comm (s.inControl q l c k)) := by
  rw [step_inControl hheld (by rw [hpc]; decide), ctStep, show (s.inControl q l c k).ct.pc = .exit from hpc]

end

/-- S1 of the handler just entered, the setup packet being there (R171). -/
theorem step_selects_setup {s : State} (hin : s.io.inputs = []) (hheld : s.io.held = []) (hisr : s.irq.inIsr = true)
    (hpc : s.ct.pc = .s1) (hflag : (s.ep 0).setupFlag = true) : step s = .next { s with sel := 0, ct.pc := .s2 } := by
  rw [step_control hin hheld hisr (by rw [hpc]; decide), ctStep, hpc]
  simp only [ctSelect_setup hflag]

/-- The setup packet arrives, its handler is entered, and S1 selects endpoint 0 (R85, R316, R171). -/
theorem run_setup_selected {s : State} {p : SetupPacket} (n : Nat) (hon : s.controlOn) (hie : s.irq.ie = true)
    (hisr : s.irq.inIsr = false) (hsetup0 : s.irq.ienSetup0 = true) (heor : s.irq.pendEor = false)
    (hsof : s.irq.pendSof = false) (hct : s.ct.pc = .idle) (hheld : s.io.held = [])
    (hin : s.io.inputs = [.env (.setup p)]) :
    Host.Core.run Sys2Proof.core (n + 3) s = Host.Core.run Sys2Proof.core n
      (s.inControl ((s.ep 0).setUp p) s.latch s.cursor { s.ct with pc := .s2 }) := by
  generalize hu : ({ s.setEp 0 ((s.ep 0).setUp p) with io.inputs := [] } : State) = u
  have hep : u.ep 0 = (s.ep 0).setUp p := by rw [← hu]; exact State.ep_setEp_same s 0 _
  have harrive : step s = .next u := by
    rw [step_env hin, ← hu]
    exact envSetup_arrives (s := { s with io.inputs := [] }) hon.1 hct
  have hcomm : commReq u = true := by
    rw [commReq, show u.eps[0] = u.ep 0 from rfl, hep, ← hu]
    simp [Endpoint.setUp, hsetup0]
  have hframe : frameReq u = false := by rw [← hu]; simp [frameReq, heor, hsof]
  have henter : step u = .next (enterHandler .comm u) :=
    step_comm (by rw [← hu]) (by rw [← hu]; exact hheld) (by rw [← hu]; exact hie) (by rw [← hu]; exact hisr) hcomm
      hframe
  have hflag : ((enterHandler .comm u).ep 0).setupFlag = true := by
    rw [show (enterHandler .comm u).ep 0 = u.ep 0 from rfl, hep, Endpoint.setupFlag,
      Endpoint.ty_of_en (p := (s.ep 0).setUp p) hon.1, show ((s.ep 0).setUp p).kind = .control from hon.2]
    rfl
  have hselect := step_selects_setup (s := enterHandler .comm u) (by rw [← hu]; rfl) (by rw [← hu]; exact hheld) rfl rfl hflag
  rw [run_succ harrive, run_succ henter, run_succ hselect, ← hu]
  rfl

/-- The handler's steps from S2 to its return, for a GET_STATUS (R172, R173, R184, R194, R318). -/
theorem run_getStatus_served {s : State} {q : Endpoint} {l : Latch} {c : Cursor} {k : Ct} {p : SetupPacket}
    (hheld : s.io.held = []) (hpc : k.pc = .s2) (hen : q.en = true) (hk : q.kind = .control) (hdata : q.data = p.bytes)
    (hrdy : q.inRdy = true) (hq : q.inQ = []) (hdir : p.dir = true) (hkind : p.kind = 0) (hreq : p.bRequest = 0) :
    Host.Core.run Sys2Proof.core 5 (s.inControl q l c k) =
      .next (leaveHandler .comm ((s.logTx 0 (List.replicate (min 2 p.wLength.toNat) 0)).inControl
        { q with setup := false, outRdy := false, data := [], inRdy := false,
                 inQ := [List.replicate (min 2 p.wLength.toNat) 0] }
        ⟨p, true⟩ ⟨2, p.wLength⟩ { k with pc := .exit, todo := [], result := .ok })) := by
  have hparse := step_parses (s := s) (l := l) (c := c) hheld hpc hen hk hdata
  have harm := step_arms_in (s := s) (q := { q with data := [], setup := false, outRdy := false }) (c := ⟨0, p.wLength⟩)
    (k := { k with pc := .s3 }) hheld rfl hen hk hrdy hdir
  have hanswer := step_answers_getStatus (s := s) (q := { q with data := [], setup := false, outRdy := false })
    (k := { k with pc := .s4 }) hheld rfl hen hk hrdy rfl hkind hreq
  have hcommit := step_commits_answer (s := s) (l := ⟨p, true⟩) (c := ⟨2, p.wLength⟩)
    (q := { q with data := List.replicate (min 2 p.wLength.toNat) 0, setup := false, outRdy := false })
    (k := { k with pc := .s5, todo := [], result := .ok }) hheld rfl rfl hen hk hrdy hq
  rw [run_succ hparse, run_succ harm, run_succ hanswer, run_succ hcommit]
  exact run_succ (step_returns (s := s.logTx 0 _) hheld rfl) 0

/-- Settles O29: three steps to the entry of S2, five more to the return. -/
theorem getStatusIsServed : Obligations.GetStatusIsServed := by
  intro s p hdir hkind hreq hon _ hie hisr hsetup0 heor hsof hct _ hheld hin
  refine ⟨_, (run_setup_selected 5 hon hie hisr hsetup0 heor hsof hct hheld hin).trans
    (run_getStatus_served hheld rfl hon.1 hon.2 rfl rfl rfl hdir hkind hreq), State.ep_setEp_same _ 0 _, ?_,
    fun e he => ⟨?_, ?_⟩, rfl, rfl, rfl, rfl, ?_, rfl, rfl⟩
  · exact (State.txlogOf_logTx s 0 0 _).trans (if_pos rfl)
  · exact State.ep_setEp_ne _ 0 e _ he
  · exact (State.txlogOf_logTx s 0 e _).trans (if_neg he)
  · show ({ s.irq with inIsr := false, spurComm := false } : Irq) = _
    rw [← hisr]

end Sys2Proof.Machine
end

section
/-! PROOFS. Encoding and decoding agree (R100 to R103, R107 to R110, R122, R123, R127, R134): operand by operand, then word
by word, then packet by packet. -/

namespace Sys2Proof

/-! ## Operands -/

theorem operandEp_epByte (e : EpIdx) (bs : List Byte) (k : EpIdx → List Byte → Decoded) :
    operandEp (epByte e :: bs) k = k e bs := by
  rw [Machine.operandEp_ok (epByte_lt e), extract_epByte]

theorem operandEpf_epfOf (e : EpIdx) (f : BitVec 3) (bs : List Byte) (k : EpIdx → BitVec 3 → List Byte → Decoded) :
    operandEpf (epfOf e f :: bs) k = k e f bs := by
  rw [Machine.operandEpf_ok (epfOf_zero e f), epfOf_ep, epfOf_flags]

theorem operand16_le16Bytes (v : Word16) (bs : List Byte) (k : Word16 → List Byte → Decoded) :
    operand16 (le16Bytes v ++ bs) k = k v bs := by
  show k (le16 (lo8 v) (hi8 v)) bs = k v bs
  rw [le16_lo_hi]

theorem flagsOf_bits (rom release zero : Bool) : (flagsOf rom release zero).getLsbD 2 = rom ∧
    (flagsOf rom release zero).getLsbD 1 = release ∧ (flagsOf rom release zero).getLsbD 0 = zero := by
  revert rom release zero; decide

/-! ## Words -/

/-- SEND with a length that is not negative (R122, R123). -/
theorem decodeCode_send_encoded (ep : EpIdx) (rom release zero : Bool) (ptr : Word16) {len : Word16}
    (hlen : len.msb = false) (rest : List Byte) :
    decodeCode 0x01 (epfOf ep (flagsOf rom release zero) :: (le16Bytes ptr ++ (le16Bytes len ++ rest))) =
      .ok (.send ep rom release zero ptr len, rest) := by
  obtain ⟨hrom, hrelease, hzero⟩ := flagsOf_bits rom release zero
  rw [Machine.decodeCode_send, operandEpf_epfOf, operand16_le16Bytes, operand16_le16Bytes, hlen, hrom, hrelease, hzero]
  rfl

/-- RECV (R122, R123). -/
theorem decodeCode_recv_encoded (ep : EpIdx) (f : BitVec 3) (ptr len : Word16) (rest : List Byte) :
    decodeCode 0x02 (epfOf ep f :: (le16Bytes ptr ++ (le16Bytes len ++ rest))) = .ok (.recv ep f ptr len, rest) := by
  refine (operandEpf_epfOf ep f _ fun ep f r => operand16 r fun ptr r => operand16 r fun len r =>
    .ok (.recv ep f ptr len, r)).trans ?_
  rw [operand16_le16Bytes, operand16_le16Bytes]

/-- EMIT_N of a string its count can state (R127; log 13). -/
theorem decodeCode_emitN_encoded {s : List Byte} (hs : s.length < 65536) (rest : List Byte) :
    decodeCode 0x25 (le16Bytes (BitVec.ofNat 16 s.length) ++ (s ++ rest)) = .ok (.emitN s, rest) := by
  have hcount : (BitVec.ofNat 16 s.length).toNat = s.length := Nat.mod_eq_of_lt hs
  have hle : s.length ≤ (s ++ rest).length := by rw [List.length_append]; omega
  refine (operand16_le16Bytes _ _ fun n r =>
    if n.toNat ≤ r.length then .ok (.emitN (r.take n.toNat), r.drop n.toNat) else .error .truncated).trans ?_
  rw [hcount, if_pos hle, List.take_left, List.drop_left]

/-- The decoder takes the bytes of a well-formed operation and leaves what follows (R100). -/
theorem decodeWord_encode {i : Instr} {bs : List Byte} (rest : List Byte) (hwf : i.wf = true)
    (henc : encode i = .word bs) : decodeWord (bs ++ rest) = .ok (i, rest) := by
  cases i with
  | send ep rom release zero ptr len =>
    cases henc
    rw [List.cons_append, List.cons_append, List.append_assoc]
    exact decodeCode_send_encoded ep rom release zero ptr (Bool.eq_false_of_not_eq_true' hwf) rest
  | recv ep f ptr len =>
    cases henc
    rw [List.cons_append, List.cons_append, List.append_assoc]
    exact decodeCode_recv_encoded ep f ptr len rest
  | available ep f => cases henc; exact operandEpf_epfOf ep f rest fun ep f r => .ok (.available ep f, r)
  | flush ep f => cases henc; exact operandEpf_epfOf ep f rest fun ep f r => .ok (.flush ep f, r)
  | select e => cases henc; exact operandEp_epByte e rest fun e r => .ok (.select e, r)
  | sendSpace e => cases henc; exact operandEp_epByte e rest fun e r => .ok (.sendSpace e, r)
  | initEp e t =>
    cases henc
    refine (Machine.decodeCode_initEp _).trans ?_
    refine (operandEp_epByte e (typeCode t :: rest) _).trans ?_
    simp only [operand, typeOfCode_typeCode]
  | readN n => cases henc; exact if_pos (of_decide_eq_true hwf)
  | curInit n => cases henc; exact operand16_le16Bytes n rest fun n r => .ok (.curInit n, r)
  | emitN s =>
    cases henc
    rw [List.cons_append, List.append_assoc]
    exact decodeCode_emitN_encoded (of_decide_eq_true hwf) rest
  | _ => cases henc <;> rfl

/-- Settles O2, by the operands of each row. -/
theorem decodeTakesItsBytes : Obligations.DecodeTakesItsBytes :=
  fun _ _ rest hwf henc => decodeWord_encode rest hwf henc

/-! ## Setup packets -/

theorem decodeSetup_standard (b : Byte) (r : Req) : decodeSetup (r.packet 0 b) = decodeStandard b r := by
  rw [decodeSetup, if_pos (kind_packet r 0 b), req_packet, bRequest_packet]

theorem decodeSetup_getDescriptor (r : Req) : decodeSetup (r.packet 0 6) = decodeDescriptor r := decodeSetup_standard 6 r

theorem decodeSetup_class (b : Byte) (r : Req) : decodeSetup (r.packet 1 b) = .classRequest b r := by
  rw [decodeSetup, kind_packet, req_packet, bRequest_packet]; rfl

theorem decodeSetup_vendor (b : Byte) (r : Req) : decodeSetup (r.packet 2 b) = .kindVendor b r := by
  rw [decodeSetup, kind_packet, req_packet, bRequest_packet]; rfl

theorem decodeSetup_reserved (b : Byte) (r : Req) : decodeSetup (r.packet 3 b) = .kindReserved b r := by
  rw [decodeSetup, kind_packet, req_packet, bRequest_packet]; rfl

theorem namedStandard_false {b : Byte} :
    namedStandard b = false ↔ b ≠ 0 ∧ b ≠ 5 ∧ b ≠ 6 ∧ b ≠ 7 ∧ b ≠ 8 ∧ b ≠ 9 := by
  simp [namedStandard, and_assoc]

theorem namedDescType_false {t : Byte} : namedDescType t = false ↔
    t ≠ Config.dtDevice ∧ t ≠ Config.dtConfiguration ∧ t ≠ Config.dtString := by
  simp [namedDescType, and_assoc]

/-- A code the source does not name (R107, R190). -/
theorem decodeStandard_unlisted {b : Byte} (r : Req) (h : namedStandard b = false) :
    decodeStandard b r = .standardUnlisted b r := by
  obtain ⟨h0, h5, h6, h7, h8, h9⟩ := namedStandard_false.1 h
  rw [decodeStandard, if_neg h0, if_neg h5, if_neg h6, if_neg h7, if_neg h8, if_neg h9]

theorem decodeDescriptor_string {r : Req} (h : r.wValueH = Config.dtString) :
    decodeDescriptor r = .getDescriptorString r := by
  rw [decodeDescriptor, h]; rfl

theorem decodeDescriptor_other {r : Req} (h : namedDescType r.wValueH = false) :
    decodeDescriptor r = .getDescriptorOther r := by
  obtain ⟨hdev, hcfg, hstr⟩ := namedDescType_false.1 h
  rw [decodeDescriptor, if_neg hdev, if_neg hcfg, if_neg hstr]

/-- The decoder's sub-row of GET_DESCRIPTOR is the row the parent performs: the three types are distinct (R108, R134). -/
theorem decodeDescriptor_eq_performed (r : Req) : decodeDescriptor r = (Instr.getDescriptor r).performed := by
  have hne : Config.dtDevice ≠ Config.dtConfiguration := by decide
  rw [decodeDescriptor, Instr.performed]
  split
  · next hdev => rw [if_neg (fun hcfg => hne (hdev.symm.trans hcfg))]
  · rfl

/-- What a setup packet of a well-formed request decodes to: its row performed (R109, R134). -/
theorem decodeSetup_encode {i : Instr} {p : SetupPacket} (hwf : i.wf = true) (henc : encode i = .setup p) :
    decodeSetup p = i.performed := by
  cases i with
  | getDescriptor r => cases henc; exact (decodeSetup_getDescriptor r).trans (decodeDescriptor_eq_performed r)
  | getDescriptorDevice r => cases henc; exact (decodeSetup_getDescriptor r).trans (if_pos (eq_of_beq hwf))
  | getDescriptorConfiguration r =>
    cases henc
    exact (decodeSetup_getDescriptor r).trans ((decodeDescriptor_eq_performed r).trans (if_pos (eq_of_beq hwf)))
  | getDescriptorString r =>
    cases henc
    exact (decodeSetup_getDescriptor r).trans (decodeDescriptor_string (eq_of_beq hwf))
  | getDescriptorOther r =>
    cases henc
    exact (decodeSetup_getDescriptor r).trans (decodeDescriptor_other (Bool.eq_false_of_not_eq_true' hwf))
  | standardUnlisted b r =>
    cases henc
    rw [decodeSetup_standard]
    exact decodeStandard_unlisted r (Bool.eq_false_of_not_eq_true' hwf)
  | classRequest b r => cases henc; exact decodeSetup_class b r
  | kindVendor b r => cases henc; exact decodeSetup_vendor b r
  | kindReserved b r => cases henc; exact decodeSetup_reserved b r
  | getStatus r | setAddress r | setDescriptor r | getConfiguration r | setConfiguration r =>
    cases henc; rw [decodeSetup_standard]; rfl
  | _ => cases henc

/-- No word decodes to the parent row, so a word's operation is its own performed row. -/
theorem decode_word_encode {i : Instr} {bs : List Byte} (hwf : i.wf = true) (henc : encode i = .word bs) :
    decode (.word bs) = .ok i.performed := by
  have hdec : decodeWord bs = .ok (i, []) := by simpa using decodeWord_encode [] hwf henc
  simp only [decode, hdec, (decodeWord_all bs i [] hdec).2]

/-- Settles O1, by the two shapes of an encoding. -/
theorem decodeEncode : Obligations.DecodeEncode := by
  intro i hwf
  cases henc : encode i with
  | setup p => exact congrArg Except.ok (decodeSetup_encode hwf henc)
  | word bs => exact decode_word_encode hwf henc

/-! ## Every packet -/

theorem encode_decodeDescriptor (r : Req) : encode (decodeDescriptor r) = .setup (r.packet 0 6) := by
  simp only [decodeDescriptor]; repeat' split
  all_goals rfl

theorem wf_decodeDescriptor (r : Req) : (decodeDescriptor r).wf = true := by
  simp only [decodeDescriptor]; repeat' split
  · next h => exact beq_iff_eq.2 h
  · next h => exact beq_iff_eq.2 h
  · next h => exact beq_iff_eq.2 h
  · next hdev hcfg hstr =>
    show (!namedDescType r.wValueH) = true
    rw [namedDescType_false.2 ⟨hdev, hcfg, hstr⟩]; rfl

/-- The sub-row goes by the descriptor type alone (R134). -/
theorem row_decodeDescriptor {q r : Req} (h : q.wValueH = r.wValueH) :
    (decodeDescriptor q).row = (decodeDescriptor r).row := by
  simp only [decodeDescriptor, h]; repeat' split
  all_goals rfl

theorem encode_decodeStandard (b : Byte) (r : Req) : encode (decodeStandard b r) = .setup (r.packet 0 b) := by
  simp only [decodeStandard]; repeat' split
  · next h => rw [h]; rfl
  · next h => rw [h]; rfl
  · next h => rw [h]; exact encode_decodeDescriptor r
  · next h => rw [h]; rfl
  · next h => rw [h]; rfl
  · next h => rw [h]; rfl
  · rfl

theorem wf_decodeStandard (b : Byte) (r : Req) : (decodeStandard b r).wf = true := by
  simp only [decodeStandard]; repeat' split
  · rfl
  · rfl
  · exact wf_decodeDescriptor r
  · rfl
  · rfl
  · rfl
  · next h0 h5 h6 h7 h8 h9 =>
    show (!namedStandard b) = true
    rw [namedStandard_false.2 ⟨h0, h5, h6, h7, h8, h9⟩]; rfl

theorem row_decodeStandard (b : Byte) {q r : Req} (h : q.wValueH = r.wValueH) :
    (decodeStandard b q).row = (decodeStandard b r).row := by
  simp only [decodeStandard]; repeat' split
  · rfl
  · rfl
  · exact row_decodeDescriptor h
  all_goals rfl

/-- The four kinds (R102, R128). -/
theorem kind_cases (k : BitVec 2) : k = 0 ∨ k = 1 ∨ k = 2 ∨ k = 3 := by revert k; decide

/-- R109 by the kind of the packet. -/
theorem decodeSetup_cases (p : SetupPacket) :
    (p.kind = 0 ∧ decodeSetup p = decodeStandard p.bRequest p.req) ∨
    (p.kind = 1 ∧ decodeSetup p = .classRequest p.bRequest p.req) ∨
    (p.kind = 2 ∧ decodeSetup p = .kindVendor p.bRequest p.req) ∨
    (p.kind = 3 ∧ decodeSetup p = .kindReserved p.bRequest p.req) := by
  rcases kind_cases p.kind with hk | hk | hk | hk
  · exact .inl ⟨hk, by rw [decodeSetup, hk]; rfl⟩
  · exact .inr (.inl ⟨hk, by rw [decodeSetup, hk]; rfl⟩)
  · exact .inr (.inr (.inl ⟨hk, by rw [decodeSetup, hk]; rfl⟩))
  · exact .inr (.inr (.inr ⟨hk, by rw [decodeSetup, hk]; rfl⟩))

/-- Every packet is the encoding of what it decodes to. -/
theorem encode_decodeSetup (p : SetupPacket) : encode (decodeSetup p) = .setup p := by
  have hp := packet_req p
  rcases decodeSetup_cases p with ⟨hk, hd⟩ | ⟨hk, hd⟩ | ⟨hk, hd⟩ | ⟨hk, hd⟩ <;> rw [hk] at hp <;> rw [hd]
  · rw [encode_decodeStandard, hp]
  · rw [encode, hp]
  · rw [encode, hp]
  · rw [encode, hp]

theorem wf_decodeSetup (p : SetupPacket) : (decodeSetup p).wf = true := by
  rcases decodeSetup_cases p with ⟨-, hd⟩ | ⟨-, hd⟩ | ⟨-, hd⟩ | ⟨-, hd⟩ <;> rw [hd]
  · exact wf_decodeStandard _ _
  · rfl
  · rfl
  · rfl

/-- The row performed is never the parent row (R134; log 24). -/
theorem performed_ne_parent (i : Instr) (r : Req) : i.performed ≠ .getDescriptor r := by
  cases i with
  | getDescriptor q =>
    simp only [Instr.performed]
    split_ifs <;> exact Instr.noConfusion
  | _ => exact Instr.noConfusion

/-- A packet's row goes by its kind, its code and its descriptor type (R109, R134). -/
theorem row_decodeSetup {p q : SetupPacket} (hkind : q.kind = p.kind) (hcode : q.bRequest = p.bRequest)
    (htype : q.wValueH = p.wValueH) : (decodeSetup q).row = (decodeSetup p).row := by
  simp only [decodeSetup, hkind, hcode]
  split_ifs
  · exact row_decodeStandard p.bRequest htype
  · rfl
  · rfl
  · rfl

theorem kindOf_flip (b : Byte) : kindOf (b ^^^ 0x80) = kindOf b := by revert b; decide

/-- Settles O3: what a packet decodes to is well formed and encodes to it, so it is its own row performed. -/
theorem everyPacketDecodes : Obligations.EveryPacketDecodes := by
  intro p
  have hperformed : decodeSetup p = (decodeSetup p).performed :=
    decodeSetup_encode (wf_decodeSetup p) (encode_decodeSetup p)
  exact ⟨wf_decodeSetup p, encode_decodeSetup p, hperformed.symm,
    fun r => hperformed ▸ performed_ne_parent _ r, row_decodeSetup (kindOf_flip _) rfl rfl⟩

/-- Settles O5, word by word. -/
theorem writtenWordsDecode : Obligations.WrittenWordsDecode :=
  ⟨rfl, rfl, rfl, rfl, rfl, rfl, rfl, rfl, rfl⟩

end Sys2Proof
end

section
/-! PROOFS. Emission past the bank (R121, R177 to R179, R195): the byte that fills it commits the packet, and a
transmitted byte without a bank holds. -/

namespace Sys2Proof.Machine

/-- Endpoint 0 is selected, an initialised control endpoint, and its bank is the block's (R177). -/
structure ControlBank (s : State) : Prop where
  sel : s.sel = 0
  on : s.controlOn
  ready : (s.ep 0).inRdy = true

/-- After `bs` filled the bank: it left as one packet, and the position counts `bs` (R150, R177). -/
def State.packetSent (s : State) (bs : List Byte) : State :=
  { (s.setEp 0 { s.ep 0 with inQ := (s.ep 0).inQ ++ [(s.ep 0).data ++ bs], data := [], inRdy := false }).logTx 0
      ((s.ep 0).data ++ bs) with
    cursor.pos := s.cursor.pos + BitVec.ofNat 16 bs.length }

theorem State.packetSent_ep_zero (s : State) (bs : List Byte) : (s.packetSent bs).ep 0 =
    { s.ep 0 with inQ := (s.ep 0).inQ ++ [(s.ep 0).data ++ bs], data := [], inRdy := false } := State.ep_setEp_same s 0 _

/-! ## What the cursor lets through -/

theorem State.sentPart_all {s : State} {bs : List Byte} (h : s.cursor.pos.toNat + bs.length ≤ s.cursor.lim.toNat) :
    s.sentPart bs = bs := List.take_of_length_le (by omega)

theorem State.sentPart_past {s : State} (bs : List Byte) (h : s.cursor.lim.toNat ≤ s.cursor.pos.toNat) :
    s.sentPart bs = [] := by
  rw [State.sentPart, Nat.sub_eq_zero_of_le h, List.take_zero]

theorem State.length_sentPart (s : State) (bs : List Byte) :
    (s.sentPart bs).length = min (s.cursor.lim.toNat - s.cursor.pos.toNat) bs.length := List.length_take

/-- What is not let through is only counted (R179). -/
theorem State.emitted_counts {s : State} {bs : List Byte} (h : s.sentPart bs = []) :
    s.emitted bs = { s with cursor.pos := s.cursor.pos + BitVec.ofNat 16 bs.length } := by
  have hep : ({ s.ep 0 with data := (s.ep 0).data ++ [] } : Endpoint) = s.ep 0 := by simp
  rw [State.emitted, h, hep, State.setEp_ep]

/-- What is only counted fits wherever the position does not pass 65535. -/
theorem EmitFits.of_counted {s : State} {bs : List Byte} (hsel : s.sel = 0)
    (hcount : s.cursor.pos.toNat + bs.length ≤ 65535) (h : s.sentPart bs = []) : EmitFits s bs :=
  ⟨hsel, hcount, fun hne => absurd h hne⟩

/-! ## One byte -/

/-- A commit of the one bank of endpoint 0 leaves none (R6, R150). -/
theorem committed_one (p : Endpoint) : p.committed 1 = { p with inQ := p.inQ ++ [p.data], data := [], inRdy := false } := by
  simp [Endpoint.committed]

theorem pos_ne_max {s : State} (h : s.cursor.pos.toNat < s.cursor.lim.toNat) : s.cursor.pos ≠ 0xFFFF := by bv_omega

/-- The byte that fills the bank commits the packet (R177). -/
theorem emit8Op_fills {b : Byte} {s : State} (h : ControlBank s) (hdata : (s.ep 0).data.length = 63)
    (hlt : s.cursor.pos.toNat < s.cursor.lim.toNat) : emit8Op b s = .ok (s.packetSent [b]) := by
  obtain ⟨hcur, hen, hty⟩ := h.on.selected h.sel
  have hroomy : Roomy s := ⟨hen, by rw [hcur, h.on.2]; rfl, by rw [hcur]; exact h.ready⟩
  have hwrite := write8Op_ready b s hroomy (by rw [hcur, hdata]; decide)
  rw [hcur, h.sel] at hwrite
  generalize hq : ({ s.ep 0 with data := (s.ep 0).data ++ [b] } : Endpoint) = q at hwrite
  have hqen : q.en = true := by rw [← hq]; exact h.on.1
  have hqcur : (s.setEp 0 q).cur = q := cur_setEp_zero h.sel
  have hqty : (s.setEp 0 q).cur.ty = .control := ty_setEp_zero h.sel hqen (by rw [← hq]; exact h.on.2)
  have hfull : (s.setEp 0 q).cur.cnt = Config.epSize := by
    rw [hqcur, Endpoint.cnt, if_pos hqen, ← hq, List.length_append, hdata]; rfl
  have hflag : ((s.setEp 0 q).ep 0).inFlag = true := by
    rw [State.ep_setEp_same, Endpoint.inFlag, hqen, ← hq]; exact h.ready
  have hcommit : ackInOp (s.setEp 0 q) = .ok ((s.setEp 0 (q.committed 1)).logTx 0 q.data) := by
    rw [ackInOp_control hqty, State.setEp_sel, h.sel, commitIn_ready 0 _ hflag, State.ep_setEp_same, State.setEp_setEp]
    rfl
  rw [emit8Op, if_neg (not_not_intro h.sel), if_neg (pos_ne_max hlt), if_pos hlt]
  simp only [transmitOp, waitInOp_ready s hroomy, hwrite, MicroOut.bind, if_pos hfull, hcommit]
  rw [committed_one, ← hq]
  rfl

/-- With no bank a transmitted byte holds (R177). -/
theorem emit8Op_holds (b : Byte) {s : State} (hsel : s.sel = 0) (hon : s.controlOn) (hrdy : (s.ep 0).inRdy = false)
    (hlt : s.cursor.pos.toNat < s.cursor.lim.toNat) : emit8Op b s = .hold := by
  obtain ⟨hcur, hen, hty⟩ := hon.selected hsel
  have hwait : waitInOp s = .hold := by rw [waitInOp_control hen hty, hcur, hrdy]; rfl
  rw [emit8Op, if_neg (not_not_intro hsel), if_neg (pos_ne_max hlt), if_pos hlt]
  simp only [transmitOp, hwait, MicroOut.bind]

/-- A position that would wrap is refused (R175, U12). -/
theorem emit8Op_overflows (b : Byte) {s : State} (hsel : s.sel = 0) (hpos : s.cursor.pos = 0xFFFF) :
    emit8Op b s = .refused .cursorOverflow := by
  rw [emit8Op, if_neg (not_not_intro hsel), if_pos hpos]

/-! ## Sequences -/

theorem runMicros_emits_all {s : State} {bs : List Byte} (h : EmitFits s bs) :
    runMicros (bs.map .emit8) s = .finished (s.emitted bs) := by
  have hrun := runMicros_emits [] h
  rwa [List.append_nil] at hrun

theorem runMicros_emit_holds {s : State} (b : Byte) (bs : List Byte) (hsel : s.sel = 0) (hon : s.controlOn)
    (hrdy : (s.ep 0).inRdy = false) (hlt : s.cursor.pos.toNat < s.cursor.lim.toNat) :
    runMicros ((b :: bs).map .emit8) s = .held ((b :: bs).map .emit8) s :=
  runMicros_cons_hold (emit8Op_holds b hsel hon hrdy hlt)

/-- What was emitted before the byte that fills the bank leaves with it. -/
theorem State.packetSent_emitted {s : State} {as : List Byte} (b : Byte) (h : s.sentPart as = as) :
    (s.emitted as).packetSent [b] = s.packetSent (as ++ [b]) := by
  have hpos : (s.emitted as).cursor.pos + BitVec.ofNat 16 [b].length =
      s.cursor.pos + BitVec.ofNat 16 (as ++ [b]).length := by
    rw [State.emitted_cursor, List.length_append, BitVec.ofNat_add, BitVec.add_assoc]
  rw [State.packetSent, State.emitted_ep_zero, h, hpos, List.append_assoc]
  exact congrArg (fun u : State => { u.logTx 0 ((s.ep 0).data ++ (as ++ [b])) with
    cursor.pos := s.cursor.pos + BitVec.ofNat 16 (as ++ [b]).length }) (State.setEp_setEp s 0 _ _)

/-- Bytes that exactly fill the bank leave as one packet, whatever follows (R121, R177). -/
theorem runMicros_emits_packet {s : State} {as : List Byte} (ms : List Micro) (h : ControlBank s)
    (hroom : (s.ep 0).data.length < 64) (hfull : (s.ep 0).data.length + as.length = 64)
    (hlim : s.cursor.pos.toNat + as.length ≤ s.cursor.lim.toNat) :
    runMicros (as.map .emit8 ++ ms) s = runMicros ms (s.packetSent as) := by
  obtain rfl | ⟨init, b, rfl⟩ := as.eq_nil_or_concat
  · rw [List.length_nil] at hfull; omega
  rw [List.concat_eq_append] at *
  rw [List.length_append, List.length_singleton] at hfull hlim
  have hmax := s.cursor.lim.isLt
  have hsent : s.sentPart init = init := State.sentPart_all (by omega)
  have hfits : EmitFits s init := ⟨h.sel, by omega, fun _ => ⟨h.on, h.ready, by rw [hsent]; omega⟩⟩
  have hep : (s.emitted init).ep 0 = { s.ep 0 with data := (s.ep 0).data ++ init } := by
    rw [State.emitted_ep_zero, hsent]
  have hbank : ControlBank (s.emitted init) :=
    ⟨h.sel, by rw [State.controlOn, hep]; exact h.on, by rw [hep]; exact h.ready⟩
  have hdata : ((s.emitted init).ep 0).data.length = 63 := by rw [hep, List.length_append]; omega
  have hlt : (s.emitted init).cursor.pos.toNat < (s.emitted init).cursor.lim.toNat := by
    rw [State.emitted_pos (by omega)]; show _ < s.cursor.lim.toNat; omega
  have hfill : microStep (.emit8 b) (s.emitted init) = .ok ((s.emitted init).packetSent [b]) :=
    emit8Op_fills hbank hdata hlt
  rw [List.map_append, List.append_assoc, runMicros_emits _ hfits]
  refine (runMicros_cons_ok hfill).trans ?_
  rw [State.packetSent_emitted b hsent]
  rfl

theorem State.packetSent_pos {s : State} {bs : List Byte} (h : s.cursor.pos.toNat + bs.length ≤ 65535) :
    (s.packetSent bs).cursor.pos.toNat = s.cursor.pos.toNat + bs.length := by
  show (s.cursor.pos + BitVec.ofNat 16 bs.length).toNat = _
  bv_omega

/-- Bytes that pass the bank: the first fill it and leave as one packet, the next one holds with the rest (R121, R177). -/
theorem runMicros_emits_past {s : State} {bs : List Byte} {k : Nat} (h : ControlBank s)
    (hroom : (s.ep 0).data.length < 64) (hk : k = 64 - (s.ep 0).data.length) (hpast : k < (s.sentPart bs).length) :
    runMicros (bs.map .emit8) s = .held ((bs.drop k).map .emit8) (s.packetSent (bs.take k)) := by
  rw [State.length_sentPart] at hpast
  have hmax := s.cursor.lim.isLt
  have hlen : (bs.take k).length = k := List.length_take_of_le (by omega)
  obtain ⟨b, rest, hrest⟩ : ∃ b rest, bs.drop k = b :: rest :=
    List.exists_cons_of_length_pos (by rw [List.length_drop]; omega)
  have hsplit : bs.map Micro.emit8 = (bs.take k).map .emit8 ++ (bs.drop k).map .emit8 := by
    rw [← List.map_append, List.take_append_drop]
  have hep := s.packetSent_ep_zero (bs.take k)
  rw [hsplit, runMicros_emits_packet _ h hroom (by omega) (by omega), hrest]
  refine runMicros_emit_holds b rest h.sel (by rw [State.controlOn, hep]; exact h.on) (by rw [hep]) ?_
  rw [State.packetSent_pos (by omega)]
  show _ < s.cursor.lim.toNat
  omega

/-- What is transmitted fills the bank exactly: it leaves as one packet, and the bytes past the limit are counted (R177,
R179). -/
theorem runMicros_emits_exactly {s : State} {bs : List Byte} (h : ControlBank s) (hroom : (s.ep 0).data.length < 64)
    (hcount : s.cursor.pos.toNat + bs.length ≤ 65535) (hfull : (s.ep 0).data.length + (s.sentPart bs).length = 64) :
    runMicros (bs.map .emit8) s = .finished { s.packetSent (s.sentPart bs) with
      cursor.pos := s.cursor.pos + BitVec.ofNat 16 bs.length } := by
  generalize hsent : s.sentPart bs = as at hfull
  generalize hrest : bs.drop (s.cursor.lim.toNat - s.cursor.pos.toNat) = rest
  have hsplit : bs = as ++ rest := by rw [← hsent, ← hrest]; exact (List.take_append_drop _ bs).symm
  have hlen := s.length_sentPart bs
  have hdrop : rest.length = bs.length - (s.cursor.lim.toNat - s.cursor.pos.toNat) := by rw [← hrest, List.length_drop]
  rw [hsent] at hlen
  have hpos : (s.packetSent as).cursor.pos.toNat = s.cursor.pos.toNat + as.length := State.packetSent_pos (by omega)
  have hpast : (s.packetSent as).sentPart rest = [] := by
    by_cases hr : rest = []
    · rw [hr]; exact List.take_nil
    · have := List.length_pos_iff.2 hr
      exact State.sentPart_past rest (by rw [hpos]; show s.cursor.lim.toNat ≤ _; omega)
  have hfits : EmitFits (s.packetSent as) rest := .of_counted h.sel (by rw [hpos]; omega) hpast
  rw [hsplit, List.map_append, runMicros_emits_packet _ h hroom hfull (by omega), runMicros_emits_all hfits,
    State.emitted_counts hpast, List.length_append, BitVec.ofNat_add, ← BitVec.add_assoc]
  rfl

/-- A request that holds (R36, R195). -/
theorem runRequest_held {ms rest : List Micro} {res : CtResult} {s t : State} (h : runMicros ms s = .held rest t) :
    runRequest ms res s = .next { t with ct.pc := holdPoint rest, ct.todo := rest, ct.result := res } := by
  simp only [runRequest, h]

theorem issue_finished {ms : List Micro} {s t : State} (h : runMicros ms s = .finished t) : issue ms s = .next t := by
  simp only [issue, h]

theorem issue_held {ms rest : List Micro} {s t : State} (h : runMicros ms s = .held rest t) :
    issue ms s = .next { t with io.held := rest } := by
  simp only [issue, h]

theorem runRequest_emits {s : State} {bs : List Byte} {res : CtResult} (h : EmitFits s bs) :
    runRequest (bs.map .emit8) res s = .next ((s.emitted bs).answered res) :=
  runRequest_finished (runMicros_emits_all h)

theorem holdPoint_emits {bs : List Byte} (hne : bs ≠ []) : holdPoint (bs.map .emit8) = .s4EmitWait := by
  obtain ⟨b, rest, rfl⟩ := List.exists_cons_of_ne_nil hne
  rfl

/-- The handler at S4.emit.wait goes on with what is left (R195; log 7). -/
theorem ctStep_emitWait {s : State} (h : s.ct.pc = .s4EmitWait) : ctStep s = runRequest s.ct.todo s.ct.result s := by
  simp only [ctStep, h]

/-- Settles O39: what fits, what passes the bank, what fills it, and what finds none. -/
theorem emissionFollowsTheCursor : Obligations.EmissionFollowsTheCursor := by
  refine ⟨fun s bs h => issue_finished (runMicros_emits_all h), fun s b h => issue_finished (runMicros_emits_all h),
    fun s bs hsel hon hrdy hdata hlen hlim => ?_, fun s b hsel hon hrdy hdata hlt => ?_,
    fun s b hsel hon hrdy hlt => issue_held (runMicros_emit_holds b [] hsel hon hrdy hlt),
    fun s bs res h => runRequest_emits h,
    fun s bs res hsel hon hrdy hroom hcount hfull =>
      runRequest_finished (runMicros_emits_exactly ⟨hsel, hon, hrdy⟩ hroom hcount hfull),
    fun s bs res k hsel hon hrdy hroom hk hpast => ?_,
    fun s b bs hpc htodo hsel hon hlt => ⟨fun hrdy => ?_, fun q => ?_⟩⟩
  · have hsent := s.length_sentPart bs
    have hrun := runMicros_emits_past (bs := bs) (k := 64) ⟨hsel, hon, hrdy⟩ (by rw [hdata]; decide) (by rw [hdata]; rfl)
      (by omega)
    refine (issue_held hrun).trans ?_
    rw [State.packetSent, hdata, List.nil_append, List.length_take_of_le hlen.le, ← hdata]
    rfl
  · have hfill : microStep (.emit8 b) s = .ok (s.packetSent [b]) := emit8Op_fills ⟨hsel, hon, hrdy⟩ hdata hlt
    exact issue_finished (runMicros_cons_ok hfill)
  · have hsent := s.length_sentPart bs
    have hrest : bs.drop k ≠ [] := List.ne_nil_of_length_pos (by rw [List.length_drop]; omega)
    rw [runRequest_held (runMicros_emits_past ⟨hsel, hon, hrdy⟩ hroom hk hpast), holdPoint_emits hrest, State.packetSent,
      List.length_take_of_le (by omega)]
  · have hpoint : holdPoint s.ct.todo = s.ct.pc := by rw [htodo, hpc]; rfl
    rw [ctStep_emitWait hpc, htodo, runRequest_held (runMicros_emit_holds b bs hsel hon hrdy hlt), ← htodo, hpoint]
  · rw [← htodo]; exact ctStep_emitWait hpc

end Sys2Proof.Machine
end

section
/-! PROOFS. The descriptors of GET_DESCRIPTOR (R112 to R119, R134, R211 to R222): the bytes of each table, then their
emission. -/

namespace Sys2Proof.Machine

/-! ## DEVICE -/

/-- A device table's length byte counts it (R112, R220). -/
theorem tableBytesToEmit_deviceTable (c : Conf) (cls : Byte) :
    tableBytesToEmit (deviceTable c cls) = deviceTable c cls := rfl

/-- DESC_DEVICE latches first and emits the variant the latch then selects (R212, R113). -/
theorem descDevice_eq (r : Req) (s : State) {t : State}
    (ht : t = { s with dev.composite := s.dev.composite || r.wLength == 8 }) :
    descDevice r s = runRequest
      ((deviceTable s.conf (if t.dev.composite then s.conf.compositeClass else 0)).map .emit8) .ok t := by
  have hlatch : t = if r.wLength = Config.compositeTriggerLen then { s with dev.composite := true } else s := by
    rw [show Config.compositeTriggerLen = 8 from rfl]
    by_cases h : r.wLength = 8
    · rw [ht, if_pos h, h, beq_self_eq_true, Bool.or_true]
    · rw [ht, if_neg h, beq_eq_false_iff_ne.2 h, Bool.or_false]
  simp only [descDevice, ← hlatch, devComposite, devPlain]
  split
  · rw [tableBytesToEmit_deviceTable]
  · rw [tableBytesToEmit_deviceTable]

/-- The parent row performs the sub-row of its `wValueH` (R134, R211). -/
theorem exec_getDescriptor_performed (r : Req) (s : State) :
    exec (.getDescriptor r) s = exec (Instr.getDescriptor r).performed s := by
  simp only [exec, execGetDescriptor, Instr.performed]
  split_ifs
  · rfl
  · rfl
  · rfl
  · rfl

/-- Settles O35: the latch, then the table it selects. -/
theorem deviceDescriptor : Obligations.DeviceDescriptor := by
  refine ⟨fun s r t bytes ht hbytes => ?_, fun s r => exec_getDescriptor_performed r s⟩
  have hexec : exec (.getDescriptorDevice r) s = runRequest (bytes.map .emit8) .ok t := by
    rw [hbytes]; exact descDevice_eq r s ht
  refine ⟨hexec, fun hfits => ?_⟩
  have hfits' : EmitFits t bytes := by rw [ht]; exact ⟨hfits.sel, hfits.count, hfits.bank⟩
  have hnext := hexec.trans (runRequest_emits hfits')
  refine ⟨hnext, fun htype => ?_⟩
  have hrow : (Instr.getDescriptor r).performed = .getDescriptorDevice r := by rw [Instr.performed, htype]; rfl
  rw [exec_getDescriptor_performed, hrow, hnext]

/-! ## STRING -/

/-- The length byte of a string table of at most 126 code units counts it (R7, R114, R220). -/
theorem tableBytesToEmit_stringTable {units : List Word16} (h : units.length ≤ 126) :
    tableBytesToEmit (stringTable units) = stringTable units := by
  have hflat : (units.flatMap fun u => [lo8 u, hi8 u]).length = 2 * units.length := by
    simp [List.length_flatMap, Nat.mul_comm]
  refine List.take_of_length_le ?_
  simp only [stringTable, List.length_cons, hflat, List.headD_cons, BitVec.toNat_ofNat]
  omega

/-- A string index that has a table (R213, R214). -/
theorem exec_getDescriptorString_found {s : State} {r : Req} {table : List Byte}
    (hfound : stringFor s.conf r.wValueL = some table) (hall : tableBytesToEmit table = table) :
    exec (.getDescriptorString r) s = runRequest (table.map .emit8) .ok s := by
  simp only [exec, execGetDescriptorString, descString, hfound, hall]

/-- Settles O36, by the three tables and the index that has none. -/
theorem stringDescriptor : Obligations.StringDescriptor := by
  refine ⟨fun s r bytes hwf hcases => ?_, fun s r h0 hp hm => ?_⟩
  · simp only [Conf.wf, Bool.and_eq_true, decide_eq_true_eq] at hwf
    obtain ⟨⟨⟨-, hmanuf⟩, hprod⟩, -⟩ := hwf
    have hexec : exec (.getDescriptorString r) s = runRequest (bytes.map .emit8) .ok s := by
      rcases hcases with ⟨h0, rfl⟩ | ⟨h0, hp, rfl⟩ | ⟨h0, hp, hm, rfl⟩
      · exact exec_getDescriptorString_found (if_pos h0) rfl
      · refine exec_getDescriptorString_found ?_ (tableBytesToEmit_stringTable hprod)
        rw [stringFor, if_neg h0, if_pos hp]; rfl
      · refine exec_getDescriptorString_found ?_ (tableBytesToEmit_stringTable hmanuf)
        rw [stringFor, if_neg h0, if_neg hp, if_pos hm]; rfl
    exact ⟨hexec, fun hfits => hexec.trans (runRequest_emits hfits)⟩
  · have hnone : stringFor s.conf r.wValueL = none := by rw [stringFor, if_neg h0, if_neg hp, if_neg hm]
    simp only [exec, execGetDescriptorString, descString, hnone]
    rfl

/-! ## CONFIGURATION -/

/-- `NIF_TOTAL` is the sum modulo 256 (R217). -/
theorem nifSum_eq (cs : List Collab) : nifSum cs = BitVec.ofNat 8 (cs.map fun c => c.nif.toNat).sum := by
  induction cs with
  | nil => rfl
  | cons c cs ih => rw [nifSum, ih, List.map_cons, List.sum_cons, BitVec.ofNat_add, BitVec.ofNat_toNat, BitVec.setWidth_eq]

/-- Pass 1 transmits nothing and counts (R175, R216). -/
theorem runMicros_counts {s : State} {bs : List Byte} (hsel : s.sel = 0) (hlen : bs.length ≤ 65535) :
    runMicros (bs.map .emit8) (curInit 0 s) = .finished { s with cursor := ⟨BitVec.ofNat 16 bs.length, 0⟩ } := by
  have hpast : (curInit 0 s).sentPart bs = [] := State.sentPart_past bs (Nat.le_refl 0)
  have hfits : EmitFits (curInit 0 s) bs := .of_counted hsel (by show 0 + bs.length ≤ 65535; omega) hpast
  rw [runMicros_emits_all hfits, State.emitted_counts hpast]
  exact congrArg (fun v => RunOut.finished { s with cursor := ⟨v, 0⟩ }) (BitVec.zero_add _)

/-- Pass 1 with more bytes than the position can count (R175, U12). -/
theorem runMicros_counts_refused {s : State} {bs : List Byte} (hsel : s.sel = 0) (hlen : 65535 < bs.length) :
    runMicros (bs.map .emit8) (curInit 0 s) = .refused .cursorOverflow := by
  have htake : (bs.take 65535).length = 65535 := List.length_take_of_le hlen.le
  obtain ⟨b, rest, hrest⟩ : ∃ b rest, bs.drop 65535 = b :: rest :=
    List.exists_cons_of_length_pos (by rw [List.length_drop]; omega)
  have hsplit : bs.map Micro.emit8 = (bs.take 65535).map .emit8 ++ (b :: rest).map .emit8 := by
    rw [← hrest, ← List.map_append, List.take_append_drop]
  have hfits : EmitFits (curInit 0 s) (bs.take 65535) :=
    .of_counted hsel (by show 0 + _ ≤ 65535; omega) (State.sentPart_past _ (Nat.le_refl 0))
  have hpos : ((curInit 0 s).emitted (bs.take 65535)).cursor.pos = 0xFFFF := by
    rw [State.emitted_cursor, htake]; show (0 : Word16) + BitVec.ofNat 16 65535 = 0xFFFF; decide
  rw [hsplit, runMicros_emits _ hfits]
  exact runMicros_cons_refused (emit8Op_overflows b hsel hpos)

/-- What pass 2 finds after a pass 1 that ends (R216, R217). -/
theorem descConfig_measured {s : State} (r : Req) (hsel : s.sel = 0) (hlen : (cfgBody s.conf.collabs).length ≤ 65535) :
    descConfig r s = configPass2 r { s with
      cursor := ⟨BitVec.ofNat 16 (cfgBody s.conf.collabs).length, 0⟩
      ct.measured := BitVec.ofNat 16 (cfgBody s.conf.collabs).length
      ct.nifTotal := nifSum s.conf.collabs } := by
  simp only [descConfig, runMicros_counts hsel hlen]

/-- Pass 2 where the total fits 16 bits: the header states it (R118, R216). -/
theorem configPass2_emits {s : State} (r : Req) {n : Nat} (hmeasured : s.ct.measured = BitVec.ofNat 16 n)
    (hn : n + 9 ≤ 65535) : configPass2 r s =
      runRequest ((cfgHeader s.conf (BitVec.ofNat 16 (n + 9)) s.ct.nifTotal ++ cfgBody s.conf.collabs).map .emit8) .ok
        (curInit r.wLength s) := by
  have hnat : s.ct.measured.toNat = n := by rw [hmeasured]; exact Nat.mod_eq_of_lt (by omega)
  have htotal : s.ct.measured + BitVec.ofNat 16 Config.cfgHdrLen = BitVec.ofNat 16 (n + 9) := by
    rw [hmeasured, BitVec.ofNat_add]; rfl
  have hfits : ¬ 65535 < s.ct.measured.toNat + Config.cfgHdrLen := by rw [hnat]; exact Nat.not_lt.2 hn
  simp only [configPass2, if_neg hfits, htotal]

/-- A total that 16 bits do not hold (R222, U12). -/
theorem descConfig_refused {s : State} (r : Req) (hsel : s.sel = 0)
    (hlen : 65535 < (cfgBody s.conf.collabs).length + 9) : descConfig r s = .refused .cursorOverflow := by
  by_cases hcount : (cfgBody s.conf.collabs).length ≤ 65535
  · have hmeasured : (BitVec.ofNat 16 (cfgBody s.conf.collabs).length).toNat = (cfgBody s.conf.collabs).length :=
      Nat.mod_eq_of_lt (by omega)
    rw [descConfig_measured r hsel hcount, configPass2]
    exact if_pos (by rw [hmeasured]; exact hlen)
  · simp only [descConfig, runMicros_counts_refused hsel (Nat.lt_of_not_le hcount)]

/-- Settles O37: pass 1 measures, pass 2 emits header and bodies. -/
theorem configurationDescriptor : Obligations.ConfigurationDescriptor := by
  refine ⟨fun s t r body header hbody hlen ht hheader hsel => ?_, fun s r hsel hlen => ?_⟩
  · have hcfg : cfgBody s.conf.collabs = body := hbody.symm
    have hexec : exec (.getDescriptorConfiguration r) s = runRequest ((header ++ body).map .emit8) .ok t := by
      refine (descConfig_measured r hsel (by rw [hcfg]; omega)).trans ?_
      rw [hcfg, nifSum_eq]
      refine (configPass2_emits r rfl hlen).trans ?_
      rw [hheader, ht, ← hcfg]
      rfl
    refine ⟨hexec, fun hfits => ⟨hexec.trans (runRequest_emits hfits), ?_⟩⟩
    have hcount : (header ++ body).length = body.length + 9 := by
      rw [List.length_append, hheader, Nat.add_comm]; rfl
    show t.cursor.pos + BitVec.ofNat 16 (header ++ body).length = _
    rw [hcount, ht]
    exact BitVec.zero_add _
  · exact descConfig_refused r hsel hlen

end Sys2Proof.Machine
end

section
/-! PROOFS. Requests that only answer (R187, R190, R193), and the events (R127, R309 to R317; log 12). -/

namespace Sys2Proof.Machine

/-- Settles O33: no micro-operation runs, so the request ends with its result. -/
theorem requestsThatOnlyAnswer : Obligations.RequestsThatOnlyAnswer := by
  refine ⟨fun s b r => ⟨rfl, rfl, rfl⟩, fun s b r => ⟨fun hok => ?_, fun hfail => ?_⟩⟩
  · simp only [exec, execStandardUnlisted, hok]; rfl
  · simp only [exec, execStandardUnlisted, hfail]; rfl

/-! ## Events -/

/-- An event whose cause is there and whose source is granted enters its handler (R316, R317). -/
theorem deliver_enters {src : IrqSource} {cause : Bool} {s : State} (h : grants src s = true) (hcause : cause = true) :
    deliver src cause s = .next (enterHandler src s) := by
  rw [deliver, h, hcause]; rfl

/-- Where its source is not granted an event changes nothing (R314; log 12). -/
theorem deliver_pending {src : IrqSource} (cause : Bool) {s : State} (h : grants src s = false) :
    deliver src cause s = .next s := by
  rw [deliver, h]; rfl

/-- A handler starts where delivery is on, its source requests, and the other one does not or has to wait (R314, R315). -/
theorem grants_iff {src : IrqSource} {s : State} : grants src s = true ↔
    (s.irq.ie = true ∧ s.irq.inIsr = false) ∧ irqReq src s = true ∧
      (irqReq src.other s = false ∨ orderAllows src s.conf.irqOrder = true) := by
  simp [grants, canDeliver, and_assoc]

theorem orderAllows_comm {o : IrqOrder} : orderAllows .comm o = true ↔ o ≠ .frameFirst := by cases o <;> decide

theorem orderAllows_frame {o : IrqOrder} : orderAllows .frame o = true ↔ o ≠ .commFirst := by cases o <;> decide

theorem grants_comm {s : State} (hie : s.irq.ie = true) (hisr : s.irq.inIsr = false)
    (horder : s.conf.irqOrder ≠ .frameFirst ∨ frameReq s = false) (hreq : commReq s = true) : grants .comm s = true :=
  grants_iff.2 ⟨⟨hie, hisr⟩, hreq, horder.symm.imp_right orderAllows_comm.2⟩

theorem grants_frame {s : State} (hie : s.irq.ie = true) (hisr : s.irq.inIsr = false)
    (horder : s.conf.irqOrder ≠ .commFirst ∨ commReq s = false) (hreq : frameReq s = true) : grants .frame s = true :=
  grants_iff.2 ⟨⟨hie, hisr⟩, hreq, horder.symm.imp_right orderAllows_frame.2⟩

theorem grants_false_of_masked (src : IrqSource) {s : State} (h : s.irq.ie = false ∨ s.irq.inIsr = true) :
    grants src s = false := by
  refine Bool.eq_false_iff.2 fun hg => ?_
  obtain ⟨⟨hie, hisr⟩, -⟩ := grants_iff.1 hg
  rcases h with h | h
  · rw [hie] at h; cases h
  · rw [hisr] at h; cases h

theorem grants_false_of_no_request {src : IrqSource} {s : State} (h : irqReq src s = false) : grants src s = false := by
  refine Bool.eq_false_iff.2 fun hg => ?_
  obtain ⟨-, hreq, -⟩ := grants_iff.1 hg
  rw [h] at hreq; cases hreq

theorem grants_false_of_order {src : IrqSource} {s : State} (hother : irqReq src.other s = true)
    (horder : orderAllows src s.conf.irqOrder = false) : grants src s = false := by
  refine Bool.eq_false_iff.2 fun hg => ?_
  obtain ⟨-, -, hno | hallows⟩ := grants_iff.1 hg
  · rw [hother] at hno; cases hno
  · rw [horder] at hallows; cases hallows

theorem commReq_setup {s : State} (hen : s.irq.ienSetup0 = true) (hset : (s.ep 0).setup = true) : commReq s = true := by
  rw [commReq, show s.eps[0] = s.ep 0 from rfl, hen, hset]; rfl

theorem commReq_spurious {s : State} (h : s.irq.spurComm = true) : commReq s = true := by rw [commReq, h, Bool.or_true]

theorem frameReq_sof {s : State} (hen : s.irq.ienSof = true) (hpend : s.irq.pendSof = true) : frameReq s = true := by
  rw [frameReq, hen, hpend]; exact Bool.or_true _

theorem frameReq_eor {s : State} (hen : s.irq.ienEor = true) (hpend : s.irq.pendEor = true) : frameReq s = true := by
  rw [frameReq, hen, hpend]; rfl

/-- What leaves the communication interrupt pending leaves both its events without effect. -/
theorem exec_comm_events_pending {s : State} (h : grants .comm s = false) :
    exec .evtSetupReceived s = .next s ∧ exec .evtSpuriousComm s = .next s :=
  ⟨deliver_pending _ h, deliver_pending _ h⟩

theorem exec_frame_events_pending {s : State} (h : grants .frame s = false) :
    exec .evtFrameTick s = .next s ∧ exec .evtBusReset s = .next s :=
  ⟨deliver_pending _ h, deliver_pending _ h⟩

/-- Settles O57: the entries first, then what leaves a request pending. -/
theorem eventsEnterTheHandler : Obligations.EventsEnterTheHandler := by
  refine ⟨fun s hie hisr horder => ⟨fun hen hset => ?_, fun hspur hset => ?_⟩,
    fun s hie hisr horder => ⟨fun hen hpend => ?_, fun hen hpend => ?_⟩, fun s hmasked => ?_,
    fun s => ⟨fun _ hframe hfirst => ?_, fun hcomm _ hfirst => ?_, fun hno => ?_, fun hno => ?_⟩⟩
  · exact deliver_enters (grants_comm hie hisr horder (commReq_setup hen hset)) hset
  · exact deliver_enters (grants_comm hie hisr horder (commReq_spurious hspur)) (by rw [hset]; rfl)
  · exact deliver_enters (grants_frame hie hisr horder (frameReq_sof hen hpend)) (by rw [hen, hpend]; rfl)
  · exact deliver_enters (grants_frame hie hisr horder (frameReq_eor hen hpend)) (by rw [hen, hpend]; rfl)
  · obtain ⟨hsetup, hspur⟩ := exec_comm_events_pending (grants_false_of_masked .comm hmasked)
    obtain ⟨htick, hreset⟩ := exec_frame_events_pending (grants_false_of_masked .frame hmasked)
    exact ⟨hsetup, htick, hreset, hspur⟩
  · exact exec_comm_events_pending (grants_false_of_order hframe (by rw [hfirst]; rfl))
  · exact exec_frame_events_pending (grants_false_of_order hcomm (by rw [hfirst]; rfl))
  · exact exec_comm_events_pending (grants_false_of_no_request hno)
  · exact exec_frame_events_pending (grants_false_of_no_request hno)

end Sys2Proof.Machine
end

section
/-! PROOFS. An operation placed where the step fetches is the one the next step runs (R134, R180; log 6). -/

namespace Sys2Proof.Machine

/-- The entry `run` of the schedule is taken by the block (R314). -/
theorem step_run {s : State} {rest : List Input} (hin : s.io.inputs = .run :: rest) :
    step s = blockStep false { s with io.inputs := rest } := by
  simp only [step, advance, hin]

theorem step_word {s : State} {bs : List Byte} {rest : List Input} (hin : s.io.inputs = .word bs :: rest) :
    step s = issueWord bs rest s := by
  simp only [step, advance, hin]

/-- A placed setup packet is performed by the next step (R134, R180). -/
theorem step_withFetchWord_setup (s : State) (w : Nat) :
    ∃ t, step (s.withFetchWord 64 w) = exec (decodeSetup (SetupPacket.ofNat w)) t ∧
      t.latch = ⟨SetupPacket.ofNat w, true⟩ ∧ t.sel = 0 ∧ t.irq.inIsr = true ∧ t.ct.pc = .s4 ∧
      t.io.inputs = s.io.inputs ∧ t.dev = s.dev ∧ t.buf = s.buf := by
  have hio : (if (s.ep 0).en then s else initEndpoint 0 .control s).io = s.io := by split <;> rfl
  have hdev : (if (s.ep 0).en then s else initEndpoint 0 .control s).dev = s.dev := by split <;> rfl
  have hbuf : (if (s.ep 0).en then s else initEndpoint 0 .control s).buf = s.buf := by split <;> rfl
  have hin : (s.withFetchWord 64 w).io.inputs = .run :: s.io.inputs := by
    rw [State.withFetchWord, if_pos rfl]; simp only [hio]
  refine ⟨{ s.withFetchWord 64 w with io.inputs := s.io.inputs }, (step_run hin).trans ?_, rfl, rfl, rfl, rfl, rfl,
    hdev, hbuf⟩
  exact blockStep_dispatch rfl rfl rfl rfl

theorem decodeTableWord_word {nbits w : Nat} {i : Instr} (hn : nbits ≠ 64) (h : decodeTableWord nbits w = some i) :
    ∃ tail, decodeWord (tableBytes nbits w) = .ok (i, tail) := by
  rw [decodeTableWord, if_neg hn, decode] at h
  cases hd : decodeWord (tableBytes nbits w) with
  | error e => rw [hd] at h; cases h
  | ok v => rw [hd] at h; cases h; exact ⟨v.2, rfl⟩

/-- `s` while the control handler waits inside a collaborator's call (R192). -/
def State.inCall (s : State) : State := { s with irq.inIsr := true, ct.pc := .s4CallWait, ct.todo := [], ft.pc := .idle }

/-- Where a word is placed: in SEND for ARM_TX, in RECV for ARM_RX, in a call for the other micro-operations, and outside
the handlers for commands and events (log 6). -/
theorem issueContext_cases (i : Instr) (s : State) :
    (i = .armTx ∧ issueContext (some i) s = s.outOfHandlers.serving .sndArm) ∨
    (i = .armRx ∧ issueContext (some i) s = s.outOfHandlers.serving .rcvArm) ∨
    (i ≠ .armTx ∧ i ≠ .armRx ∧ i.format = .uop ∧ issueContext (some i) s = s.inCall) ∨
    (i.format ≠ .uop ∧ issueContext (some i) s = s.outOfHandlers) := by
  by_cases htx : i = .armTx
  · subst htx; exact .inl ⟨rfl, rfl⟩
  by_cases hrx : i = .armRx
  · subst hrx; exact .inr (.inl ⟨rfl, rfl⟩)
  by_cases huop : i.format = .uop
  · exact .inr (.inr (.inl ⟨htx, hrx, huop, by simp only [issueContext, huop]; rfl⟩))
  · exact .inr (.inr (.inr ⟨huop, by simp only [issueContext, if_neg huop]⟩))

theorem issuer_serving {s : State} {p : BePoint} (hp : p ≠ .idle) : issuer (s.outOfHandlers.serving p) = some .bulk := by
  have hserves : (s.outOfHandlers.serving p).be.pc ≠ .idle := by
    show (if s.be.pc = .idle then p else s.be.pc) ≠ .idle
    split
    · exact hp
    · assumption
  have hisr : (s.outOfHandlers.serving p).irq.inIsr = false := rfl
  rw [issuer, if_neg (Bool.eq_false_iff.1 hisr), if_pos hserves]

/-- The control handler may issue every micro-operation but the two that arm a pulse (R34). -/
theorem mayIssue_control {i : Instr} (huop : i.format = .uop) (htx : i ≠ .armTx) (hrx : i ≠ .armRx) :
    mayIssue .control i = true := by
  cases i with
  | armTx => exact absurd rfl htx
  | armRx => exact absurd rfl hrx
  | _ => cases huop <;> rfl

/-- A placed micro-operation may be issued where it is placed (R34). -/
theorem issueAllowed_issueContext {i : Instr} (s : State) (huop : i.format = .uop) :
    issueAllowed i (issueContext (some i) s) = true := by
  rcases issueContext_cases i s with ⟨rfl, h⟩ | ⟨rfl, h⟩ | ⟨htx, hrx, -, h⟩ | ⟨hne, -⟩
  · rw [h, issueAllowed, issuer_serving (by decide)]; rfl
  · rw [h, issueAllowed, issuer_serving (by decide)]; rfl
  · rw [h]; exact mayIssue_control huop htx hrx
  · exact absurd huop hne

/-- Commands are placed where no handler runs (R91). -/
theorem issueContext_cmd {i : Instr} (s : State) (hcmd : i.format = .cmd) : (issueContext (some i) s).irq.inIsr = false := by
  rcases issueContext_cases i s with ⟨rfl, -⟩ | ⟨rfl, -⟩ | ⟨-, -, huop, -⟩ | ⟨-, h⟩
  · cases hcmd
  · cases hcmd
  · rw [huop] at hcmd; cases hcmd
  · rw [h]; rfl

/-- What the context of a placed word leaves alone. -/
theorem issueContext_frame (i : Instr) (s : State) : issueContext (some i) s =
    { s with irq.inIsr := (issueContext (some i) s).irq.inIsr, ct.pc := (issueContext (some i) s).ct.pc, ct.todo := [],
             ft.pc := .idle, be.pc := (issueContext (some i) s).be.pc } := by
  rcases issueContext_cases i s with ⟨-, h⟩ | ⟨-, h⟩ | ⟨-, -, -, h⟩ | ⟨-, h⟩ <;> rw [h] <;> rfl

/-- The state a placed word runs in. -/
def State.placed (s : State) (i : Instr) : State :=
  { issueContext (some i) s with io.held := [], io.mainWait := none, io.inputs := s.io.inputs }

/-- A placed word runs in the next step (log 6). -/
theorem step_withFetchWord_word {s : State} {nbits w : Nat} {i : Instr} (hn : nbits ≠ 64)
    (hi : decodeTableWord nbits w = some i) : step (s.withFetchWord nbits w) = exec i (s.placed i) := by
  obtain ⟨tail, hdec⟩ := decodeTableWord_word hn hi
  rw [State.withFetchWord, if_neg hn, hi]
  exact (step_word rfl).trans (issueWord_runs hdec (fun hcmd => issueContext_cmd s hcmd)
    fun huop => ⟨rfl, .inr rfl, issueAllowed_issueContext s huop⟩)

/-- Settles O7: the setup packets, then the words. -/
theorem placedWordRunsNext : Obligations.PlacedWordRunsNext := by
  refine ⟨step_withFetchWord_setup, fun s nbits w i hn hi => ⟨s.placed i, step_withFetchWord_word hn hi,
    fun hcmd => issueContext_cmd s hcmd, fun huop => issueAllowed_issueContext s huop, ?_⟩⟩
  exact congrArg (fun u : State => { u with io.held := [], io.mainWait := none, io.inputs := s.io.inputs })
    (issueContext_frame i s)

end Sys2Proof.Machine
end

section
/-! PROOFS. What the sequencers restore (R161, R240, R278), and the two requests that write a device register (R185,
R189, R191). -/

namespace Sys2Proof.Machine

/-- Settles O25, by the frames of the two sequencers. -/
theorem sequencersRestoreSelector : Obligations.SequencersRestoreSelector := by
  refine ⟨fun s t h => ?_, fun s t h => ?_⟩
  · have frame := tickFrame_ftStep h
    exact ⟨frame.sel, frame.ie, frame.crit⟩
  · have frame := bulkFrame_beStep h
    exact ⟨frame.sel, frame.irq, frame.crit, frame.cursor, frame.latch, frame.dev, frame.ct, frame.ft, frame.power⟩

/-! ## SET_CONFIGURATION -/

/-- One turn of the loop of INIT_ALL_ENDPOINTS (R191). -/
def initListed (s : State) (k : Nat) : State :=
  if k < s.conf.nEp then initEndpoint (BitVec.ofNat 3 k) (tableType s.conf k) s else s

theorem initAllEndpoints_foldl (s : State) : initAllEndpoints s = [1, 2, 3, 4, 5, 6, 7].foldl initListed s := rfl

theorem initListed_conf (s : State) (k : Nat) : (initListed s k).conf = s.conf := by
  rw [initListed]; split <;> rfl

/-- Past endpoint 0 no type is hard-wired (R58). -/
theorem ep_initEndpoint {e f : EpIdx} (he : e ≠ 0) (t : EpType) (s : State) :
    (initEndpoint e t s).ep f = if f = e then Endpoint.fresh t else s.ep f := by
  have hkind : hardwiredType e t = t := by rw [hardwiredType, decide_eq_false he]; rfl
  rw [initEndpoint, State.ep_setEp, hkind]
  rfl

theorem ep_initListed {k : Nat} (hpos : 0 < k) (hlt : k < 8) (e : EpIdx) (s : State) : (initListed s k).ep e =
    if e.toNat = k ∧ k < s.conf.nEp then Endpoint.fresh (tableType s.conf k) else s.ep e := by
  have heq : e = BitVec.ofNat 3 k ↔ e.toNat = k := by bv_omega
  have hne : BitVec.ofNat 3 k ≠ 0 := by bv_omega
  by_cases hk : k < s.conf.nEp
  · simp only [initListed, hk, if_true, ep_initEndpoint hne, heq, and_true]
  · simp only [initListed, hk, if_false, and_false]

/-- The listed endpoints below `N_EP` take the type of the table, and no other endpoint changes (R191). -/
theorem ep_foldl_initListed (e : EpIdx) {l : List Nat} : ∀ s : State, (∀ k ∈ l, 0 < k ∧ k < 8) →
    (l.foldl initListed s).ep e =
      if e.toNat ∈ l ∧ e.toNat < s.conf.nEp then Endpoint.fresh (tableType s.conf e.toNat) else s.ep e := by
  induction l with
  | nil => intro s _; simp
  | cons k l ih =>
    intro s hl
    obtain ⟨hpos, hlt⟩ := hl k List.mem_cons_self
    rw [List.foldl_cons, ih _ fun m hm => hl m (List.mem_cons_of_mem _ hm), initListed_conf, ep_initListed hpos hlt]
    simp only [List.mem_cons]
    by_cases hek : e.toNat = k
    · subst hek; split_ifs <;> tauto
    · simp only [hek, false_and, false_or, if_false]

/-- INIT_ALL_ENDPOINTS (R191): the endpoints from 1 to `N_EP - 1`. -/
theorem ep_initAllEndpoints (e : EpIdx) (s : State) : (initAllEndpoints s).ep e =
    if e ≠ 0 ∧ e.toNat < s.conf.nEp then Endpoint.fresh (tableType s.conf e.toNat) else s.ep e := by
  have hmem : ∀ e : EpIdx, e.toNat ∈ [1, 2, 3, 4, 5, 6, 7] ↔ e ≠ 0 := by decide
  rw [initAllEndpoints_foldl, ep_foldl_initListed e s (by decide)]
  simp only [hmem]

/-- Settles O32, by the endpoints that INIT_ALL_ENDPOINTS leaves. -/
theorem setConfigurationInitialises : Obligations.SetConfigurationInitialises := by
  refine fun s r => ⟨fun hdev => ?_, fun hother => ?_⟩
  · have hexec : exec (.setConfiguration r) s =
        .next ({ initAllEndpoints s with dev.cfg := r.wValueL }.answered .ok) := by
      simp only [exec, execSetConfiguration, if_pos hdev]; rfl
    have hep := fun e => ep_initAllEndpoints e s
    have hframe := initAllEndpoints_eq s
    generalize initAllEndpoints s = u at hexec hep hframe
    exact ⟨_, hexec, hep, congrArg (fun v : State => { v with dev.cfg := r.wValueL }.answered .ok) hframe⟩
  · simp only [exec, execSetConfiguration, if_neg hother]
    rfl

/-! ## SET_ADDRESS -/

section
variable {s : State} {a : BitVec 7}

/-- With the status packet collected both registers are written (R185). -/
theorem runMicros_setAddress_writes (hsel : s.sel = 0) (hon : s.controlOn) (hrdy : (s.ep 0).inRdy = true) :
    runMicros [.waitIn, .setAddress a] s = .finished { s with dev.addr := a, dev.addrEn := true } := by
  obtain ⟨hcur, hen, hty⟩ := hon.selected hsel
  have hwait : microStep .waitIn s = .ok s := (waitInOp_control hen hty).trans (if_pos (by rw [hcur]; exact hrdy))
  rw [runMicros_cons_ok hwait]
  rfl

/-- Before that the request holds (R143, R185). -/
theorem runMicros_setAddress_holds (hsel : s.sel = 0) (hon : s.controlOn) (hrdy : (s.ep 0).inRdy = false) :
    runMicros [.waitIn, .setAddress a] s = .held [.waitIn, .setAddress a] s := by
  obtain ⟨hcur, hen, hty⟩ := hon.selected hsel
  have hwait : microStep .waitIn s = .hold := (waitInOp_control hen hty).trans (if_neg (by rw [hcur, hrdy]; decide))
  exact runMicros_cons_hold hwait

end

/-- `s` with a SET_ADDRESS of `a` held at its wait (R185; log 7). -/
def State.addressHeld (s : State) (a : BitVec 7) : State :=
  { s with ct.pc := .s4SetaddrWait, ct.todo := [.waitIn, .setAddress a], ct.result := .ok }

/-- The hold ends with the write (R185). -/
theorem ctStep_addressHeld_writes {s : State} (a : BitVec 7) (hsel : s.sel = 0) (hon : s.controlOn)
    (hrdy : (s.ep 0).inRdy = true) :
    ctStep (s.addressHeld a) = .next ({ s with dev.addr := a, dev.addrEn := true }.answered .ok) :=
  (runRequest_finished (runMicros_setAddress_writes (s := s.addressHeld a) (a := a) hsel hon hrdy)).trans rfl

/-- While the status packet is not collected the hold stands (R143). -/
theorem ctStep_addressHeld_stays {s : State} (a : BitVec 7) (hsel : s.sel = 0) (hon : s.controlOn)
    (hrdy : (s.ep 0).inRdy = false) : ctStep (s.addressHeld a) = .next (s.addressHeld a) :=
  runRequest_held (runMicros_setAddress_holds (s := s.addressHeld a) hsel hon hrdy)

/-- Settles O31: the write, the hold, and the write where the hold ends. -/
theorem setAddressWaitsThenWrites : Obligations.SetAddressWaitsThenWrites := by
  refine fun s r hsel hon => ⟨fun hrdy => ?_, fun hrdy => ?_⟩
  · exact runRequest_finished (runMicros_setAddress_writes hsel hon hrdy)
  · generalize ha : r.wValueL.extractLsb' 0 7 = a
    have hexec : exec (.setAddress r) s = .next (s.addressHeld a) := by
      rw [← ha]; exact runRequest_held (runMicros_setAddress_holds hsel hon hrdy)
    refine ⟨s.addressHeld a, hexec, rfl, ctStep_addressHeld_stays a hsel hon hrdy, fun q => ?_⟩
    have hep := State.ep_setEp_same s 0 { s.ep 0 with inRdy := true, inQ := q }
    exact ctStep_addressHeld_writes (s := s.setEp 0 { s.ep 0 with inRdy := true, inQ := q }) a hsel
      (by rw [State.controlOn, hep]; exact hon) (by rw [hep])

end Sys2Proof.Machine
end

section
/-! PROOFS. The endpoint register interface (R141 to R156, R161, R162, R174, R255, R256): the selector and the queries, the
bank's bytes, commits and releases, flags and pulses, the critical section. -/

namespace Sys2Proof.Machine

/-! ## The selector and the queries -/

theorem issue_refused {ms : List Micro} {s : State} {r : Refusal} (h : runMicros ms s = .refused r) :
    issue ms s = .refused r := by
  simp only [issue, h]

/-- The setup flag as read: 0 on a disabled or non-control endpoint (R142, R159). -/
theorem setupFlag_eq (p : Endpoint) : p.setupFlag = (p.en && p.kind == .control && p.setup) := by
  cases hen : p.en with
  | true => rw [Endpoint.setupFlag, Endpoint.ty_of_en hen]; rfl
  | false => rw [Endpoint.setupFlag, Endpoint.ty_of_off hen]; rfl

/-- Settles O41: a selection by its range, the queries by what they read. -/
theorem selectAndQueries : Obligations.SelectAndQueries := by
  refine ⟨fun s i hi => ?_, fun s i hi => ?_, fun s => ?_, fun s => rfl⟩
  · have hsel : microStep (.select i) s = .ok (s.setSel i) := if_pos hi
    exact issue_finished (runMicros_cons_ok hsel)
  · have hsel : microStep (.select i) s = .refused .reservedEndpoint := if_neg (Nat.not_lt.2 hi)
    exact issue_refused (runMicros_cons_refused hsel)
  · rw [← setupFlag_eq]; rfl

/-! ## The bytes of the bank -/

section
variable {s : State}

theorem readRefusal_none (hen : s.cur.en = true) (hk : outCapable s.cur.kind = true) : readRefusal s = none := by
  simp [readRefusal, Endpoint.ty_of_en, hen, hk]

theorem popByte_cons {b : Byte} {rest : List Byte} (h : s.cur.data = b :: rest) :
    popByte s = (b, s.setEp s.sel { s.cur with data := rest }) := by
  simp only [popByte, h]

theorem popByte_nil (h : s.cur.data = []) :
    popByte s = (Config.freeReadByte s.io.draws, { s with io.draws := s.io.draws + 1 }) := by
  simp only [popByte, h]

theorem exec_read8 (hen : s.cur.en = true) (hk : outCapable s.cur.kind = true) :
    exec .read8 s = .next ((popByte s).2.setRet (.byte (popByte s).1)) := by
  simp only [exec, execRead8, readRefusal_none hen hk]

/-- READ_N (R146): `n` reads, of which `n = 0` makes none and asks nothing of the endpoint. -/
theorem microStep_readN {n : Byte} (h64 : n.toNat ≤ 64) (h : n ≠ 0 → s.cur.en = true ∧ outCapable s.cur.kind = true) :
    microStep (.readN n) s = .ok ((popBytes n.toNat s).2.setRet (.bytes (popBytes n.toNat s).1)) := by
  rw [microStep, if_pos (show n.toNat ≤ Config.epSize from h64), readNOp]
  by_cases h0 : n = 0
  · subst h0; rfl
  · obtain ⟨hen, hk⟩ := h h0
    rw [if_neg (fun hz : n.toNat = 0 => h0 (BitVec.eq_of_toNat_eq hz)), readRefusal_none hen hk]

/-- WRITE8 without a free bank, or on a full one (R147, U6). -/
theorem write8Op_full (b : Byte) (hen : s.cur.en = true) (hk : inCapable s.cur.kind = true)
    (hfull : s.cur.inRdy = false ∨ 64 ≤ s.cur.data.length) : write8Op b s = .refused .writeWithoutRoom := by
  have hroom : ¬ (s.cur.inRdy && s.cur.data.length < Config.epSize) = true := by
    rw [Bool.and_eq_true, decide_eq_true_eq]
    rintro ⟨hrdy, hlt⟩
    rcases hfull with hfull | hfull
    · rw [hrdy] at hfull; cases hfull
    · exact absurd hlt (Nat.not_lt.2 hfull)
  rw [write8Op, if_neg (by rw [hen]; decide), if_neg (by rw [Endpoint.ty_of_en hen, hk]; decide), if_neg hroom]

end

/-- `n` reads of a bank (R146): its first bytes, then a free value for each byte past its end (log 10). -/
theorem popBytes_past (n : Nat) : ∀ s : State, ∃ extra : List Byte, extra.length = n - s.cur.data.length ∧
    popBytes n s = (s.cur.data.take n ++ extra, { s.setEp s.sel { s.cur with data := s.cur.data.drop n } with
      io.draws := s.io.draws + (n - s.cur.data.length) }) := by
  induction n with
  | zero =>
    intro s
    refine ⟨[], (Nat.zero_sub _).symm, Prod.ext rfl ?_⟩
    rw [Nat.zero_sub]
    exact (State.setEp_ep s s.sel).symm
  | succ n ih =>
    intro s
    cases hd : s.cur.data with
    | nil =>
      obtain ⟨extra, hlen, hpop⟩ := ih { s with io.draws := s.io.draws + 1 }
      rw [show ({ s with io.draws := s.io.draws + 1 } : State).cur = s.cur from rfl, hd, List.take_nil, List.drop_nil]
        at hpop
      rw [show ({ s with io.draws := s.io.draws + 1 } : State).cur = s.cur from rfl, hd] at hlen
      refine ⟨Config.freeReadByte s.io.draws :: extra, congrArg (· + 1) hlen, ?_⟩
      simp only [popBytes, popByte_nil hd, hpop, List.take_nil, List.drop_nil]
      refine Prod.ext rfl ?_
      have hdraws : s.io.draws + 1 + (n - ([] : List Byte).length) = s.io.draws + (n + 1 - ([] : List Byte).length) := by
        simp only [List.length_nil]; omega
      exact congrArg (fun d => ({ s.setEp s.sel { s.cur with data := [] } with io.draws := d } : State)) hdraws
    | cons b rest =>
      obtain ⟨extra, hlen, hpop⟩ := ih (s.setEp s.sel { s.cur with data := rest })
      rw [State.cur_setEp_sel] at hlen hpop
      rw [List.length_cons, Nat.add_sub_add_right, List.take_succ_cons, List.drop_succ_cons]
      refine ⟨extra, hlen, ?_⟩
      simp only [popBytes, popByte_cons hd, hpop, State.setEp_sel, State.setEp_setEp]
      rfl

/-- Settles O44: the front byte, the first `n`, the byte behind the last. -/
theorem fifoAccess : Obligations.FifoAccess := by
  refine ⟨fun s b rest hen hk hd => ?_, fun s hen hk hd => ⟨Config.freeReadByte s.io.draws, ?_⟩,
    fun s n h64 hread => ?_, fun s b hen hk hrdy hroom => ?_, fun s b hen hk hfull => ?_⟩
  · rw [exec_read8 hen hk, popByte_cons hd]; rfl
  · rw [exec_read8 hen hk, popByte_nil hd]; rfl
  · obtain ⟨extra, hlen, hpop⟩ := popBytes_past n.toNat s
    refine ⟨extra, hlen, ?_⟩
    have hread := microStep_readN h64 hread
    rw [hpop] at hread
    exact issue_finished (runMicros_cons_ok hread)
  · simp only [exec, execWrite8, write8Op_ready b s ⟨hen, hk, hrdy⟩ hroom, direct]
  · simp only [exec, execWrite8, write8Op_full b hen hk hfull, direct]

/-! ## Commits and releases -/

/-- A committed bank: `in_rdy` stays while another bank is left (R150). -/
theorem committed_eq (p : Endpoint) (n : Nat) : p.committed n =
    { p with inQ := p.inQ ++ [p.data], data := [], inRdy := decide (p.inQ.length + 1 < n) } := by
  rw [Endpoint.committed, List.length_append, List.length_singleton]

theorem inFlag_of_en {p : Endpoint} (h : p.en = true) : p.inFlag = p.inRdy := by rw [Endpoint.inFlag, h, Bool.true_and]

theorem outFlag_of_en {p : Endpoint} (h : p.en = true) : p.outFlag = p.outRdy := by
  rw [Endpoint.outFlag, h, Bool.true_and]

/-- The last received packet taken: the bank is given back (R154, R155). -/
theorem released_last {p : Endpoint} (hen : p.en = true) (hrdy : p.outRdy = true) (hq : p.outQ = []) :
    p.released = { p with outRdy := false, data := [] } := by
  rw [Endpoint.released, if_pos (by rw [outFlag_of_en hen, hrdy]), hq]

/-- The next received packet takes the bank's place (R154, R155). -/
theorem released_next {p : Endpoint} {q : Packet} {qs : List Packet} (hen : p.en = true) (hrdy : p.outRdy = true)
    (hq : p.outQ = q :: qs) : p.released = { p with data := q, outQ := qs } := by
  rw [Endpoint.released, if_pos (by rw [outFlag_of_en hen, hrdy]), hq]

theorem released_noop {p : Endpoint} (hen : p.en = true) (hrdy : p.outRdy = false) : p.released = p := by
  rw [Endpoint.released, if_neg (by rw [outFlag_of_en hen, hrdy]; decide)]

theorem rxRefusal_none {s : State} {e : EpIdx}
    (h : (s.ep e).en = false ∨ (s.ep e).kind = .bulkOut ∨ (s.ep e).kind = .disabled) : rxRefusal e s = none := by
  cases hen : (s.ep e).en with
  | false => exact rxRefusal_off hen
  | true =>
    rcases h.resolve_left (by rw [hen]; decide) with h | h
    · simp only [rxRefusal, Endpoint.ty_of_en hen, h]
    · simp only [rxRefusal, Endpoint.ty_of_en hen, h]

section
variable {s : State} {i : Instr}

/-- ACK_IN, ARM_OUT_STAGE and RELEASE_TX are `commit_in(SEL)` (R153, R156, R174). -/
theorem exec_commits (h : s.cur.en = true ∧ s.cur.kind = .control ∧ (i = .ackIn ∨ i = .armOutStage) ∨
    s.cur.en = true ∧ s.cur.kind.sends = true ∧ i = .releaseTx) : exec i s = .next (commitIn s.sel s) := by
  rcases h with ⟨hen, hk, hi⟩ | ⟨-, hk, rfl⟩
  · have hack : ackInOp s = .ok (commitIn s.sel s) := ackInOp_control ((Endpoint.ty_of_en hen).trans hk)
    rcases hi with rfl | rfl
    · simp only [exec, execAckIn, hack, direct]
    · simp only [exec, execArmOutStage, armOutStageOp, hack, direct]
  · simp only [exec, execReleaseTx, txRefusal_none (.inr (.inl hk))]

/-- CLEAR_OUT and RELEASE_RX release the packet of `EP[SEL]` (R154, R155). -/
theorem exec_releases (h : s.cur.en = true ∧ s.cur.kind = .control ∧ i = .clearOut ∨
    s.cur.en = true ∧ s.cur.kind = .bulkOut ∧ i = .releaseRx) : exec i s = .next (s.setEp s.sel s.cur.released) := by
  rcases h with ⟨hen, hk, rfl⟩ | ⟨-, hk, rfl⟩
  · simp only [exec, execClearOut, clearOutOp, controlRefusal_control ((Endpoint.ty_of_en hen).trans hk), direct]
    rfl
  · simp only [exec, execReleaseRx, rxRefusal_none (.inr (.inl hk))]
    rfl

end

/-- Settles O45, by the commit and the release the operations are. -/
theorem commitsAndReleases : Obligations.CommitsAndReleases := by
  refine ⟨fun s i h => ?_, fun s i h => ?_⟩
  · have hen : s.cur.en = true := h.elim (·.1) (·.1)
    have hflag := inFlag_of_en hen
    rw [exec_commits h]
    refine ⟨fun hrdy => ?_, fun hrdy => ?_⟩
    · rw [commitIn_ready _ s (hflag.trans hrdy), committed_eq]; rfl
    · rw [commitIn_noop _ s (hflag.trans hrdy)]
  · have hen : s.cur.en = true := h.elim (·.1) (·.1)
    rw [exec_releases h]
    refine ⟨fun hrdy hq => ?_, fun q qs hrdy hq => ?_, fun hrdy => ?_⟩
    · rw [released_last hen hrdy hq]
    · rw [released_next hen hrdy hq]
    · rw [released_noop hen hrdy]
      exact congrArg _ (State.setEp_ep s s.sel)

/-! ## Flags and pulses -/

/-- Settles O46: CLEAR_SETUP where its type check passes; the others write unconditionally. -/
theorem flagAndPulseOperations : Obligations.FlagAndPulseOperations := by
  refine ⟨fun s h => ?_, fun s => rfl, fun s => ⟨rfl, rfl⟩⟩
  have hnone : controlRefusal s = none := by
    cases hen : s.cur.en with
    | false => exact controlRefusal_off hen
    | true => 
      rw [hen] at h
      exact controlRefusal_control ((Endpoint.ty_of_en hen).trans (h.resolve_left (by decide)))
  simp only [exec, execClearSetup, clearSetupOp, hnone, direct]

/-! ## The critical section -/

/-- CRIT_ENTER writes the snapshot of the running context and `IE` (R161). -/
theorem critEnter_frame (s : State) : critEnter s = { s with irq := (critEnter s).irq, crit := (critEnter s).crit } := by
  simp only [critEnter, State.setCritCtx]; split <;> rfl

theorem critEnter_irq (s : State) : (critEnter s).irq = { s.irq with ie := false } := by
  simp only [critEnter, State.setCritCtx]; split <;> rfl

theorem critEnter_sel (s : State) : (critEnter s).sel = s.sel := by
  simp only [critEnter, State.setCritCtx]; split <;> rfl

theorem critEnter_conf (s : State) : (critEnter s).conf = s.conf := by
  simp only [critEnter, State.setCritCtx]; split <;> rfl

theorem critEnter_snap (s : State) : (critEnter s).critCtx.snap = ⟨s.irq.ie, s.sel⟩ := by
  cases hisr : s.irq.inIsr <;> simp [critEnter, State.setCritCtx, State.critCtx, hisr]

/-- The other context keeps its snapshot (R62, R320). -/
theorem critEnter_other (s : State) :
    if s.irq.inIsr then (critEnter s).crit.main = s.crit.main else (critEnter s).crit.isr = s.crit.isr := by
  cases hisr : s.irq.inIsr <;> simp [critEnter, State.setCritCtx, hisr]

/-- CRIT_EXIT writes `SEL`, `IE` and the snapshot it leaves (R161). -/
theorem critExit_frame (s : State) :
    critExit s = { s with irq := (critExit s).irq, sel := (critExit s).sel, crit := (critExit s).crit } := by
  simp only [critExit, State.setCritCtx]; split <;> rfl

theorem critExit_irq (s : State) : (critExit s).irq = { s.irq with ie := s.critCtx.snap.ie } := by
  simp only [critExit, State.setCritCtx]; split <;> rfl

theorem exec_critExit {s : State} (h : s.critCtx.snap.sel.toNat < s.conf.nEp) :
    exec .critExit s = .next (critExit s) := by
  simp only [exec, execCritExit, if_pos (validEp_iff.2 h)]

/-- Settles O48: entry, exit, the refused exit, and both around a selection. -/
theorem criticalSection : Obligations.CriticalSection := by
  refine ⟨fun s => ⟨critEnter s, rfl, critEnter_irq s, critEnter_sel s, critEnter_frame s, critEnter_snap s,
    critEnter_other s⟩, fun s h => ⟨critExit s, exec_critExit h, critExit_irq s, rfl, critExit_frame s⟩, fun s h => ?_,
    fun s t i hsel h => ?_⟩
  · simp only [exec, execCritExit, validEp_false h]
    rfl
  · cases h
    have hvalid : (critEnter s).critCtx.snap.sel.toNat < (critEnter s).conf.nEp := by
      rw [critEnter_snap, critEnter_conf]; exact hsel
    exact (exec_critExit (s := (critEnter s).setSel i) hvalid).trans (congrArg _ (critExit_setSel_critEnter s i))

end Sys2Proof.Machine
end

section
/-! PROOFS. The waits (R143, R144, R177, R178, R312, R356; log 8): falling through, holding, going on, and the delivery of an
interrupt while the mainline's sequencer waits. -/

namespace Sys2Proof.Machine

/-! ## Falling through and holding -/

/-- The flag a wait is for. -/
def Wait.flag (w : Wait) (p : Endpoint) : Bool :=
  match w with
  | .inReady => p.inRdy
  | .outReady => p.outRdy

/-- The types that have the flag (R30, R157). -/
def Wait.capable (w : Wait) (k : EpType) : Bool :=
  match w with
  | .inReady => inCapable k
  | .outReady => outCapable k

section
variable {w : Wait} {s : State}

theorem waitOp_enabled (hen : s.cur.en = true) (hk : w.capable s.cur.kind = true) :
    waitOp w s = if w.flag s.cur then .ok s else .hold := by
  cases w with
  | inReady =>
    have hk : inCapable s.cur.kind = true := hk
    simp only [waitOp, waitInOp, Endpoint.ty_of_en hen, inFlag_of_en hen, hen, hk]
    rfl
  | outReady =>
    have hk : outCapable s.cur.kind = true := hk
    simp only [waitOp, waitOutOp, Endpoint.ty_of_en hen, outFlag_of_en hen, hen, hk]
    rfl

theorem issueWait_enabled (hen : s.cur.en = true) (hk : w.capable s.cur.kind = true) :
    issueWait w s = .next (if w.flag s.cur then s else holdAt w s) := by
  rw [issueWait, waitOp_enabled hen hk]
  cases w.flag s.cur <;> rfl

/-- The mainline's sequencer at its wait (R312). -/
theorem resumeWait_enabled (hen : s.cur.en = true) (hk : w.capable s.cur.kind = true) :
    resumeWait w s = .next (if w.flag s.cur then { s with io.mainWait := none } else s) := by
  rw [resumeWait, waitOp_enabled hen hk]
  cases w.flag s.cur <;> rfl

theorem microStep_wait (w : Wait) (s : State) : microStep w.micro s = waitOp w s := by cases w <;> rfl

end

/-! ## A handler's held word -/

section
variable {s u : State} {d : Bool} {m : Micro} {ms rest : List Micro} {r : Refusal}

theorem blockStep_held_finished (hheld : s.io.held = m :: ms) (h : runMicros (m :: ms) s = .finished u) :
    blockStep d s = .next { u with io.held := [] } := by
  simp only [blockStep, heldStep, hheld, h]

theorem blockStep_held_goes (hheld : s.io.held = m :: ms) (h : runMicros (m :: ms) s = .held rest u)
    (hlt : rest.length < ms.length + 1) : blockStep d s = .next { u with io.held := rest } := by
  simp only [blockStep, heldStep, hheld, h, if_pos hlt]

theorem blockStep_held_refused (hheld : s.io.held = m :: ms) (h : runMicros (m :: ms) s = .refused r) :
    blockStep d s = .refused r := by
  simp only [blockStep, heldStep, hheld, h]

/-- A handler whose held word cannot go on stands still (R356). -/
theorem blockStep_held_stays (hisr : s.irq.inIsr = true) (hheld : s.io.held = m :: ms) (h : microStep m s = .hold) :
    blockStep d s = .next s := by
  simp [blockStep, heldStep, hheld, runMicros_cons_hold h, hisr]

theorem blockStep_held_wait {w : Wait} (hisr : s.irq.inIsr = true) (hheld : s.io.held = [w.micro])
    (hen : s.cur.en = true) (hk : w.capable s.cur.kind = true) :
    blockStep d s = .next (if w.flag s.cur then { s with io.held := [] } else s) := by
  have hop := (microStep_wait w s).trans (waitOp_enabled hen hk)
  cases hflag : w.flag s.cur with
  | true => exact blockStep_held_finished hheld (runMicros_cons_ok (hop.trans (if_pos hflag)))
  | false => exact blockStep_held_stays hisr hheld (hop.trans (if_neg (by rw [hflag]; decide)))

end

/-! ## A held emission -/

theorem MicroOut.ok_ne_hold (s : State) : MicroOut.ok s ≠ .hold := nofun

theorem MicroOut.refused_ne_hold (r : Refusal) : MicroOut.refused r ≠ .hold := nofun

theorem MicroOut.bind_ne_hold {m : MicroOut} {f : State → MicroOut} (hm : m ≠ .hold) (hf : ∀ u, f u ≠ .hold) :
    m.bind f ≠ .hold := by
  cases m with
  | ok u => exact hf u
  | hold => exact absurd rfl hm
  | refused r => exact MicroOut.refused_ne_hold r

theorem ackInOp_ne_hold (s : State) : ackInOp s ≠ .hold := by
  rw [ackInOp]; split
  · exact MicroOut.refused_ne_hold _
  · exact MicroOut.ok_ne_hold _

theorem write8Op_ne_hold (b : Byte) (s : State) : write8Op b s ≠ .hold := by
  rw [write8Op]; split_ifs
  · exact MicroOut.refused_ne_hold _
  · exact MicroOut.refused_ne_hold _
  · exact MicroOut.ok_ne_hold _
  · exact MicroOut.refused_ne_hold _

/-- With a free bank an emission does not hold (R177). -/
theorem emit8Op_ne_hold (b : Byte) {s : State} (hsel : s.sel = 0) (hon : s.controlOn) (hrdy : (s.ep 0).inRdy = true) :
    emit8Op b s ≠ .hold := by
  obtain ⟨hcur, hen, hty⟩ := hon.selected hsel
  have hwait : waitInOp s = .ok s := (waitInOp_control hen hty).trans (if_pos (by rw [hcur]; exact hrdy))
  have htransmit : transmitOp b s ≠ .hold := by
    rw [transmitOp, hwait]
    refine MicroOut.bind_ne_hold (MicroOut.ok_ne_hold s) fun t => ?_
    refine MicroOut.bind_ne_hold (write8Op_ne_hold b t) fun u => ?_
    split
    · exact ackInOp_ne_hold u
    · exact MicroOut.ok_ne_hold u
  rw [emit8Op, if_neg (not_not_intro hsel)]
  split_ifs
  · exact MicroOut.refused_ne_hold _
  · exact MicroOut.bind_ne_hold htransmit fun u => MicroOut.ok_ne_hold _
  · exact MicroOut.ok_ne_hold _

/-- Where the first of a sequence does not hold, a hold leaves fewer than all of them. -/
theorem runMicros_held_shorter {m : Micro} {ms rest : List Micro} {s u : State} (hm : microStep m s ≠ .hold)
    (h : runMicros (m :: ms) s = .held rest u) : rest.length < ms.length + 1 := by
  cases hstep : microStep m s with
  | ok t =>
    rw [runMicros_cons_ok hstep] at h
    exact Nat.lt_succ_of_le ((access_runMicros ms t).2 rest u h).2.length_le
  | hold => exact absurd hstep hm
  | refused r => rw [runMicros_cons_refused hstep] at h; cases h

/-- A held emission with a free bank is the same word issued anew (R178). -/
theorem blockStep_held_emission {d : Bool} {b : Byte} {bs : List Byte} {s : State}
    (hheld : s.io.held = (b :: bs).map .emit8) (hgo : microStep (.emit8 b) s ≠ .hold) :
    blockStep d s = exec (.emitN (b :: bs)) { s with io.held := [] } := by
  have hissue : exec (.emitN (b :: bs)) { s with io.held := [] } =
      issue ((b :: bs).map .emit8) { s with io.held := [] } := rfl
  rw [hissue, issue, runMicros_emit_held]
  cases hrun : runMicros ((b :: bs).map .emit8) s with
  | finished u => exact blockStep_held_finished hheld hrun
  | held rest u => exact (blockStep_held_goes hheld hrun (runMicros_held_shorter hgo hrun)).trans rfl
  | refused r => exact blockStep_held_refused hheld hrun

/-! ## The mainline's wait -/

theorem blockStep_mainWait {w : Wait} {s : State} (hheld : s.io.held = []) (hisr : s.irq.inIsr = false)
    (hwait : s.io.mainWait = some w) : blockStep false s = resumeWait w s := by
  simp [blockStep, heldStep, hheld, hisr, mainStep, hwait]

/-- An interrupt the block picks is delivered, whatever the mainline does (R312, R314). -/
theorem blockStep_delivers {s u : State} {src : IrqSource} (hheld : s.io.held = []) (hisr : s.irq.inIsr = false)
    (hpick : pickIrq s = some (src, u)) : blockStep true s = .next (enterHandler src u) := by
  simp [blockStep, heldStep, hheld, hisr, hpick]

/-- Settles O43: the two waits are one argument over the flag they are for. -/
theorem waitsHold : Obligations.WaitsHold := by
  refine ⟨fun s hen hk => issueWait_enabled (w := .inReady) hen hk, fun s hen hk => issueWait_enabled (w := .outReady) hen hk,
    fun s d hisr hen => ⟨fun hheld hk => blockStep_held_wait (w := .inReady) hisr hheld hen hk,
      fun hheld hk => blockStep_held_wait (w := .outReady) hisr hheld hen hk⟩,
    fun s d b bs hisr hheld hsel hon => ⟨fun hrdy hlt => ?_, fun hrdy => ?_⟩,
    fun s hheld hisr hen => ⟨fun hwait hk => ?_, fun hwait hk => ?_⟩,
    fun s hheld hisr hie hwait => ⟨fun hcomm hframe => ?_, fun hcomm hframe => ?_⟩⟩
  · exact blockStep_held_stays hisr hheld (emit8Op_holds b hsel hon hrdy hlt)
  · exact blockStep_held_emission hheld (emit8Op_ne_hold b hsel hon hrdy)
  · exact (blockStep_mainWait hheld hisr hwait).trans (resumeWait_enabled (w := .inReady) hen hk)
  · exact (blockStep_mainWait hheld hisr hwait).trans (resumeWait_enabled (w := .outReady) hen hk)
  · exact blockStep_delivers (src := .comm) hheld hisr (by simp [pickIrq, canDeliver, hie, hisr, hcomm, hframe])
  · exact blockStep_delivers (src := .frame) hheld hisr (by simp [pickIrq, canDeliver, hie, hisr, hcomm, hframe])

end Sys2Proof.Machine
end

section
/-! PROOFS. The mainline's commands (R159, R244, R245, R250 to R254, R257): AVAILABLE, FLUSH, RECV, and a SEND that finds no
room. -/

namespace Sys2Proof.Machine

/-! ## AVAILABLE -/

theorem ty_ne_control {p : Endpoint} (h : p.en = false ∨ p.kind ≠ .control) : p.ty ≠ .control := by
  cases hen : p.en with
  | false => rw [Endpoint.ty_of_off hen]; decide
  | true => rw [Endpoint.ty_of_en hen]; exact h.resolve_left (by rw [hen]; decide)

theorem ne_control_of_sends {k : EpType} (h : k.sends = true) : k ≠ .control := fun hk => by rw [hk] at h; cases h

theorem cmdAnyRefusal_none {s : State} {e : EpIdx} (h0 : e ≠ 0) (h : (s.ep e).en = false ∨ (s.ep e).kind ≠ .control) :
    cmdAnyRefusal e s = none := by
  rw [cmdAnyRefusal, if_neg h0, nonControlRefusal_none (ty_ne_control h)]

theorem cmdTxRefusal_none {s : State} {e : EpIdx} (h0 : e ≠ 0)
    (h : (s.ep e).en = false ∨ (s.ep e).kind.sends = true) : cmdTxRefusal e s = none := by
  rw [cmdTxRefusal, if_neg h0, txRefusal_none (h.imp_right .inl)]

/-- A command that ends well while the bulk engine is at IDLE leaves it there. -/
theorem okResult_idle {s : State} (n : Word16) (h : s.be.pc = .idle) :
    okResult n s = { s with port.res := n, ghost.bulkFail := none } := by
  rw [okResult, ← h]

/-- Settles O55: the count read inside the critical section. -/
theorem availableReportsTheCount : Obligations.AvailableReportsTheCount := by
  intro s e f hidle he h0 htype
  simp only [exec, execAvailable, not_busy_of_idle hidle, validEp_iff.2 he, cmdAnyRefusal_none h0 htype, countCrit_eq]
  exact congrArg Host.Outcome.next
    (okResult_idle (s := { s with port.op := 0x03, port.epf := epfOf e f }) _ hidle.1)

/-! ## FLUSH -/

/-- FLUSH of an empty bank, without a free bank or on a disabled endpoint changes nothing (R159, R254). -/
theorem flushCrit_stays {e : EpIdx} {s : State}
    (h : (s.ep e).en = false ∨ (s.ep e).data = [] ∨ (s.ep e).inRdy = false) : flushCrit e s = s := by
  rw [flushCrit_eq]
  rcases h with h | h | h
  · rw [commitIn_off h, ite_self]
  · rw [if_neg]
    simp [Endpoint.cnt, h]
  · rw [commitIn_noop e s (by rw [Endpoint.inFlag, h, Bool.and_false]), ite_self]

/-- FLUSH of a bank with bytes in it commits it to one of the two banks (R6, R150, R254). -/
theorem flushCrit_commits {e : EpIdx} {s : State} (h0 : e ≠ 0) (hen : (s.ep e).en = true) (hdata : (s.ep e).data ≠ [])
    (hrdy : (s.ep e).inRdy = true) : flushCrit e s = (s.setEp e { s.ep e with
      inQ := (s.ep e).inQ ++ [(s.ep e).data], data := [],
      inRdy := decide ((s.ep e).inQ.length + 1 < 2) }).logTx e (s.ep e).data := by
  have hcnt : (s.ep e).cnt ≠ 0 := by
    rw [Endpoint.cnt, if_pos hen]; exact fun h => hdata (List.length_eq_zero_iff.1 h)
  rw [flushCrit_eq, if_pos hcnt, commitIn_ready e s ((inFlag_of_en hen).trans hrdy), committed_eq, banks_of_ne h0]

theorem exec_flush {s : State} {e : EpIdx} {f : BitVec 3} (hidle : s.mainlineIdle) (he : e.toNat < s.conf.nEp)
    (htx : cmdTxRefusal e s = none) : exec (.flush e f) s =
      .next (flushCrit e { s with port := { s.port with op := 0x04, epf := epfOf e f } }) := by
  simp only [exec, execFlush, not_busy_of_idle hidle, validEp_iff.2 he, htx]
  rfl

/-- Settles O56: the bank as FLUSH finds it. -/
theorem flushCommitsAPartialBank : Obligations.FlushCommitsAPartialBank := by
  rintro s e f p hidle he h0 hp
  have hexec : cmdTxRefusal e s = none → exec (.flush e f) s = .next (flushCrit e { s with port := p }) := fun htx => by
    rw [hp]; exact exec_flush hidle he htx
  refine ⟨fun hoff => ?_, fun hen hk hnone => ?_, fun hen hk hdata hrdy => ?_⟩
  · rw [hexec (cmdTxRefusal_none h0 (.inl hoff)), flushCrit_stays (s := { s with port := p }) (.inl hoff)]
  · rw [hexec (cmdTxRefusal_none h0 (.inr hk)), flushCrit_stays (s := { s with port := p }) (.inr hnone)]
  · rw [hexec (cmdTxRefusal_none h0 (.inr hk)), flushCrit_commits (s := { s with port := p }) h0 hen hdata hrdy]
    rfl

/-! ## RECV -/

section
variable {s : State} {e : EpIdx} {f : BitVec 3} {ptr len : Word16}

/-- The port after the words of a RECV (R56, R122, R123). -/
def recvPort (s : State) (e : EpIdx) (f : BitVec 3) (ptr len : Word16) : Port :=
  { s.port with op := 0x02, epf := epfOf e f, ptr := ptr, len := len }

/-- RECV past what R56, R131 and R257 refuse: the range, then CFG, then the length (log 20). -/
theorem exec_recv_checked (hidle : s.mainlineIdle) (he : e.toNat < s.conf.nEp) (h0 : e ≠ 0)
    (hrx : rxRefusal e s = none) : exec (.recv e f ptr len) s =
      if !len.msb && !inSpace s.conf.bufEnd ptr.toNat len.toNat then .refused .rangeOutsideMemory
      else if s.dev.cfg = 0 then .next (failResult .eNotConfigured { s with port := recvPort s e f ptr len })
      else if len.msb then .next (failResult .eNegLength { s with port := recvPort s e f ptr len })
      else .next { s with port := recvPort s e f ptr len, be.pc := .rcvCrit } := by
  have hcmd : cmdRxRefusal e s = none := by rw [cmdRxRefusal, if_neg h0, hrx]
  simp only [exec, execRecv, not_busy_of_idle hidle, validEp_iff.2 he, hcmd]
  rfl

end

/-- Bytes come from an enabled endpoint only (R159). -/
theorem en_of_taken {p : Endpoint} {len n : Nat} (hn : n = min p.cnt len) (hpos : 0 < n) : p.en = true := by
  by_contra hoff
  rw [Endpoint.cnt, if_neg hoff, Nat.zero_min] at hn
  omega

/-- The part of a bank RECV leaves: the bytes behind those it took (R250). -/
theorem drained_part {p : Endpoint} {len n : Nat} (hn : n = min p.cnt len) (h : n = 0 ∨ n < p.data.length) :
    drained p len = { p with data := p.data.drop n } := by
  rw [drained, ← hn]
  refine if_neg ?_
  rintro ⟨hpos, hcnt⟩
  have hlt : n < p.data.length := h.resolve_left (Nat.ne_of_gt hpos)
  rw [Endpoint.cnt, if_pos (en_of_taken hn hpos), List.length_drop] at hcnt
  omega

/-- A bank RECV emptied is released (R251). -/
theorem drained_all {p : Endpoint} {len n : Nat} (hn : n = min p.cnt len) (hpos : 0 < n) (hall : n = p.data.length) :
    drained p len = ({ p with data := [] } : Endpoint).released := by
  have hdrop : p.data.drop n = [] := by rw [hall, List.drop_length]
  have hcnt : ({ p with data := [] } : Endpoint).cnt = 0 := ite_self _
  rw [drained, ← hn, hdrop]
  exact if_pos ⟨hpos, hcnt⟩

/-- RCV.crit (R250): the bytes it took stand in `BUF`, their number in RCV_N. -/
theorem beStep_rcvCrit {s : State} {e : EpIdx} {n : Nat} (hpc : s.be.pc = .rcvCrit)
    (he : e = s.port.epf.extractLsb' 0 3) (hrx : rxRefusal e s = none) (hn : n = min (s.ep e).cnt s.port.len.toNat)
    (hle : n ≤ (s.ep e).data.length) : beStep s = .next { s.setEp e (drained (s.ep e) s.port.len.toNat) with
      buf := s.buf.writeList s.port.ptr.toNat ((s.ep e).data.take n), be.rcvN := BitVec.ofNat 7 n, be.pc := .rcvArm } := by
  have hport : portEp s = e := he.symm
  simp only [beStep, hpc, rcvCritStep, hport, hrx, recvCrit_eq, ← hn, List.length_take_of_le hle]
  rfl

/-- RCV.arm (R250, R256): `RES` is the count, and the pulse is armed where it is not 0. -/
theorem beStep_rcvArm {s : State} {n : Nat} (hpc : s.be.pc = .rcvArm) (hn : s.be.rcvN = BitVec.ofNat 7 n) (h64 : n ≤ 64) :
    beStep s = .next (okResult (BitVec.ofNat 16 n)
      { s with pulse := if n = 0 then s.pulse else { s.pulse with rxp := 100, ledRx := true } }) := by
  have hwidth : (BitVec.ofNat 7 n).setWidth 16 = BitVec.ofNat 16 n := by bv_omega
  have hzero : BitVec.ofNat 7 n ≠ 0 ↔ n ≠ 0 := by bv_omega
  simp only [beStep, hpc, rcvArm, hn, hwidth, hzero]
  by_cases h : n = 0
  · rw [if_neg (not_not_intro h), if_pos h]
  · rw [if_pos h, if_neg h]
    rfl

/-- Settles O54: the checks, then the two steps of an accepted RECV. -/
theorem recvReadsTheBank : Obligations.RecvReadsTheBank := by
  refine ⟨fun s e f ptr len p hp hidle he h0 htype => ?_, fun s e n hpc he hmem htype h64 hn => ?_⟩
  · have hport : p = recvPort s e f ptr len := hp
    have hexec := exec_recv_checked (f := f) (ptr := ptr) (len := len) hidle he h0 (rxRefusal_none htype)
    refine ⟨fun k hlen hend hpos hk => ?_, fun hin => ?_⟩
    · have hrange : inSpace s.conf.bufEnd ptr.toNat len.toNat = false := by
        rw [Bool.eq_false_iff, ne_eq, inSpace_iff]
        intro h
        rcases h k hend with h | h <;> omega
      rw [hexec, hlen, hrange]
      rfl
    · have hrange : (!len.msb && !inSpace s.conf.bufEnd ptr.toNat len.toNat) = false := by
        rcases hin with hneg | hin
        · rw [hneg]; rfl
        · have hin : inSpace s.conf.bufEnd ptr.toNat len.toNat = true :=
            inSpace_iff.2 fun k hk => (hin k hk).imp_left fun h => by rw [h]; rfl
          rw [hin, Bool.not_true, Bool.and_false]
      rw [hexec, hrange, hport, if_neg (by decide)]
      refine ⟨fun hcfg => ?_, fun hcfg hneg => ?_, fun hcfg hpos => ?_⟩
      · rw [if_pos hcfg]
        exact congrArg _ (failResult_idle (s := { s with port := recvPort s e f ptr len }) _ hidle.1)
      · rw [if_neg hcfg, if_pos hneg]
        exact congrArg _ (failResult_idle (s := { s with port := recvPort s e f ptr len }) _ hidle.1)
      · rw [if_neg hcfg, if_neg (by rw [hpos]; decide)]
  · have hn : n = min (s.ep e).cnt s.port.len.toNat := hn
    have hle : n ≤ (s.ep e).data.length := by
      rw [hn, Endpoint.cnt]; split <;> omega
    have hrx : rxRefusal e s = none := rxRefusal_none (htype.imp_right .inl)
    have hen : 0 < n → (s.ep e).en = true := en_of_taken hn
    refine ⟨_, _, beStep_rcvCrit hpc he hrx hn hle, beStep_rcvArm rfl rfl (hle.trans h64), fun a => ?_, rfl, rfl, rfl, rfl,
      rfl, rfl, rfl, fun g hg => State.ep_setEp_ne s e g _ hg, fun hpart => ?_, fun hpos hall hrdy hq => ?_,
      fun q qs hpos hall hrdy hq => ?_⟩
    · refine (Memory.read_writeList hmem s.port.ptr.toNat a).trans ?_
      rw [List.length_take_of_le hle]
      by_cases ha : s.port.ptr.toNat ≤ a ∧ a < s.port.ptr.toNat + n
      · have hlt : a - s.port.ptr.toNat < n := by omega
        rw [if_pos ha, if_pos ha, List.getD_eq_getElem?_getD, List.getD_eq_getElem?_getD, List.getElem?_take, if_pos hlt]
      · rw [if_neg ha, if_neg ha]
    · exact (State.ep_setEp_same s e _).trans (drained_part hn hpart)
    · exact (State.ep_setEp_same s e _).trans ((drained_all hn hpos hall).trans
        (released_last (p := { s.ep e with data := [] }) (hen hpos) hrdy hq))
    · exact (State.ep_setEp_same s e _).trans ((drained_all hn hpos hall).trans
        (released_next (p := { s.ep e with data := [] }) (hen hpos) hrdy hq))

/-! ## A SEND that finds no room -/

/-- No free bank, a full one, or a disabled endpoint: no free space (R159, R242). -/
theorem freeSpace_zero {p : Endpoint}
    (h : p.en = false ∨ p.kind.sends = true ∧ (p.inRdy = false ∨ 64 ≤ p.data.length)) : p.freeSpace = 0 := by
  cases hen : p.en with
  | false => exact freeSpace_off hen
  | true =>
    obtain ⟨hk, hfull⟩ := h.resolve_left (by rw [hen]; decide)
    rw [freeSpace_en hen]
    rcases hfull with hrdy | hfull
    · have hout : (p.kind == .bulkOut) = false := by
        rcases sends_iff.1 hk with hk | hk <;> rw [hk] <;> rfl
      rw [rwAllowed_eq hen (ne_control_of_sends hk), hrdy, hout]
      simp
    · rw [Nat.sub_eq_zero_of_le hfull, ite_self]

/-- `s` with a SEND served at `p`, the size of the last chunk `n` and `tmo` observations left. -/
def State.sendingAt (s : State) (p : BePoint) (n : BitVec 7) (tmo : Byte) : State :=
  { s with be.pc := p, be.sndN := n, be.sndTmo := tmo }

/-- The mainline alone serves a SEND with bytes left to an endpoint without free space (R244). -/
structure SendStuck (s : State) : Prop where
  alone : MainlineAlone s
  left : s.be.sndRem ≠ 0
  kind : (s.ep s.be.sndEp).ty ≠ .control
  full : (s.ep s.be.sndEp).freeSpace = 0

section
variable {s : State} (h : SendStuck s) (n : BitVec 7) (tmo : Byte)
include h

theorem SendStuck.step_eq {p : BePoint} (hp : p ≠ .idle) :
    step (s.sendingAt p n tmo) = beStep (s.sendingAt p n tmo) :=
  step_mainlineAlone (h.alone.congr rfl rfl) hp

/-- SND.loop with bytes left (R244). -/
theorem SendStuck.step_loop : step (s.sendingAt .sndLoop n tmo) = .next (s.sendingAt .sndSpace n tmo) := by
  rw [h.step_eq n tmo (by decide)]
  exact congrArg _ (if_neg h.left)

/-- SND.space without free space (R244). -/
theorem SendStuck.step_space : step (s.sendingAt .sndSpace n tmo) = .next (s.sendingAt .sndWait 0 tmo) := by
  have hbe : beStep (s.sendingAt .sndSpace n tmo) = sndSpace (s.sendingAt .sndSpace n tmo) := rfl
  have hkind : nonControlRefusal ((s.sendingAt .sndSpace n tmo).ep (s.sendingAt .sndSpace n tmo).be.sndEp) = none :=
    nonControlRefusal_none h.kind
  have hfull : ((s.sendingAt .sndSpace n tmo).ep (s.sendingAt .sndSpace n tmo).be.sndEp).freeSpace = 0 := h.full
  rw [h.step_eq n tmo (by decide), hbe, sndSpace, hkind]
  simp only [spaceCrit_eq, hfull]
  rfl

/-- SND.wait with observations left (R244, R245). -/
theorem SendStuck.step_wait (hleft : tmo ≠ 1) :
    step (s.sendingAt .sndWait n tmo) = .next (s.sendingAt .sndLoop n (tmo - 1)) := by
  have hzero : tmo - 1 ≠ 0 := by bv_omega
  rw [h.step_eq n tmo (by decide)]
  exact congrArg _ (if_neg hzero)

/-- The last observation fails the command (R245, R257). -/
theorem SendStuck.step_timeout :
    step (s.sendingAt .sndWait n 1) = .next (failResult .eSendTimeout (s.sendingAt .sndWait n 0)) := by
  have hzero : (1 : Byte) - 1 = 0 := by decide
  have hwait : sndWait (s.sendingAt .sndWait n 1) = failResult .eSendTimeout (s.sendingAt .sndWait n (1 - 1)) :=
    if_pos hzero
  rw [hzero] at hwait
  rw [h.step_eq n 1 (by decide)]
  exact congrArg _ hwait

/-- From SND.loop the next observation is two steps away (R244). -/
theorem SendStuck.run_to_wait (m : Nat) : Host.Core.run Sys2Proof.core (m + 2) (s.sendingAt .sndLoop n tmo) =
    Host.Core.run Sys2Proof.core m (s.sendingAt .sndWait 0 tmo) := by
  rw [run_succ (h.step_loop n tmo), run_succ (h.step_space n tmo)]

/-- Up to that observation SEND is being served. -/
theorem SendStuck.run_served {m : Nat} (hm : m < 3) :
    ∃ v, Host.Core.run Sys2Proof.core m (s.sendingAt .sndLoop n tmo) = .next v ∧ v.be.pc.sending = true := by
  obtain rfl | rfl | rfl : m = 0 ∨ m = 1 ∨ m = 2 := by omega
  · exact ⟨_, rfl, rfl⟩
  · exact ⟨_, run_succ (h.step_loop n tmo) 0, rfl⟩
  · exact ⟨_, h.run_to_wait n tmo 0, rfl⟩

/-- With `k + 1` observations left the command fails at the last of them, three steps each (log 7), and is served before. -/
theorem SendStuck.run_timeout (k : Nat) (hk : k < 250) : ∀ n : BitVec 7,
    Host.Core.run Sys2Proof.core (3 * k + 3) (s.sendingAt .sndLoop n (BitVec.ofNat 8 (k + 1))) =
      .next (failResult .eSendTimeout (s.sendingAt .sndWait 0 0)) ∧
    ∀ m < 3 * k + 3, ∃ v, Host.Core.run Sys2Proof.core m (s.sendingAt .sndLoop n (BitVec.ofNat 8 (k + 1))) = .next v ∧
      v.be.pc.sending = true := by
  induction k with
  | zero =>
    intro n
    refine ⟨?_, fun m hm => h.run_served n _ hm⟩
    rw [h.run_to_wait n _ 1]
    exact run_succ (h.step_timeout 0) 0
  | succ k ih =>
    intro n
    have hleft : BitVec.ofNat 8 (k + 1 + 1) ≠ 1 := by bv_omega
    have hless : BitVec.ofNat 8 (k + 1 + 1) - 1 = BitVec.ofNat 8 (k + 1) := by bv_omega
    have hround : ∀ m, Host.Core.run Sys2Proof.core (m + 3) (s.sendingAt .sndLoop n (BitVec.ofNat 8 (k + 1 + 1))) =
        Host.Core.run Sys2Proof.core m (s.sendingAt .sndLoop 0 (BitVec.ofNat 8 (k + 1))) := fun m => by
      rw [h.run_to_wait n _ (m + 1), run_succ (h.step_wait 0 _ hleft), hless]
    obtain ⟨hend, hserved⟩ := ih (by omega) 0
    refine ⟨(hround _).trans hend, fun m hm => ?_⟩
    by_cases hm3 : m < 3
    · exact h.run_served n _ hm3
    · obtain ⟨j, rfl⟩ : ∃ j, m = j + 3 := ⟨m - 3, by omega⟩
      rw [hround]
      exact hserved j (by omega)

end

/-- Settles O53: 250 observations of three steps each. -/
theorem sendTimesOut : Obligations.SendTimesOut := by
  intro s e rom rel zero ptr len halone hidle hcfg he h0 hbuf hrom hpos hlen hfull
  have htype : (s.ep e).en = false ∨ (s.ep e).kind.sends = true := hfull.imp_right And.left
  have hrange : sendInRange (flagsOf rom rel zero) ptr len s = true := by
    rw [sendInRange_eq, hbuf, hrom, ite_self]; exact Bool.or_true _
  have hacc := exec_send_accepted (rom := rom) (rel := rel) (zero := zero) hidle he h0 hlen
    (txRefusal_none (htype.imp_right .inl)) hrange hcfg
  generalize ht : ({ s with
    port := sendPort s e (flagsOf rom rel zero) ptr len
    be.pc := .sndLoop, be.sndEp := e, be.sndFlags := flagsOf rom rel zero, be.sndPtr := ptr
    be.sndTotal := len, be.sndRem := len, be.sndTmo := Config.sendTimeout, be.sndI := 0 } : State) = t at hacc
  have hstuck : SendStuck t := by
    rw [← ht]
    refine ⟨halone.congr rfl rfl, fun hzero : len = 0 => ?_, ty_ne_control (htype.imp_right ne_control_of_sends),
      freeSpace_zero hfull⟩
    rw [hzero] at hpos
    exact absurd hpos (by decide)
  obtain ⟨hend, hserved⟩ := hstuck.run_timeout 249 (by decide) t.be.sndN
  have hself : t.sendingAt .sndLoop t.be.sndN (BitVec.ofNat 8 (249 + 1)) = t := by rw [← ht]; rfl
  rw [hself] at hend hserved
  refine ⟨t, _, hacc, hend, hserved, rfl, rfl, rfl, rfl, ?_⟩
  rw [← ht]
  exact ⟨rfl, rfl, rfl, rfl, rfl, rfl⟩

end Sys2Proof.Machine
end

section
/-! PROOFS. The frame handler (R251, R270 to R278, R318, R343, R362): its points in order, and the serial-like collaborator it
serves at F3 and F4. -/

namespace Sys2Proof.Machine

/-! ## The serial-like collaborator -/

theorem serialEps_none {cs : List Collab} (h : ∀ c ∈ cs, c.kind = .hidLike) : serialEps cs = none := by
  induction cs with
  | nil => rfl
  | cons c cs ih =>
    simp only [serialEps, h c List.mem_cons_self]
    exact ih fun d hd => h d (List.mem_cons_of_mem c hd)

/-- The first serial-like collaborator, wherever it stands (R273, D41). -/
theorem serialEps_first {before : List Collab} {c : Collab} {tx rx : EpIdx} (after : List Collab)
    (h : ∀ d ∈ before, d.kind = .hidLike) (hc : c.kind = .serialLike tx rx) :
    serialEps (before ++ c :: after) = some (tx, rx) := by
  induction before with
  | nil => simp only [List.nil_append, serialEps, hc]
  | cons d before ih =>
    simp only [List.cons_append, serialEps, h d List.mem_cons_self]
    exact ih fun x hx => h x (List.mem_cons_of_mem d hx)

/-! ## F3 and F4 -/

section
variable {s : State} {tx rx : EpIdx}

/-- F3 flushes the sending endpoint (R273). -/
theorem ftStep_flushes (hpc : s.ft.pc = .f3) (hser : serialEps s.conf.collabs = some (tx, rx))
    (he : tx.toNat < s.conf.nEp) (htx : cmdTxRefusal tx s = none) :
    ftStep s = .next { flushCrit tx s with ft.pc := .f4 } := by
  simp only [ftStep, hpc, tickFlush, hser, validEp_iff.2 he, htx]
  rfl

/-- One turn of F4 (R274): the end of the loop, the hang while unconfigured (R362), or one byte to the sink. -/
theorem ftStep_pulls (hpc : s.ft.pc = .f4) (hser : serialEps s.conf.collabs = some (tx, rx))
    (he : rx.toNat < s.conf.nEp) (h0 : rx ≠ 0) (htype : (s.ep rx).en = false ∨ (s.ep rx).kind = .bulkOut) :
    ftStep s = .next (
      if (s.ep rx).cnt = 0 then { s with ft.pc := .f5 }
      else if s.dev.cfg = 0 then s
      else { s.setEp rx (drained (s.ep rx) 1) with
        pulse.rxp := 100, pulse.ledRx := true
        ft.tmp := ((s.ep rx).data.take (min (s.ep rx).cnt 1)).headD s.ft.tmp
        ghost.rxSink := s.ghost.rxSink ++ (s.ep rx).data.take (min (s.ep rx).cnt 1) }) := by
  have hany : cmdAnyRefusal rx s = none := cmdAnyRefusal_none h0 (htype.imp_right fun h => by rw [h]; decide)
  have hrx : rxRefusal rx s = none := rxRefusal_none (htype.imp_right .inl)
  simp only [ftStep, hpc, tickPull, hser, validEp_iff.2 he, hany, countCrit_eq, recvCrit_eq, hrx, Bool.not_true,
    Bool.false_eq_true, if_false]
  split_ifs <;> rfl

/-- The byte at the front of the bank goes to the sink; the one that empties it releases it (R251, R274). -/
theorem ftStep_pulls_byte {b : Byte} {rest : List Byte} (hpc : s.ft.pc = .f4)
    (hser : serialEps s.conf.collabs = some (tx, rx)) (he : rx.toNat < s.conf.nEp) (h0 : rx ≠ 0)
    (hen : (s.ep rx).en = true) (hk : (s.ep rx).kind = .bulkOut) (hdata : (s.ep rx).data = b :: rest)
    (hcfg : s.dev.cfg ≠ 0) : ftStep s = .next { s.setEp rx (drained (s.ep rx) 1) with
      pulse.rxp := 100, pulse.ledRx := true, ft.tmp := b, ghost.rxSink := s.ghost.rxSink ++ [b] } := by
  have hcnt : (s.ep rx).cnt = rest.length + 1 := by rw [Endpoint.cnt, if_pos hen, hdata]; rfl
  have htake : (s.ep rx).data.take (min (s.ep rx).cnt 1) = [b] := by
    rw [hcnt, hdata, Nat.min_eq_right (Nat.le_add_left 1 _)]; rfl
  rw [ftStep_pulls hpc hser he h0 (.inr hk), htake, hcnt, if_neg (Nat.succ_ne_zero _), if_neg hcfg]
  rfl

end

/-- One byte taken from a bank with more behind it (R250). -/
theorem drained_one_of_more {p : Endpoint} {b : Byte} {rest : List Byte} (hen : p.en = true) (hdata : p.data = b :: rest)
    (hmore : rest ≠ []) : drained p 1 = { p with data := rest } := by
  have hlen : 0 < rest.length := List.length_pos_iff.2 hmore
  have hone : 1 = min p.cnt 1 := by rw [Endpoint.cnt, if_pos hen, hdata, List.length_cons]; omega
  rw [drained_part hone (.inr (by rw [hdata, List.length_cons]; omega)), hdata]
  rfl

/-- The last byte of a bank taken (R251). -/
theorem drained_one_of_last {p : Endpoint} {b : Byte} (hen : p.en = true) (hdata : p.data = [b]) :
    drained p 1 = ({ p with data := [] } : Endpoint).released := by
  have hone : 1 = min p.cnt 1 := by rw [Endpoint.cnt, if_pos hen, hdata]; rfl
  exact drained_all hone Nat.one_pos (by rw [hdata]; rfl)

/-! ## F5 -/

/-- A timer counts down and stays at 0 (R275). -/
theorem tickDown_eq (v : Byte) : (if v = 0 then 0 else v - 1) = BitVec.ofNat 8 (v.toNat - 1) := by
  split <;> bv_omega

/-- An indicator goes out at the tick that takes its timer from 1 to 0 (R275). -/
theorem tickLed_eq (v : Byte) (led : Bool) : (if v = 1 then false else led) = (led && v != 1) := by
  by_cases h : v = 1
  · rw [if_pos h, h]; exact (Bool.and_false led).symm
  · rw [if_neg h, bne_iff_ne.2 h, Bool.and_true]

theorem ftStep_f5 {s : State} (hpc : s.ft.pc = .f5) : ftStep s = .next { s with
    pulse := ⟨BitVec.ofNat 8 (s.pulse.txp.toNat - 1), BitVec.ofNat 8 (s.pulse.rxp.toNat - 1),
      s.pulse.ledTx && s.pulse.txp != 1, s.pulse.ledRx && s.pulse.rxp != 1⟩, ft.pc := .exit } := by
  simp only [ftStep, hpc, tickTimers, tickDown_eq, tickLed_eq]

theorem ftStep_exit {s : State} (hpc : s.ft.pc = .exit) :
    ftStep s = .next { s with irq.inIsr := false, ft.pc := .idle } := by
  simp only [ftStep, hpc]; rfl

/-- Settles O58, point by point. -/
theorem frameHandlerSteps : Obligations.FrameHandlerSteps := by
  refine ⟨fun s hpc => ?_, fun s hpc heor => ?_, fun s hpc heor => ?_, fun s hnone => ⟨fun hpc => ?_, fun hpc => ?_⟩,
    fun s c before after tx rx hcs hbefore hc => ⟨fun hpc he h0 => ⟨fun hoff => ?_, fun hk hempty => ?_,
      fun hen hk hdata hrdy => ?_⟩, fun hpc he h0 => ⟨fun hoff => ?_, fun hen hk => ⟨fun hdata => ?_,
      fun hdata hcfg => ?_, fun b rest p hdata hcfg hp => ?_⟩⟩⟩, fun s hpc => ftStep_f5 hpc, fun s hpc => ftStep_exit hpc⟩
  · simp only [ftStep, hpc]; rfl
  · simp only [ftStep, hpc, frameReset, if_pos heor]; rfl
  · simp only [ftStep, hpc, frameReset, heor, Bool.false_eq_true, if_false]
  · simp only [ftStep, hpc, tickFlush, serialEps_none hnone]
  · simp only [ftStep, hpc, tickPull, serialEps_none hnone]
  all_goals have hser : serialEps s.conf.collabs = some (tx, rx) := by rw [hcs]; exact serialEps_first after hbefore hc
  · rw [ftStep_flushes hpc hser he (cmdTxRefusal_none h0 (.inl hoff)), flushCrit_stays (.inl hoff)]
  · rw [ftStep_flushes hpc hser he (cmdTxRefusal_none h0 (.inr hk)), flushCrit_stays (.inr hempty)]
  · rw [ftStep_flushes hpc hser he (cmdTxRefusal_none h0 (.inr hk)), flushCrit_commits h0 hen hdata hrdy]
  · rw [ftStep_pulls hpc hser he h0 (.inl hoff), if_pos (by rw [Endpoint.cnt, hoff]; rfl)]
  · rw [ftStep_pulls hpc hser he h0 (.inr hk), if_pos (by rw [Endpoint.cnt, hdata]; exact ite_self _)]
  · rw [ftStep_pulls hpc hser he h0 (.inr hk), if_neg, if_pos hcfg]
    rw [Endpoint.cnt, if_pos hen]
    exact fun h => hdata (List.length_eq_zero_iff.1 h)
  · have hdrained : drained (s.ep rx) 1 = p := by
      rcases hp with ⟨hmore, rfl⟩ | ⟨rfl, hrdy, hq, rfl⟩ | ⟨rfl, hrdy, q, qs, hq, rfl⟩
      · exact drained_one_of_more hen hdata hmore
      · exact (drained_one_of_last hen hdata).trans (released_last (p := { s.ep rx with data := [] }) hen hrdy hq)
      · exact (drained_one_of_last hen hdata).trans (released_next (p := { s.ep rx with data := [] }) hen hrdy hq)
    rw [ftStep_pulls_byte hpc hser he h0 hen hk hdata hcfg, hdrained]

end Sys2Proof.Machine
end

section
/-! PROOFS. Where the control handler ends (R171, R194, R318), the requests with a constant answer (R177, R184, R188), and
CUR_INIT (R176). -/

namespace Sys2Proof.Machine

/-! ## The spurious entry and the return -/

/-- S1 without a setup packet (R171). -/
theorem ctSelect_spurious {s : State} (h : (s.ep 0).setup = false) : ctSelect s = { s with sel := 0, ct.pc := .exit } := by
  have hflag : (s.ep 0).setupFlag = false := by rw [Endpoint.setupFlag, h, Bool.and_false]
  show ({ s with sel := 0, ct.pc := if (s.ep 0).setupFlag then .s2 else .exit } : State) = _
  rw [if_neg (by rw [hflag]; decide)]

/-- The return (R318). -/
theorem ctStep_returns {s : State} (hpc : s.ct.pc = .exit) :
    ctStep s = .next { s with irq.inIsr := false, ct.pc := .idle } := by
  simp only [ctStep, hpc]; rfl

/-- Settles O26: without a setup packet S1 only selects endpoint 0, and the next step is the return. -/
theorem spuriousEntryReturns : Obligations.SpuriousEntryReturns := by
  refine fun s hpc hsetup => ⟨_, ?_, rfl, ctStep_returns rfl⟩
  simp only [ctStep, hpc, ctSelect_spurious hsetup]

/-! ## S5 -/

section
variable {s : State}

/-- S5 after success, on endpoint 0: ACK_IN is `commit_in(0)` (R153, R194). -/
theorem ctStep_acknowledges (hpc : s.ct.pc = .s5) (hres : s.ct.result = .ok) (hsel : s.sel = 0) (hon : s.controlOn) :
    ctStep s = .next { commitIn 0 s with ct.pc := .exit } := by
  have hack : ackInOp s = .ok (commitIn 0 s) := by rw [ackInOp_control (hon.selected hsel).2.2, hsel]
  simp only [ctStep, hpc, ctComplete, hres, hack]

/-- S5 after a failure: the selected endpoint is stalled (R194). -/
theorem ctStep_stalls {c : Cause} (hpc : s.ct.pc = .s5) (hres : s.ct.result = .fail c) :
    ctStep s = .next { stallOp s with ct.pc := .exit } := by
  simp only [ctStep, hpc, ctComplete, hres]

end

/-- Settles O28: S5 by the result and by who owns the bank, then the return. -/
theorem handlerCompletes : Obligations.HandlerCompletes := by
  refine ⟨fun s hpc hres hsel hon hrdy hq => ?_, fun s hpc hres hsel hon hrdy => ?_, fun s c hpc hres hsel => ?_,
    fun s hpc => ctStep_returns hpc⟩
  · rw [ctStep_acknowledges hpc hres hsel hon, commitIn_zero hon.1 hrdy hq]
  · rw [ctStep_acknowledges hpc hres hsel hon, commitIn_noop 0 s ((inFlag_of_en hon.1).trans hrdy)]
  · rw [ctStep_stalls hpc hres, stallOp, State.cur, hsel]

/-! ## Constant answers -/

/-- A request that has a byte to transmit and no bank holds at its first `EMIT8`, nothing written (R177, R195; log 7). -/
theorem runRequest_emit_holds {s : State} {res : CtResult} (b : Byte) (bs : List Byte) (hsel : s.sel = 0)
    (hon : s.controlOn) (hrdy : (s.ep 0).inRdy = false) (hlt : s.cursor.pos.toNat < s.cursor.lim.toNat) :
    runRequest ((b :: bs).map .emit8) res s =
      .next { s with ct.pc := .s4EmitWait, ct.todo := (b :: bs).map .emit8, ct.result := res } :=
  runRequest_held (runMicros_emit_holds b bs hsel hon hrdy hlt)

theorem exec_getStatus (r : Req) (s : State) :
    exec (.getStatus r) s = runRequest (([0, 0] : List Byte).map .emit8) .ok s := rfl

theorem exec_getConfiguration (r : Req) (s : State) :
    exec (.getConfiguration r) s = runRequest (([1] : List Byte).map .emit8) .ok s := rfl

/-- Settles O30: both requests are the emission of fixed bytes, which fits the bank or holds. -/
theorem constantAnswers : Obligations.ConstantAnswers := by
  refine ⟨fun s r hfits => ?_, fun s r hfits => ?_, fun s r hsel hon hrdy hlt => ⟨?_, ?_⟩⟩
  · rw [exec_getStatus, runRequest_emits hfits]
  · rw [exec_getConfiguration, runRequest_emits hfits]
  · exact (exec_getStatus r s).trans (runRequest_emit_holds 0 [0] hsel hon hrdy hlt)
  · exact (exec_getConfiguration r s).trans (runRequest_emit_holds 1 [] hsel hon hrdy hlt)

/-! ## CUR_INIT -/

/-- Settles O40: the operation is the cursor's assignment, with no check before it. -/
theorem cursorInit : Obligations.CursorInit := fun _ _ => rfl

end Sys2Proof.Machine
end

section
/-! PROOFS. GET_DESCRIPTOR of the types the block does not name (R219; logs 9, 30): the search as one walk over the
places of the HID-like collaborators, which a failing answer goes on with and a success ends. -/

namespace Sys2Proof.Machine

/-! ## The places of the HID-like collaborators -/

theorem hidIndices_cons (c : Collab) (cs : List Collab) : hidIndices (c :: cs) =
    if c.kind = .hidLike then 0 :: (hidIndices cs).map Nat.succ else (hidIndices cs).map Nat.succ := by
  simp only [hidIndices, List.length_cons, List.range_succ_eq_map, List.filter_cons, List.filter_map,
    List.getD_cons_zero, beq_iff_eq]
  rfl

theorem hidIndices_eq_nil {cs : List Collab} (h : ∀ c ∈ cs, c.kind ≠ .hidLike) : hidIndices cs = [] := by
  induction cs with
  | nil => rfl
  | cons c cs ih =>
    obtain ⟨hc, hcs⟩ := List.forall_mem_cons.1 h
    rw [hidIndices_cons, if_neg hc, ih hcs, List.map_nil]

/-! ## The search -/

/-- The collaborators at the places `ks` asked with `p`, and the answers `as` left. -/
def State.asked (s : State) (p : SetupPacket) (ks : List Nat) (as : List CollabAnswer) : State :=
  { s with io.answers := as, ghost.calls := s.ghost.calls ++ ks.map (.getDescriptor · p) }

theorem State.asked_asked (s : State) (p : SetupPacket) (ks js : List Nat) (xs as : List CollabAnswer) :
    (s.asked p ks xs).asked p js as = s.asked p (ks ++ js) as := by
  simp only [State.asked, List.map_append, List.append_assoc]

/-- `offerDescriptor` on the places of the collaborators it asks. -/
def offerAt (p : SetupPacket) : List Nat → State → List Micro × Bool × State
  | [], s => ([], false, s)
  | k :: ks, s =>
    let (a, s1) := nextAnswer (s.logCall (.getDescriptor k p))
    if a.ok then (answerMicros a, true, s1)
    else
      let (ms, found, s2) := offerAt p ks s1
      (answerMicros a ++ ms, found, s2)

/-- Only the HID-like collaborators are asked, in order (R219). -/
theorem offerDescriptor_eq_offerAt (p : SetupPacket) (cs : List Collab) : ∀ (k : Nat) (s : State),
    offerDescriptor p cs k s = offerAt p ((hidIndices cs).map (k + ·)) s := by
  induction cs with
  | nil => exact fun k s => rfl
  | cons c cs ih =>
    intro k s
    have hshift : ((hidIndices cs).map Nat.succ).map (k + ·) = (hidIndices cs).map (k + 1 + ·) := by
      rw [List.map_map]; exact List.map_congr_left fun j _ => by simp only [Function.comp_apply]; omega
    obtain ⟨kind, ifDesc, nif⟩ := c
    cases kind with
    | serialLike tx rx => rw [hidIndices_cons, if_neg CollabKind.noConfusion, hshift]; exact ih _ _
    | hidLike => rw [hidIndices_cons, if_pos rfl, List.map_cons, hshift]; simp only [offerDescriptor, offerAt, ih]; rfl

theorem descOther_eq_offerAt (r : Req) (s : State) : descOther r s =
    runRequest (offerAt (r.packet 0 6) (hidIndices s.conf.collabs) s).1
      (if (offerAt (r.packet 0 6) (hidIndices s.conf.collabs) s).2.1 then .ok else .fail .fDescNotFound)
      (offerAt (r.packet 0 6) (hidIndices s.conf.collabs) s).2.2 := by
  simp only [descOther, offerDescriptor_eq_offerAt, Nat.zero_add, List.map_id']

section
variable {s : State} {p : SetupPacket} {a : CollabAnswer} {fails as : List CollabAnswer} {ks js : List Nat}

/-- A call takes the schedule's next answer (log 9). -/
theorem nextAnswer_asked (k : Nat) (h : s.io.answers = a :: as) :
    nextAnswer (s.logCall (.getDescriptor k p)) = (a, s.asked p [k] as) := by
  simp only [nextAnswer, State.logCall_io, h]; rfl

/-- A success ends the search, whoever stands behind (R219). -/
theorem offerAt_success (k : Nat) (h : s.io.answers = a :: as) (ha : a.ok = true) :
    offerAt p (k :: ks) s = (answerMicros a, true, s.asked p [k] as) := by
  simp only [offerAt, nextAnswer_asked k h, ha, if_true]

/-- A failure goes on with the next place (R219). -/
theorem offerAt_failure (k : Nat) (h : s.io.answers = a :: as) (ha : a.ok = false) :
    offerAt p (k :: ks) s = (answerMicros a ++ (offerAt p ks (s.asked p [k] as)).1,
      (offerAt p ks (s.asked p [k] as)).2) := by
  simp only [offerAt, nextAnswer_asked k h, ha, Bool.false_eq_true, if_false]

/-- A run of failures, then whatever the places behind it answer (R219). -/
theorem offerAt_failures (hfail : ∀ a ∈ fails, a.ok = false) (hlen : fails.length = ks.length)
    (hans : s.io.answers = fails ++ as) : offerAt p (ks ++ js) s =
      ((fails.map answerMicros).flatten ++ (offerAt p js (s.asked p ks as)).1,
        (offerAt p js (s.asked p ks as)).2) := by
  induction ks generalizing fails s with
  | nil =>
    obtain rfl := List.eq_nil_of_length_eq_zero hlen
    have hsame : s.asked p [] as = s := by
      rw [State.asked, List.map_nil, List.append_nil, show as = s.io.answers from hans.symm]
    rw [hsame]; rfl
  | cons k ks ih =>
    obtain ⟨a, fails, rfl⟩ := List.exists_cons_of_length_eq_add_one hlen
    obtain ⟨ha, hfails⟩ := List.forall_mem_cons.1 hfail
    rw [List.cons_append, offerAt_failure k hans ha, ih hfails (Nat.succ.inj hlen) rfl, State.asked_asked,
      List.singleton_append, List.map_cons, List.flatten_cons, List.append_assoc]

/-! ## The request -/

theorem exec_getDescriptorOther_noHid (r : Req) (h : ∀ c ∈ s.conf.collabs, c.kind ≠ .hidLike) :
    exec (.getDescriptorOther r) s = .next (s.answered (.fail .fDescNotFound)) := by
  refine (descOther_eq_offerAt r s).trans ?_
  rw [hidIndices_eq_nil h]
  rfl

/-- Every HID-like collaborator asked, and none succeeds (R219). -/
theorem exec_getDescriptorOther_fails (r : Req) (hfail : ∀ a ∈ fails, a.ok = false)
    (hlen : fails.length = (hidIndices s.conf.collabs).length) (hans : s.io.answers = fails ++ as) :
    exec (.getDescriptorOther r) s = runRequest (fails.map answerMicros).flatten (.fail .fDescNotFound)
      (s.asked (r.packet 0 6) (hidIndices s.conf.collabs) as) := by
  have hoffer := offerAt_failures (p := r.packet 0 6) (js := []) hfail hlen hans
  rw [List.append_nil] at hoffer
  refine (descOther_eq_offerAt r s).trans ?_
  rw [hoffer, offerAt, List.append_nil]
  rfl

/-- The collaborators asked up to the first success, and no other (R219). -/
theorem exec_getDescriptorOther_succeeds (r : Req) {win : CollabAnswer} (hfail : ∀ a ∈ fails, a.ok = false)
    (hwin : win.ok = true) (hlen : fails.length < (hidIndices s.conf.collabs).length)
    (hans : s.io.answers = fails ++ win :: as) :
    exec (.getDescriptorOther r) s = runRequest ((fails ++ [win]).map answerMicros).flatten .ok
      (s.asked (r.packet 0 6) ((hidIndices s.conf.collabs).take (fails.length + 1)) as) := by
  have hsplit := List.take_append_drop fails.length (hidIndices s.conf.collabs)
  rw [List.drop_eq_getElem_cons hlen] at hsplit
  have hoffer := offerAt_failures (p := r.packet 0 6)
    (js := (hidIndices s.conf.collabs)[fails.length] :: (hidIndices s.conf.collabs).drop (fails.length + 1))
    hfail (List.length_take_of_le hlen.le).symm hans
  rw [hsplit, offerAt_success _ rfl hwin, State.asked_asked, ← List.take_succ_eq_append_getElem hlen] at hoffer
  refine (descOther_eq_offerAt r s).trans ?_
  rw [hoffer, List.map_append, List.flatten_append, List.map_singleton, List.flatten_singleton]
  rfl

/-- Answers that do nothing but return (R192). -/
theorem runMicros_silentAnswers (ms : List Micro) (hsel : s.sel = 0) (hops : ∀ a ∈ fails, a.ops = []) :
    runMicros ((fails.map answerMicros).flatten ++ ms) s = runMicros ms s := by
  induction fails with
  | nil => rfl
  | cons a fails ih =>
    obtain ⟨ha, hfails⟩ := List.forall_mem_cons.1 hops
    have hmicros : answerMicros a = [.callReturn] := by rw [answerMicros, ha]; rfl
    have hreturn : microStep .callReturn s = .ok s := if_pos hsel
    rw [List.map_cons, List.flatten_cons, hmicros, List.append_assoc, List.singleton_append,
      runMicros_cons_ok hreturn, ih hfails]

theorem runRequest_silentAnswers (res : CtResult) (hsel : s.sel = 0) (hops : ∀ a ∈ fails, a.ops = []) :
    runRequest (fails.map answerMicros).flatten res s = .next (s.answered res) := by
  have hrun := runMicros_silentAnswers [] hsel hops
  rw [List.append_nil] at hrun
  exact runRequest_finished hrun

/-- Behind answers that do nothing, an answer that emits what fits (R179). -/
theorem runRequest_silentThenEmit (res : CtResult) {win : CollabAnswer} {bs : List Byte}
    (hops : ∀ a ∈ fails, a.ops = []) (hwin : win.ops = [.emit bs]) (hfits : EmitFits s bs) :
    runRequest ((fails ++ [win]).map answerMicros).flatten res s = .next ((s.emitted bs).answered res) := by
  have hmicros : answerMicros win = bs.map .emit8 ++ [.callReturn] := by simp [answerMicros, hwin, collabMicros]
  refine runRequest_finished ?_
  rw [List.map_append, List.flatten_append, runMicros_silentAnswers _ hfits.sel hops, List.map_singleton,
    List.flatten_singleton, hmicros, runMicros_emits _ hfits, runMicros_callReturn (t := s.emitted bs) hfits.sel]

end

/-- Settles O38: nobody to ask, a run of failures to the end, or one that a success ends. -/
theorem otherDescriptor : Obligations.OtherDescriptor := by
  refine ⟨fun s r h => exec_getDescriptorOther_noHid r h, ?_, ?_⟩
  · rintro s _ r fails as hfail hlen hans rfl
    have hexec := exec_getDescriptorOther_fails r hfail hlen hans
    exact ⟨hexec, fun hsel hops => hexec.trans (runRequest_silentAnswers _ hsel hops)⟩
  · rintro s _ r fails as win hfail hwin hlen hans rfl
    have hexec := exec_getDescriptorOther_succeeds r hfail hwin hlen hans
    refine ⟨hexec, fun hsel hops hwinOps => hexec.trans (runRequest_silentAnswers _ hsel ?_),
      fun bs hops hwinOps hfits => hexec.trans (runRequest_silentThenEmit _ hops hwinOps ?_)⟩
    · exact List.forall_mem_append.2 ⟨hops, List.forall_mem_singleton.2 hwinOps⟩
    · exact ⟨hfits.sel, hfits.count, hfits.bank⟩

end Sys2Proof.Machine
end

section
/-! PROOFS. The activity pulses (R255, R256, R275): the two timers of a tick as one timer, run `n` times. -/

namespace Sys2Proof.Machine

/-- One tick of one timer and its indicator (R275). -/
def tickTimer (v : Byte × Bool) : Byte × Bool :=
  (if v.1 = 0 then 0 else v.1 - 1, if v.1 = 1 then false else v.2)

def txTimer (s : State) : Byte × Bool := (s.pulse.txp, s.pulse.ledTx)

def rxTimer (s : State) : Byte × Bool := (s.pulse.rxp, s.pulse.ledRx)

/-- A tick runs the transmit timer by itself. -/
theorem txTimer_ticks (n : Nat) (s : State) : txTimer (Nat.iterate tickTimers n s) = Nat.iterate tickTimer n (txTimer s) :=
  Function.Semiconj.iterate_right (f := txTimer) (fun _ => rfl) n s

/-- A tick runs the receive timer by itself. -/
theorem rxTimer_ticks (n : Nat) (s : State) : rxTimer (Nat.iterate tickTimers n s) = Nat.iterate tickTimer n (rxTimer s) :=
  Function.Semiconj.iterate_right (f := rxTimer) (fun _ => rfl) n s

/-- After `n` ticks a running timer has counted `n` down or stopped at 0, and its indicator is on until it stops. -/
theorem tickTimer_iterate {v : Byte × Bool} (hv : v.1 ≠ 0) (n : Nat) :
    (Nat.iterate tickTimer n v).1.toNat = v.1.toNat - n ∧
    ((Nat.iterate tickTimer n v).2 = true ↔ v.2 = true ∧ n < v.1.toNat) := by
  induction n with
  | zero =>
    have hpos : 0 < v.1.toNat := Nat.pos_of_ne_zero fun h => hv (BitVec.eq_of_toNat_eq h)
    exact ⟨rfl, (and_iff_left hpos).symm⟩
  | succ n ih =>
    obtain ⟨htimer, hled⟩ := ih
    rw [Function.iterate_succ_apply']
    generalize Nat.iterate tickTimer n v = w at htimer hled
    have hone : w.1 ≠ 1 ↔ v.1.toNat - n ≠ 1 := by rw [← htimer]; exact not_congr BitVec.toNat_inj.symm
    have hlt := v.1.isLt
    refine ⟨?_, ?_⟩
    · simp only [tickTimer, tickDown_eq, BitVec.toNat_ofNat]
      rw [htimer, Nat.mod_eq_of_lt (by omega), Nat.sub_sub]
    · simp only [tickTimer, tickLed_eq, Bool.and_eq_true, bne_iff_ne, hone, hled, and_assoc]
      exact and_congr_right fun _ => by omega

/-- `n` ticks after a timer was armed (R255, R256). -/
theorem tickTimer_iterate_armed (n : Nat) : (Nat.iterate tickTimer n (100, true)).1.toNat = 100 - n ∧
    ((Nat.iterate tickTimer n (100, true)).2 = true ↔ n < 100) := by
  obtain ⟨htimer, hled⟩ := tickTimer_iterate (v := (100, true)) (by decide) n
  exact ⟨htimer, hled.trans (and_iff_right rfl)⟩

/-- Settles O59: each timer ticks by itself, so arming the one leaves the other's run as it was. -/
theorem pulseDecays : Obligations.PulseDecays := by
  intro s n
  obtain ⟨htimer, hled⟩ := tickTimer_iterate_armed n
  have htx : txTimer (Nat.iterate tickTimers n (armTx s)) = Nat.iterate tickTimer n (100, true) := txTimer_ticks n _
  have hrx : rxTimer (Nat.iterate tickTimers n (armRx s)) = Nat.iterate tickTimer n (100, true) := rxTimer_ticks n _
  have hrxStays : rxTimer (Nat.iterate tickTimers n (armTx s)) = rxTimer (Nat.iterate tickTimers n s) :=
    (rxTimer_ticks n _).trans (rxTimer_ticks n s).symm
  have htxStays : txTimer (Nat.iterate tickTimers n (armRx s)) = txTimer (Nat.iterate tickTimers n s) :=
    (txTimer_ticks n _).trans (txTimer_ticks n s).symm
  exact ⟨(congrArg (·.1.toNat) htx).trans htimer, (iff_of_eq (congrArg (·.2 = true) htx)).trans hled,
    (congrArg (·.1.toNat) hrx).trans htimer, (iff_of_eq (congrArg (·.2 = true) hrx)).trans hled,
    congrArg Prod.fst hrxStays, congrArg Prod.fst htxStays⟩

end Sys2Proof.Machine
end

section
/-! PROOFS. SEND (R242 to R248, R255; log 3): its program points one by one, and the six steps of a payload that fits the
bank. -/

namespace Sys2Proof.Machine

/-! ## The source -/

theorem releaseFlag_flagsOf (rom rel zero : Bool) : releaseFlag (flagsOf rom rel zero) = rel := by
  revert rom rel zero; decide

/-- The bytes of a chunk: ZERO over ROM over `BUF` (R243). -/
theorem srcBytes_flagsOf (rom rel zero : Bool) (ptr : Word16) (s : State) (i n : Nat) :
    srcBytes (flagsOf rom rel zero) ptr s i n = (List.range n).map (fun k =>
      if zero then 0 else if rom then s.conf.rom.read (ptr.toNat + (i + k)) else s.buf.read (ptr.toNat + (i + k))) := by
  simp only [srcBytes, srcByte, zeroFlag_flagsOf, romFlag_flagsOf]

theorem length_srcBytes (flags : BitVec 3) (ptr : Word16) (s : State) (i n : Nat) :
    (srcBytes flags ptr s i n).length = n := by
  rw [srcBytes, List.length_map, List.length_range]

/-! ## What a chunk writes -/

/-- A bank of two with `bs` written behind what it holds, and committed where `c` says so (R150, R247). -/
def Endpoint.filled (p : Endpoint) (bs : List Byte) (c : Prop) [Decidable c] : Endpoint :=
  if c then { p with inQ := p.inQ ++ [p.data ++ bs], data := [], inRdy := decide (p.inQ.length + 1 < 2) }
  else { p with data := p.data ++ bs }

/-- `s` with the chunk `bs` written to `EP[e]`, the bank committed and logged where `c` says so. -/
def State.chunked (s : State) (e : EpIdx) (bs : List Byte) (c : Prop) [Decidable c] : State :=
  { s.setEp e ((s.ep e).filled bs c) with
    ghost := if c then (s.logTx e ((s.ep e).data ++ bs)).ghost else s.ghost }

section
variable {s : State} {e : EpIdx} {bs : List Byte} {c : Prop} [Decidable c]

theorem chunked_committed (h : c) : s.chunked e bs c = (s.setEp e { s.ep e with
    inQ := (s.ep e).inQ ++ [(s.ep e).data ++ bs], data := [],
    inRdy := decide ((s.ep e).inQ.length + 1 < 2) }).logTx e ((s.ep e).data ++ bs) := by
  rw [State.chunked, Endpoint.filled, if_pos h, if_pos h]; rfl

theorem chunked_kept (h : ¬ c) : s.chunked e bs c = s.setEp e { s.ep e with data := (s.ep e).data ++ bs } := by
  rw [State.chunked, Endpoint.filled, if_neg h, if_neg h]; rfl

theorem ep_chunked_same : (s.chunked e bs c).ep e = (s.ep e).filled bs c := State.ep_setEp_same s e _

theorem ep_chunked_ne {f : EpIdx} (h : f ≠ e) : (s.chunked e bs c).ep f = s.ep f := State.ep_setEp_ne s e f _ h

theorem txlogOf_chunked (f : EpIdx) : (s.chunked e bs c).txlogOf f =
    if c ∧ f = e then s.txlogOf e ++ [(s.ep e).data ++ bs] else s.txlogOf f := by
  by_cases h : c
  · simp only [chunked_committed h, State.txlogOf_logTx, State.txlogOf_setEp, and_iff_right h]
  · rw [chunked_kept h, State.txlogOf_setEp, if_neg fun hf => h hf.1]

/-- The critical section of a chunk that fits a sending endpoint's free bank (R244, R247). -/
theorem chunkCrit_fits {last : Bool} (h0 : e ≠ 0) (hen : (s.ep e).en = true) (hk : (s.ep e).kind.sends = true)
    (hrdy : (s.ep e).inRdy = true) (hfits : (s.ep e).data.length + bs.length ≤ 64)
    (hc : c ↔ (s.ep e).data.length + bs.length = 64 ∨ last = true) :
    chunkCrit e bs last s = .ok (s.chunked e bs c) := by
  refine (chunkCrit_eq e bs last s hen (sends_iff.1 hk) hrdy hfits).trans (congrArg MicroOut.ok ?_)
  by_cases h : c
  · rw [chunked_committed h, ← banks_of_ne h0]
    exact (if_pos (hc.1 h)).trans (by rw [committed_eq])
  · rw [chunked_kept h]
    exact if_neg (mt hc.2 h)

end

/-! ## The program points -/

section
variable {s : State}

theorem beStep_sndLoop (hpc : s.be.pc = .sndLoop) :
    beStep s = .next { s with be.pc := if s.be.sndRem = 0 then .sndDone else .sndSpace } := by
  simp only [beStep, hpc, sndLoop]
  split <;> rfl

/-- The free space SND.space finds (R159, R242). -/
theorem freeSpace_eq {p : Endpoint} (h : p.en = false ∨ p.kind.sends = true) :
    p.freeSpace = if p.en ∧ p.inRdy then 64 - p.data.length else 0 := by
  cases hen : p.en with
  | false => rw [freeSpace_off hen]; exact (if_neg fun hon => nomatch hon.1).symm
  | true =>
    have hk : p.kind.sends = true := h.resolve_left (by rw [hen]; decide)
    cases hrdy : p.inRdy with
    | false => rw [freeSpace_zero (.inr ⟨hk, .inl hrdy⟩)]; exact (if_neg fun hon => nomatch hon.2).symm
    | true =>
      rw [if_pos ⟨rfl, rfl⟩]
      by_cases hroom : p.data.length < 64
      · rw [freeSpace_en hen, if_pos]
        rw [rwAllowed_eq hen (ne_control_of_sends hk), hk, hrdy, decide_eq_true hroom]
        rfl
      · rw [freeSpace_zero (.inr ⟨hk, .inr (Nat.not_lt.1 hroom)⟩), Nat.sub_eq_zero_of_le (Nat.not_lt.1 hroom)]

/-- SND.space: no free space, or the chunk and what remains behind it (R244). -/
theorem beStep_sndSpace {free k : Nat} (hpc : s.be.pc = .sndSpace)
    (htype : (s.ep s.be.sndEp).en = false ∨ (s.ep s.be.sndEp).kind.sends = true)
    (hfree : free = if (s.ep s.be.sndEp).en ∧ (s.ep s.be.sndEp).inRdy then 64 - (s.ep s.be.sndEp).data.length else 0)
    (hk : k = min free s.be.sndRem.toNat) :
    (free = 0 → beStep s = .next { s with be.sndN := 0, be.pc := .sndWait }) ∧
    (0 < free → beStep s = .next { s with
      be.sndN := BitVec.ofNat 7 k, be.sndRem := BitVec.ofNat 16 (s.be.sndRem.toNat - k), be.pc := .sndChunk }) := by
  have hnone := nonControlRefusal_none (ty_ne_control (htype.imp_right ne_control_of_sends))
  have hspace : (s.ep s.be.sndEp).freeSpace = free := (freeSpace_eq htype).trans hfree.symm
  have hrem : s.be.sndRem - BitVec.ofNat 16 k = BitVec.ofNat 16 (s.be.sndRem.toNat - k) := by
    have := s.be.sndRem.isLt
    bv_omega
  simp only [beStep, hpc, sndSpace, hnone, spaceCrit_eq, hspace, ← hk, hrem]
  exact ⟨fun h => if_pos h, fun h => if_neg h.ne'⟩

/-- SND.wait with observations left (R245). -/
theorem beStep_sndWait (hpc : s.be.pc = .sndWait) (hleft : 1 < s.be.sndTmo.toNat) :
    beStep s = .next { s with be.sndTmo := s.be.sndTmo - 1, be.pc := .sndLoop } := by
  have hne : s.be.sndTmo - 1 ≠ 0 := by bv_omega
  simp only [beStep, hpc, sndWait, if_neg hne]

/-- SND.chunk: the bytes from the payload's index on, behind what the bank holds (R243, R244, R247). -/
theorem beStep_sndChunk {e : EpIdx} {rom rel zero : Bool} {bytes : List Byte} {c : Prop} [Decidable c]
    (hpc : s.be.pc = .sndChunk) (he : e = s.be.sndEp) (h0 : e ≠ 0) (hflags : s.be.sndFlags = flagsOf rom rel zero)
    (hen : (s.ep e).en = true) (hk : (s.ep e).kind.sends = true) (hrdy : (s.ep e).inRdy = true)
    (hfits : (s.ep e).data.length + s.be.sndN.toNat ≤ 64)
    (hbytes : bytes = srcBytes (flagsOf rom rel zero) s.be.sndPtr s s.be.sndI.toNat s.be.sndN.toNat)
    (hc : c ↔ (s.ep e).data.length + s.be.sndN.toNat = 64 ∨ s.be.sndRem = 0 ∧ rel = true) :
    beStep s = .next { s.chunked e bytes c with
      be.sndI := s.be.sndI + BitVec.ofNat 16 s.be.sndN.toNat, be.pc := .sndArm } := by
  have hlen : bytes.length = s.be.sndN.toNat := by rw [hbytes, length_srcBytes]
  have hcrit : chunkCrit e bytes (decide (s.be.sndRem = 0) && rel) s = .ok (s.chunked e bytes c) := by
    refine chunkCrit_fits h0 hen hk hrdy (by rw [hlen]; exact hfits) ?_
    rw [hlen, Bool.and_eq_true, decide_eq_true_iff]; exact hc
  simp only [beStep, hpc, sndChunk, hflags, releaseFlag_flagsOf, ← hbytes, ← he, hcrit]
  rfl

theorem beStep_sndArm (hpc : s.be.pc = .sndArm) :
    beStep s = .next { s with pulse.txp := 100, pulse.ledTx := true, be.pc := .sndLoop } := by
  simp only [beStep, hpc]; rfl

theorem beStep_sndDone (hpc : s.be.pc = .sndDone) :
    beStep s = .next { s with port.res := s.be.sndTotal, be.pc := .idle, ghost.bulkFail := none } := by
  simp only [beStep, hpc]; rfl

end

/-! ## A payload that fits the bank -/

/-- With the mainline alone a run goes on where the bulk engine's step leads (R91). -/
theorem run_beStep {s t : State} (hstep : beStep s = .next t) (h : MainlineAlone s) (hpc : s.be.pc ≠ .idle) (n : Nat) :
    Host.Core.run Sys2Proof.core (n + 1) s = Host.Core.run Sys2Proof.core n t :=
  run_succ ((step_mainlineAlone h hpc).trans hstep) n

/-- A SEND whose last chunk is written is done three steps later (R244, R248, R255). -/
theorem run_send_armed {s : State} (h : MainlineAlone s) (hpc : s.be.pc = .sndArm) (hrem : s.be.sndRem = 0) :
    Host.Core.run Sys2Proof.core 3 s =
      .next (okResult s.be.sndTotal { s with pulse.txp := 100, pulse.ledTx := true }) :=
  (run_beStep (beStep_sndArm hpc) h (by rw [hpc]; decide) 2).trans (run_send_empty (h.congr rfl rfl) rfl hrem)

/-- The mainline alone serves a SEND at SND.loop whose remaining bytes fit the endpoint's free bank (R244). -/
structure SendFits (s : State) : Prop where
  alone : MainlineAlone s
  point : s.be.pc = .sndLoop
  other : s.be.sndEp ≠ 0
  en : (s.ep s.be.sndEp).en = true
  kind : (s.ep s.be.sndEp).kind.sends = true
  ready : (s.ep s.be.sndEp).inRdy = true
  left : 0 < s.be.sndRem.toNat
  room : (s.ep s.be.sndEp).data.length + s.be.sndRem.toNat ≤ 64

/-- Loop, space and chunk, arm: one chunk with all that remains; then loop and done (R244, R247, R248). -/
theorem SendFits.run {s : State} (h : SendFits s) {rom rel zero : Bool} {bytes : List Byte} {c : Prop} [Decidable c]
    (hflags : s.be.sndFlags = flagsOf rom rel zero)
    (hbytes : bytes = srcBytes (flagsOf rom rel zero) s.be.sndPtr s s.be.sndI.toNat s.be.sndRem.toNat)
    (hc : c ↔ (s.ep s.be.sndEp).data.length + s.be.sndRem.toNat = 64 ∨ rel = true) :
    ∃ b : Be, Host.Core.run Sys2Proof.core 6 s = .next (okResult s.be.sndTotal
      { s.chunked s.be.sndEp bytes c with pulse := { s.pulse with txp := 100, ledTx := true }, be := b }) ∧
      b.sndTmo = s.be.sndTmo := by
  obtain ⟨halone, hpc, h0, hen, hk, hrdy, hleft, hroom⟩ := h
  have hne : s.be.sndRem ≠ 0 := fun hz => by rw [hz] at hleft; exact absurd hleft (by decide)
  have hn : (BitVec.ofNat 7 s.be.sndRem.toNat).toNat = s.be.sndRem.toNat := by rw [BitVec.toNat_ofNat]; omega
  have hmin : s.be.sndRem.toNat = min (64 - (s.ep s.be.sndEp).data.length) s.be.sndRem.toNat := by omega
  have hfree : 0 < 64 - (s.ep s.be.sndEp).data.length := by omega
  have hloop := beStep_sndLoop hpc
  rw [if_neg hne] at hloop
  have hspace := (beStep_sndSpace (s := { s with be.pc := .sndSpace }) rfl (.inr hk) (if_pos ⟨hen, hrdy⟩).symm hmin).2
    hfree
  rw [Nat.sub_self] at hspace
  have hchunk := beStep_sndChunk (bytes := bytes) (c := c) (s := { s with
      be.sndN := BitVec.ofNat 7 s.be.sndRem.toNat, be.sndRem := 0, be.pc := .sndChunk })
    rfl rfl h0 hflags hen hk hrdy (by rw [hn]; exact hroom) (by rw [hn]; exact hbytes)
    (by rw [hn, hc]; exact or_congr Iff.rfl (and_iff_right rfl).symm)
  exact ⟨_, (run_beStep hloop halone (by rw [hpc]; decide) 5).trans <|
    (run_beStep hspace (halone.congr rfl rfl) (show BePoint.sndSpace ≠ .idle by decide) 4).trans <|
    (run_beStep hchunk (halone.congr rfl rfl) (show BePoint.sndChunk ≠ .idle by decide) 3).trans <|
    run_send_armed (halone.congr rfl rfl) rfl rfl, rfl⟩

/-- Settles O52: the six steps of a payload that fits, then each program point by itself. -/
theorem sendOfOneChunk : Obligations.SendOfOneChunk := by
  refine ⟨?_, fun s => beStep_sndLoop, ?_, fun s => beStep_sndWait, ?_, fun s => beStep_sndArm, fun s => beStep_sndDone⟩
  · intro s e rom rel zero ptr len bytes halone hidle hcfg he h0 hrange hen hk hrdy hpos hroom hbytes
    have hmsb : len.msb = false := by rw [BitVec.msb_eq_decide]; exact decide_eq_false (by omega)
    have hin : sendInRange (flagsOf rom rel zero) ptr len s = true := by
      rw [sendInRange_eq, Bool.or_eq_true, inSpace_iff]
      exact hrange.imp_right fun h k hlim => .inr (h k hlim)
    have hindex : (0 : Word16).toNat = 0 := rfl
    have hacc := exec_send_accepted (rom := rom) (rel := rel) (zero := zero) hidle he h0 hmsb
      (txRefusal_none (.inr (.inl hk))) hin hcfg
    obtain ⟨b, hrun, htmo⟩ := SendFits.run (c := (s.ep e).data.length + len.toNat = 64 ∨ rel = true) (bytes := bytes)
      (s := { s with
        port := sendPort s e (flagsOf rom rel zero) ptr len
        be.pc := .sndLoop, be.sndEp := e, be.sndFlags := flagsOf rom rel zero, be.sndPtr := ptr
        be.sndTotal := len, be.sndRem := len, be.sndTmo := Config.sendTimeout, be.sndI := 0 })
      ⟨halone.congr rfl rfl, rfl, h0, hen, hk, hrdy, hpos, hroom⟩ (rom := rom) (rel := rel) (zero := zero) rfl
      (by rw [hbytes, srcBytes_flagsOf]; simp only [hindex, Nat.zero_add]) Iff.rfl
    refine ⟨_, _, hacc, hrun, rfl, rfl, htmo, rfl, rfl, rfl, rfl, rfl, rfl, fun f hf => ⟨ep_chunked_ne hf, ?_⟩, ?_⟩
    · exact (txlogOf_chunked f).trans (if_neg fun h => hf h.2)
    · split
      · rename_i hc
        exact ⟨ep_chunked_same.trans (if_pos hc), (txlogOf_chunked e).trans (if_pos ⟨hc, rfl⟩)⟩
      · rename_i hc
        exact ⟨ep_chunked_same.trans (if_neg hc), (txlogOf_chunked e).trans (if_neg fun h => hc h.1)⟩
  · rintro s e free k hpc rfl htype hfree hmin
    exact beStep_sndSpace hpc htype hfree hmin
  · intro s e rom rel zero bytes hpc he h0 hflags hen hk hrdy hfits hbytes
    rw [beStep_sndChunk hpc he h0 hflags hen hk hrdy hfits (hbytes.trans (srcBytes_flagsOf rom rel zero _ s _ _).symm)
      Iff.rfl]
    by_cases hc : (s.ep e).data.length + s.be.sndN.toNat = 64 ∨ s.be.sndRem = 0 ∧ rel = true
    · rw [if_pos hc, chunked_committed hc]
    · rw [if_neg hc, chunked_kept hc]

end Sys2Proof.Machine
end

section
/-! PROOFS. ATTACH and the attach sequence (R280 to R282; log 32): the command by the power bit it finds, then one rule for
each program point of the sequence. -/

namespace Sys2Proof.Machine
section
variable {s : State}

/-! ## The command -/

/-- A first ATTACH runs A1 (R281). -/
theorem exec_attach_first (hidle : s.mainlineIdle) (hpwr : s.power.pwr = false) :
    exec .attach s = .next { s with port.op := 0, power.pwr := true, power.pc := .a2 } := by
  simp [exec, execAttach, not_busy_of_idle hidle, hpwr]

theorem exec_attach_again (hidle : s.mainlineIdle) (hpwr : s.power.pwr = true) :
    exec .attach s = .refused .attachTwice := by
  simp [exec, execAttach, not_busy_of_idle hidle, hpwr]

/-! ## The program points -/

theorem atStep_a2 (hpc : s.power.pc = .a2) :
    atStep s = { s with power.clkEn := true, power.pllEn := true, power.pc := .a2Wait } := by
  simp only [atStep, hpc]

theorem atStep_a2Wait_unlocked (hpc : s.power.pc = .a2Wait) (hlock : s.power.pllLock = false) : atStep s = s := by
  simp [atStep, hpc, hlock]

theorem atStep_a2Wait_locked (hpc : s.power.pc = .a2Wait) (hlock : s.power.pllLock = true) :
    atStep s = { s with power.pc := .a3 } := by
  simp [atStep, hpc, hlock]

theorem atStep_a3 (hpc : s.power.pc = .a3) :
    atStep s = { s with irq.ienEor := true, irq.ienSof := true, power.pc := .a4 } := by
  simp only [atStep, hpc]

theorem atStep_a4 (hpc : s.power.pc = .a4) : atStep s = { s with power.attachEn := true, power.pc := .a5 } := by
  simp only [atStep, hpc]

theorem atStep_a5 (hpc : s.power.pc = .a5) :
    atStep s = { s with pulse.ledTx := false, pulse.ledRx := false, power.pc := .idle } := by
  simp only [atStep, hpc]

end

/-- Settles O50: the command and the hold by their own rules; with the lock the four points A2.wait, A3, A4 and A5 are
composed. -/
theorem attachSequence : Obligations.AttachSequence := by
  refine ⟨fun s => exec_attach_first, fun s => exec_attach_again, fun s => atStep_a2, fun s => atStep_a2Wait_unlocked, ?_⟩
  intro s hpc hlock
  calc atStep (atStep (atStep (atStep s)))
      = atStep (atStep (atStep { s with power.pc := .a3 })) := by rw [atStep_a2Wait_locked hpc hlock]
    _ = atStep (atStep { s with irq.ienEor := true, irq.ienSof := true, power.pc := .a4 }) :=
      congrArg (fun u => atStep (atStep u)) (atStep_a3 rfl)
    _ = atStep { s with irq.ienEor := true, irq.ienSof := true, power.attachEn := true, power.pc := .a5 } :=
      congrArg atStep (atStep_a4 rfl)
    _ = _ := atStep_a5 rfl

end Sys2Proof.Machine
end

section
/-! PROOFS. Where a handler starts, and what its entry changes (R309, R310, R314, R316, R317). -/

namespace Sys2Proof.Machine

/-- The communication request (R309). -/
theorem commReq_iff {s : State} :
    commReq s = true ↔ s.irq.ienSetup0 = true ∧ (s.ep 0).setup = true ∨ s.irq.spurComm = true := by
  rw [commReq, show s.eps[0] = s.ep 0 from rfl, Bool.or_eq_true, Bool.and_eq_true]

/-- The frame request (R310). -/
theorem frameReq_iff {s : State} : frameReq s = true ↔
    s.irq.ienEor = true ∧ s.irq.pendEor = true ∨ s.irq.ienSof = true ∧ s.irq.pendSof = true := by
  rw [frameReq, Bool.or_eq_true, Bool.and_eq_true, Bool.and_eq_true]

/-- A step that raises `IN_ISR` is the entry of a requested handler: the other agents keep `IN_ISR`, or move inside a
handler only (R314). -/
theorem step_entry_of_inIsr_rises {s t : State} (h : step s = .next t) (hbefore : s.irq.inIsr = false)
    (hafter : t.irq.inIsr = true) :
    s.irq.ie = true ∧ ∃ src io, irqReq src s = true ∧ t = enterHandler src { s with io := io } := by
  have rises : ¬ t.irq.inIsr = s.irq.inIsr := by rw [hbefore, hafter]; decide
  have outside : ¬ s.irq.inIsr = true := Bool.eq_false_iff.1 hbefore
  obtain ⟨rest, hcase⟩ := step_frames h
  cases hcase with
  | entry src n noIsr enabled request eq => exact ⟨enabled, src, _, request, eq⟩
  | control isr free runs move frame => exact absurd isr outside
  | tick isr free other move frame => exact absurd isr outside
  | stays eq | waited _ _ eq | enable _ _ eq | store _ _ _ eq | peek _ _ eq | port _ _ _ _ _ eq =>
    subst eq; exact absurd rfl rises
  | held u more isHeld run frame bounds eq => subst eq; exact absurd (congrArg Irq.inIsr frame.irq) rises
  | bulk noIsr noWait runs move frame => exact absurd (congrArg Irq.inIsr frame.irq) rises
  | attach noIsr noWait other eq => rw [eq, (attachFrame_atStep _).eq] at rises; exact absurd rfl rises
  | env m entry move frame => exact absurd frame.inIsr rises
  | operation i kind free allowed word move frame => exact absurd frame.inIsr rises
  | command i kind noIsr move frame => exact absurd (congrArg Irq.inIsr frame.irq) rises

/-- Settles O21: the step is the entry of a handler, and the entry of each source writes what R316 and R317 name. -/
theorem handlersStartOnlyWhenAllowed : Obligations.HandlersStartOnlyWhenAllowed := by
  intro s t h hbefore hafter
  obtain ⟨enabled, src, io, request, rfl⟩ := step_entry_of_inIsr_rises h hbefore hafter
  cases src with
  | comm => exact ⟨enabled, .inl ⟨commReq_iff.1 request, rfl⟩⟩
  | frame => exact ⟨enabled, .inr ⟨frameReq_iff.1 request, rfl⟩⟩

end Sys2Proof.Machine
end

section
/-! PROOFS. The values of the registers after power-on reset (R341). -/

namespace Sys2Proof.Machine

/-- Power-on reset leaves every transmit log empty (R63, R341). -/
@[simp] theorem txlogOf_resetWith (c : Conf) (e : EpIdx) : (State.resetWith c).txlogOf e = [] := by
  simp [State.txlogOf, State.resetWith]

/-- Settles O8: the registers of the state itself are read off `State.resetWith`, the banks and logs by one lemma each
for all endpoints. -/
theorem resetValues : Obligations.ResetValues := by
  intro c s
  have hendpoints : ∀ e : EpIdx, s.ep e = Endpoint.off ∧ s.txlogOf e = [] := fun e =>
    ⟨ep_resetWith c e, txlogOf_resetWith c e⟩
  exact ⟨rfl, rfl, rfl, rfl, rfl, rfl, rfl, hendpoints, rfl, rfl, rfl, rfl, rfl⟩

end Sys2Proof.Machine
end
